-- ==== Sys2Proof/Word.lean ====
section
/-! DEFINITION. The data widths of the block (spec/00_scope.md R8): a port datum, a FIFO cell and every
register are 8 bits; a port number is 16 bits (spec/20_memory.md R80). -/

namespace Sys2Proof

/-- A port datum, FIFO cell, task-file register or status register (R8). -/
abbrev Byte := BitVec 8

/-- A port number (R80). -/
abbrev PortNo := BitVec 16

end Sys2Proof
end

