-- ==== Sys2Proof/Config.lean ====
section
/-! DEFINITION. The configuration record `Cfg` of spec/00_scope.md R7, fixed at construction, and the one
free value of the model (spec/93_implementation_defined.md U7). The machine carries its `Cfg` in the state
(notes/assumptions/2.md), so that a statement over all states holds of every instance. -/

namespace Sys2Proof

/-- Drive geometry: the four numbers of `d.geo` (spec/10_state.md R42). -/
structure Geometry where
  cylinders : Nat
  heads : Nat
  sectorsPerTrack : Nat
  bytesPerSector : Nat
  deriving DecidableEq, Repr

/-- Which HDC register set the instance has (R7). -/
inductive HdcVariant where
  | none
  | xtc
  | atc
  deriving DecidableEq, Repr

/-- The configuration record of R7. `driveType` and `floppyGeometry` are indexed by unit; the drive-type
table maps a type index to a geometry (spec/45_geometry.md R351). -/
structure Cfg where
  fdcDrives : Nat
  hdcVariant : HdcVariant
  hdcDrives : Nat
  hasRatePort : Bool
  driveType : List Nat
  driveTypeTable : List (Nat × Geometry)
  floppyGeometry : List Geometry
  fdcIrq : Nat
  xtcIrq : Nat
  atcIrq : Nat
  fdcDma : Nat
  xtcDma : Nat
  xtcSwitches : Byte
  hackInitFail : Bool
  hackSuppressResetIrq : Bool
  fifoCapFdc : Nat
  fifoCapXtc : Nat
  deriving DecidableEq, Repr

/-- The row of the drive-type table a fixed drive takes (R351); `none` is a lookup miss. -/
def Cfg.tableGeometry (c : Cfg) (u : Nat) : Option Geometry :=
  match c.driveType[u]? with
  | some t => c.driveTypeTable.lookup t
  | none => none

/-- A geometry row is legal when all four numbers are at least 1 (R351). -/
def Geometry.positive (g : Geometry) : Bool :=
  decide (1 ≤ g.cylinders) && decide (1 ≤ g.heads) && decide (1 ≤ g.sectorsPerTrack) &&
    decide (1 ≤ g.bytesPerSector)

/-- The ranges R7 gives the parameters, FIFO capacities that hold every request and result (spec/30_encoding.md
R127), a geometry for every floppy unit, and table rows and geometries without a 0 (spec/45_geometry.md R351,
spec/10_state.md R42). -/
def Cfg.wf (c : Cfg) : Bool :=
  decide (c.fdcDrives ≤ 4) && decide (c.hdcDrives ≤ 2) && decide (9 ≤ c.fifoCapFdc) &&
    decide (14 ≤ c.fifoCapXtc) && decide (c.fdcDrives ≤ c.floppyGeometry.length) &&
    c.floppyGeometry.all Geometry.positive && c.driveTypeTable.all fun row => row.2.positive

/-- DESIGN CHOICE (notes/assumptions/2.md): the instance `State.reset` is built from: one floppy unit, the
XTC register set with one fixed drive, the rate port, the defaults of R7 for the rest. The geometries are those
of the fixtures of spec/95_test_vectors.md section 0. Only the statement about `State.reset` speaks of these values. -/
def Cfg.default : Cfg where
  fdcDrives := 1
  hdcVariant := .xtc
  hdcDrives := 1
  hasRatePort := true
  driveType := [0]
  driveTypeTable := [(0, ⟨306, 4, 17, 512⟩)]
  floppyGeometry := [⟨40, 2, 9, 512⟩]
  fdcIrq := 6
  xtcIrq := 5
  atcIrq := 14
  fdcDma := 2
  xtcDma := 3
  xtcSwitches := 0x00#8
  hackInitFail := true
  hackSuppressResetIrq := true
  fifoCapFdc := 9
  fifoCapXtc := 14

/-- DESIGN CHOICE (notes/assumptions/6.md): bits 6:0 of the Input register are any value (U7). The constant
has no body: nothing can be proved of the bits it gives. -/
opaque Config.freeInputBits : Nat → BitVec 7

end Sys2Proof
end

