-- ==== Sys2Proof/Syntax.lean ====
section
/-! DEFINITION. The instructions: one constructor per row of spec/opcode_table.json. A command carries every
field of its encoding, ignored bits included (spec/30_encoding.md R121 to R150), so that no bit of a request is
lost; a port access carries its data byte when it writes one. -/

namespace Sys2Proof

/-- The unit/head select byte `US` of an FDC request (R124): bits 7:3 ignored, bit 2 head select, bits 1:0 unit. -/
structure UnitSelect where
  ignored : BitVec 5
  headSelect : BitVec 1
  unit : BitVec 2
  deriving DecidableEq, Repr

/-- Bytes `c1` to `c5` of an XTC command block (R135). -/
structure XtcBlock where
  ignored : BitVec 2
  drive : BitVec 1
  head : BitVec 5
  cylHigh : BitVec 2
  sector : BitVec 6
  cylLow : Byte
  count : Byte
  control : Byte
  deriving DecidableEq, Repr

/-- The parameters of INITIALIZE_DRIVE_CHARACTERISTICS (R137), 16-bit numbers high byte first on the port. -/
structure InitParams where
  maxCylinders : BitVec 16
  heads : Byte
  reducedWriteCylinder : BitVec 16
  precompCylinder : BitVec 16
  eccBurst : Byte
  deriving DecidableEq, Repr

/-- The three noise ports of the XTC (spec/20_memory.md R82). -/
inductive NoisePort where
  | p327
  | p32B
  | p32F
  deriving DecidableEq, Repr

/-- The task-file ports 0x1F1 to 0x1F6 of the ATC (spec/20_memory.md R83). -/
inductive TaskReg where
  | errorWprecomp
  | secCount
  | secNum
  | cylLo
  | cylHi
  | driveHead
  deriving DecidableEq, Repr

/-- The instruction set: 28 command rows and 21 port-access rows of spec/opcode_table.json. In an FDC command
`m` is the three modifier bits 7:5 of the first byte. -/
inductive Instr where
  -- FDC requests (spec/41_fdc_commands.md)
  | fdcSpecify (m : BitVec 3) (t1 t2 : Byte)
  | fdcWriteData (m : BitVec 3) (us : UnitSelect) (c h r n eot gpl dtl : Byte)
  | fdcReadData (m : BitVec 3) (us : UnitSelect) (c h r n eot gpl dtl : Byte)
  | fdcRecalibrate (m : BitVec 3) (us : UnitSelect)
  | fdcSenseInterruptStatus (m : BitVec 3)
  | fdcFormatTrack (m : BitVec 3) (us : UnitSelect) (n sc gpl d : Byte)
  | fdcSeek (m : BitVec 3) (us : UnitSelect) (ncn : Byte)
  | fdcUnknown (m : BitVec 3) (op : BitVec 5)
  -- XTC command blocks (spec/42_hdc_xtc.md)
  | xtcTestReady (b : XtcBlock)
  | xtcRecalibrate (b : XtcBlock)
  | xtcRequestSense (b : XtcBlock)
  | xtcReadData (b : XtcBlock)
  | xtcWriteData (b : XtcBlock)
  | xtcSeek (b : XtcBlock)
  | xtcInitDrive (b : XtcBlock) (p : InitParams)
  | xtcReadBuffer (b : XtcBlock)
  | xtcWriteBuffer (b : XtcBlock)
  | xtcRamDiagnostic (b : XtcBlock)
  | xtcDriveDiagnostic (b : XtcBlock)
  | xtcControllerDiagnostic (b : XtcBlock)
  | xtcUnknown (c0 : Byte) (b : XtcBlock)
  -- ATC command bytes (spec/43_hdc_atc.md)
  | atcRestore (stepRate : BitVec 4)
  | atcReadData (retry : BitVec 1)
  | atcWriteData (retry : BitVec 1)
  | atcSeek (stepRate : BitVec 4)
  | atcDiagnose
  | atcSetParameters
  | atcUnknown (v : Byte)
  -- FDC ports (spec/20_memory.md R81)
  | fdcOutOutput (v : Byte)
  | fdcInMainStatus
  | fdcOutData (v : Byte)
  | fdcInData
  | fdcInInput
  | fdcOutControl (v : Byte)
  -- XTC ports (R82)
  | xtcOutData (v : Byte)
  | xtcInData
  | xtcInStatus
  | xtcOutReset (v : Byte)
  | xtcInConfig
  | xtcOutSelect (v : Byte)
  | xtcOutPattern (v : Byte)
  | xtcOutNoise (p : NoisePort) (v : Byte)
  -- ATC ports (R83); `w` is `none` for a read, the byte for a write
  | atcInData
  | atcOutData (v : Byte)
  | atcTaskfile (reg : TaskReg) (w : Option Byte)
  | atcInStatus
  | atcOutCommand (v : Byte)
  | atcInAltStatus
  | atcOutFdr (v : Byte)
  deriving DecidableEq, Repr

end Sys2Proof
end

