-- ==== Sys2Proof/WellFormed.lean ====
section
/-! DEFINITION. Which terms are instructions: the three unknown rows take only the codes that match no other row
of their encoding (spec/30_encoding.md R130, R140, R150). Every other constructor is well-formed as it stands: its
fields have the widths of the encoding. The tables stand here as lists of codes, apart from the decoder, so that the
decoder is checked against them. -/

namespace Sys2Proof

/-- The seven FDC opcodes of R122. -/
def fdcKnownOps : List (BitVec 5) := [0x03#5, 0x05#5, 0x06#5, 0x07#5, 0x08#5, 0x0D#5, 0x0F#5]

/-- The twelve XTC opcodes of R136. -/
def xtcKnownOps : List Byte :=
  [0x00#8, 0x01#8, 0x03#8, 0x08#8, 0x0A#8, 0x0B#8, 0x0C#8, 0x0E#8, 0x0F#8, 0xE0#8, 0xE3#8, 0xE4#8]

/-- The (match, mask) rows of the ATC table (R146). -/
def atcKnownRows : List (Byte × Byte) :=
  [(0x10#8, 0xF0#8), (0x20#8, 0xFE#8), (0x30#8, 0xFE#8), (0x70#8, 0xF0#8), (0x90#8, 0xFF#8), (0x91#8, 0xFF#8)]

/-- R130, R140, R150: an unknown command carries a code outside its table. -/
def Instr.wf : Instr → Bool
  | .fdcUnknown _ op => !fdcKnownOps.contains op
  | .xtcUnknown c0 _ => !xtcKnownOps.contains c0
  | .atcUnknown v => atcKnownRows.all fun r => v &&& r.2 != r.1
  | .fdcSpecify .. | .fdcWriteData .. | .fdcReadData .. | .fdcRecalibrate .. | .fdcSenseInterruptStatus ..
  | .fdcFormatTrack .. | .fdcSeek .. => true
  | .xtcTestReady .. | .xtcRecalibrate .. | .xtcRequestSense .. | .xtcReadData .. | .xtcWriteData ..
  | .xtcSeek .. | .xtcInitDrive .. | .xtcReadBuffer .. | .xtcWriteBuffer .. | .xtcRamDiagnostic ..
  | .xtcDriveDiagnostic .. | .xtcControllerDiagnostic .. => true
  | .atcRestore .. | .atcReadData .. | .atcWriteData .. | .atcSeek .. | .atcDiagnose | .atcSetParameters => true
  | .fdcOutOutput .. | .fdcInMainStatus | .fdcOutData .. | .fdcInData | .fdcInInput | .fdcOutControl .. => true
  | .xtcOutData .. | .xtcInData | .xtcInStatus | .xtcOutReset .. | .xtcInConfig | .xtcOutSelect ..
  | .xtcOutPattern .. | .xtcOutNoise .. => true
  | .atcInData | .atcOutData .. | .atcTaskfile .. | .atcInStatus | .atcOutCommand .. | .atcInAltStatus
  | .atcOutFdr .. => true

end Sys2Proof
end

