-- ==== Sys2Proof/Decode.lean ====
section
/-! DEFINITION. The decoder of the three command encodings and of the port accesses (spec/30_encoding.md R120 to
R152, spec/20_memory.md R80 to R83), total on any bytes and rejecting by name; after it the encoder, written from the
same tables; last the table words the host asks about. -/

namespace Sys2Proof

/-- Over which lines the host delivers bytes: a port write, a port read, an access wider than a byte, or the bytes of
one controller's command (the macro lines of R156). -/
inductive Space where
  | portOut
  | portIn
  | portWide
  | fdc
  | xtc
  | atc
  deriving DecidableEq, Repr

/-- Why bytes are no instruction. `truncated`: the command has fewer bytes than its length (R152). `unclaimed`: no
handler of the block stands at that port and direction (R80, U13). `wide`: an access wider than a byte (R90, U10). -/
inductive Reject where
  | truncated
  | unclaimed (write : Bool) (port : PortNo)
  | wide
  deriving DecidableEq, Repr

/-! ### Opcode tables -/

/-- The FDC's commands (R122). -/
inductive FdcOp where
  | specify
  | writeData
  | readData
  | recalibrate
  | senseInterruptStatus
  | formatTrack
  | seek
  | unknown
  deriving DecidableEq, Repr

/-- R121, R122: the masked opcode selects the command. -/
def fdcOp (op : BitVec 5) : FdcOp :=
  if op = 0x03#5 then .specify
  else if op = 0x05#5 then .writeData
  else if op = 0x06#5 then .readData
  else if op = 0x07#5 then .recalibrate
  else if op = 0x08#5 then .senseInterruptStatus
  else if op = 0x0D#5 then .formatTrack
  else if op = 0x0F#5 then .seek
  else .unknown

/-- R121: the mask 0x1F. -/
def fdcMaskedOp (b0 : Byte) : BitVec 5 := b0.extractLsb' 0 5

/-- `N` of R122. -/
def FdcOp.reqLen : FdcOp → Nat
  | .specify => 3
  | .writeData => 9
  | .readData => 9
  | .recalibrate => 2
  | .senseInterruptStatus => 1
  | .formatTrack => 6
  | .seek => 3
  | .unknown => 1

/-- `M` of R122. -/
def FdcOp.resLen : FdcOp → Nat
  | .specify => 0
  | .writeData => 7
  | .readData => 7
  | .recalibrate => 0
  | .senseInterruptStatus => 2
  | .formatTrack => 7
  | .seek => 0
  | .unknown => 0

/-- The interrupt-eligible column of R122 (spec/60_exceptions.md R394). -/
def FdcOp.eligible : FdcOp → Bool
  | .specify => false
  | .writeData => true
  | .readData => true
  | .recalibrate => true
  | .senseInterruptStatus => false
  | .formatTrack => true
  | .seek => true
  | .unknown => false

/-- `FdcReqLen(b0 & 0x1F)` of R123. -/
def fdcReqLen (b0 : Byte) : Nat := (fdcOp (fdcMaskedOp b0)).reqLen

/-- The XTC's commands (R136). -/
inductive XtcOp where
  | testReady
  | recalibrate
  | requestSense
  | readData
  | writeData
  | seek
  | initDrive
  | readBuffer
  | writeBuffer
  | ramDiagnostic
  | driveDiagnostic
  | controllerDiagnostic
  | unknown
  deriving DecidableEq, Repr

/-- R136. -/
def xtcOp (c0 : Byte) : XtcOp :=
  if c0 = 0x00#8 then .testReady
  else if c0 = 0x01#8 then .recalibrate
  else if c0 = 0x03#8 then .requestSense
  else if c0 = 0x08#8 then .readData
  else if c0 = 0x0A#8 then .writeData
  else if c0 = 0x0B#8 then .seek
  else if c0 = 0x0C#8 then .initDrive
  else if c0 = 0x0E#8 then .readBuffer
  else if c0 = 0x0F#8 then .writeBuffer
  else if c0 = 0xE0#8 then .ramDiagnostic
  else if c0 = 0xE3#8 then .driveDiagnostic
  else if c0 = 0xE4#8 then .controllerDiagnostic
  else .unknown

/-- `XtcReqLen` of R136. -/
def xtcReqLen (c0 : Byte) : Nat := if c0 = 0x0C#8 then 14 else 6

/-- The ATC's commands (R146). -/
inductive AtcOp where
  | restore
  | readData
  | writeData
  | seek
  | diagnose
  | setParameters
  | unknown
  deriving DecidableEq, Repr

/-- R146: `v & mask = match`. -/
def atcOp (v : Byte) : AtcOp :=
  if v &&& 0xF0#8 = 0x10#8 then .restore
  else if v &&& 0xFE#8 = 0x20#8 then .readData
  else if v &&& 0xFE#8 = 0x30#8 then .writeData
  else if v &&& 0xF0#8 = 0x70#8 then .seek
  else if v = 0x90#8 then .diagnose
  else if v = 0x91#8 then .setParameters
  else .unknown

/-! ### Fields -/

/-- The unit/head select byte (R124). -/
def decodeUnitSelect (b : Byte) : UnitSelect where
  ignored := b.extractLsb' 3 5
  headSelect := b.extractLsb' 2 1
  unit := b.extractLsb' 0 2

/-- Bytes `c1` to `c5` (R135). -/
def decodeXtcBlock (c1 c2 c3 c4 c5 : Byte) : XtcBlock where
  ignored := c1.extractLsb' 6 2
  drive := c1.extractLsb' 5 1
  head := c1.extractLsb' 0 5
  cylHigh := c2.extractLsb' 6 2
  sector := c2.extractLsb' 0 6
  cylLow := c3
  count := c4
  control := c5

/-- Bytes `p0` to `p7` (R137). -/
def decodeInitParams (p0 p1 p2 p3 p4 p5 p6 p7 : Byte) : InitParams where
  maxCylinders := p0 ++ p1
  heads := p2
  reducedWriteCylinder := p3 ++ p4
  precompCylinder := p5 ++ p6
  eccBurst := p7

/-! ### The decoder -/

/-- An FDC request (R124). -/
def decodeFdc : List Byte → Except Reject (Instr × List Byte)
  | [] => .error .truncated
  | b0 :: rest =>
    let m : BitVec 3 := b0.extractLsb' 5 3
    match fdcOp (fdcMaskedOp b0), rest with
    | .specify, t1 :: t2 :: r => .ok (.fdcSpecify m t1 t2, r)
    | .writeData, us :: c :: h :: rr :: n :: eot :: gpl :: dtl :: r =>
      .ok (.fdcWriteData m (decodeUnitSelect us) c h rr n eot gpl dtl, r)
    | .readData, us :: c :: h :: rr :: n :: eot :: gpl :: dtl :: r =>
      .ok (.fdcReadData m (decodeUnitSelect us) c h rr n eot gpl dtl, r)
    | .recalibrate, us :: r => .ok (.fdcRecalibrate m (decodeUnitSelect us), r)
    | .senseInterruptStatus, r => .ok (.fdcSenseInterruptStatus m, r)
    | .formatTrack, us :: n :: sc :: gpl :: d :: r =>
      .ok (.fdcFormatTrack m (decodeUnitSelect us) n sc gpl d, r)
    | .seek, us :: ncn :: r => .ok (.fdcSeek m (decodeUnitSelect us) ncn, r)
    | .unknown, r => .ok (.fdcUnknown m (fdcMaskedOp b0), r)
    | _, _ => .error .truncated

/-- An XTC command block (R135, R136, R137). -/
def decodeXtc : List Byte → Except Reject (Instr × List Byte)
  | c0 :: c1 :: c2 :: c3 :: c4 :: c5 :: rest =>
    let b := decodeXtcBlock c1 c2 c3 c4 c5
    match xtcOp c0 with
    | .testReady => .ok (.xtcTestReady b, rest)
    | .recalibrate => .ok (.xtcRecalibrate b, rest)
    | .requestSense => .ok (.xtcRequestSense b, rest)
    | .readData => .ok (.xtcReadData b, rest)
    | .writeData => .ok (.xtcWriteData b, rest)
    | .seek => .ok (.xtcSeek b, rest)
    | .initDrive =>
      match rest with
      | p0 :: p1 :: p2 :: p3 :: p4 :: p5 :: p6 :: p7 :: r =>
        .ok (.xtcInitDrive b (decodeInitParams p0 p1 p2 p3 p4 p5 p6 p7), r)
      | _ => .error .truncated
    | .readBuffer => .ok (.xtcReadBuffer b, rest)
    | .writeBuffer => .ok (.xtcWriteBuffer b, rest)
    | .ramDiagnostic => .ok (.xtcRamDiagnostic b, rest)
    | .driveDiagnostic => .ok (.xtcDriveDiagnostic b, rest)
    | .controllerDiagnostic => .ok (.xtcControllerDiagnostic b, rest)
    | .unknown => .ok (.xtcUnknown c0 b, rest)
  | _ => .error .truncated

/-- An ATC command byte (R146). -/
def decodeAtc : List Byte → Except Reject (Instr × List Byte)
  | [] => .error .truncated
  | v :: rest =>
    match atcOp v with
    | .restore => .ok (.atcRestore (v.extractLsb' 0 4), rest)
    | .readData => .ok (.atcReadData (v.extractLsb' 0 1), rest)
    | .writeData => .ok (.atcWriteData (v.extractLsb' 0 1), rest)
    | .seek => .ok (.atcSeek (v.extractLsb' 0 4), rest)
    | .diagnose => .ok (.atcDiagnose, rest)
    | .setParameters => .ok (.atcSetParameters, rest)
    | .unknown => .ok (.atcUnknown v, rest)

/-- The handlers for writes (R81, R82, R83). -/
def decodeOutPort (p : PortNo) (v : Byte) : Except Reject Instr :=
  if p = 0x3F2#16 then .ok (.fdcOutOutput v)
  else if p = 0x3F5#16 then .ok (.fdcOutData v)
  else if p = 0x3F7#16 then .ok (.fdcOutControl v)
  else if p = 0x320#16 then .ok (.xtcOutData v)
  else if p = 0x321#16 then .ok (.xtcOutReset v)
  else if p = 0x322#16 then .ok (.xtcOutSelect v)
  else if p = 0x323#16 then .ok (.xtcOutPattern v)
  else if p = 0x327#16 then .ok (.xtcOutNoise .p327 v)
  else if p = 0x32B#16 then .ok (.xtcOutNoise .p32B v)
  else if p = 0x32F#16 then .ok (.xtcOutNoise .p32F v)
  else if p = 0x1F0#16 then .ok (.atcOutData v)
  else if p = 0x1F1#16 then .ok (.atcTaskfile .errorWprecomp (some v))
  else if p = 0x1F2#16 then .ok (.atcTaskfile .secCount (some v))
  else if p = 0x1F3#16 then .ok (.atcTaskfile .secNum (some v))
  else if p = 0x1F4#16 then .ok (.atcTaskfile .cylLo (some v))
  else if p = 0x1F5#16 then .ok (.atcTaskfile .cylHi (some v))
  else if p = 0x1F6#16 then .ok (.atcTaskfile .driveHead (some v))
  else if p = 0x1F7#16 then .ok (.atcOutCommand v)
  else if p = 0x3F6#16 then .ok (.atcOutFdr v)
  else .error (.unclaimed true p)

/-- The handlers for reads (R81, R82, R83). -/
def decodeInPort (p : PortNo) : Except Reject Instr :=
  if p = 0x3F4#16 then .ok .fdcInMainStatus
  else if p = 0x3F5#16 then .ok .fdcInData
  else if p = 0x3F7#16 then .ok .fdcInInput
  else if p = 0x320#16 then .ok .xtcInData
  else if p = 0x321#16 then .ok .xtcInStatus
  else if p = 0x322#16 then .ok .xtcInConfig
  else if p = 0x1F0#16 then .ok .atcInData
  else if p = 0x1F1#16 then .ok (.atcTaskfile .errorWprecomp none)
  else if p = 0x1F2#16 then .ok (.atcTaskfile .secCount none)
  else if p = 0x1F3#16 then .ok (.atcTaskfile .secNum none)
  else if p = 0x1F4#16 then .ok (.atcTaskfile .cylLo none)
  else if p = 0x1F5#16 then .ok (.atcTaskfile .cylHi none)
  else if p = 0x1F6#16 then .ok (.atcTaskfile .driveHead none)
  else if p = 0x1F7#16 then .ok .atcInStatus
  else if p = 0x3F6#16 then .ok .atcInAltStatus
  else .error (.unclaimed false p)

/-- A port write: the port number, low byte first, then the datum (R80, R90). -/
def decodePortOut : List Byte → Except Reject (Instr × List Byte)
  | lo :: hi :: v :: rest =>
    match decodeOutPort (hi ++ lo) v with
    | .ok i => .ok (i, rest)
    | .error r => .error r
  | _ => .error .truncated

/-- A port read: the port number, low byte first. -/
def decodePortIn : List Byte → Except Reject (Instr × List Byte)
  | lo :: hi :: rest =>
    match decodeInPort (hi ++ lo) with
    | .ok i => .ok (i, rest)
    | .error r => .error r
  | _ => .error .truncated

/-- The decoder: the instruction at the head of the bytes, and the bytes after it. -/
def decode : Space → List Byte → Except Reject (Instr × List Byte)
  | .portOut, bs => decodePortOut bs
  | .portIn, bs => decodePortIn bs
  | .portWide, _ => .error .wide
  | .fdc, bs => decodeFdc bs
  | .xtc, bs => decodeXtc bs
  | .atc, bs => decodeAtc bs

/-! ### The encoder -/

/-- The first byte of an FDC request (R121). -/
def encodeFdcFirst (m : BitVec 3) (op : BitVec 5) : Byte := m ++ op

/-- R124. -/
def encodeUnitSelect (us : UnitSelect) : Byte := us.ignored ++ us.headSelect ++ us.unit

/-- R135. -/
def encodeXtcBlock (c0 : Byte) (b : XtcBlock) : List Byte :=
  [c0, b.ignored ++ b.drive ++ b.head, b.cylHigh ++ b.sector, b.cylLow, b.count, b.control]

/-- The high byte of a 16-bit number. -/
def highByte (w : BitVec 16) : Byte := w.extractLsb' 8 8

/-- The low byte of a 16-bit number. -/
def lowByte (w : BitVec 16) : Byte := w.extractLsb' 0 8

/-- R137. -/
def encodeInitParams (p : InitParams) : List Byte :=
  [highByte p.maxCylinders, lowByte p.maxCylinders, p.heads, highByte p.reducedWriteCylinder,
    lowByte p.reducedWriteCylinder, highByte p.precompCylinder, lowByte p.precompCylinder, p.eccBurst]

/-- A port write's bytes. -/
def encodeOut (p : PortNo) (v : Byte) : List Byte := [lowByte p, highByte p, v]

/-- A port read's bytes. -/
def encodeIn (p : PortNo) : List Byte := [lowByte p, highByte p]

/-- R82. -/
def NoisePort.number : NoisePort → PortNo
  | .p327 => 0x327#16
  | .p32B => 0x32B#16
  | .p32F => 0x32F#16

/-- R83. -/
def TaskReg.port : TaskReg → PortNo
  | .errorWprecomp => 0x1F1#16
  | .secCount => 0x1F2#16
  | .secNum => 0x1F3#16
  | .cylLo => 0x1F4#16
  | .cylHi => 0x1F5#16
  | .driveHead => 0x1F6#16

/-- The bytes of an instruction, in the order they are written. -/
def Instr.bytes : Instr → List Byte
  | .fdcSpecify m t1 t2 => [encodeFdcFirst m 0x03#5, t1, t2]
  | .fdcWriteData m us c h r n eot gpl dtl =>
    [encodeFdcFirst m 0x05#5, encodeUnitSelect us, c, h, r, n, eot, gpl, dtl]
  | .fdcReadData m us c h r n eot gpl dtl =>
    [encodeFdcFirst m 0x06#5, encodeUnitSelect us, c, h, r, n, eot, gpl, dtl]
  | .fdcRecalibrate m us => [encodeFdcFirst m 0x07#5, encodeUnitSelect us]
  | .fdcSenseInterruptStatus m => [encodeFdcFirst m 0x08#5]
  | .fdcFormatTrack m us n sc gpl d => [encodeFdcFirst m 0x0D#5, encodeUnitSelect us, n, sc, gpl, d]
  | .fdcSeek m us ncn => [encodeFdcFirst m 0x0F#5, encodeUnitSelect us, ncn]
  | .fdcUnknown m op => [encodeFdcFirst m op]
  | .xtcTestReady b => encodeXtcBlock 0x00#8 b
  | .xtcRecalibrate b => encodeXtcBlock 0x01#8 b
  | .xtcRequestSense b => encodeXtcBlock 0x03#8 b
  | .xtcReadData b => encodeXtcBlock 0x08#8 b
  | .xtcWriteData b => encodeXtcBlock 0x0A#8 b
  | .xtcSeek b => encodeXtcBlock 0x0B#8 b
  | .xtcInitDrive b p => encodeXtcBlock 0x0C#8 b ++ encodeInitParams p
  | .xtcReadBuffer b => encodeXtcBlock 0x0E#8 b
  | .xtcWriteBuffer b => encodeXtcBlock 0x0F#8 b
  | .xtcRamDiagnostic b => encodeXtcBlock 0xE0#8 b
  | .xtcDriveDiagnostic b => encodeXtcBlock 0xE3#8 b
  | .xtcControllerDiagnostic b => encodeXtcBlock 0xE4#8 b
  | .xtcUnknown c0 b => encodeXtcBlock c0 b
  | .atcRestore rate => [0x1#4 ++ rate]
  | .atcReadData retry => [0x10#7 ++ retry]
  | .atcWriteData retry => [0x18#7 ++ retry]
  | .atcSeek rate => [0x7#4 ++ rate]
  | .atcDiagnose => [0x90#8]
  | .atcSetParameters => [0x91#8]
  | .atcUnknown v => [v]
  | .fdcOutOutput v => encodeOut 0x3F2#16 v
  | .fdcInMainStatus => encodeIn 0x3F4#16
  | .fdcOutData v => encodeOut 0x3F5#16 v
  | .fdcInData => encodeIn 0x3F5#16
  | .fdcInInput => encodeIn 0x3F7#16
  | .fdcOutControl v => encodeOut 0x3F7#16 v
  | .xtcOutData v => encodeOut 0x320#16 v
  | .xtcInData => encodeIn 0x320#16
  | .xtcInStatus => encodeIn 0x321#16
  | .xtcOutReset v => encodeOut 0x321#16 v
  | .xtcInConfig => encodeIn 0x322#16
  | .xtcOutSelect v => encodeOut 0x322#16 v
  | .xtcOutPattern v => encodeOut 0x323#16 v
  | .xtcOutNoise p v => encodeOut p.number v
  | .atcInData => encodeIn 0x1F0#16
  | .atcOutData v => encodeOut 0x1F0#16 v
  | .atcTaskfile reg none => encodeIn reg.port
  | .atcTaskfile reg (some v) => encodeOut reg.port v
  | .atcInStatus => encodeIn 0x1F7#16
  | .atcOutCommand v => encodeOut 0x1F7#16 v
  | .atcInAltStatus => encodeIn 0x3F6#16
  | .atcOutFdr v => encodeOut 0x3F6#16 v

/-- Over which lines an instruction's bytes travel. -/
def Instr.space : Instr → Space
  | .fdcSpecify .. | .fdcWriteData .. | .fdcReadData .. | .fdcRecalibrate .. | .fdcSenseInterruptStatus ..
  | .fdcFormatTrack .. | .fdcSeek .. | .fdcUnknown .. => .fdc
  | .xtcTestReady .. | .xtcRecalibrate .. | .xtcRequestSense .. | .xtcReadData .. | .xtcWriteData ..
  | .xtcSeek .. | .xtcInitDrive .. | .xtcReadBuffer .. | .xtcWriteBuffer .. | .xtcRamDiagnostic ..
  | .xtcDriveDiagnostic .. | .xtcControllerDiagnostic .. | .xtcUnknown .. => .xtc
  | .atcRestore .. | .atcReadData .. | .atcWriteData .. | .atcSeek .. | .atcDiagnose | .atcSetParameters
  | .atcUnknown .. => .atc
  | .fdcOutOutput .. | .fdcOutData .. | .fdcOutControl .. | .xtcOutData .. | .xtcOutReset .. | .xtcOutSelect ..
  | .xtcOutPattern .. | .xtcOutNoise .. | .atcOutData .. | .atcTaskfile _ (some _) | .atcOutCommand ..
  | .atcOutFdr .. => .portOut
  | .fdcInMainStatus | .fdcInData | .fdcInInput | .xtcInData | .xtcInStatus | .xtcInConfig | .atcInData
  | .atcTaskfile _ none | .atcInStatus | .atcInAltStatus => .portIn

/-- The encoder: the lines and the bytes of an instruction. -/
def encode (i : Instr) : Space × List Byte := (i.space, i.bytes)

/-! ### The words of spec/opcode_table.json -/

/-- Byte `k` of a table word. -/
def wordByte (w k : Nat) : Byte := BitVec.ofNat 8 (w >>> (8 * k))

/-- The bytes of a table word, the first at bits 7:0, up to the longest instruction (14 bytes, R136); bits above
`nbits` are 0. -/
def tableBytes (nbits w : Nat) : List Byte :=
  (List.range 14).map (wordByte (w % 2 ^ nbits))

/-- DESIGN CHOICE (notes/assumptions/8.md): a table word does not say over which lines it travels. A claimed port
number is a write where a write handler stands at that port, else a read; a shorter word is the FDC's when its byte is
an FDC row without modifier bits, else the XTC's, else the ATC's, when it is a named row there, else the FDC's. -/
def tableSpace (bs : List Byte) : Space :=
  match decodePortOut bs, decodePortIn bs with
  | .ok _, _ => .portOut
  | .error _, .ok _ => .portIn
  | .error _, .error _ =>
    let b0 := bs.headD 0#8
    if fdcOp (fdcMaskedOp b0) ≠ .unknown ∧ b0.extractLsb' 5 3 = 0#3 then .fdc
    else if xtcOp b0 ≠ .unknown then .xtc
    else if atcOp b0 ≠ .unknown then .atc
    else .fdc

/-- The instruction the decoder reads from a table word. -/
def decodeTableWord (nbits w : Nat) : Option Instr :=
  match decode (tableSpace (tableBytes nbits w)) (tableBytes nbits w) with
  | .ok (i, _) => some i
  | .error _ => none

end Sys2Proof
end

