-- ==== Sys2Proof/Machine/State.lean ====
section
/-! DEFINITION. The state of the block as plain data: everything spec/10_state.md gives the machine, the external
collaborators a step has to consult (the disk images, the chipset's mask), and the model's own fields (the agents'
steps still to come, the answer of the last step, the diagnostic events, the free-value counter). -/

namespace Sys2Proof.Machine

/-! ### Register-set parts -/

/-- `fdc.phase`, `xtc.phase` (R25, R51). -/
inductive Phase where
  | command
  | execution
  | result
  deriving DecidableEq, Repr

/-- The command/result FIFO (R26). -/
structure Fifo where
  buffer : List Byte
  writeIndex : Nat
  readIndex : Nat
  totalExpected : Nat
  deriving DecidableEq, Repr

/-- The error classes and `None` (R43, spec/60_exceptions.md R380). -/
inductive Err where
  | none
  | notReady
  | noSectorFound
  | writeFault
  | crcError
  | commandAborted
  | incomplete
  deriving DecidableEq, Repr

/-- The FDC Register Set without its Drives (R21 to R29). -/
structure Fdc where
  out : Byte
  rate : Byte
  phase : Phase
  fifo : Fifo
  irq : Bool
  lastUnit : BitVec 2
  endStatus : Byte
  deriving DecidableEq, Repr

/-- The XTC Register Set without its Drives (R50 to R58). -/
structure Xtc where
  phase : Phase
  fifo : Fifo
  pattern : Byte
  selected : Bool
  irq : Bool
  allowInitFail : Bool
  sectorBuffer : List Byte
  bufIndex : Nat
  initParams0 : InitParams
  initParams1 : InitParams
  deriving DecidableEq, Repr

/-- `atc.phase` (R64): the ATC has no Result Phase of FIFO bytes. -/
inductive AtcPhase where
  | command
  | execution
  deriving DecidableEq, Repr

/-- `atc.dir` (R64). -/
inductive AtcDir where
  | none
  | read
  | write
  deriving DecidableEq, Repr

/-- The ATC Register Set without its Drives (R60 to R66). -/
structure Atc where
  error : Byte
  wprecomp : Byte
  secCount : Byte
  secNum : Byte
  cylLo : Byte
  cylHi : Byte
  driveHead : Byte
  status : Byte
  command : Byte
  fdr : Byte
  irq : Bool
  phase : AtcPhase
  dir : AtcDir
  fifo : Fifo
  deriving DecidableEq, Repr

/-! ### Drives -/

/-- `d.pos` (R41): natural numbers without an upper bound (spec/00_scope.md R8). -/
structure Pos where
  cylinder : Nat
  head : Nat
  sector : Nat
  deriving DecidableEq, Repr

/-- The three numbers a sector is looked up by, in the image's numbering (spec/45_geometry.md R360). -/
structure SectorId where
  cyl : Nat
  head : Nat
  sec : Nat
  deriving DecidableEq, Repr

/-- A sector handle (R360): the image and the sector, so that two sectors never share one (R363 (d)). -/
structure Handle where
  image : Nat
  id : SectorId
  deriving DecidableEq, Repr

/-- The sector cursor `d.cur` (R44). -/
structure Cursor where
  activeSector : Option Handle
  byteOffset : Nat
  bytesRemaining : Nat
  pending : Bool
  deriving DecidableEq, Repr

/-- The format record `d.fmt` (R47). -/
structure Fmt where
  idBuf : List Byte
  idCount : Nat
  filler : Byte
  sectorsFormatted : Nat
  deriving DecidableEq, Repr

/-- A Drive (R40). `disk` names an image of the store. -/
structure Drive where
  pos : Pos
  geo : Geometry
  errorCode : Err
  senseCode : Err
  cur : Cursor
  disk : Option Nat
  sectorEnd : Byte
  fmt : Fmt
  diskChanged : Bool
  deriving DecidableEq, Repr

/-- Names a Drive: `fdc.drive[u]` or `hdc.drive[u]`. -/
inductive DriveRef where
  | floppy (u : Nat)
  | fixed (u : Nat)
  deriving DecidableEq, Repr

/-! ### DMA Bridge -/

/-- The controllers that use the bridge; also the session handle (spec/44_dma_bridge.md R320). -/
inductive Chan where
  | fdc
  | xtc
  deriving DecidableEq, Repr

/-- The controllers that have a request line (R74). -/
inductive Ctl where
  | fdc
  | xtc
  | atc
  deriving DecidableEq, Repr

/-- The direction of a session (R72). -/
inductive Direction where
  | read
  | write
  | buffer
  | format
  deriving DecidableEq, Repr

/-- A DMA Session (R72); `drive` is a unit of the controller that opened it. -/
structure Session where
  drive : Option Nat
  direction : Direction
  toMemory : Bool
  engaged : Bool
  deriving DecidableEq, Repr

/-- The bridge's state (R72, R73). -/
structure Dma where
  fdc : Option Session
  xtc : Option Session
  fdcConnected : Bool
  xtcConnected : Bool
  deriving DecidableEq, Repr

/-! ### External collaborators -/

/-- The bytes of the disk-image sector space (spec/20_memory.md R86): address and byte, in one canonical form
(`Memory.wf`). -/
abbrev Memory := List Host.Cell

/-- A sector that departs from its image's regular layout: of another length, or (`len = none`) absent. -/
structure OddSector where
  id : SectorId
  len : Option Nat
  deriving DecidableEq, Repr

/-- A disk image as far as the block can see it (R360): its geometry (R446), whether it may be written, whether it
is preloaded (then it answers at once and never fails, R361, R364), and the sectors that depart from the regular
layout of the geometry. -/
structure Image where
  geo : Geometry
  writable : Bool
  preloaded : Bool
  odd : List OddSector
  deriving DecidableEq, Repr

/-- The choices of the images that are not preloaded, in the order they are asked: whether a lookup is answered
`pending`, whether a read or write fails. An empty list answers at once and does not fail (DESIGN CHOICE,
notes/assumptions/5.md). -/
structure Oracle where
  pend : List Bool
  fail : List Bool
  deriving DecidableEq, Repr

/-- The disk images behind the Disk Image Port. -/
structure Store where
  images : List Image
  cells : Memory
  oracle : Oracle
  deriving DecidableEq, Repr

/-! ### The agents' steps -/

/-- The copy `SAVE` returns (spec/70_reset_and_hazards.md R445): every field of the register sets, every Drive,
the sessions. -/
structure Saved where
  fdc : Fdc
  xtc : Xtc
  atc : Atc
  floppy : List Drive
  fixed : List Drive
  dma : Dma
  deriving DecidableEq, Repr

/-- What a step returns to its caller (spec/30_encoding.md R155): nothing, the byte of a port read or a pull, the
other answers of a pull or push, the verdict of a notification, the copy of a `SAVE`. -/
inductive Answer where
  | none
  | byte (v : Byte)
  | eof
  | pending
  | accepted
  | error
  | go
  | skip
  | saved (s : Saved)
  deriving DecidableEq, Repr

/-- The steps of R155 that are no instruction of the opcode table. -/
inductive AgentStep where
  | dmaEngage (c : Chan) (yes : Bool)
  | dmaPull (c : Chan)
  | dmaPush (c : Chan) (b : Byte)
  | dmaClose (c : Chan) (completed : Bool)
  | resolve (d : DriveRef)
  | notify (vec a l : Byte)
  | mask (n : Nat)
  | unmask (n : Nat)
  | mount (d : DriveRef) (img : Nat)
  | unmount (d : DriveRef)
  | powerUp
  | mreset
  | save
  | restore (s : Saved)
  deriving DecidableEq, Repr

/-- One entry of the trace (R155): the host delivers the bytes of instructions over the given lines, or an agent takes
another step. -/
inductive Event where
  | host (sp : Space) (bytes : List Byte)
  | agent (a : AgentStep)
  deriving DecidableEq, Repr

/-- A diagnostic event (spec/60_exceptions.md R415): who raised it and the byte or drive it names. -/
inductive Diag where
  | fdcUnsupported (b : Byte)
  | xtcUnsupported (b : Byte)
  | atcUnsupported (b : Byte)
  | geometryMismatch (u : Nat)
  deriving DecidableEq, Repr

/-! ### The state -/

/-- The machine. `cfg` never changes; `floppy` and `fixed` are `fdc.drive[]` and `hdc.drive[]`; `xtc` and `atc` are
both carried, the one that exists is the one `cfg.hdcVariant` names (notes/assumptions/3.md). -/
structure State where
  cfg : Cfg
  fdc : Fdc
  xtc : Xtc
  atc : Atc
  floppy : List Drive
  fixed : List Drive
  dma : Dma
  store : Store
  masked : List Nat
  input : List Event
  answer : Answer
  diag : List Diag
  drawn : Nat
  deriving DecidableEq, Repr

/-! ### Stops -/

/-- The accesses spec/93_implementation_defined.md part 1 calls `fault`. -/
inductive Violation where
  /-- U1: a Data-port write in Execution or Result Phase. -/
  | dataWritePhase
  /-- U2: a Data-port read in Command or Execution Phase. -/
  | dataReadPhase
  /-- U3: a read of 0x3F5 while the FDC is disabled. -/
  | dataReadDisabled
  /-- U4: the ATC accesses of R298. -/
  | atcAccess
  deriving DecidableEq, Repr

/-- The machine stops with a fault. -/
inductive Fault where
  /-- Raised by a host access the spec gives no behaviour (R388); the port handlers raise it. Safe: the spec's own
  treatment, and no state after it is claimed. -/
  | protocolViolation (v : Violation)
  deriving DecidableEq, Repr

/-- The machine has no such step. -/
inductive Refusal where
  /-- An instruction without a meaning yet; raised only by an arm of `exec`. Safe. -/
  | notModelled (mnemonic : String)
  /-- Bytes that are no instruction; raised by `step`. Safe: such an access is not in the input alphabet. -/
  | undecoded (r : Reject)
  /-- A port that this instance does not claim (R80, U13); raised by the port handlers. Safe. -/
  | portNotClaimed
  /-- A step of an agent that is not enabled (R321, R364, R446, U9); raised by `step`. Safe. -/
  | stepNotEnabled
  deriving DecidableEq, Repr

/-- The outcome of a step of this machine. -/
abbrev Out := Host.Outcome State Fault Refusal

/-! ### Reset -/

/-- A FIFO with `cap` zeroed cells and all counters 0 (R26). -/
def Fifo.empty (cap : Nat) : Fifo := ⟨List.replicate cap 0#8, 0, 0, 0⟩

/-- `{none, 0, 0, false}` (R44). -/
def Cursor.empty : Cursor := ⟨none, 0, 0, false⟩

/-- `d.fmt` all zero (R47). -/
def Fmt.empty : Fmt := ⟨[0#8, 0#8, 0#8, 0#8], 0, 0#8, 0⟩

/-- A Drive right after power-up (R78): at the first sector of cylinder 0, no error, the cursor empty. -/
def Drive.fresh (bias : Nat) (geo : Geometry) (disk : Option Nat) : Drive where
  pos := ⟨0, 0, bias⟩
  geo := geo
  errorCode := .none
  senseCode := .none
  cur := .empty
  disk := disk
  sectorEnd := 0x00#8
  fmt := .empty
  diskChanged := false

/-- The first sector number of a fixed drive's track (spec/45_geometry.md R352): XTC 0, ATC 1. -/
def fixedBias : HdcVariant → Nat
  | .xtc => 0
  | .atc => 1
  | .none => 1

/-- The FDC Register Set of R78. -/
def Fdc.initial (c : Cfg) : Fdc where
  out := 0x00#8
  rate := 0x00#8
  phase := .command
  fifo := .empty c.fifoCapFdc
  irq := false
  lastUnit := 0#2
  endStatus := 0xC0#8

/-- All five parameters 0 (R58). -/
def initParamsZero : InitParams := ⟨0#16, 0#8, 0#16, 0#16, 0#8⟩

/-- The XTC Register Set of R78. -/
def Xtc.initial (c : Cfg) : Xtc where
  phase := .command
  fifo := .empty c.fifoCapXtc
  pattern := 0x00#8
  selected := false
  irq := false
  allowInitFail := false
  sectorBuffer := List.replicate 512 0x00#8
  bufIndex := 0
  initParams0 := initParamsZero
  initParams1 := initParamsZero

/-- The ATC Register Set of R78. -/
def Atc.initial (c : Cfg) : Atc where
  error := 0x00#8
  wprecomp := 0x00#8
  secCount := 0x00#8
  secNum := 0x00#8
  cylLo := 0x00#8
  cylHi := 0x00#8
  driveHead := 0x00#8
  status := if 1 ≤ c.hdcDrives then 0x50#8 else 0x00#8
  command := 0x00#8
  fdr := 0x00#8
  irq := false
  phase := .command
  dir := .none
  fifo := .empty 0

/-- The geometry of the image in a floppy unit, else `Cfg.floppyGeometry[u]` (spec/70_reset_and_hazards.md R440). -/
def floppyStartGeometry (c : Cfg) (images : List Image) (disk : Option Nat) (u : Nat) : Option Geometry :=
  match disk.bind (images[·]?) with
  | some g => some g.geo
  | none => c.floppyGeometry[u]?

/-- The state construction and power-up leave (R78, R430, R440): `floppies` and `disks` are the geometry and the
image of each Drive. DESIGN CHOICE: what the spec leaves open or what is the model's own starts empty: no byte of an image
is listed (notes/assumptions/4.md), no image has a choice of `pending` or `fail` queued (5.md), no line is masked (14.md),
the trace (1.md), the answer and the diagnostics (13.md) are empty, the free-value counter is 0 (6.md). -/
def State.initial (c : Cfg) (images : List Image) (floppies : List (Geometry × Option Nat))
    (disks : List (Geometry × Nat)) : State where
  cfg := c
  fdc := .initial c
  xtc := .initial c
  atc := .initial c
  floppy := floppies.map fun f => Drive.fresh 1 f.1 f.2
  fixed := disks.map fun f => Drive.fresh (fixedBias c.hdcVariant) f.1 (some f.2)
  dma := ⟨none, none, true, true⟩
  store := ⟨images, [], ⟨[], []⟩⟩
  masked := []
  input := []
  answer := .none
  diag := []
  drawn := 0

/-- DESIGN CHOICE (notes/assumptions/2.md): the images of the reset instance, the diskette and the fixed disk of the
fixtures of spec/95_test_vectors.md, with nothing written on them. -/
def defaultImages : List Image :=
  [⟨⟨40, 2, 9, 512⟩, true, true, []⟩, ⟨⟨306, 4, 17, 512⟩, true, true, []⟩]

/-- The machine right after reset: every field at the value R78 states, for the instance `Cfg.default`. -/
def State.reset : State :=
  State.initial Cfg.default defaultImages [(⟨40, 2, 9, 512⟩, some 0)] [(⟨306, 4, 17, 512⟩, 1)]

end Sys2Proof.Machine
end

