-- ==== Sys2Proof/Machine/Operands.lean ====
section
/-! DEFINITION. Operand assembly: the fields of a collected FDC request (spec/30_encoding.md R124, R126), of an XTC
command block (R135, R137) and of the ATC's task file (R145). A request is the list of its bytes; a byte that is not
there reads as 0 (requests the sequencers run are never short, R123, R136). -/

namespace Sys2Proof.Machine

/-- `req[k]`. -/
def reqByte (req : List Byte) (k : Nat) : Byte := req.getD k 0#8

/-! ### FDC (R126) -/

/-- `u = US[1:0]`. -/
def fdcReqUnit (req : List Byte) : BitVec 2 := (reqByte req 1).extractLsb' 0 2

/-- `HD = US[2]`. -/
def fdcReqHead (req : List Byte) : BitVec 1 := (reqByte req 1).extractLsb' 2 1

/-- Bytes per sector of a size code: `128 << N` on natural numbers. -/
def sectorBytes (n : Byte) : Nat := 128 <<< n.toNat

/-- The number of sectors from `R` up to `EOT`, 0 when `EOT < R` (spec/41_fdc_commands.md R208). -/
def sectorsUpTo (eot r : Byte) : Nat := if r ≤ eot then eot.toNat - r.toNat + 1 else 0

/-! ### XTC (R135, R137) -/

/-- `u = c1[5]`. -/
def xtcReqDrive (req : List Byte) : BitVec 1 := (reqByte req 1).extractLsb' 5 1

/-- `c1[4:0]`. -/
def xtcReqHead (req : List Byte) : BitVec 5 := (reqByte req 1).extractLsb' 0 5

/-- `cyl = (c2[7:6] << 8) + c3`. -/
def xtcReqCylinder (req : List Byte) : Nat :=
  (((reqByte req 2).extractLsb' 6 2).toNat <<< 8) + (reqByte req 3).toNat

/-- `c2[5:0]`. -/
def xtcReqSector (req : List Byte) : BitVec 6 := (reqByte req 2).extractLsb' 0 6

/-- A sector count byte, 0 meaning 256 (R135, R145). -/
def countOf (b : Byte) : Nat := if b = 0#8 then 256 else b.toNat

/-- `count = (c4 = 0 ? 256 : c4)`. -/
def xtcReqCount (req : List Byte) : Nat := countOf (reqByte req 4)

/-- The parameters `p0` to `p7`, bytes 6 to 13 (R137). -/
def xtcReqParams (req : List Byte) : InitParams :=
  decodeInitParams (reqByte req 6) (reqByte req 7) (reqByte req 8) (reqByte req 9) (reqByte req 10)
    (reqByte req 11) (reqByte req 12) (reqByte req 13)

/-! ### ATC (R145) -/

/-- `u = atc.driveHead[4]`. -/
def Atc.drive (a : Atc) : BitVec 1 := a.driveHead.extractLsb' 4 1

/-- `head = atc.driveHead[3:0]`. -/
def Atc.head (a : Atc) : BitVec 4 := a.driveHead.extractLsb' 0 4

/-- `cylinder = (atc.cylHi << 8) + atc.cylLo`. -/
def Atc.cylinder (a : Atc) : Nat := (a.cylHi.toNat <<< 8) + a.cylLo.toNat

/-- `count = (atc.secCount = 0 ? 256 : atc.secCount)`. -/
def Atc.count (a : Atc) : Nat := countOf a.secCount

end Sys2Proof.Machine
end

