-- ==== Sys2Proof/Machine/Flags.lean ====
section
/-! DEFINITION. Every status byte of the block: Main Status and Input (spec/10_state.md R22, R23), XTC Status and
Config (R52, R53), the FDC's result status bytes, the XTC's codes and completion byte, the ATC's Error and Status bytes
(spec/60_exceptions.md R383, R384, R385), and the request lines (R74). -/

namespace Sys2Proof.Machine

/-! ### FDC -/

/-- The enable bit of the Output register (R21). -/
def Fdc.enabled (f : Fdc) : Bool := f.out.getLsbD 2

/-- `fdc.intArmed` (R21). -/
def Fdc.armed (f : Fdc) : Bool := f.out.getLsbD 3

/-- `fdc.out[1:0]` (R21). -/
def Fdc.select (f : Fdc) : BitVec 2 := f.out.extractLsb' 0 2

/-- Main Status (R22). -/
def Fdc.mainStatus (f : Fdc) : Byte :=
  match f.phase with
  | .command => if f.fifo.writeIndex = 0 then 0x80#8 else 0x90#8
  | .execution => 0x10#8
  | .result => 0xD0#8

/-- The Input byte (R23): bit 7 the disk-change status, bits 6:0 the given free bits. -/
def inputByte (diskChanged : Bool) (free : BitVec 7) : Byte := BitVec.ofBool diskChanged ++ free

/-- `u + 4*HD + (seekEnd ? 0x20 : 0)` (R383). -/
def st0Base (u : BitVec 2) (hd : BitVec 1) (seekEnd : Bool) : Byte :=
  u.setWidth 8 + 4#8 * hd.setWidth 8 + (if seekEnd then 0x20#8 else 0x00#8)

/-- `FdcStatus` (R383): ST0, ST1, ST2. -/
def fdcStatus (err : Err) (u : BitVec 2) (hd : BitVec 1) (seekEnd : Bool) : Byte × Byte × Byte :=
  let base := st0Base u hd seekEnd
  match err with
  | .none => (base, 0x00#8, 0x00#8)
  | .notReady => (base + 0x48#8, 0x00#8, 0x00#8)
  | .noSectorFound => (base + 0x40#8, 0x04#8, 0x00#8)
  | .writeFault => (base + 0x40#8, 0x02#8, 0x00#8)
  | .crcError => (base + 0x40#8, 0x20#8, 0x20#8)
  | .incomplete => (base + 0x40#8, 0x00#8, 0x00#8)
  | .commandAborted => (base + 0x40#8, 0x00#8, 0x00#8)

/-! ### XTC -/

/-- `xtc.intArmed` (R54). -/
def Xtc.armed (x : Xtc) : Bool := x.pattern.getLsbD 1

/-- The DMA request enable (R54). -/
def Xtc.dmaEnabled (x : Xtc) : Bool := x.pattern.getLsbD 0

/-- XTC Status before `INTERRUPT` is added (R52). -/
def Xtc.phaseStatus (x : Xtc) : Byte :=
  match x.phase with
  | .command => if x.selected ∨ 0 < x.fifo.writeIndex then 0x0D#8 else 0x00#8
  | .execution => if x.dmaEnabled then 0x18#8 else 0x08#8
  | .result => 0x0F#8

/-- XTC Status (R52). -/
def Xtc.status (x : Xtc) : Byte := x.phaseStatus ||| (if x.irq then 0x20#8 else 0x00#8)

/-- XTC Config (R53). -/
def xtcConfig (c : Cfg) : Byte := c.xtcSwitches &&& 0x0F#8

/-- `XtcCode` (R384). -/
def xtcCode : Err → Byte
  | .none => 0x00#8
  | .notReady => 0x04#8
  | .noSectorFound => 0x14#8
  | .writeFault => 0x03#8
  | .crcError => 0x11#8
  | .commandAborted => 0x20#8
  | .incomplete => 0x04#8

/-- `XtcCompletion` (R384). -/
def xtcCompletion (err : Err) (u : BitVec 1) : Byte :=
  (if err = .none then 0x00#8 else 0x02#8) + (u.setWidth 8 <<< 5)

/-! ### ATC -/

/-- `atc.intArmed` (R65). -/
def Atc.armed (a : Atc) : Bool := !a.fdr.getLsbD 1

/-- `DATA_REQ` (R62). -/
def Atc.dataReq (a : Atc) : Bool := a.status.getLsbD 3

/-- `AtcErrorByte` (R385). -/
def atcErrorByte : Err → Byte
  | .none => 0x00#8
  | .notReady => 0x04#8
  | .noSectorFound => 0x10#8
  | .writeFault => 0x04#8
  | .crcError => 0x40#8
  | .commandAborted => 0x04#8
  | .incomplete => 0x04#8

/-- `AtcStatusByte` (R385). -/
def atcStatusByte : Err → Byte
  | .none => 0x50#8
  | .notReady => 0x01#8
  | .writeFault => 0x71#8
  | .noSectorFound => 0x51#8
  | .crcError => 0x51#8
  | .commandAborted => 0x51#8
  | .incomplete => 0x51#8

/-! ### Request lines -/

/-- The pending latch of a controller. -/
def State.latch (s : State) : Ctl → Bool
  | .fdc => s.fdc.irq
  | .xtc => s.xtc.irq
  | .atc => s.atc.irq

/-- Does the instance have this controller's request line (R390)? -/
def State.hasLine (s : State) : Ctl → Bool
  | .fdc => true
  | .xtc => s.cfg.hdcVariant == .xtc
  | .atc => s.cfg.hdcVariant == .atc

/-- The line number of a controller (R7). -/
def State.line (s : State) : Ctl → Nat
  | .fdc => s.cfg.fdcIrq
  | .xtc => s.cfg.xtcIrq
  | .atc => s.cfg.atcIrq

/-- `irqLine[n]` (R74): a view of the latches, not separate state. DESIGN CHOICE (notes/assumptions/23.md): a line number
that two controllers of the instance share shows the OR of their latches. -/
def State.irqLine (s : State) (n : Nat) : Bool :=
  [Ctl.fdc, .xtc, .atc].any fun k => s.hasLine k && s.line k == n && s.latch k

end Sys2Proof.Machine
end

