-- ==== Sys2Proof/Machine/Ops.lean ====
section
/-! DEFINITION. The operations the meanings share: the bytes of the disk images, the Disk Image Port, the Drive and
its sector cursor (spec/45_geometry.md), the FIFO (spec/10_state.md R26), the pending interrupts (spec/60_exceptions.md
R391 to R393, R400, R401) and the DMA sessions (spec/44_dma_bridge.md R322). -/

namespace Sys2Proof.Machine

/-! ### Bytes of the disk-image sector space (spec/20_memory.md R86) -/

/-- DESIGN CHOICE (notes/assumptions/4.md): what a byte no write has touched reads as. -/
def Memory.unlisted : Byte := 0x00#8

/-- The byte at an address. -/
def Memory.read : Memory → Nat → Byte
  | [], _ => Memory.unlisted
  | (k, v) :: t, a => if k = a then v else Memory.read t a

/-- Stores a byte, keeping the canonical form: addresses strictly rising, no entry equal to the unlisted byte. -/
def Memory.write : Memory → Nat → Byte → Memory
  | [], a, b => if b = Memory.unlisted then [] else [(a, b)]
  | (k, v) :: t, a, b =>
    if a < k then (if b = Memory.unlisted then (k, v) :: t else (a, b) :: (k, v) :: t)
    else if a = k then (if b = Memory.unlisted then t else (a, b) :: t)
    else (k, v) :: Memory.write t a b

/-- The canonical form. -/
def Memory.wf : Memory → Bool
  | [] => true
  | [(_, v)] => v != Memory.unlisted
  | (k, v) :: (k', v') :: t => v != Memory.unlisted && decide (k < k') && Memory.wf ((k', v') :: t)

/-- The address of byte `off` of a sector: one number for every image, cylinder, head, sector and offset, so that two
different places never share an address (R363 (c), (d)). -/
def diskAddress (h : Handle) (off : Nat) : Nat :=
  Nat.pair h.image (Nat.pair (Nat.pair h.id.cyl h.id.head) (Nat.pair h.id.sec off))

/-! ### The Disk Image Port (spec/45_geometry.md R360 to R363) -/

/-- The answer of `DiskSeek`. -/
inductive SeekAnswer where
  | found (h : Handle)
  | missing
  | pending
  deriving DecidableEq, Repr

/-- The length of the image's sector of that number, `none` when it has no such sector. Sectors count from 1 (R360):
no image has a sector 0 (R364). -/
def Image.sectorLen (g : Image) (id : SectorId) : Option Nat :=
  if id.sec = 0 then none
  else
    match g.odd.find? (fun e => e.id == id) with
    | some e => e.len
    | none =>
      if id.cyl < g.geo.cylinders ∧ id.head < g.geo.heads ∧ id.sec ≤ g.geo.sectorsPerTrack then
        some g.geo.bytesPerSector
      else none

/-- Does the image have a sector of that number and length (R360)? -/
def Store.hasSector (st : Store) (img : Nat) (id : SectorId) (len : Nat) : Bool :=
  match st.images[img]? with
  | some g => g.sectorLen id == some len
  | none => false

/-- Does the image answer at once and never fail (R361, R364)? -/
def Store.preloaded (st : Store) (img : Nat) : Bool :=
  match st.images[img]? with
  | some g => g.preloaded
  | none => true

/-- `DiskWritable` (R360). -/
def Store.writable (st : Store) (img : Nat) : Bool :=
  match st.images[img]? with
  | some g => g.writable
  | none => false

/-- The image's next choice of answering a lookup `pending`. -/
def Store.drawPend (st : Store) (img : Nat) : Bool × Store :=
  if st.preloaded img then (false, st)
  else
    match st.oracle.pend with
    | [] => (false, st)
    | b :: bs => (b, { st with oracle := { st.oracle with pend := bs } })

/-- The image's next choice of failing a read or write. -/
def Store.drawFail (st : Store) (img : Nat) : Bool × Store :=
  if st.preloaded img then (false, st)
  else
    match st.oracle.fail with
    | [] => (false, st)
    | b :: bs => (b, { st with oracle := { st.oracle with fail := bs } })

/-- `DiskSeek` (R360): a function of the image and its arguments but for the choice of `pending` (R363 (a)). -/
def Store.diskSeek (st : Store) (img : Nat) (id : SectorId) (len : Nat) : SeekAnswer × Store :=
  match st.drawPend img with
  | (true, st') => (.pending, st')
  | (false, st') => (if st.hasSector img id len then .found ⟨img, id⟩ else .missing, st')

/-- `DiskRead` (R361); `none` is `fail`. -/
def Store.diskRead (st : Store) (h : Handle) (off : Nat) : Option Byte × Store :=
  match st.drawFail h.image with
  | (true, st') => (none, st')
  | (false, st') => (some (st.cells.read (diskAddress h off)), st')

/-- `DiskWrite` (R362); `false` is `fail`, which leaves the byte unchanged. -/
def Store.diskWrite (st : Store) (h : Handle) (off : Nat) (b : Byte) : Bool × Store :=
  match st.drawFail h.image with
  | (true, st') => (false, st')
  | (false, st') => (true, { st' with cells := st'.cells.write (diskAddress h off) b })

/-! ### Drives -/

/-- `raise E(d)` (spec/00_scope.md R10): the first error wins (spec/60_exceptions.md R386). -/
def Drive.raise (e : Err) (d : Drive) : Drive :=
  if d.errorCode = .none then { d with errorCode := e } else d

/-- "cleared at the start of each new command" (spec/10_state.md R43). -/
def Drive.clearError (d : Drive) : Drive := { d with errorCode := .none }

/-- `AdvanceSector` (spec/45_geometry.md R353) on a position. -/
def Pos.advance (p : Pos) (g : Geometry) (bias : Nat) : Pos :=
  if g.sectorsPerTrack + bias ≤ p.sector + 1 then
    if g.heads ≤ p.head + 1 then ⟨p.cylinder + 1, 0, bias⟩
    else ⟨p.cylinder, p.head + 1, bias⟩
  else ⟨p.cylinder, p.head, p.sector + 1⟩

/-- `FinishSector` (R368). -/
def Drive.finishSector (bias : Nat) (d : Drive) : Drive :=
  { d with
    cur := { d.cur with
      activeSector := none
      byteOffset := 0
      bytesRemaining := d.cur.bytesRemaining - d.geo.bytesPerSector }
    pos := d.pos.advance d.geo bias }

/-- One byte of the active sector has moved; the last one finishes the sector (R365, R366). -/
def Drive.byteMoved (bias : Nat) (d : Drive) : Drive :=
  let d' := { d with cur := { d.cur with byteOffset := d.cur.byteOffset + 1 } }
  if d.cur.byteOffset + 1 = d.geo.bytesPerSector then d'.finishSector bias else d'

/-- `{none, 0, n, false}`: a transfer of `n` bytes is loaded (spec/41_fdc_commands.md R208). -/
def Cursor.load (n : Nat) : Cursor := ⟨none, 0, n, false⟩

/-- The image's number of the current sector: `pos.sector + 1 - bias` (R352). -/
def Drive.imageSector (bias : Nat) (d : Drive) : SectorId :=
  ⟨d.pos.cylinder, d.pos.head, d.pos.sector + 1 - bias⟩

/-! ### The sector cursor: a Drive and the store behind it -/

/-- A Drive with the external store its cursor reaches. -/
structure Bay where
  drive : Drive
  store : Store
  deriving DecidableEq, Repr

/-- The answer of `NextSector` (R364). -/
inductive NextAnswer where
  | found
  | done
  | failed
  | pending
  deriving DecidableEq, Repr

/-- The answer of `ReadByte` (R365). -/
inductive ReadAnswer where
  | byte (v : Byte)
  | eof
  | pending
  deriving DecidableEq, Repr

/-- The answer of `WriteByte` (R366). -/
inductive WriteAnswer where
  | accepted
  | error
  | pending
  deriving DecidableEq, Repr

/-- `raise E(d)` in a bay. -/
def Bay.raise (e : Err) (b : Bay) : Bay := { b with drive := b.drive.raise e }

/-- Is a geometry number 0, as INITIALIZE_DRIVE_CHARACTERISTICS and SET_PARAMETERS may program it
(spec/93_implementation_defined.md U8)? No position is inside such a geometry. -/
def Drive.noSectors (d : Drive) : Bool :=
  d.geo.cylinders == 0 || d.geo.heads == 0 || d.geo.sectorsPerTrack == 0

/-- The lookup of the sector at the current position: the image's `DiskSeek` (R364), and `missing` for every lookup
while a geometry number is 0 (U8, notes/assumptions/10.md). -/
def Store.lookSector (st : Store) (img bias : Nat) (d : Drive) : SeekAnswer × Store :=
  if d.noSectors then (.missing, st) else st.diskSeek img (d.imageSector bias) d.geo.bytesPerSector

/-- `NextSector` (R364): makes the sector at the current position the active sector. -/
def nextSector (bias : Nat) (b : Bay) : NextAnswer × Bay :=
  match b.drive.disk with
  | none => (.failed, b.raise .notReady)
  | some img =>
    if b.drive.cur.bytesRemaining = 0 then (.done, b)
    else
      match b.store.lookSector img bias b.drive with
      | (.found h, st) =>
        (.found, ⟨{ b.drive with cur := { b.drive.cur with activeSector := some h, byteOffset := 0 } }, st⟩)
      | (.missing, st) => (.failed, ⟨b.drive.raise .noSectorFound, st⟩)
      | (.pending, st) => (.pending, ⟨{ b.drive with cur := { b.drive.cur with pending := true } }, st⟩)

/-- The read of one byte of the active sector `h` (R365). -/
def readActive (bias : Nat) (h : Handle) (b : Bay) : ReadAnswer × Bay :=
  match b.store.diskRead h b.drive.cur.byteOffset with
  | (none, st) => (.eof, ⟨b.drive.raise .crcError, st⟩)
  | (some v, st) => (.byte v, ⟨b.drive.byteMoved bias, st⟩)

/-- `ReadByte` (R365): the next byte of a transfer towards memory or the host. -/
def readByte (bias : Nat) (b : Bay) : ReadAnswer × Bay :=
  if b.drive.errorCode ≠ .none then (.eof, b)
  else
    match b.drive.cur.activeSector with
    | some h => readActive bias h b
    | none =>
      match nextSector bias b with
      | (.found, b') =>
        match b'.drive.cur.activeSector with
        | some h => readActive bias h b'
        | none => (.eof, b')
      | (.pending, b') => (.pending, b')
      | (.done, b') => (.eof, b')
      | (.failed, b') => (.eof, b')

/-- The write of one byte of the active sector `h` (R366). -/
def writeActive (bias : Nat) (h : Handle) (v : Byte) (b : Bay) : WriteAnswer × Bay :=
  match b.store.diskWrite h b.drive.cur.byteOffset v with
  | (false, st) => (.error, ⟨b.drive.raise .crcError, st⟩)
  | (true, st) => (.accepted, ⟨b.drive.byteMoved bias, st⟩)

/-- Is the mounted image read-only (R366)? -/
def Bay.readOnly (b : Bay) : Bool :=
  match b.drive.disk with
  | some img => !b.store.writable img
  | none => false

/-- `WriteByte` (R366): the next byte of a transfer towards the image. -/
def writeByte (bias : Nat) (v : Byte) (b : Bay) : WriteAnswer × Bay :=
  if b.drive.errorCode ≠ .none then (.error, b)
  else if b.readOnly then (.error, b.raise .writeFault)
  else
    match b.drive.cur.activeSector with
    | some h => writeActive bias h v b
    | none =>
      match nextSector bias b with
      | (.found, b') =>
        match b'.drive.cur.activeSector with
        | some h => writeActive bias h v b'
        | none => (.error, b')
      | (.pending, b') => (.pending, b')
      | (.done, b') => (.error, b')
      | (.failed, b') => (.error, b')

/-! ### Drives in the state -/

/-- The Drive a reference names; `none` when it does not exist (spec/10_state.md R46). -/
def State.drive? (s : State) : DriveRef → Option Drive
  | .floppy u => s.floppy[u]?
  | .fixed u => s.fixed[u]?

/-- Changes one Drive; a Drive that does not exist is left out. -/
def State.modifyDrive (s : State) (r : DriveRef) (f : Drive → Drive) : State :=
  match r with
  | .floppy u => { s with floppy := s.floppy.modify u f }
  | .fixed u => { s with fixed := s.fixed.modify u f }

/-- Puts a bay back into the state. -/
def State.putBay (s : State) (r : DriveRef) (b : Bay) : State :=
  { s.modifyDrive r (fun _ => b.drive) with store := b.store }

/-- Runs a cursor operation on a Drive; a Drive that does not exist answers `absent`. -/
def State.runBay {α : Type} (s : State) (r : DriveRef) (absent : α) (f : Bay → α × Bay) : α × State :=
  match s.drive? r with
  | none => (absent, s)
  | some d => ((f ⟨d, s.store⟩).1, s.putBay r (f ⟨d, s.store⟩).2)

/-- The bias of a Drive's controller (spec/45_geometry.md R352). -/
def State.bias (s : State) : DriveRef → Nat
  | .floppy _ => 1
  | .fixed _ => fixedBias s.cfg.hdcVariant

/-- Unit `u` of a bridge controller. -/
def Chan.drive (c : Chan) (u : Nat) : DriveRef :=
  match c with
  | .fdc => .floppy u
  | .xtc => .fixed u

/-- `Bias(FDC) = 1`, `Bias(XTC) = 0` (spec/44_dma_bridge.md). -/
def Chan.bias : Chan → Nat
  | .fdc => 1
  | .xtc => 0

/-! ### FIFO -/

/-- Writes bytes over the first cells; the number of cells stays. -/
def overlay : List Byte → List Byte → List Byte
  | _ :: bs, r :: rs => r :: overlay bs rs
  | bs, [] => bs
  | [], _ => []

/-- All counters 0, the cells as they are. -/
def Fifo.drained (f : Fifo) : Fifo := { f with writeIndex := 0, readIndex := 0, totalExpected := 0 }

/-- The FIFO after one more request byte; the first byte fixes the length (spec/40_fdc_sequencer.md R163). -/
def Fifo.accept (f : Fifo) (len : Byte → Nat) (v : Byte) : Fifo where
  buffer := f.buffer.set f.writeIndex v
  writeIndex := f.writeIndex + 1
  readIndex := if f.writeIndex = 0 then 0 else f.readIndex
  totalExpected := if f.writeIndex = 0 then len v else f.totalExpected

/-- Has the request all its bytes? -/
def Fifo.full (f : Fifo) : Bool := f.writeIndex == f.totalExpected

/-- `req <- fifo.buffer[0 .. totalExpected - 1]` (R165). -/
def Fifo.request (f : Fifo) : List Byte := f.buffer.take f.totalExpected

/-- Every request byte has been replayed to the command (R165). -/
def Fifo.replayed (f : Fifo) : Fifo := { f with readIndex := f.totalExpected }

/-- The FIFO loaded with the result bytes (R166). -/
def Fifo.loadResult (f : Fifo) (res : List Byte) : Fifo where
  buffer := overlay f.buffer res
  writeIndex := res.length
  readIndex := 0
  totalExpected := res.length

/-- The next result byte. -/
def Fifo.head (f : Fifo) : Byte := f.buffer.getD f.readIndex 0#8

/-- The FIFO after one result byte was read: drained when it was the last (R168). -/
def Fifo.next (f : Fifo) : Fifo :=
  if f.readIndex + 1 = f.totalExpected then f.drained else { f with readIndex := f.readIndex + 1 }

/-- Was the byte at the read index the last one? -/
def Fifo.atLast (f : Fifo) : Bool := f.readIndex + 1 == f.totalExpected

/-! ### Pending interrupts: taking the trap and returning from it -/

/-- `RaiseIrq` (spec/60_exceptions.md R391): what R400 calls taking the trap; nothing else is saved or redirected. -/
def State.raiseIrq (s : State) : Ctl → State
  | .fdc => { s with fdc := { s.fdc with irq := true } }
  | .xtc => { s with xtc := { s.xtc with irq := true } }
  | .atc => { s with atc := { s.atc with irq := true } }

/-- `ClearIrq` (R392): the acknowledging read, which R401 calls returning. -/
def State.clearIrq (s : State) : Ctl → State
  | .fdc => { s with fdc := { s.fdc with irq := false } }
  | .xtc => { s with xtc := { s.xtc with irq := false } }
  | .atc => { s with atc := { s.atc with irq := false } }

/-- `Armed(ctl)` (R393). -/
def State.armed (s : State) : Ctl → Bool
  | .fdc => s.fdc.armed
  | .xtc => s.xtc.armed
  | .atc => s.atc.armed

/-- `EndOfCommandIrq` (R393): raised when armed and the class is not `NotReady`. -/
def State.endOfCommandIrq (s : State) (k : Ctl) (err : Err) : State :=
  if s.armed k ∧ err ≠ .notReady then s.raiseIrq k else s

/-- An interrupt of a controller that is armed, with no error to look at (R287, R288). -/
def State.raiseIfArmed (s : State) (k : Ctl) : State := if s.armed k then s.raiseIrq k else s

/-! ### Sessions and outputs -/

/-- `dma.session[c]` (spec/10_state.md R72). -/
def State.session (s : State) : Chan → Option Session
  | .fdc => s.dma.fdc
  | .xtc => s.dma.xtc

/-- Sets `dma.session[c]`. -/
def State.setSession (s : State) (c : Chan) (ss : Option Session) : State :=
  match c with
  | .fdc => { s with dma := { s.dma with fdc := ss } }
  | .xtc => { s with dma := { s.dma with xtc := ss } }

/-- `tm` of R322: which way the bytes of a direction flow. -/
def Direction.toMemory : Direction → Bool → Bool
  | .read, _ => true
  | .write, _ => false
  | .format, _ => false
  | .buffer, tm => tm

/-- `OpenSession` (spec/44_dma_bridge.md R322); `tm` counts only for `Buffer`. -/
def State.openSession (s : State) (c : Chan) (drive : Option Nat) (dir : Direction) (tm : Bool) : State :=
  s.setSession c (some ⟨drive, dir, dir.toMemory tm, false⟩)

/-- `Diag` (spec/60_exceptions.md R415): an output event. -/
def State.emit (s : State) (m : Diag) : State := { s with diag := s.diag ++ [m] }

/-- The step returns this answer to its caller. -/
def State.reply (s : State) (a : Answer) : State := { s with answer := a }

/-- `VerifyGeometry` (spec/45_geometry.md R358): a warning when the programmed numbers differ from the table's. -/
def State.verifyGeometry (s : State) (u : Nat) : State :=
  match s.cfg.tableGeometry u, s.fixed[u]? with
  | some t, some d =>
    let differs :=
      match s.cfg.hdcVariant with
      | .xtc => d.geo.cylinders != t.cylinders || d.geo.heads != t.heads
      | .atc => d.geo.heads != t.heads || d.geo.sectorsPerTrack != t.sectorsPerTrack
      | .none => false
    if differs then s.emit (.geometryMismatch u) else s
  | _, _ => s

/-- Delivers bytes one after another through a port handler, stopping where one stops: the trace macro `CMD`
(spec/30_encoding.md R156). -/
def deliver (handler : Byte → State → Out) : List Byte → State → Out
  | [], s => .next s
  | b :: bs, s =>
    match handler b s with
    | .next s' => deliver handler bs s'
    | .fault f => .fault f
    | .refused r => .refused r

end Sys2Proof.Machine
end

