-- ==== Sys2Proof/Machine/Reset.lean ====
section
/-! DEFINITION. Reset and construction (spec/70_reset_and_hazards.md R430 to R440): the three controller resets,
power-up and machine reset, and the construction of an instance. -/

namespace Sys2Proof.Machine

/-- What every controller reset clears of its Drives (R431, R432, R433). -/
def Drive.clearForReset (d : Drive) : Drive :=
  { d with errorCode := .none, senseCode := .none, cur := .empty }

/-- `FdcControllerReset` (R431); `fdc.out` is written by the caller. -/
def State.fdcControllerReset (s : State) : State :=
  { s with
    dma := { s.dma with fdc := none }
    fdc := { s.fdc with
      phase := .command
      fifo := .empty s.cfg.fifoCapFdc
      irq := false
      lastUnit := 0#2
      endStatus := 0xC0#8 }
    floppy := s.floppy.map fun d => { d.clearForReset with fmt := .empty } }

/-- `XtcControllerReset` (R432). -/
def State.xtcControllerReset (s : State) : State :=
  { s with
    dma := { s.dma with xtc := none }
    xtc := { s.xtc with
      phase := .command
      fifo := .empty s.cfg.fifoCapXtc
      pattern := 0x00#8
      selected := false
      irq := false
      bufIndex := 0 }
    fixed := s.fixed.map Drive.clearForReset }

/-- `AtcControllerReset` (R433); `atc.fdr` is written by the caller. -/
def State.atcControllerReset (s : State) : State :=
  { s with
    atc := { s.atc with
      phase := .command
      dir := .none
      error := 0x00#8
      wprecomp := 0x00#8
      secCount := 0x00#8
      secNum := 0x00#8
      cylLo := 0x00#8
      cylHi := 0x00#8
      driveHead := 0x00#8
      command := 0x00#8
      status := if 1 ≤ s.cfg.hdcDrives then 0x50#8 else 0x00#8
      irq := false }
    fixed := s.fixed.map Drive.clearForReset }

/-- The geometry of an image (R446); `none` for an image that is not there. -/
def Store.imageGeometry (st : Store) (img : Nat) : Option Geometry :=
  (st.images[img]?).map Image.geo

/-- `ConfiguredGeometry(d)` (R440); a table miss, which construction excludes, leaves the geometry. -/
def State.configuredGeometry (s : State) (r : DriveRef) (d : Drive) : Geometry :=
  match r with
  | .floppy u => ((floppyStartGeometry s.cfg s.store.images d.disk u)).getD d.geo
  | .fixed u => (s.cfg.tableGeometry u).getD d.geo

/-- A Drive at power-up (R430, R78): everything but the mounted image. -/
def State.powerUpDrive (s : State) (r : DriveRef) (d : Drive) : Drive :=
  Drive.fresh (s.bias r) (s.configuredGeometry r d) d.disk

/-- The part of power-up that belongs to the HDC variant of the instance (R430). -/
def State.hdcPowerUp (s : State) : State :=
  match s.cfg.hdcVariant with
  | .none => s
  | .xtc =>
    let s := s.xtcControllerReset
    { s with xtc := { s.xtc with
        allowInitFail := false
        sectorBuffer := List.replicate 512 0x00#8
        initParams0 := initParamsZero
        initParams1 := initParamsZero } }
  | .atc =>
    let s := s.atcControllerReset
    { s with atc := { s.atc with fdr := 0x00#8 } }

/-- `PowerUp` (R430). -/
def State.powerUp (s : State) : State :=
  let s := s.fdcControllerReset
  let s := { s with fdc := { s.fdc with out := 0x00#8, rate := 0x00#8 } }
  let s := s.hdcPowerUp
  { s with
    floppy := s.floppy.mapIdx fun u d => s.powerUpDrive (.floppy u) d
    fixed := s.fixed.mapIdx fun u d => s.powerUpDrive (.fixed u) d }

/-- The images a construction attaches to its Drives. -/
def configuredImages (floppyImages : List (Option Nat)) (fixedImages : List Nat) : List Nat :=
  floppyImages.filterMap id ++ fixedImages

/-- The descriptors of a construction are well-formed (R440: malformed ones are rejected "as a configuration error"):
the configuration is (`Cfg.wf`), there is one descriptor for each Drive, no image has a geometry with a 0
(spec/10_state.md R42), every configured image is there, and none is on two Drives (R45, spec/20_memory.md R103). -/
def descriptorsOk (c : Cfg) (images : List Image) (floppyImages : List (Option Nat)) (fixedImages : List Nat) : Bool :=
  c.wf && decide (floppyImages.length = c.fdcDrives) && decide (fixedImages.length = c.hdcDrives) &&
    (images.all fun g => g.geo.positive) &&
    ((configuredImages floppyImages fixedImages).all fun img => decide (img < images.length)) &&
    decide (configuredImages floppyImages fixedImages).Nodup

/-- The fixed Drives of a construction: the table row and the image of each; `none` on a table miss (R440 (2)). -/
def fixedDrives (c : Cfg) : Nat → List Nat → Option (List (Geometry × Nat))
  | _, [] => some []
  | u, img :: rest =>
    match c.tableGeometry u, fixedDrives c (u + 1) rest with
    | some g, some ds => some ((g, img) :: ds)
    | _, _ => none

/-- `Cfg.floppyGeometry[u]`, the geometry of a floppy unit at construction: where an image is configured, that image
has it (R440, R7); `none` where it has another. -/
def unitGeometry (c : Cfg) (images : List Image) (u : Nat) (disk : Option Nat) : Option Geometry :=
  if floppyStartGeometry c images disk u = c.floppyGeometry[u]? then c.floppyGeometry[u]? else none

/-- The floppy Drives of a construction: the geometry and the configured image of each. -/
def floppyDrives (c : Cfg) (images : List Image) : Nat → List (Option Nat) → Option (List (Geometry × Option Nat))
  | _, [] => some []
  | u, disk :: rest =>
    match unitGeometry c images u disk, floppyDrives c images (u + 1) rest with
    | some g, some ds => some ((g, disk) :: ds)
    | _, _ => none

/-- Construction followed by power-up (R440, R430): `floppyImages` and `fixedImages` are the configured image of
each unit, `peerAttached` says that the bridge could be connected to the DMA peer. A drive-type table miss, a DMA
peer that is not there or a malformed descriptor fails construction: no instance. -/
def construct (c : Cfg) (images : List Image) (floppyImages : List (Option Nat)) (fixedImages : List Nat)
    (peerAttached : Bool) : Option State :=
  if peerAttached && descriptorsOk c images floppyImages fixedImages then
    match floppyDrives c images 0 floppyImages, fixedDrives c 0 fixedImages with
    | some fs, some ds => some (State.initial c images fs ds)
    | _, _ => none
  else none

end Sys2Proof.Machine
end

