-- ==== Sys2Proof/Machine/Fdc.lean ====
section
/-! DEFINITION. The FDC: its seven commands and the unknown opcode (spec/41_fdc_commands.md), the sequencer and
the port handlers (spec/40_fdc_sequencer.md), and the meanings of its instructions. -/

namespace Sys2Proof.Machine

/-! ### End of a command -/

/-- `FdcFinish` (R166). -/
def State.fdcFinish (s : State) (res : List Byte) (eligible : Bool) (st0 : Byte) (err : Err) : State :=
  let s1 := { s with fdc := { s.fdc with
    endStatus := if eligible then st0 else s.fdc.endStatus
    fifo := if res = [] then s.fdc.fifo.drained else s.fdc.fifo.loadResult res
    phase := if res = [] then .command else .result } }
  if eligible then s1.endOfCommandIrq .fdc err else s1

/-- `FdcTransferDone` (R177): the completion continuation; `d` is the session's Drive. -/
def State.fdcTransferDone (s : State) (d : Option Drive) (err : Err) : State :=
  let req := s.fdc.fifo.buffer
  let st := fdcStatus err (fdcReqUnit req) (fdcReqHead req) false
  let ncode := if fdcOp (fdcMaskedOp (reqByte req 0)) = .formatTrack then reqByte req 2 else reqByte req 5
  let p := (d.map Drive.pos).getD ⟨0, 0, 0⟩
  s.fdcFinish
    [st.1, st.2.1, st.2.2, BitVec.ofNat 8 p.cylinder, BitVec.ofNat 8 p.head, BitVec.ofNat 8 p.sector, ncode]
    true st.1 err

/-! ### Helpers of the transfer commands -/

/-- `Ready(u)` of an existing floppy Drive (spec/10_state.md R46). -/
def State.floppyReady (s : State) (u : BitVec 2) (d : Drive) : Bool :=
  d.disk.isSome && s.fdc.select == u

/-- `LoadFdcTransfer` (R208). -/
def loadFdcTransfer (req : List Byte) (d : Drive) : Drive :=
  { d with
    pos := ⟨(reqByte req 2).toNat, (reqByte req 3).toNat, (reqByte req 4).toNat⟩
    geo := { d.geo with bytesPerSector := sectorBytes (reqByte req 5) }
    sectorEnd := reqByte req 6
    cur := .load (sectorsUpTo (reqByte req 6) (reqByte req 4) * sectorBytes (reqByte req 5)) }

/-- The C, H, R, N of `FdcNotReadyResult` (R209). -/
def notReadyChrn (req : List Byte) (d : Option Drive) : List Byte :=
  if fdcOp (fdcMaskedOp (reqByte req 0)) = .formatTrack then
    let p := (d.map Drive.pos).getD ⟨0, 0, 0⟩
    [BitVec.ofNat 8 p.cylinder, BitVec.ofNat 8 p.head, BitVec.ofNat 8 p.sector, reqByte req 2]
  else [reqByte req 2, reqByte req 3, reqByte req 4, reqByte req 5]

/-- `FdcNotReadyResult` (R209): the full-length result of a transfer command whose Drive is not ready. -/
def State.fdcNotReady (s : State) (req : List Byte) : State :=
  let st := fdcStatus .notReady (fdcReqUnit req) (fdcReqHead req) false
  s.fdcFinish ([st.1, st.2.1, st.2.2] ++ notReadyChrn req (s.drive? (.floppy (fdcReqUnit req).toNat)))
    true st.1 .notReady

/-- `fdc.lastUnit <- u` and, where the Drive exists, `errorCode <- None` (spec/40_fdc_sequencer.md R165). -/
def State.fdcNameUnit (s : State) (u : BitVec 2) : State :=
  { s with fdc := { s.fdc with lastUnit := u } }.modifyDrive (.floppy u.toNat) Drive.clearError

/-- The start of a transfer command (R201, R202, R203): a Drive that is ready is prepared and its session opened; one
that is not raises `NotReady` and answers the full-length result. -/
def State.fdcOpenOrNotReady (s : State) (req : List Byte) (prepare : Drive → Drive) (dir : Direction) : State :=
  let u := fdcReqUnit req
  match s.drive? (.floppy u.toNat) with
  | none => s.fdcNotReady req
  | some d =>
    if s.floppyReady u d then
      (s.modifyDrive (.floppy u.toNat) prepare).openSession .fdc (some u.toNat) dir false
    else (s.modifyDrive (.floppy u.toNat) (Drive.raise .notReady)).fdcNotReady req

/-! ### The commands -/

/-- SPECIFY (R200). -/
def State.fdcSpecify (s : State) (_req : List Byte) : State := s.fdcFinish [] false 0x00#8 .none

/-- READ_DATA (R201). -/
def State.fdcReadData (s : State) (req : List Byte) : State :=
  let u := fdcReqUnit req
  ((s.fdcNameUnit u).modifyDrive (.floppy u.toNat) (loadFdcTransfer req)).fdcOpenOrNotReady req id .read

/-- WRITE_DATA (R202). -/
def State.fdcWriteData (s : State) (req : List Byte) : State :=
  let u := fdcReqUnit req
  ((s.fdcNameUnit u).modifyDrive (.floppy u.toNat) (loadFdcTransfer req)).fdcOpenOrNotReady req id .write

/-- What FORMAT_TRACK loads into a Drive that is ready (R203). -/
def loadFormat (req : List Byte) (d : Drive) : Drive :=
  { d with
    pos := { d.pos with head := (fdcReqHead req).toNat }
    geo := { d.geo with bytesPerSector := sectorBytes (reqByte req 2) }
    sectorEnd := reqByte req 3
    fmt := ⟨[0#8, 0#8, 0#8, 0#8], 0, reqByte req 5, 0⟩
    cur := .load ((reqByte req 3).toNat * sectorBytes (reqByte req 2)) }

/-- FORMAT_TRACK (R203). -/
def State.fdcFormatTrack (s : State) (req : List Byte) : State :=
  (s.fdcNameUnit (fdcReqUnit req)).fdcOpenOrNotReady req (loadFormat req) .format

/-- `cylinder <- c`; with an image mounted the disk-change flag is cleared (R204, R205). -/
def Drive.stepTo (c : Nat) (d : Drive) : Drive :=
  { d with
    pos := { d.pos with cylinder := c }
    diskChanged := if d.disk.isSome then false else d.diskChanged }

/-- RECALIBRATE (R204). -/
def State.fdcRecalibrate (s : State) (req : List Byte) : State :=
  let u := fdcReqUnit req
  match (s.fdcNameUnit u).drive? (.floppy u.toNat) with
  | none => (s.fdcNameUnit u).fdcFinish [] true (fdcStatus .notReady u 0#1 false).1 .notReady
  | some _ =>
    ((s.fdcNameUnit u).modifyDrive (.floppy u.toNat) (Drive.stepTo 0)).fdcFinish [] true
      (fdcStatus .none u 0#1 true).1 .none

/-- SEEK (R205). -/
def State.fdcSeek (s : State) (req : List Byte) : State :=
  let u := fdcReqUnit req
  let hd := fdcReqHead req
  match (s.fdcNameUnit u).drive? (.floppy u.toNat) with
  | none => (s.fdcNameUnit u).fdcFinish [] true (fdcStatus .notReady u hd false).1 .notReady
  | some _ =>
    ((s.fdcNameUnit u).modifyDrive (.floppy u.toNat) (Drive.stepTo (reqByte req 2).toNat)).fdcFinish [] true
      (fdcStatus .none u hd true).1 .none

/-- The present cylinder of the last-accessed unit, 0 when it does not exist (R206). -/
def State.presentCylinder (s : State) : Byte :=
  match s.drive? (.floppy s.fdc.lastUnit.toNat) with
  | some d => BitVec.ofNat 8 d.pos.cylinder
  | none => 0x00#8

/-- SENSE_INTERRUPT_STATUS (R206). -/
def State.fdcSenseInterruptStatus (s : State) (_req : List Byte) : State :=
  s.fdcFinish [s.fdc.endStatus, s.presentCylinder] false 0x00#8 .none

/-- Unknown opcode (R207). -/
def State.fdcUnknown (s : State) (req : List Byte) : State :=
  (s.emit (.fdcUnsupported (reqByte req 0))).fdcFinish [] false 0x00#8 .none

/-! ### The format session (R210) -/

/-- `FdcFormatFill` from the k-th byte on: `k` more filler bytes. -/
def formatFillBytes : Nat → Bay → WriteAnswer × Bay
  | 0, b =>
    (.accepted, { b with drive := { b.drive with
      fmt := { b.drive.fmt with sectorsFormatted := b.drive.fmt.sectorsFormatted + 1 } } })
  | k + 1, b =>
    match writeByte 1 b.drive.fmt.filler b with
    | (.error, b') => (.error, b')
    | (_, b') => formatFillBytes k b'

/-- `FdcFormatFill` (R210): fills the active sector. -/
def formatFill (b : Bay) : WriteAnswer × Bay := formatFillBytes b.drive.geo.bytesPerSector b

/-- One more ID byte (R210). -/
def Drive.takeIdByte (v : Byte) (d : Drive) : Drive :=
  { d with fmt := { d.fmt with idBuf := d.fmt.idBuf.set d.fmt.idCount v, idCount := d.fmt.idCount + 1 } }

/-- The four ID bytes set the position (R210). -/
def Drive.loadId (d : Drive) : Drive :=
  { d with
    fmt := { d.fmt with idCount := 0 }
    pos := ⟨(reqByte d.fmt.idBuf 0).toNat, (reqByte d.fmt.idBuf 1).toNat, (reqByte d.fmt.idBuf 2).toNat⟩ }

/-- `FdcFormatPush` (R210). -/
def formatPush (v : Byte) (b : Bay) : WriteAnswer × Bay :=
  if b.drive.errorCode ≠ .none then (.error, b)
  else if b.drive.sectorEnd.toNat ≤ b.drive.fmt.sectorsFormatted then (.error, b)
  else if b.drive.fmt.idCount + 1 < 4 then (.accepted, { b with drive := b.drive.takeIdByte v })
  else
    match nextSector 1 { b with drive := (b.drive.takeIdByte v).loadId } with
    | (.pending, b') => (.accepted, b')
    | (.found, b') => formatFill b'
    | (.done, b') => (.error, b')
    | (.failed, b') => (.error, b')

/-! ### The sequencer -/

/-- `FdcExecute` (spec/40_fdc_sequencer.md R165): the collected request is replayed to its command. -/
def State.fdcExecute (s : State) : State :=
  let req := s.fdc.fifo.request
  let s := { s with fdc := { s.fdc with phase := .execution, fifo := s.fdc.fifo.replayed } }
  match fdcOp (fdcMaskedOp (reqByte req 0)) with
  | .specify => s.fdcSpecify req
  | .writeData => s.fdcWriteData req
  | .readData => s.fdcReadData req
  | .recalibrate => s.fdcRecalibrate req
  | .senseInterruptStatus => s.fdcSenseInterruptStatus req
  | .formatTrack => s.fdcFormatTrack req
  | .seek => s.fdcSeek req
  | .unknown => s.fdcUnknown req

/-- `FdcDataWrite` (R162, R163, R164). -/
def fdcDataWrite (v : Byte) (s : State) : Out :=
  if s.fdc.enabled = false then .next s
  else if s.fdc.phase ≠ .command then .fault (.protocolViolation .dataWritePhase)
  else
    let s' := { s with fdc := { s.fdc with fifo := s.fdc.fifo.accept fdcReqLen v } }
    .next (if s'.fdc.fifo.full then s'.fdcExecute else s')

/-- `FdcDataRead` (R168, R169, R162). -/
def fdcDataRead (s : State) : Out :=
  if s.fdc.enabled = false then .fault (.protocolViolation .dataReadDisabled)
  else if s.fdc.phase ≠ .result then .fault (.protocolViolation .dataReadPhase)
  else
    let s' := { s with fdc := { s.fdc with
      fifo := s.fdc.fifo.next
      irq := false
      phase := if s.fdc.fifo.atLast then .command else .result } }
    .next (s'.reply (.byte s.fdc.fifo.head))

/-- `FdcOutputWrite` (R170, R171). -/
def State.fdcOutputWrite (s : State) (v : Byte) : State :=
  if v.getLsbD 2 = false then
    let s' := s.fdcControllerReset
    { s' with fdc := { s'.fdc with out := v } }
  else
    let s' := { s with fdc := { s.fdc with out := v } }
    if s.fdc.enabled = false ∧ v.getLsbD 3 = true then s'.raiseIrq .fdc else s'

/-- The disk-change status of the selected unit (spec/10_state.md R23): 0 when the unit does not exist. -/
def State.selectedChanged (s : State) : Bool :=
  match s.drive? (.floppy s.fdc.select.toNat) with
  | some d => d.diskChanged
  | none => false

/-- The ports 0x3F7 exist only with `Cfg.hasRatePort` (spec/20_memory.md R81). -/
def onRatePort (s : State) (next : State) : Out :=
  if s.cfg.hasRatePort then .next next else .refused .portNotClaimed

/-! ### The meanings -/

/-- FDC.SPECIFY: its request is written to 0x3F5 (R200, R156). -/
def execFdcSpecify (m : BitVec 3) (t1 t2 : Byte) (s : State) : Out :=
  deliver fdcDataWrite (Instr.fdcSpecify m t1 t2).bytes s

/-- FDC.WRITE_DATA (R202). -/
def execFdcWriteData (m : BitVec 3) (us : UnitSelect) (c h r n eot gpl dtl : Byte) (s : State) : Out :=
  deliver fdcDataWrite (Instr.fdcWriteData m us c h r n eot gpl dtl).bytes s

/-- FDC.READ_DATA (R201). -/
def execFdcReadData (m : BitVec 3) (us : UnitSelect) (c h r n eot gpl dtl : Byte) (s : State) : Out :=
  deliver fdcDataWrite (Instr.fdcReadData m us c h r n eot gpl dtl).bytes s

/-- FDC.RECALIBRATE (R204). -/
def execFdcRecalibrate (m : BitVec 3) (us : UnitSelect) (s : State) : Out :=
  deliver fdcDataWrite (Instr.fdcRecalibrate m us).bytes s

/-- FDC.SENSE_INTERRUPT_STATUS (R206). -/
def execFdcSenseInterruptStatus (m : BitVec 3) (s : State) : Out :=
  deliver fdcDataWrite (Instr.fdcSenseInterruptStatus m).bytes s

/-- FDC.FORMAT_TRACK (R203). -/
def execFdcFormatTrack (m : BitVec 3) (us : UnitSelect) (n sc gpl d : Byte) (s : State) : Out :=
  deliver fdcDataWrite (Instr.fdcFormatTrack m us n sc gpl d).bytes s

/-- FDC.SEEK (R205). -/
def execFdcSeek (m : BitVec 3) (us : UnitSelect) (ncn : Byte) (s : State) : Out :=
  deliver fdcDataWrite (Instr.fdcSeek m us ncn).bytes s

/-- FDC.UNKNOWN (R207). -/
def execFdcUnknown (m : BitVec 3) (op : BitVec 5) (s : State) : Out :=
  deliver fdcDataWrite (Instr.fdcUnknown m op).bytes s

/-- `OUT 3F2` (R170). -/
def execFdcOutOutput (v : Byte) (s : State) : Out := .next (s.fdcOutputWrite v)

/-- `IN 3F4` (R172): changes nothing. -/
def execFdcInMainStatus (s : State) : Out := .next (s.reply (.byte s.fdc.mainStatus))

/-- `OUT 3F5` (R163). -/
def execFdcOutData (v : Byte) (s : State) : Out := fdcDataWrite v s

/-- `IN 3F5` (R168). -/
def execFdcInData (s : State) : Out := fdcDataRead s

/-- `IN 3F7` (R174): bit 7 the disk-change status of the selected unit, bits 6:0 any value (U7). -/
def execFdcInInput (s : State) : Out :=
  onRatePort s (s.reply (.byte (inputByte s.selectedChanged (Config.freeInputBits s.drawn))))

/-- `OUT 3F7` (R175). -/
def execFdcOutControl (v : Byte) (s : State) : Out :=
  onRatePort s { s with fdc := { s.fdc with rate := v } }

end Sys2Proof.Machine
end

