-- ==== Sys2Proof/Machine/Xtc.lean ====
section
/-! DEFINITION. The XTC variant of the HDC (spec/42_hdc_xtc.md): its commands, the sequencer, the port handlers, and
the meanings of its instructions. -/

namespace Sys2Proof.Machine

/-! ### End of a command -/

/-- Writes `d.senseCode` (R233). -/
def Drive.latchSense (e : Err) (d : Drive) : Drive := { d with senseCode := e }

/-- `XtcFinish` (R233); `d` is `none` when no Drive takes part. -/
def State.xtcFinish (s : State) (u : BitVec 1) (d : Option Nat) (err : Err) (pre : List Byte) (latch : Bool) :
    State :=
  let s1 :=
    match latch, d with
    | true, some k => s.modifyDrive (.fixed k) (Drive.latchSense err)
    | true, none => s
    | false, _ => s
  let res := pre ++ [xtcCompletion err u]
  let s2 := { s1 with xtc := { s1.xtc with fifo := s1.xtc.fifo.loadResult res, phase := .result } }
  s2.endOfCommandIrq .xtc err

/-- `XtcTransferDone` (R246). -/
def State.xtcTransferDone (s : State) (d : Option Nat) (err : Err) : State :=
  s.xtcFinish (xtcReqDrive s.xtc.fifo.buffer) d err [] true

/-- The Drive a command block addresses, as the unit number of an existing Drive (R232). -/
def State.xtcUnit (s : State) (req : List Byte) : Option Nat :=
  match s.drive? (.fixed (xtcReqDrive req).toNat) with
  | some _ => some (xtcReqDrive req).toNat
  | none => none

/-! ### The commands -/

/-- `XtcLoadTransfer` (R246). -/
def loadXtcTransfer (req : List Byte) (d : Drive) : Drive :=
  { d with
    pos := ⟨xtcReqCylinder req, (xtcReqHead req).toNat, (xtcReqSector req).toNat⟩
    cur := .load (xtcReqCount req * d.geo.bytesPerSector) }

/-- A command that needs an existing Drive and then always succeeds (R240, R241, R245): `f` is its effect. -/
def State.xtcOnDrive (s : State) (req : List Byte) (f : Drive → Drive) : State :=
  let u := xtcReqDrive req
  match s.xtcUnit req with
  | none => s.xtcFinish u none .notReady [] true
  | some k => (s.modifyDrive (.fixed k) f).xtcFinish u (some k) .none [] true

/-- TEST_READY (R240). -/
def State.xtcTestReady (s : State) (req : List Byte) : State := s.xtcOnDrive req id

/-- The cylinder becomes 0 (R241). -/
def Drive.toCylinderZero (d : Drive) : Drive := { d with pos := { d.pos with cylinder := 0 } }

/-- RECALIBRATE (R241). -/
def State.xtcRecalibrate (s : State) (req : List Byte) : State := s.xtcOnDrive req Drive.toCylinderZero

/-- The cylinder and head become the given ones (R245, spec/43_hdc_atc.md R291). -/
def Drive.seekTo (c h : Nat) (d : Drive) : Drive := { d with pos := { d.pos with cylinder := c, head := h } }

/-- SEEK (R245). -/
def State.xtcSeek (s : State) (req : List Byte) : State :=
  s.xtcOnDrive req (Drive.seekTo (xtcReqCylinder req) (xtcReqHead req).toNat)

/-- The four sense bytes (R242, spec/30_encoding.md R138). -/
def senseBytes (u : BitVec 1) (d : Drive) : List Byte :=
  [xtcCode d.senseCode, BitVec.ofNat 8 ((u.toNat <<< 5) + d.pos.head % 32),
    BitVec.ofNat 8 ((((d.pos.cylinder >>> 8) % 4) <<< 6) + d.pos.sector % 64), BitVec.ofNat 8 d.pos.cylinder]

/-- The sense bytes of a Drive that does not exist (R242). -/
def senseBytesAbsent (u : BitVec 1) : List Byte :=
  [xtcCode .notReady, BitVec.ofNat 8 (u.toNat <<< 5), 0x00#8, 0x00#8]

/-- REQUEST_SENSE (R242). -/
def State.xtcRequestSense (s : State) (req : List Byte) : State :=
  let u := xtcReqDrive req
  let pre :=
    match s.drive? (.fixed u.toNat) with
    | none => senseBytesAbsent u
    | some d => senseBytes u d
  s.xtcFinish u (s.xtcUnit req) .none pre false

/-- A disk transfer (R243, R244): absent drive, DMA disabled, or an open session. -/
def State.xtcTransfer (s : State) (req : List Byte) (dir : Direction) : State :=
  let u := xtcReqDrive req
  match s.xtcUnit req with
  | none => s.xtcFinish u none .notReady [] true
  | some k =>
    let s1 := s.modifyDrive (.fixed k) (loadXtcTransfer req)
    if s.xtc.dmaEnabled then s1.openSession .xtc (some k) dir false
    else (s1.modifyDrive (.fixed k) (Drive.raise .notReady)).xtcFinish u (some k) .notReady [] true

/-- READ_DATA (R243). -/
def State.xtcReadData (s : State) (req : List Byte) : State := s.xtcTransfer req .read

/-- WRITE_DATA (R244). -/
def State.xtcWriteData (s : State) (req : List Byte) : State := s.xtcTransfer req .write

/-- Captures the parameters of drive `u` (spec/10_state.md R58). -/
def Xtc.setParams (x : Xtc) (u : BitVec 1) (p : InitParams) : Xtc :=
  if u = 0#1 then { x with initParams0 := p } else { x with initParams1 := p }

/-- The programmed cylinders and heads (R247). -/
def Drive.program (p : InitParams) (d : Drive) : Drive :=
  { d with geo := { d.geo with cylinders := p.maxCylinders.toNat, heads := p.heads.toNat } }

/-- INITIALIZE_DRIVE_CHARACTERISTICS (R247). -/
def State.xtcInitDrive (s : State) (req : List Byte) : State :=
  let u := xtcReqDrive req
  let p := xtcReqParams req
  let s1 := { s with xtc := s.xtc.setParams u p }
  match s.xtcUnit req with
  | some k =>
    ((s1.modifyDrive (.fixed k) (Drive.program p)).verifyGeometry k).xtcFinish u (some k) .none [] true
  | none =>
    if s1.xtc.allowInitFail then
      { s1 with xtc := { s1.xtc with allowInitFail := false } }.xtcFinish u none .notReady [] true
    else s1.xtcFinish u none .none [] true

/-- A buffer session (R248, R249). -/
def State.xtcBuffer (s : State) (req : List Byte) (toMemory : Bool) : State :=
  let u := xtcReqDrive req
  let s1 := { s with xtc := { s.xtc with bufIndex := 0 } }
  if s.xtc.dmaEnabled then s1.openSession .xtc none .buffer toMemory
  else s1.xtcFinish u (s.xtcUnit req) .notReady [] true

/-- READ_BUFFER (R248). -/
def State.xtcReadBuffer (s : State) (req : List Byte) : State := s.xtcBuffer req true

/-- WRITE_BUFFER (R249). -/
def State.xtcWriteBuffer (s : State) (req : List Byte) : State := s.xtcBuffer req false

/-- A diagnostic command, which always reports success (R250, R252, R253). -/
def State.xtcDiagnostic (s : State) (req : List Byte) : State :=
  s.xtcFinish (xtcReqDrive req) (s.xtcUnit req) .none [] true

/-- RAM_DIAGNOSTIC (R250). -/
def State.xtcRamDiagnostic (s : State) (req : List Byte) : State := s.xtcDiagnostic req

/-- DRIVE_DIAGNOSTIC (R252). -/
def State.xtcDriveDiagnostic (s : State) (req : List Byte) : State := s.xtcDiagnostic req

/-- CONTROLLER_DIAGNOSTIC (R253). -/
def State.xtcControllerDiagnostic (s : State) (req : List Byte) : State := s.xtcDiagnostic req

/-- Unknown opcode (R251). -/
def State.xtcUnknown (s : State) (req : List Byte) : State :=
  let u := xtcReqDrive req
  ((s.emit (.xtcUnsupported (reqByte req 0))).modifyDrive (.fixed u.toNat) (Drive.raise .commandAborted)).xtcFinish
    u (s.xtcUnit req) .commandAborted [] true

/-! ### The sequencer -/

/-- `XtcExecute` (R232). -/
def State.xtcExecute (s : State) : State :=
  let req := s.xtc.fifo.request
  let s := { s with xtc := { s.xtc with phase := .execution, fifo := s.xtc.fifo.replayed } }
  let s := s.modifyDrive (.fixed (xtcReqDrive req).toNat) Drive.clearError
  match xtcOp (reqByte req 0) with
  | .testReady => s.xtcTestReady req
  | .recalibrate => s.xtcRecalibrate req
  | .requestSense => s.xtcRequestSense req
  | .readData => s.xtcReadData req
  | .writeData => s.xtcWriteData req
  | .seek => s.xtcSeek req
  | .initDrive => s.xtcInitDrive req
  | .readBuffer => s.xtcReadBuffer req
  | .writeBuffer => s.xtcWriteBuffer req
  | .ramDiagnostic => s.xtcRamDiagnostic req
  | .driveDiagnostic => s.xtcDriveDiagnostic req
  | .controllerDiagnostic => s.xtcControllerDiagnostic req
  | .unknown => s.xtcUnknown req

/-- The XTC's ports exist only with `Cfg.hdcVariant = XTC` (spec/20_memory.md R82). -/
def onXtc (s : State) (o : Out) : Out :=
  if s.cfg.hdcVariant = .xtc then o else .refused .portNotClaimed

/-- `XtcDataWrite` (R231, R254). -/
def xtcDataWrite (v : Byte) (s : State) : Out :=
  onXtc s <|
    if s.xtc.phase ≠ .command then .fault (.protocolViolation .dataWritePhase)
    else
      let s' := { s with xtc := { s.xtc with fifo := s.xtc.fifo.accept xtcReqLen v } }
      .next (if s'.xtc.fifo.full then s'.xtcExecute else s')

/-- `XtcDataRead` (R234, R254). -/
def xtcDataRead (s : State) : Out :=
  onXtc s <|
    if s.xtc.phase ≠ .result then .fault (.protocolViolation .dataReadPhase)
    else
      let s' := { s with xtc := { s.xtc with
        fifo := s.xtc.fifo.next
        irq := false
        phase := if s.xtc.fifo.atLast then .command else .result
        selected := if s.xtc.fifo.atLast then false else s.xtc.selected } }
      .next (s'.reply (.byte s.xtc.fifo.head))

/-! ### The meanings -/

/-- XTC.TEST_READY: its command block is written to 0x320 (R240, R156). -/
def execXtcTestReady (b : XtcBlock) (s : State) : Out :=
  deliver xtcDataWrite (Instr.xtcTestReady b).bytes s

/-- XTC.RECALIBRATE (R241). -/
def execXtcRecalibrate (b : XtcBlock) (s : State) : Out :=
  deliver xtcDataWrite (Instr.xtcRecalibrate b).bytes s

/-- XTC.REQUEST_SENSE (R242). -/
def execXtcRequestSense (b : XtcBlock) (s : State) : Out :=
  deliver xtcDataWrite (Instr.xtcRequestSense b).bytes s

/-- XTC.READ_DATA (R243). -/
def execXtcReadData (b : XtcBlock) (s : State) : Out :=
  deliver xtcDataWrite (Instr.xtcReadData b).bytes s

/-- XTC.WRITE_DATA (R244). -/
def execXtcWriteData (b : XtcBlock) (s : State) : Out :=
  deliver xtcDataWrite (Instr.xtcWriteData b).bytes s

/-- XTC.SEEK (R245). -/
def execXtcSeek (b : XtcBlock) (s : State) : Out :=
  deliver xtcDataWrite (Instr.xtcSeek b).bytes s

/-- XTC.INITIALIZE_DRIVE_CHARACTERISTICS (R247). -/
def execXtcInitDrive (b : XtcBlock) (p : InitParams) (s : State) : Out :=
  deliver xtcDataWrite (Instr.xtcInitDrive b p).bytes s

/-- XTC.READ_BUFFER (R248). -/
def execXtcReadBuffer (b : XtcBlock) (s : State) : Out :=
  deliver xtcDataWrite (Instr.xtcReadBuffer b).bytes s

/-- XTC.WRITE_BUFFER (R249). -/
def execXtcWriteBuffer (b : XtcBlock) (s : State) : Out :=
  deliver xtcDataWrite (Instr.xtcWriteBuffer b).bytes s

/-- XTC.RAM_DIAGNOSTIC (R250). -/
def execXtcRamDiagnostic (b : XtcBlock) (s : State) : Out :=
  deliver xtcDataWrite (Instr.xtcRamDiagnostic b).bytes s

/-- XTC.DRIVE_DIAGNOSTIC (R252). -/
def execXtcDriveDiagnostic (b : XtcBlock) (s : State) : Out :=
  deliver xtcDataWrite (Instr.xtcDriveDiagnostic b).bytes s

/-- XTC.CONTROLLER_DIAGNOSTIC (R253). -/
def execXtcControllerDiagnostic (b : XtcBlock) (s : State) : Out :=
  deliver xtcDataWrite (Instr.xtcControllerDiagnostic b).bytes s

/-- XTC.UNKNOWN (R251). -/
def execXtcUnknown (c0 : Byte) (b : XtcBlock) (s : State) : Out :=
  deliver xtcDataWrite (Instr.xtcUnknown c0 b).bytes s

/-- `OUT 320` (R231). -/
def execXtcOutData (v : Byte) (s : State) : Out := xtcDataWrite v s

/-- `IN 320` (R234). -/
def execXtcInData (s : State) : Out := xtcDataRead s

/-- `IN 321` (R235): changes nothing. -/
def execXtcInStatus (s : State) : Out := onXtc s (.next (s.reply (.byte s.xtc.status)))

/-- `OUT 321`, any value (R236): controller reset. -/
def execXtcOutReset (_v : Byte) (s : State) : Out := onXtc s (.next s.xtcControllerReset)

/-- `IN 322` (R237): changes nothing. -/
def execXtcInConfig (s : State) : Out := onXtc s (.next (s.reply (.byte (xtcConfig s.cfg))))

/-- `OUT 322`, any value (R238): the select pulse. -/
def execXtcOutSelect (_v : Byte) (s : State) : Out :=
  onXtc s (.next { s with xtc := { s.xtc with selected := true } })

/-- `OUT 323` (R239). -/
def execXtcOutPattern (v : Byte) (s : State) : Out :=
  onXtc s (.next { s with xtc := { s.xtc with pattern := v } })

/-- `OUT 327`, `OUT 32B`, `OUT 32F` (R239): accepted, no state change. DESIGN CHOICE (notes/assumptions/21.md): no
diagnostic event, which spec/60_exceptions.md R415 leaves to a model's option. -/
def execXtcOutNoise (_p : NoisePort) (_v : Byte) (s : State) : Out := onXtc s (.next s)

end Sys2Proof.Machine
end

