-- ==== Sys2Proof/Machine/Atc.lean ====
section
/-! DEFINITION. The ATC variant of the HDC (spec/43_hdc_atc.md): the task file, the programmed-I/O data path, the
commands, and the meanings of its instructions. -/

namespace Sys2Proof.Machine

/-! ### End of a command -/

/-- `AtcFinish` (R289). -/
def State.atcFinish (s : State) (err : Err) : State :=
  { s with atc := { s.atc with
    error := atcErrorByte err
    status := atcStatusByte err
    phase := .command
    dir := .none } }.endOfCommandIrq .atc err

/-- The `errorCode` of a Drive, `NotReady` when it does not exist. -/
def State.errorOf (s : State) (r : DriveRef) : Err :=
  match s.drive? r with
  | some d => d.errorCode
  | none => .notReady

/-- The Drive of the task file (R283). -/
def State.atcRef (s : State) : DriveRef := .fixed s.atc.drive.toNat

/-! ### The programmed-I/O data path -/

/-- The position and the byte count of the task file (R287). -/
def loadAtcTransfer (a : Atc) (d : Drive) : Drive :=
  { d with
    pos := ⟨a.cylinder, a.head.toNat, a.secNum.toNat⟩
    cur := .load (a.count * d.geo.bytesPerSector) }

/-- `AtcPrimed` (R287): the next sector is active, or the lookup failed. -/
def State.atcPrimed (s : State) (r : DriveRef) (found : Bool) : State :=
  if found then
    let s1 := { s with atc := { s.atc with status := 0x58#8 } }
    if s.atc.dir = .read then s1.raiseIfArmed .atc else s1
  else s.atcFinish (s.errorOf r)

/-- `AtcPrime` (R287). -/
def State.atcPrime (s : State) (r : DriveRef) : State :=
  let s0 := { s with atc := { s.atc with status := 0x80#8 } }
  match s0.runBay r .failed (nextSector 1) with
  | (.pending, s1) => s1
  | (.found, s1) => s1.atcPrimed r true
  | (.done, s1) => s1.atcPrimed r false
  | (.failed, s1) => s1.atcPrimed r false

/-- `AtcWriteBack` (R297). -/
def Atc.writeBack (a : Atc) (p : Pos) : Atc :=
  { a with
    secNum := BitVec.ofNat 8 p.sector
    cylLo := BitVec.ofNat 8 p.cylinder
    cylHi := BitVec.ofNat 8 (p.cylinder >>> 8)
    driveHead := (a.driveHead &&& 0xF0#8) + BitVec.ofNat 8 (p.head % 16) }

/-- `AtcSectorDone` (R288); `d` is the Drive after the advance. -/
def State.atcSectorDone (s : State) (r : DriveRef) (d : Drive) : State :=
  let s1 := { s with atc := { s.atc with secCount := s.atc.secCount - 1#8 }.writeBack d.pos }
  if d.cur.bytesRemaining = 0 then
    if s.atc.dir = .write then s1.atcFinish .none
    else { s1 with atc := { s1.atc with status := 0x50#8, phase := .command, dir := .none } }
  else (if s.atc.dir = .write then s1.raiseIfArmed .atc else s1).atcPrime r

/-- The sector's last byte has moved when no sector is active any more (R284, R285). -/
def State.atcByteDone (s : State) (r : DriveRef) : State :=
  match s.drive? r with
  | some d => if d.cur.activeSector = none then s.atcSectorDone r d else s
  | none => s

/-- `AtcDataRead` (R284). -/
def State.atcDataRead (s : State) : State :=
  let r := s.atcRef
  match s.runBay r .eof (readByte 1) with
  | (.byte v, s1) => (s1.atcByteDone r).reply (.byte v)
  | (.eof, s1) => (s1.atcFinish (s1.errorOf r)).reply (.byte 0x00#8)
  | (.pending, s1) => (s1.atcFinish (s1.errorOf r)).reply (.byte 0x00#8)

/-- `AtcDataWrite` (R285). -/
def State.atcDataWrite (s : State) (v : Byte) : State :=
  let r := s.atcRef
  match s.runBay r .error (writeByte 1 v) with
  | (.accepted, s1) => s1.atcByteDone r
  | (.error, s1) => s1.atcFinish (s1.errorOf r)
  | (.pending, s1) => s1.atcFinish (s1.errorOf r)

/-! ### The commands -/

/-- A command that needs an existing Drive and then succeeds (R290, R291). -/
def State.atcOnDrive (s : State) (f : Drive → Drive) : State :=
  match s.drive? s.atcRef with
  | none => s.atcFinish .notReady
  | some _ => (s.modifyDrive s.atcRef f).atcFinish .none

/-- RESTORE (R290). -/
def State.atcRestore (s : State) : State := s.atcOnDrive Drive.toCylinderZero

/-- SEEK (R291). -/
def State.atcSeek (s : State) : State := s.atcOnDrive (Drive.seekTo s.atc.cylinder s.atc.head.toNat)

/-- A data command (R292, R293): the transfer is loaded and its first sector primed. -/
def State.atcTransfer (s : State) (dir : AtcDir) : State :=
  match s.drive? s.atcRef with
  | none => s.atcFinish .notReady
  | some _ =>
    let s1 := s.modifyDrive s.atcRef (loadAtcTransfer s.atc)
    { s1 with atc := { s1.atc with phase := .execution, dir := dir } }.atcPrime s.atcRef

/-- READ_DATA (R292). -/
def State.atcReadData (s : State) : State := s.atcTransfer .read

/-- WRITE_DATA (R293). -/
def State.atcWriteData (s : State) : State := s.atcTransfer .write

/-- The geometry of the task file (R294). -/
def Drive.setTrack (heads sectors : Nat) (d : Drive) : Drive :=
  { d with geo := { d.geo with heads := heads, sectorsPerTrack := sectors } }

/-- SET_PARAMETERS (R294). -/
def State.atcSetParameters (s : State) : State :=
  match s.drive? s.atcRef with
  | none => s.atcFinish .notReady
  | some _ =>
    ((s.modifyDrive s.atcRef (Drive.setTrack (s.atc.head.toNat + 1) s.atc.secCount.toNat)).verifyGeometry
      s.atc.drive.toNat).atcFinish .none

/-- DIAGNOSE (R295). -/
def State.atcDiagnose (s : State) : State :=
  { s with atc := { s.atc with error := 0x01#8, status := 0x50#8 } }.raiseIfArmed .atc

/-- Unknown command byte (R296). -/
def State.atcUnknown (s : State) (v : Byte) : State :=
  ((s.emit (.atcUnsupported v)).modifyDrive s.atcRef (Drive.raise .commandAborted)).atcFinish .commandAborted

/-! ### The port handlers -/

/-- The ATC's ports exist only with `Cfg.hdcVariant = ATC` (spec/20_memory.md R83). -/
def onAtc (s : State) (o : Out) : Out :=
  if s.cfg.hdcVariant = .atc then o else .refused .portNotClaimed

/-- The command byte is dispatched on the task file (R283). -/
def State.atcExecute (s : State) (v : Byte) : State :=
  let s := { s with atc := { s.atc with command := v, error := 0x00#8 } }
  let s := s.modifyDrive s.atcRef Drive.clearError
  match atcOp v with
  | .restore => s.atcRestore
  | .readData => s.atcReadData
  | .writeData => s.atcWriteData
  | .seek => s.atcSeek
  | .diagnose => s.atcDiagnose
  | .setParameters => s.atcSetParameters
  | .unknown => s.atcUnknown v

/-- `AtcCommandWrite` (R283, R298). -/
def atcCommandWrite (v : Byte) (s : State) : Out :=
  onAtc s <|
    if s.atc.phase ≠ .command then .fault (.protocolViolation .atcAccess)
    else .next (s.atcExecute v)

/-- The precondition of a data access of direction `dir` (R298). -/
def Atc.dataReady (a : Atc) (dir : AtcDir) : Bool := a.phase == .execution && a.dir == dir && a.dataReq

/-- The register a task-file port reads (R281, spec/20_memory.md R83). -/
def Atc.readReg (a : Atc) : TaskReg → Byte
  | .errorWprecomp => a.error
  | .secCount => a.secCount
  | .secNum => a.secNum
  | .cylLo => a.cylLo
  | .cylHi => a.cylHi
  | .driveHead => a.driveHead

/-- The register a task-file port writes (R281). -/
def Atc.writeReg (a : Atc) (reg : TaskReg) (v : Byte) : Atc :=
  match reg with
  | .errorWprecomp => { a with wprecomp := v }
  | .secCount => { a with secCount := v }
  | .secNum => { a with secNum := v }
  | .cylLo => { a with cylLo := v }
  | .cylHi => { a with cylHi := v }
  | .driveHead => { a with driveHead := v }

/-- `AtcFdrWrite` (R286). -/
def State.atcFdrWrite (s : State) (v : Byte) : State :=
  let s1 := if v.getLsbD 2 = true then s.atcControllerReset else s
  { s1 with atc := { s1.atc with fdr := v } }

/-! ### The meanings -/

/-- ATC.RESTORE: its command byte is written to 0x1F7 (R290). -/
def execAtcRestore (rate : BitVec 4) (s : State) : Out :=
  deliver atcCommandWrite (Instr.atcRestore rate).bytes s

/-- ATC.READ_DATA (R292). -/
def execAtcReadData (retry : BitVec 1) (s : State) : Out :=
  deliver atcCommandWrite (Instr.atcReadData retry).bytes s

/-- ATC.WRITE_DATA (R293). -/
def execAtcWriteData (retry : BitVec 1) (s : State) : Out :=
  deliver atcCommandWrite (Instr.atcWriteData retry).bytes s

/-- ATC.SEEK (R291). -/
def execAtcSeek (rate : BitVec 4) (s : State) : Out :=
  deliver atcCommandWrite (Instr.atcSeek rate).bytes s

/-- ATC.DIAGNOSE (R295). -/
def execAtcDiagnose (s : State) : Out := deliver atcCommandWrite Instr.atcDiagnose.bytes s

/-- ATC.SET_PARAMETERS (R294). -/
def execAtcSetParameters (s : State) : Out := deliver atcCommandWrite Instr.atcSetParameters.bytes s

/-- ATC.UNKNOWN (R296). -/
def execAtcUnknown (v : Byte) (s : State) : Out := deliver atcCommandWrite (Instr.atcUnknown v).bytes s

/-- `IN 1F0` (R284, R298). -/
def execAtcInData (s : State) : Out :=
  onAtc s (if s.atc.dataReady .read then .next s.atcDataRead else .fault (.protocolViolation .atcAccess))

/-- `OUT 1F0` (R285, R298). -/
def execAtcOutData (v : Byte) (s : State) : Out :=
  onAtc s (if s.atc.dataReady .write then .next (s.atcDataWrite v) else .fault (.protocolViolation .atcAccess))

/-- `IN 1F1` to `IN 1F6`, `OUT 1F1` to `OUT 1F6` (R281, R298). -/
def execAtcTaskfile (reg : TaskReg) (w : Option Byte) (s : State) : Out :=
  onAtc s <|
    match w with
    | none => .next (s.reply (.byte (s.atc.readReg reg)))
    | some v =>
      if s.atc.phase = .command then .next { s with atc := s.atc.writeReg reg v }
      else .fault (.protocolViolation .atcAccess)

/-- `IN 1F7` (R282): status, clears the pending interrupt. -/
def execAtcInStatus (s : State) : Out :=
  onAtc s (.next ((s.clearIrq .atc).reply (.byte s.atc.status)))

/-- `OUT 1F7` (R283). -/
def execAtcOutCommand (v : Byte) (s : State) : Out := atcCommandWrite v s

/-- `IN 3F6` (R286): status, changes nothing. -/
def execAtcInAltStatus (s : State) : Out := onAtc s (.next (s.reply (.byte s.atc.status)))

/-- `OUT 3F6` (R286). -/
def execAtcOutFdr (v : Byte) (s : State) : Out := onAtc s (.next (s.atcFdrWrite v))

end Sys2Proof.Machine
end

