-- ==== Sys2Proof/Machine/Agents.lean ====
section
/-! DEFINITION. The steps that are no instruction of the opcode table (spec/30_encoding.md R155): the DMA peer's
(spec/44_dma_bridge.md), the Disk Resolver's (spec/45_geometry.md R364), the notification hook and the chipset's mask
(spec/60_exceptions.md R410 to R412), mount and unmount, save and restore, power-up and machine reset
(spec/70_reset_and_hazards.md). A step that is not enabled is refused. -/

namespace Sys2Proof.Machine

/-! ### The DMA peer -/

/-- The error a session ends with (R327): an explicit error, else the `NotReady` fallback of a session closed short,
else `Incomplete` for an XTC disk transfer with bytes outstanding. -/
def closeError (c : Chan) (ss : Session) (d : Option Drive) (completed : Bool) : Err :=
  let e := (d.map Drive.errorCode).getD .none
  if e ≠ .none then e
  else if completed = false then .notReady
  else
    match c, ss.direction, d with
    | .xtc, .read, some d => if 0 < d.cur.bytesRemaining then .incomplete else .none
    | .xtc, .write, some d => if 0 < d.cur.bytesRemaining then .incomplete else .none
    | _, _, _ => .none

/-- The Drive of a session; a `Buffer` session has none. -/
def State.sessionDrive (s : State) (c : Chan) (ss : Session) : Option Drive :=
  ss.drive.bind fun u => s.drive? (c.drive u)

/-- What a close writes on the session's Drive (R327). -/
def Drive.closeWith (e : Err) (d : Drive) : Drive :=
  { d with errorCode := e, cur := { d.cur with pending := false } }

/-- Changes the Drive of a session, if it has one. -/
def State.modifySessionDrive (s : State) (c : Chan) (ss : Session) (f : Drive → Drive) : State :=
  match ss.drive with
  | some u => s.modifyDrive (c.drive u) f
  | none => s

/-- The Drive whose `senseCode` the end of an XTC session latches: the session's, and after a `Buffer` session, which
has none (R328), the one the command block addresses: every XTC command but REQUEST_SENSE latches its outcome
(spec/90_conflicts.md C4, spec/70_reset_and_hazards.md R454, notes/assumptions/11.md). -/
def State.latchedUnit (s : State) (ss : Session) : Option Nat :=
  match ss.drive with
  | some u => some u
  | none => s.xtcUnit s.xtc.fifo.buffer

/-- `Continuation` (R328). -/
def State.continuation (s : State) (c : Chan) (ss : Session) (e : Err) : State :=
  match c with
  | .fdc => s.fdcTransferDone (s.sessionDrive .fdc ss) e
  | .xtc => s.xtcTransferDone (s.latchedUnit ss) e

/-- `CloseSession` (R327) of the open session `ss`. -/
def State.closeSession (s : State) (c : Chan) (ss : Session) (completed : Bool) : State :=
  let e := closeError c ss (s.sessionDrive c ss) completed
  ((s.modifySessionDrive c ss (Drive.closeWith e)).setSession c none).continuation c ss e

/-- `DMA.ENGAGE` (R321, R323). -/
def dmaEngage (c : Chan) (yes : Bool) (s : State) : Out :=
  match s.session c with
  | none => .refused .stepNotEnabled
  | some ss =>
    if ss.engaged then .refused .stepNotEnabled
    else if yes then .next (s.setSession c (some { ss with engaged := true }))
    else .next (s.closeSession c ss false)

/-- Is a lookup of the session's Drive pending? (R321) -/
def State.sessionPending (s : State) (c : Chan) (ss : Session) : Bool :=
  match s.sessionDrive c ss with
  | some d => d.cur.pending
  | none => false

/-- The answer of a pull (R324). -/
def ReadAnswer.answer : ReadAnswer → Answer
  | .byte v => .byte v
  | .eof => .eof
  | .pending => .pending

/-- The answer of a push (R325). -/
def WriteAnswer.answer : WriteAnswer → Answer
  | .accepted => .accepted
  | .error => .error
  | .pending => .pending

/-- Runs a cursor operation on the session's Drive. -/
def State.runSession {α : Type} (s : State) (c : Chan) (ss : Session) (absent : α) (f : Bay → α × Bay) : α × State :=
  match ss.drive with
  | some u => s.runBay (c.drive u) absent f
  | none => (absent, s)

/-- A pull from the sector buffer (R324, spec/42_hdc_xtc.md R248). -/
def State.bufferPull (s : State) : State :=
  if s.xtc.bufIndex = 512 then s.reply .eof
  else
    { s with xtc := { s.xtc with bufIndex := s.xtc.bufIndex + 1 } }.reply
      (.byte (s.xtc.sectorBuffer.getD s.xtc.bufIndex 0#8))

/-- A push into the sector buffer (R325, R249). -/
def State.bufferPush (s : State) (b : Byte) : State :=
  if s.xtc.bufIndex = 512 then s.reply .error
  else
    { s with xtc := { s.xtc with
      sectorBuffer := s.xtc.sectorBuffer.set s.xtc.bufIndex b
      bufIndex := s.xtc.bufIndex + 1 } }.reply .accepted

/-- `DMA.PULL` (R321, R324, R326). -/
def dmaPull (c : Chan) (s : State) : Out :=
  match s.session c with
  | none => .refused .stepNotEnabled
  | some ss =>
    if ss.engaged = false ∨ ss.toMemory = false ∨ s.sessionPending c ss = true then .refused .stepNotEnabled
    else
      match ss.direction with
      | .read =>
        let r := s.runSession c ss .eof (readByte c.bias)
        .next (r.2.reply r.1.answer)
      | .buffer => .next s.bufferPull
      | .write => .refused .stepNotEnabled
      | .format => .refused .stepNotEnabled

/-- `DMA.PUSH` (R321, R325, R326). -/
def dmaPush (c : Chan) (b : Byte) (s : State) : Out :=
  match s.session c with
  | none => .refused .stepNotEnabled
  | some ss =>
    if ss.engaged = false ∨ ss.toMemory = true ∨ s.sessionPending c ss = true then .refused .stepNotEnabled
    else
      match ss.direction with
      | .write =>
        let r := s.runSession c ss .error (writeByte c.bias b)
        .next (r.2.reply r.1.answer)
      | .format =>
        let r := s.runSession c ss .error (formatPush b)
        .next (r.2.reply r.1.answer)
      | .buffer => .next (s.bufferPush b)
      | .read => .refused .stepNotEnabled

/-- `DMA.CLOSE` (R321, R327). -/
def dmaClose (c : Chan) (completed : Bool) (s : State) : Out :=
  match s.session c with
  | none => .refused .stepNotEnabled
  | some ss => if ss.engaged then .next (s.closeSession c ss completed) else .refused .stepNotEnabled

/-! ### The Disk Resolver -/

/-- The answer a `RESOLVE` delivers: the one the lookup would have given (R364, R363 (a)). -/
def State.resolution (s : State) (r : DriveRef) (d : Drive) : Option Handle :=
  match d.disk with
  | some img =>
    if s.store.hasSector img (d.imageSector (s.bias r)) d.geo.bytesPerSector then
      some ⟨img, d.imageSector (s.bias r)⟩
    else none
  | none => none

/-- The Drive after the delivery (R364). -/
def Drive.resolved (h : Option Handle) (d : Drive) : Drive :=
  let d' := { d with cur := { d.cur with pending := false } }
  match h with
  | some k => { d' with cur := { d'.cur with activeSector := some k, byteOffset := 0 } }
  | none => d'.raise .noSectorFound

/-- Does the FDC's open session format this Drive? (R364) -/
def State.formatting (s : State) (r : DriveRef) : Bool :=
  match s.dma.fdc, r with
  | some ss, .floppy u => ss.drive == some u && ss.direction == .format
  | some _, .fixed _ => false
  | none, _ => false

/-- `RESOLVE` (R364): the delivery, then the waiting party. -/
def resolve (r : DriveRef) (s : State) : Out :=
  match s.drive? r with
  | none => .refused .stepNotEnabled
  | some d =>
    if d.cur.pending = false then .refused .stepNotEnabled
    else
      let h := s.resolution r d
      let s1 := s.modifyDrive r (Drive.resolved h)
      match r with
      | .fixed _ => .next (if s.cfg.hdcVariant = .atc then s1.atcPrimed r h.isSome else s1)
      | .floppy _ =>
        .next (if s.formatting r = true ∧ h.isSome = true then (s1.runBay r .error formatFill).2 else s1)

/-! ### The notification hook -/

/-- `HackInitFail` (spec/60_exceptions.md R411). -/
def State.hackInitFail (s : State) (a l : Byte) : State :=
  if s.cfg.hackInitFail = true ∧ s.cfg.hdcVariant = .xtc ∧ a = 0x00#8 ∧ 0x80 ≤ l.toNat ∧
      s.cfg.hdcDrives ≤ l.toNat - 0x80 then
    { s with xtc := { s.xtc with allowInitFail := true } }
  else s

/-- `HackSkipReset` (R412); `IrqMasked` is the chipset's mask bit (R390). -/
def State.hackSkipReset (s : State) (a : Byte) : Bool :=
  s.cfg.hackSuppressResetIrq && s.cfg.hdcVariant != .none && a == 0x00#8 && s.masked.contains s.cfg.fdcIrq

/-- `NOTIFY` (R410). -/
def notify (vec a l : Byte) (s : State) : Out :=
  if vec = 0x13#8 then .next ((s.hackInitFail a l).reply .go)
  else if vec = 0x40#8 then .next (s.reply (if s.hackSkipReset a then .skip else .go))
  else .refused .stepNotEnabled

/-- `MASK n` (spec/30_encoding.md R155). -/
def maskLine (n : Nat) (s : State) : Out :=
  .next (if s.masked.contains n then s else { s with masked := n :: s.masked })

/-- `UNMASK n`. -/
def unmaskLine (n : Nat) (s : State) : Out := .next { s with masked := s.masked.filter (· != n) }

/-! ### Media change -/

/-- Is the image attached to a Drive? (spec/70_reset_and_hazards.md R446) -/
def State.attached (s : State) (img : Nat) : Bool :=
  s.floppy.any (fun d => d.disk == some img) || s.fixed.any (fun d => d.disk == some img)

/-- Does an open session use floppy unit `u`? -/
def State.unitBusy (s : State) (u : Nat) : Bool :=
  match s.dma.fdc with
  | some ss => ss.drive == some u
  | none => false

/-- `MOUNT` (R446); a fixed Drive's image is never swapped. -/
def mount (r : DriveRef) (img : Nat) (s : State) : Out :=
  match r with
  | .fixed _ => .refused .stepNotEnabled
  | .floppy u =>
    match s.drive? r, s.store.imageGeometry img with
    | some d, some g =>
      if d.disk = none ∧ s.attached img = false ∧ s.unitBusy u = false then
        .next (s.modifyDrive r fun d => { d with disk := some img, geo := g, diskChanged := true })
      else .refused .stepNotEnabled
    | _, _ => .refused .stepNotEnabled

/-- `UNMOUNT` (R446). -/
def unmount (r : DriveRef) (s : State) : Out :=
  match r with
  | .fixed _ => .refused .stepNotEnabled
  | .floppy u =>
    match s.drive? r with
    | some d =>
      if d.disk ≠ none ∧ s.unitBusy u = false then
        .next (s.modifyDrive r fun d => { d with disk := none, diskChanged := true })
      else .refused .stepNotEnabled
    | none => .refused .stepNotEnabled

/-! ### Save and restore -/

/-- The copy of the whole state (R445). -/
def State.toSaved (s : State) : Saved := ⟨s.fdc, s.xtc, s.atc, s.floppy, s.fixed, s.dma⟩

/-- `SAVE` (R445): returns the copy, changes nothing. -/
def save (s : State) : Out := .next (s.reply (.saved s.toSaved))

/-- One Drive of a restoration (R445): the copy's, when the mounted image is the one the copy names; else its
power-up state with the image now mounted. -/
def State.restoreDrive (s : State) (r : DriveRef) (now : Drive) (copy : Option Drive) : Drive :=
  match copy with
  | some d => if d.disk = now.disk then d else s.powerUpDrive r now
  | none => s.powerUpDrive r now

/-- `RESTORE` (R445). -/
def State.restoreFrom (s : State) (c : Saved) : State :=
  { s with
    fdc := c.fdc
    xtc := c.xtc
    atc := c.atc
    dma := c.dma
    floppy := s.floppy.mapIdx fun u d => s.restoreDrive (.floppy u) d c.floppy[u]?
    fixed := s.fixed.mapIdx fun u d => s.restoreDrive (.fixed u) d c.fixed[u]? }

/-- `RESTORE` as a step. -/
def restore (c : Saved) (s : State) : Out := .next (s.restoreFrom c)

/-! ### The step of an agent -/

/-- One step of an agent that is no instruction (R155). `MRESET` is `PowerUp` (R434). -/
def runAgent (a : AgentStep) (s : State) : Out :=
  match a with
  | .dmaEngage c yes => dmaEngage c yes s
  | .dmaPull c => dmaPull c s
  | .dmaPush c b => dmaPush c b s
  | .dmaClose c completed => dmaClose c completed s
  | .resolve r => resolve r s
  | .notify vec a l => notify vec a l s
  | .mask n => maskLine n s
  | .unmask n => unmaskLine n s
  | .mount r img => mount r img s
  | .unmount r => unmount r s
  | .powerUp => .next s.powerUp
  | .mreset => .next s.powerUp
  | .save => save s
  | .restore c => restore c s

end Sys2Proof.Machine
end

