-- ==== Sys2Proof/Machine/Dispatch.lean ====
section
/-! DEFINITION. The dispatch of the instructions: one arm per constructor of Instr, each one direct call of its
meaning. -/

namespace Sys2Proof.Machine

def exec (i : Instr) (s : State) : Host.Outcome State Fault Refusal :=
  match i with
  | .fdcSpecify m t1 t2 => Sys2Proof.Machine.execFdcSpecify m t1 t2 s
  | .fdcWriteData m us c h r n eot gpl dtl => Sys2Proof.Machine.execFdcWriteData m us c h r n eot gpl dtl s
  | .fdcReadData m us c h r n eot gpl dtl => Sys2Proof.Machine.execFdcReadData m us c h r n eot gpl dtl s
  | .fdcRecalibrate m us => Sys2Proof.Machine.execFdcRecalibrate m us s
  | .fdcSenseInterruptStatus m => Sys2Proof.Machine.execFdcSenseInterruptStatus m s
  | .fdcFormatTrack m us n sc gpl d => Sys2Proof.Machine.execFdcFormatTrack m us n sc gpl d s
  | .fdcSeek m us ncn => Sys2Proof.Machine.execFdcSeek m us ncn s
  | .fdcUnknown m op => Sys2Proof.Machine.execFdcUnknown m op s
  | .xtcTestReady b => Sys2Proof.Machine.execXtcTestReady b s
  | .xtcRecalibrate b => Sys2Proof.Machine.execXtcRecalibrate b s
  | .xtcRequestSense b => Sys2Proof.Machine.execXtcRequestSense b s
  | .xtcReadData b => Sys2Proof.Machine.execXtcReadData b s
  | .xtcWriteData b => Sys2Proof.Machine.execXtcWriteData b s
  | .xtcSeek b => Sys2Proof.Machine.execXtcSeek b s
  | .xtcInitDrive b p => Sys2Proof.Machine.execXtcInitDrive b p s
  | .xtcReadBuffer b => Sys2Proof.Machine.execXtcReadBuffer b s
  | .xtcWriteBuffer b => Sys2Proof.Machine.execXtcWriteBuffer b s
  | .xtcRamDiagnostic b => Sys2Proof.Machine.execXtcRamDiagnostic b s
  | .xtcDriveDiagnostic b => Sys2Proof.Machine.execXtcDriveDiagnostic b s
  | .xtcControllerDiagnostic b => Sys2Proof.Machine.execXtcControllerDiagnostic b s
  | .xtcUnknown c0 b => Sys2Proof.Machine.execXtcUnknown c0 b s
  | .atcRestore stepRate => Sys2Proof.Machine.execAtcRestore stepRate s
  | .atcReadData retry => Sys2Proof.Machine.execAtcReadData retry s
  | .atcWriteData retry => Sys2Proof.Machine.execAtcWriteData retry s
  | .atcSeek stepRate => Sys2Proof.Machine.execAtcSeek stepRate s
  | .atcDiagnose => Sys2Proof.Machine.execAtcDiagnose s
  | .atcSetParameters => Sys2Proof.Machine.execAtcSetParameters s
  | .atcUnknown v => Sys2Proof.Machine.execAtcUnknown v s
  | .fdcOutOutput v => Sys2Proof.Machine.execFdcOutOutput v s
  | .fdcInMainStatus => Sys2Proof.Machine.execFdcInMainStatus s
  | .fdcOutData v => Sys2Proof.Machine.execFdcOutData v s
  | .fdcInData => Sys2Proof.Machine.execFdcInData s
  | .fdcInInput => Sys2Proof.Machine.execFdcInInput s
  | .fdcOutControl v => Sys2Proof.Machine.execFdcOutControl v s
  | .xtcOutData v => Sys2Proof.Machine.execXtcOutData v s
  | .xtcInData => Sys2Proof.Machine.execXtcInData s
  | .xtcInStatus => Sys2Proof.Machine.execXtcInStatus s
  | .xtcOutReset v => Sys2Proof.Machine.execXtcOutReset v s
  | .xtcInConfig => Sys2Proof.Machine.execXtcInConfig s
  | .xtcOutSelect v => Sys2Proof.Machine.execXtcOutSelect v s
  | .xtcOutPattern v => Sys2Proof.Machine.execXtcOutPattern v s
  | .xtcOutNoise p v => Sys2Proof.Machine.execXtcOutNoise p v s
  | .atcInData => Sys2Proof.Machine.execAtcInData s
  | .atcOutData v => Sys2Proof.Machine.execAtcOutData v s
  | .atcTaskfile reg w => Sys2Proof.Machine.execAtcTaskfile reg w s
  | .atcInStatus => Sys2Proof.Machine.execAtcInStatus s
  | .atcOutCommand v => Sys2Proof.Machine.execAtcOutCommand v s
  | .atcInAltStatus => Sys2Proof.Machine.execAtcInAltStatus s
  | .atcOutFdr v => Sys2Proof.Machine.execAtcOutFdr v s

end Sys2Proof.Machine
end

