-- ==== Sys2Proof/Machine/Fetch.lean ====
section
/-! DEFINITION. What step takes next: the entry at the head of the trace (spec/20_memory.md R100,
notes/assumptions/1.md), the bytes of an instruction decoded, and the place where a table word is put for the next step
to run it (notes/assumptions/8.md). -/

namespace Sys2Proof.Machine

/-- The state an instruction runs in: its bytes are consumed (bytes left of the same delivery stay), no answer yet, and
the free value of the Input register drawn anew unless the step is the read itself (R92, notes/assumptions/6.md). -/
def State.fetched (s : State) (i : Instr) (sp : Space) (left : List Byte) (rest : List Event) : State :=
  { s with
    input := if left = [] then rest else .host sp left :: rest
    answer := .none
    drawn := if i = .fdcInInput then s.drawn else s.drawn + 1 }

/-- The state an agent's step runs in. -/
def State.taken (s : State) (rest : List Event) : State :=
  { s with input := rest, answer := .none, drawn := s.drawn + 1 }

/-- What stands at the head of the trace. -/
inductive Fetched where
  /-- Nothing: the controllers are passive (spec/00_scope.md R11). -/
  | idle
  /-- An instruction and the state it runs in. -/
  | instr (i : Instr) (s : State)
  /-- An agent's step and the state it runs in. -/
  | agent (a : AgentStep) (s : State)
  /-- Bytes that are no instruction. -/
  | rejected (r : Reject)

/-- Takes the head of the trace. -/
def State.fetch (s : State) : Fetched :=
  match s.input with
  | [] => .idle
  | .agent a :: rest => .agent a (s.taken rest)
  | .host sp bytes :: rest =>
    match decode sp bytes with
    | .ok (i, left) => .instr i (s.fetched i sp left rest)
    | .error r => .rejected r

/-- The instance on which an instruction's port exists: the variant of its register set, the rate port for 0x3F7
(spec/20_memory.md R80 to R83). -/
def Cfg.withPort (c : Cfg) : Instr → Cfg
  | .fdcSpecify .. | .fdcWriteData .. | .fdcReadData .. | .fdcRecalibrate .. | .fdcSenseInterruptStatus ..
  | .fdcFormatTrack .. | .fdcSeek .. | .fdcUnknown .. => c
  | .fdcOutOutput .. | .fdcInMainStatus | .fdcOutData .. | .fdcInData => c
  | .fdcInInput | .fdcOutControl .. => { c with hasRatePort := true }
  | .xtcTestReady .. | .xtcRecalibrate .. | .xtcRequestSense .. | .xtcReadData .. | .xtcWriteData ..
  | .xtcSeek .. | .xtcInitDrive .. | .xtcReadBuffer .. | .xtcWriteBuffer .. | .xtcRamDiagnostic ..
  | .xtcDriveDiagnostic .. | .xtcControllerDiagnostic .. | .xtcUnknown .. => { c with hdcVariant := .xtc }
  | .xtcOutData .. | .xtcInData | .xtcInStatus | .xtcOutReset .. | .xtcInConfig | .xtcOutSelect ..
  | .xtcOutPattern .. | .xtcOutNoise .. => { c with hdcVariant := .xtc }
  | .atcRestore .. | .atcReadData .. | .atcWriteData .. | .atcSeek .. | .atcDiagnose | .atcSetParameters
  | .atcUnknown .. => { c with hdcVariant := .atc }
  | .atcInData | .atcOutData .. | .atcTaskfile .. | .atcInStatus | .atcOutCommand .. | .atcInAltStatus
  | .atcOutFdr .. => { c with hdcVariant := .atc }

/-- Puts bytes at the head of the trace and, so that the next step takes them as this instruction: the instance that
has its port, and for an FDC request the enable bit (a disabled FDC takes no request byte, spec/40_fdc_sequencer.md
R162). -/
def State.placeInstr (s : State) (i : Instr) (sp : Space) (bytes : List Byte) : State :=
  { s with
    cfg := Cfg.withPort s.cfg i
    fdc := { s.fdc with out := if sp = .fdc then s.fdc.out ||| 0x04#8 else s.fdc.out }
    input := .host sp bytes :: s.input }

/-- Places a table word (spec/opcode_table.json). -/
def State.placeWord (s : State) (nbits w : Nat) : State :=
  match decodeTableWord nbits w with
  | some i => s.placeInstr i (tableSpace (tableBytes nbits w)) (tableBytes nbits w)
  | none => { s with input := .host (tableSpace (tableBytes nbits w)) (tableBytes nbits w) :: s.input }

end Sys2Proof.Machine
end

