-- ==== Sys2Proof/Machine/Step.lean ====
section
/-! DEFINITION. One step of the machine: the head of the trace is taken and run. -/

namespace Sys2Proof.Machine

/-- One step (spec/00_scope.md R11): with nothing waiting the block, which is passive, stays as it is. -/
def step (s : State) : Host.Outcome State Fault Refusal :=
  match s.fetch with
  | .idle => .next s
  | .instr i s' => exec i s'
  | .agent a s' => runAgent a s'
  | .rejected r => .refused (.undecoded r)

/-- A table word placed where the next step takes its instruction. -/
def State.withFetchWord (s : State) (nbits w : Nat) : State := s.placeWord nbits w

end Sys2Proof.Machine
end

