-- ==== Sys2Proof/Safety.lean ====
section
/-! DEFINITION. The terms claims are stated in: when a controller is ready for a command, and the invariants of the
machine (the canonical form of the image bytes, the consistency of the register sets with the phase tables of
spec/10_state.md R26 and R51). -/

namespace Sys2Proof.Machine

/-! ### Ready for a command -/

/-- The FDC is enabled, in Command Phase, with no request byte received and room for the longest request (R162, R26). -/
structure FdcIdle (s : State) : Prop where
  enabled : s.fdc.enabled = true
  phase : s.fdc.phase = .command
  fresh : s.fdc.fifo.writeIndex = 0
  room : 9 ≤ s.fdc.fifo.buffer.length

/-- The instance has the XTC; it is in Command Phase with no byte of a block received and room for the longest
block (R51). -/
structure XtcIdle (s : State) : Prop where
  variant : s.cfg.hdcVariant = .xtc
  phase : s.xtc.phase = .command
  fresh : s.xtc.fifo.writeIndex = 0
  room : 14 ≤ s.xtc.fifo.buffer.length

/-- The instance has the ATC and it is in Command Phase (R64). -/
structure AtcIdle (s : State) : Prop where
  variant : s.cfg.hdcVariant = .atc
  phase : s.atc.phase = .command

/-! ### The bytes of the images -/

/-- The listed bytes stand in their one canonical form. -/
def MemoryCanonical (s : State) : Prop := Memory.wf s.store.cells = true

/-- The images the Drives use; no image is attached to two Drives (R45). -/
def State.attachedImages (s : State) : List Nat := (s.floppy ++ s.fixed).filterMap Drive.disk

/-- The image's choices of a failing read or write still to come; a preloaded image never fails (R361, R362). -/
def Store.failures (st : Store) (img : Nat) : List Bool := if st.preloaded img then [] else st.oracle.fail

/-- What the fill of sector `h` does on a Drive without an error on which that sector is about to be active (R210, R366,
R368): `d` and `st` are the Drive and the store before, `a`, `d'` and `st'` the answer, the Drive and the store after. -/
structure SectorFill (d : Drive) (st : Store) (h : Handle) (a : WriteAnswer) (d' : Drive) (st' : Store) : Prop where
  /-- No byte outside the sector changes. -/
  frame : ∀ x, (∀ off, off < d.geo.bytesPerSector → x ≠ diskAddress h off) → st'.cells.read x = st.cells.read x
  canonical : Memory.wf st.cells = true → Memory.wf st'.cells = true
  images : st'.images = st.images ∧ st'.oracle.pend = st.oracle.pend
  /-- A read-only image: `WriteFault` at the first byte, no byte written. -/
  readOnly : st.writable h.image = false → a = .error ∧ st' = st ∧
    d' = { d with errorCode := .writeFault, cur := { d.cur with activeSector := some h, byteOffset := 0 } }
  /-- No write fails: every byte is the filler, the position moves on, one more sector is done. -/
  whole : st.writable h.image = true → (∀ k, k < d.geo.bytesPerSector → (st.failures h.image)[k]? ≠ some true) →
    a = .accepted ∧
    st'.oracle.fail = (if st.preloaded h.image then st.oracle.fail else st.oracle.fail.drop d.geo.bytesPerSector) ∧
    (Memory.wf st.cells = true → ∀ off, off < d.geo.bytesPerSector →
      st'.cells.read (diskAddress h off) = d.fmt.filler) ∧
    d' = { d with
      pos := d.pos.advance d.geo 1
      cur := ⟨none, 0, d.cur.bytesRemaining - d.geo.bytesPerSector, d.cur.pending⟩
      fmt := { d.fmt with sectorsFormatted := d.fmt.sectorsFormatted + 1 } }
  /-- The write of byte `k` is the first to fail: `CrcError`, the fill stops, the bytes before it are the filler and the
  others as before. -/
  stopped : st.writable h.image = true → ∀ k, k < d.geo.bytesPerSector → (st.failures h.image)[k]? = some true →
    (∀ j, j < k → (st.failures h.image)[j]? ≠ some true) →
    a = .error ∧ st'.oracle.fail = st.oracle.fail.drop (k + 1) ∧
    (Memory.wf st.cells = true → ∀ off, off < k → st'.cells.read (diskAddress h off) = d.fmt.filler) ∧
    (∀ off, k ≤ off → st'.cells.read (diskAddress h off) = st.cells.read (diskAddress h off)) ∧
    d' = { d with errorCode := .crcError, cur := { d.cur with activeSector := some h, byteOffset := k } }

/-! ### The FIFO and the phase (R26, R51) -/

/-- Command Phase, idle. -/
def Fifo.Idle (f : Fifo) : Prop := f.writeIndex = 0 ∧ f.readIndex = 0 ∧ f.totalExpected = 0

/-- Command Phase, receiving: the first byte has fixed the length. -/
def Fifo.Receiving (f : Fifo) (len : Byte → Nat) : Prop :=
  1 ≤ f.writeIndex ∧ f.writeIndex < f.totalExpected ∧ f.readIndex = 0 ∧
    f.totalExpected = len (reqByte f.buffer 0)

/-- Execution Phase: all request bytes are there and replayed. -/
def Fifo.Executing (f : Fifo) (len : Byte → Nat) : Prop :=
  f.totalExpected = len (reqByte f.buffer 0) ∧ f.writeIndex = f.totalExpected ∧ f.readIndex = f.totalExpected

/-- Result Phase: `M` bytes loaded, fewer than `M` drained. -/
def Fifo.Draining (f : Fifo) (longest : Nat) : Prop :=
  f.readIndex < f.totalExpected ∧ f.writeIndex = f.totalExpected ∧ f.totalExpected ≤ longest

/-- The direction of the session an FDC command opens (R201, R202, R203). -/
def fdcDirection : FdcOp → Option Direction
  | .readData => some .read
  | .writeData => some .write
  | .formatTrack => some .format
  | .specify | .recalibrate | .senseInterruptStatus | .seek | .unknown => none

/-- The direction of the session an XTC command opens (R243, R244, R248, R249). -/
def xtcDirection : XtcOp → Option Direction
  | .readData => some .read
  | .writeData => some .write
  | .readBuffer | .writeBuffer => some .buffer
  | .testReady | .recalibrate | .requestSense | .seek | .initDrive | .ramDiagnostic | .driveDiagnostic
  | .controllerDiagnostic | .unknown => none

/-- The session of the FDC's command in execution: on the unit the request names, of the command's direction (R72). -/
def FdcSessionOf (req : List Byte) (units : Nat) (ss : Option Session) : Prop :=
  ∃ dir engaged, fdcDirection (fdcOp (fdcMaskedOp (reqByte req 0))) = some dir ∧
    ss = some ⟨some (fdcReqUnit req).toNat, dir, dir.toMemory false, engaged⟩ ∧ (fdcReqUnit req).toNat < units

/-- The session of the XTC's command in execution: a disk transfer has the block's drive, a buffer transfer none
(R72). -/
def XtcSessionOf (req : List Byte) (units : Nat) (ss : Option Session) : Prop :=
  ∃ dir engaged, xtcDirection (xtcOp (reqByte req 0)) = some dir ∧
    ((dir = .buffer ∧
        ss = some ⟨none, dir, dir.toMemory (decide (xtcOp (reqByte req 0) = .readBuffer)), engaged⟩) ∨
      (dir ≠ .buffer ∧ ss = some ⟨some (xtcReqDrive req).toNat, dir, dir.toMemory false, engaged⟩ ∧
        (xtcReqDrive req).toNat < units))

/-- The FDC's phase, FIFO and session fit together (R26, R161, R322), and a disabled FDC is in the controller-reset
state (R162). -/
structure FdcConsistent (c : Cfg) (f : Fdc) (ss : Option Session) : Prop where
  cells : f.fifo.buffer.length = c.fifoCapFdc
  command : f.phase = .command → ss = none ∧ (f.fifo.Idle ∨ f.fifo.Receiving fdcReqLen)
  execution : f.phase = .execution → f.fifo.Executing fdcReqLen ∧ FdcSessionOf f.fifo.buffer c.fdcDrives ss
  result : f.phase = .result → ss = none ∧ f.fifo.Draining 7
  disabled : f.enabled = false →
    f.phase = .command ∧ f.fifo = .empty c.fifoCapFdc ∧ f.irq = false ∧ f.lastUnit = 0#2 ∧ f.endStatus = 0xC0#8

/-- The XTC's phase, FIFO, sector buffer and session fit together (R51, R57, R230). -/
structure XtcConsistent (c : Cfg) (x : Xtc) (ss : Option Session) : Prop where
  cells : x.fifo.buffer.length = c.fifoCapXtc
  buffer : x.sectorBuffer.length = 512 ∧ x.bufIndex ≤ 512
  command : x.phase = .command → ss = none ∧ (x.fifo.Idle ∨ x.fifo.Receiving xtcReqLen)
  execution : x.phase = .execution → x.fifo.Executing xtcReqLen ∧ XtcSessionOf x.fifo.buffer c.hdcDrives ss
  result : x.phase = .result → ss = none ∧ x.fifo.Draining 5

/-- The ATC's phase, direction and status fit together (R280, R299): outside a transfer neither `BUSY` nor `DATA_REQ`
shows; inside one, either `DATA_REQ` with the sector active or `BUSY` with its lookup pending. -/
structure AtcConsistent (a : Atc) (fixed : List Drive) : Prop where
  command : a.phase = .command → a.dir = .none ∧ a.status.getLsbD 7 = false ∧ a.status.getLsbD 3 = false
  execution : a.phase = .execution → a.dir ≠ .none ∧ ∃ d, fixed[a.drive.toNat]? = some d ∧
    ((a.status = 0x58#8 ∧ d.cur.pending = false ∧ d.cur.activeSector ≠ none) ∨
      (a.status = 0x80#8 ∧ d.cur.pending = true ∧ d.cur.activeSector = none))

/-- The whole register state, as `SAVE` copies it, is consistent with the configuration. -/
structure Consistent (c : Cfg) (v : Saved) : Prop where
  fdc : FdcConsistent c v.fdc v.dma.fdc
  xtc : c.hdcVariant = .xtc → XtcConsistent c v.xtc v.dma.xtc
  noXtc : c.hdcVariant ≠ .xtc → v.dma.xtc = none
  atc : c.hdcVariant = .atc → AtcConsistent v.atc v.fixed
  connected : v.dma.fdcConnected = true ∧ v.dma.xtcConnected = true
  floppies : v.floppy.length = c.fdcDrives
  fixeds : v.fixed.length = c.hdcDrives
  idBytes : ∀ d ∈ v.floppy, d.fmt.idBuf.length = 4 ∧ d.fmt.idCount < 4
  images : ∀ d ∈ v.fixed, d.disk ≠ none
  floppyPending : ∀ u d, v.floppy[u]? = some d → d.cur.pending = true →
    ∃ ss, v.dma.fdc = some ss ∧ ss.drive = some u
  fixedPending : ∀ u d, v.fixed[u]? = some d → d.cur.pending = true →
    (∃ ss, v.dma.xtc = some ss ∧ ss.drive = some u) ∨
      (c.hdcVariant = .atc ∧ v.atc.phase = .execution ∧ v.atc.drive.toNat = u)

/-- The sequencer invariant: the configuration is in the ranges of R7, the state is consistent, and so is every copy
that a `RESTORE` still to come holds (a copy of this instance: its fixed Drives name the images they have, R45). -/
structure Sequenced (s : State) : Prop where
  cfg : s.cfg.wf = true
  now : Consistent s.cfg s.toSaved
  queued : ∀ v, Event.agent (.restore v) ∈ s.input →
    Consistent s.cfg v ∧ v.fixed.map Drive.disk = s.fixed.map Drive.disk

end Sys2Proof.Machine
end

