-- ==== Sys2Proof/Certificates/Slice0/Obligations.lean ====
section
/-! DEFINITION. The statements for the provers. Where a rule leaves the cells of a FIFO open ("don't care",
spec/10_state.md R26), a statement says of them only their number and the bytes the rule fixes. A statement whose
conclusion is an equation `exec i s = .next { s with .. }` says everything: what changes, and that nothing else does,
the bytes of the images included. Where a cited rule carries the spec's own mark `[decision: ..]` or `[from general
knowledge ..]`, the clause is the spec's choice, followed as written (notes/assumptions/18.md); the docstring names it. -/

section

open Sys2Proof Sys2Proof.Machine

/-! ### Encodings -/

/-- R121 to R150: the bytes of every well-formed instruction, whatever follows them, decode to it and leave what
follows. Rests on the spec's own decisions D2, D3, D33, D39, D41, D42, D46. -/
def Obligations.DecodeOfEncode : Prop :=
  ∀ i : Instr, i.wf = true → ∀ rest, decode i.space (i.bytes ++ rest) = .ok (i, rest)

/-- R121 to R150: whatever decodes is a well-formed instruction of those lines, and the bytes are exactly its bytes:
two instructions never share a word, and no bit of a word is lost. Rests on the spec's own decisions D2, D3, D4,
D33, D37, D42. -/
def Obligations.EncodeOfDecode : Prop :=
  ∀ sp bs i rest, decode sp bs = .ok (i, rest) → i.wf = true ∧ i.space = sp ∧ bs = i.bytes ++ rest

/-- A few words written out from the tables of R122, R124, R135, R146 and R81. Rests on the spec's own decisions D2,
D3, D12, D16, D20, D33, D39, D42. -/
def Obligations.DecodeWords : Prop :=
  decode .fdc [0x0F#8, 0x05#8, 0x27#8] = .ok (.fdcSeek 0#3 ⟨0#5, 1#1, 1#2⟩ 0x27#8, []) ∧
  decode .fdc [0xE6#8, 0x04#8, 1#8, 2#8, 3#8, 2#8, 9#8, 0x2A#8, 0xFF#8] =
    .ok (.fdcReadData 7#3 ⟨0#5, 1#1, 0#2⟩ 1#8 2#8 3#8 2#8 9#8 0x2A#8 0xFF#8, []) ∧
  decode .xtc [0x0B#8, 0x22#8, 0x45#8, 0x31#8, 0x00#8, 0x07#8] =
    .ok (.xtcSeek ⟨0#2, 1#1, 2#5, 1#2, 5#6, 0x31#8, 0#8, 7#8⟩, []) ∧
  decode .atc [0x73#8] = .ok (.atcSeek 3#4, []) ∧ decode .atc [0x21#8] = .ok (.atcReadData 1#1, []) ∧
  decode .portOut [0xF2#8, 0x03#8, 0x0C#8] = .ok (.fdcOutOutput 0x0C#8, []) ∧
  decode .portIn [0xF7#8, 0x01#8] = .ok (.atcInStatus, [])

/-! ### The step -/

/-- R100, R94: when the bytes at the head of the trace decode to an instruction, one step runs exactly it, on the state
with those bytes consumed, no answer yet, and the free value of the Input register drawn anew unless the step is its
read. The model's choice: the trace as a queue (log 1), the free value (log 6), a command row as one step (log 7). -/
def Obligations.StepRunsTheInstruction : Prop :=
  ∀ (s : State) (sp : Space) (bs left : List Byte) (rest : List Event) (i : Instr),
    s.input = .host sp bs :: rest → decode sp bs = .ok (i, left) → i.wf = true →
    step s = exec i { s with
      input := if left = [] then rest else .host sp left :: rest
      answer := .none
      drawn := if i = .fdcInInput then s.drawn else s.drawn + 1 }

/-- R11, R100: the other steps. With nothing waiting the block stays as it is; an agent's step is taken; bytes that
are no instruction are refused by the decoder's reason and change nothing. The model's choice: the queue and its
empty case (log 1); the model's reading: that bytes which are no access of the block, truncated rows included, are
refusals (log 20, R80, R90, U10, U13). Rests on the spec's own decisions D1, D49, D59. -/
def Obligations.StepOfTheOtherAgents : Prop :=
  (∀ s : State, s.input = [] → step s = .next s) ∧
  (∀ (s : State) (a : AgentStep) (rest : List Event), s.input = .agent a :: rest →
    step s = runAgent a { s with input := rest, answer := .none, drawn := s.drawn + 1 }) ∧
  (∀ (s : State) (sp : Space) (bs : List Byte) (rest : List Event) (r : Reject), s.input = .host sp bs :: rest →
    decode sp bs = .error r → step s = .refused (.undecoded r))

/-! ### FDC commands -/

/-- R200: SPECIFY takes its two timing bytes and leaves everything as it was, the FIFO idle again: no result, no
interrupt, no `endStatus`. -/
def Obligations.FdcSpecify : Prop :=
  ∀ (s : State) (m : BitVec 3) (t1 t2 : Byte), FdcIdle s →
    ∃ b, b.length = s.fdc.fifo.buffer.length ∧
      exec (.fdcSpecify m t1 t2) s = .next { s with fdc := { s.fdc with fifo := ⟨b, 0, 0, 0⟩ } }

/-- R204, R205: RECALIBRATE and SEEK. A unit that exists goes to cylinder 0, or to the requested one, stored as given (head
and sector stay); its error and, with an image mounted, its disk-change flag are cleared, `endStatus` is 0x20 + u, for SEEK
with the head select, and the interrupt is raised if armed. A unit that does not exist gives `endStatus` 0x48 + u and no
interrupt. No result bytes either way. Rests on the spec's own decision D16. -/
def Obligations.FdcRecalibrateSeek : Prop :=
  ∀ (s : State) (m : BitVec 3) (us : UnitSelect) (ncn : Byte) (i : Instr) (cyl : Nat) (base : Byte), FdcIdle s →
    ((i = .fdcRecalibrate m us ∧ cyl = 0 ∧ base = us.unit.setWidth 8) ∨
      (i = .fdcSeek m us ncn ∧ cyl = ncn.toNat ∧ base = 4#8 * us.headSelect.setWidth 8 + us.unit.setWidth 8)) →
    ∃ b, b.length = s.fdc.fifo.buffer.length ∧
      (∀ d, s.floppy[us.unit.toNat]? = some d → exec i s = .next { s with
        fdc := { s.fdc with
          fifo := ⟨b, 0, 0, 0⟩
          lastUnit := us.unit
          endStatus := 0x20#8 + base
          irq := s.fdc.irq || s.fdc.out.getLsbD 3 }
        floppy := s.floppy.set us.unit.toNat { d with
          errorCode := .none
          pos := { d.pos with cylinder := cyl }
          diskChanged := if d.disk = none then d.diskChanged else false } }) ∧
      (s.floppy[us.unit.toNat]? = none → exec i s = .next { s with
        fdc := { s.fdc with
          fifo := ⟨b, 0, 0, 0⟩
          lastUnit := us.unit
          endStatus := 0x48#8 + base } })

/-- R206: SENSE_INTERRUPT_STATUS loads `endStatus` and the present cylinder of the last-accessed unit (0 when it does
not exist) as its two result bytes and changes nothing else; a pending interrupt stays. Rests on the spec's own
decision D17. -/
def Obligations.FdcSenseInterruptStatus : Prop :=
  ∀ (s : State) (m : BitVec 3), FdcIdle s →
    ∃ b, b.length = s.fdc.fifo.buffer.length ∧
      b.take 2 = [s.fdc.endStatus,
        ((s.floppy[s.fdc.lastUnit.toNat]?).map fun d => BitVec.ofNat 8 d.pos.cylinder).getD 0x00#8] ∧
      exec (.fdcSenseInterruptStatus m) s = .next { s with
        fdc := { s.fdc with phase := .result, fifo := ⟨b, 2, 0, 2⟩ } }

/-- R207, R130: an unknown opcode is absorbed on its own write: one diagnostic event, nothing else. -/
def Obligations.FdcUnknownOpcode : Prop :=
  ∀ (s : State) (m : BitVec 3) (op : BitVec 5), FdcIdle s → (Instr.fdcUnknown m op).wf = true →
    ∃ b, b.length = s.fdc.fifo.buffer.length ∧
      exec (.fdcUnknown m op) s = .next { s with
        fdc := { s.fdc with fifo := ⟨b, 0, 0, 0⟩ }
        diag := s.diag ++ [.fdcUnsupported (m ++ op)] }

/-- R201, R202, R208, R209: READ_DATA and WRITE_DATA. A unit that exists is loaded with the request's position, sector
size and bound, its error cleared. Ready (image mounted, selected): the session opens and the FDC stays in Execution Phase
with the nine request bytes. Not ready, or not there: no session, no interrupt, seven result bytes. Rests on the
spec's own decisions D12, D13. -/
def Obligations.FdcReadWriteData : Prop :=
  ∀ (s : State) (m : BitVec 3) (us : UnitSelect) (c h r n eot gpl dtl : Byte) (i : Instr) (dir : Direction) (tm : Bool),
    FdcIdle s →
    ((i = .fdcReadData m us c h r n eot gpl dtl ∧ dir = .read ∧ tm = true) ∨
      (i = .fdcWriteData m us c h r n eot gpl dtl ∧ dir = .write ∧ tm = false)) →
    ∃ b b', b.length = s.fdc.fifo.buffer.length ∧ b'.length = s.fdc.fifo.buffer.length ∧
      b.take 9 = i.bytes ∧
      b'.take 7 = [0x48#8 + 4#8 * us.headSelect.setWidth 8 + us.unit.setWidth 8, 0x00#8, 0x00#8, c, h, r, n] ∧
      (∀ d, s.floppy[us.unit.toNat]? = some d → d.disk ≠ none → s.fdc.out.extractLsb' 0 2 = us.unit →
        exec i s = .next { s with
          fdc := { s.fdc with phase := .execution, fifo := ⟨b, 9, 9, 9⟩, lastUnit := us.unit }
          floppy := s.floppy.set us.unit.toNat { d with
            errorCode := .none
            pos := ⟨c.toNat, h.toNat, r.toNat⟩
            geo := { d.geo with bytesPerSector := 128 <<< n.toNat }
            sectorEnd := eot
            cur := ⟨none, 0, (if r.toNat ≤ eot.toNat then eot.toNat - r.toNat + 1 else 0) * (128 <<< n.toNat), false⟩ }
          dma := { s.dma with fdc := some ⟨some us.unit.toNat, dir, tm, false⟩ } }) ∧
      (∀ d, s.floppy[us.unit.toNat]? = some d → (d.disk = none ∨ s.fdc.out.extractLsb' 0 2 ≠ us.unit) →
        exec i s = .next { s with
          fdc := { s.fdc with
            phase := .result
            fifo := ⟨b', 7, 0, 7⟩
            lastUnit := us.unit
            endStatus := 0x48#8 + 4#8 * us.headSelect.setWidth 8 + us.unit.setWidth 8 }
          floppy := s.floppy.set us.unit.toNat { d with
            errorCode := .notReady
            pos := ⟨c.toNat, h.toNat, r.toNat⟩
            geo := { d.geo with bytesPerSector := 128 <<< n.toNat }
            sectorEnd := eot
            cur := ⟨none, 0, (if r.toNat ≤ eot.toNat then eot.toNat - r.toNat + 1 else 0) * (128 <<< n.toNat),
              false⟩ } }) ∧
      (s.floppy[us.unit.toNat]? = none →
        exec i s = .next { s with
          fdc := { s.fdc with
            phase := .result
            fifo := ⟨b', 7, 0, 7⟩
            lastUnit := us.unit
            endStatus := 0x48#8 + 4#8 * us.headSelect.setWidth 8 + us.unit.setWidth 8 } })

/-- R203, R209: FORMAT_TRACK. Ready: the head, the sector size, the number of sectors and the filler are loaded (the
cylinder and the sector stay) and the Format session opens. Not ready: nothing is loaded, `NotReady` is recorded, and
the result names the Drive's position; a unit that does not exist reports position 0. -/
def Obligations.FdcFormatTrack : Prop :=
  ∀ (s : State) (m : BitVec 3) (us : UnitSelect) (n sc gpl fill : Byte), FdcIdle s →
    ∃ b b', b.length = s.fdc.fifo.buffer.length ∧ b'.length = s.fdc.fifo.buffer.length ∧
      b.take 6 = (Instr.fdcFormatTrack m us n sc gpl fill).bytes ∧
      (let p := ((s.floppy[us.unit.toNat]?).map Drive.pos).getD ⟨0, 0, 0⟩
       b'.take 7 = [0x48#8 + 4#8 * us.headSelect.setWidth 8 + us.unit.setWidth 8, 0x00#8, 0x00#8,
         BitVec.ofNat 8 p.cylinder, BitVec.ofNat 8 p.head, BitVec.ofNat 8 p.sector, n]) ∧
      (∀ d, s.floppy[us.unit.toNat]? = some d → d.disk ≠ none → s.fdc.out.extractLsb' 0 2 = us.unit →
        exec (.fdcFormatTrack m us n sc gpl fill) s = .next { s with
          fdc := { s.fdc with phase := .execution, fifo := ⟨b, 6, 6, 6⟩, lastUnit := us.unit }
          floppy := s.floppy.set us.unit.toNat { d with
            errorCode := .none
            pos := { d.pos with head := us.headSelect.toNat }
            geo := { d.geo with bytesPerSector := 128 <<< n.toNat }
            sectorEnd := sc
            fmt := ⟨[0#8, 0#8, 0#8, 0#8], 0, fill, 0⟩
            cur := ⟨none, 0, sc.toNat * (128 <<< n.toNat), false⟩ }
          dma := { s.dma with fdc := some ⟨some us.unit.toNat, .format, false, false⟩ } }) ∧
      (∀ d, s.floppy[us.unit.toNat]? = some d → (d.disk = none ∨ s.fdc.out.extractLsb' 0 2 ≠ us.unit) →
        exec (.fdcFormatTrack m us n sc gpl fill) s = .next { s with
          fdc := { s.fdc with
            phase := .result
            fifo := ⟨b', 7, 0, 7⟩
            lastUnit := us.unit
            endStatus := 0x48#8 + 4#8 * us.headSelect.setWidth 8 + us.unit.setWidth 8 }
          floppy := s.floppy.set us.unit.toNat { d with errorCode := .notReady } }) ∧
      (s.floppy[us.unit.toNat]? = none →
        exec (.fdcFormatTrack m us n sc gpl fill) s = .next { s with
          fdc := { s.fdc with
            phase := .result
            fifo := ⟨b', 7, 0, 7⟩
            lastUnit := us.unit
            endStatus := 0x48#8 + 4#8 * us.headSelect.setWidth 8 + us.unit.setWidth 8 } })

/-! ### Ports that read -/

/-- R172, R235, R237, R281, R286: the reads that change nothing, each with the value its rule computes: Main Status
(R22), XTC Status (R52) and Config (R53), the ATC's registers and its status copy. The answer is what the access
returns to the host. Rests on the spec's own decisions D7 (R22), D30 (R52), D32 (R53), D41 (the ATC's registers; log
18). -/
def Obligations.ReadsWithoutSideEffect : Prop :=
  ∀ s : State,
    exec .fdcInMainStatus s = .next { s with answer := .byte (match s.fdc.phase with
      | .command => if s.fdc.fifo.writeIndex = 0 then 0x80#8 else 0x90#8
      | .execution => 0x10#8
      | .result => 0xD0#8) } ∧
    (s.cfg.hdcVariant = .xtc →
      exec .xtcInStatus s = .next { s with answer := .byte ((match s.xtc.phase with
        | .command => if s.xtc.selected = false ∧ s.xtc.fifo.writeIndex = 0 then 0x00#8 else 0x0D#8
        | .execution => 0x08#8 + (if s.xtc.pattern.getLsbD 0 then 0x10#8 else 0x00#8)
        | .result => 0x0F#8) + (if s.xtc.irq then 0x20#8 else 0x00#8)) } ∧
      exec .xtcInConfig s = .next { s with answer := .byte (s.cfg.xtcSwitches &&& 0x0F#8) }) ∧
    (s.cfg.hdcVariant = .atc →
      exec .atcInAltStatus s = .next { s with answer := .byte s.atc.status } ∧
      exec (.atcTaskfile .errorWprecomp none) s = .next { s with answer := .byte s.atc.error } ∧
      exec (.atcTaskfile .secCount none) s = .next { s with answer := .byte s.atc.secCount } ∧
      exec (.atcTaskfile .secNum none) s = .next { s with answer := .byte s.atc.secNum } ∧
      exec (.atcTaskfile .cylLo none) s = .next { s with answer := .byte s.atc.cylLo } ∧
      exec (.atcTaskfile .cylHi none) s = .next { s with answer := .byte s.atc.cylHi } ∧
      exec (.atcTaskfile .driveHead none) s = .next { s with answer := .byte s.atc.driveHead })

/-- R174, R23: the Input register. Bit 7 is the disk-change flag of the selected unit, 0 when that unit does not
exist; bits 6:0 are any value (U7); nothing changes. The model's choice: the form of the free value (log 6). Rests
on the spec's own decisions D8, D57. -/
def Obligations.InputRead : Prop :=
  ∀ s : State, s.cfg.hasRatePort = true → ∃ v : Byte,
    v.getLsbD 7 = ((s.floppy[(s.fdc.out.extractLsb' 0 2).toNat]?).map Drive.diskChanged).getD false ∧
      exec .fdcInInput s = .next { s with answer := .byte v }

/-- R168, R234, R282: the acknowledging reads. A Data-port read in Result Phase delivers the byte at the read index,
clears the interrupt, and the last one drains the FIFO and returns to Command Phase (the XTC also drops the select); a
read of the ATC's Status clears its interrupt. Rests on the spec's own decision D40. -/
def Obligations.AcknowledgingReads : Prop :=
  ∀ s : State,
    (s.fdc.enabled = true → s.fdc.phase = .result → exec .fdcInData s = .next { s with
      answer := .byte (reqByte s.fdc.fifo.buffer s.fdc.fifo.readIndex)
      fdc := { s.fdc with
        irq := false
        phase := if s.fdc.fifo.readIndex + 1 = s.fdc.fifo.totalExpected then .command else .result
        fifo :=
          if s.fdc.fifo.readIndex + 1 = s.fdc.fifo.totalExpected then ⟨s.fdc.fifo.buffer, 0, 0, 0⟩
          else { s.fdc.fifo with readIndex := s.fdc.fifo.readIndex + 1 } } }) ∧
    (s.cfg.hdcVariant = .xtc → s.xtc.phase = .result → exec .xtcInData s = .next { s with
      answer := .byte (reqByte s.xtc.fifo.buffer s.xtc.fifo.readIndex)
      xtc := { s.xtc with
        irq := false
        phase := if s.xtc.fifo.readIndex + 1 = s.xtc.fifo.totalExpected then .command else .result
        selected := if s.xtc.fifo.readIndex + 1 = s.xtc.fifo.totalExpected then false else s.xtc.selected
        fifo :=
          if s.xtc.fifo.readIndex + 1 = s.xtc.fifo.totalExpected then ⟨s.xtc.fifo.buffer, 0, 0, 0⟩
          else { s.xtc.fifo with readIndex := s.xtc.fifo.readIndex + 1 } } }) ∧
    (s.cfg.hdcVariant = .atc → exec .atcInStatus s = .next { s with
      answer := .byte s.atc.status
      atc := { s.atc with irq := false } })

/-! ### Ports that write -/

/-- R175, R238, R239, R281: the writes that store their byte (or set the select, or do nothing) and change nothing
else, in any phase; the task file only in Command Phase. The model's choice: no diagnostic for the noise ports (log
21). Rests on the spec's own decisions D22, D29, D41, D58. -/
def Obligations.PlainRegisterWrites : Prop :=
  ∀ (s : State) (v : Byte),
    (s.cfg.hasRatePort = true → exec (.fdcOutControl v) s = .next { s with fdc := { s.fdc with rate := v } }) ∧
    (s.cfg.hdcVariant = .xtc →
      exec (.xtcOutSelect v) s = .next { s with xtc := { s.xtc with selected := true } } ∧
      exec (.xtcOutPattern v) s = .next { s with xtc := { s.xtc with pattern := v } } ∧
      ∀ p, exec (.xtcOutNoise p v) s = .next s) ∧
    (AtcIdle s →
      exec (.atcTaskfile .errorWprecomp (some v)) s = .next { s with atc := { s.atc with wprecomp := v } } ∧
      exec (.atcTaskfile .secCount (some v)) s = .next { s with atc := { s.atc with secCount := v } } ∧
      exec (.atcTaskfile .secNum (some v)) s = .next { s with atc := { s.atc with secNum := v } } ∧
      exec (.atcTaskfile .cylLo (some v)) s = .next { s with atc := { s.atc with cylLo := v } } ∧
      exec (.atcTaskfile .cylHi (some v)) s = .next { s with atc := { s.atc with cylHi := v } } ∧
      exec (.atcTaskfile .driveHead (some v)) s = .next { s with atc := { s.atc with driveHead := v } })

/-- R163, R231: a Data-port write in Command Phase collects one byte; the first one fixes the length and rewinds the
read index; the one that completes the request starts the execution, in the same step. Rests on the spec's own
decision D29. -/
def Obligations.DataPortCollects : Prop :=
  ∀ (s : State) (v : Byte),
    (s.fdc.enabled = true → s.fdc.phase = .command →
      let f : Fifo := ⟨s.fdc.fifo.buffer.set s.fdc.fifo.writeIndex v, s.fdc.fifo.writeIndex + 1,
        if s.fdc.fifo.writeIndex = 0 then 0 else s.fdc.fifo.readIndex,
        if s.fdc.fifo.writeIndex = 0 then fdcReqLen v else s.fdc.fifo.totalExpected⟩
      (f.writeIndex ≠ f.totalExpected →
        exec (.fdcOutData v) s = .next { s with fdc := { s.fdc with fifo := f } }) ∧
      (f.writeIndex = f.totalExpected →
        exec (.fdcOutData v) s = .next (State.fdcExecute { s with fdc := { s.fdc with fifo := f } }))) ∧
    (s.cfg.hdcVariant = .xtc → s.xtc.phase = .command →
      let f : Fifo := ⟨s.xtc.fifo.buffer.set s.xtc.fifo.writeIndex v, s.xtc.fifo.writeIndex + 1,
        if s.xtc.fifo.writeIndex = 0 then 0 else s.xtc.fifo.readIndex,
        if s.xtc.fifo.writeIndex = 0 then (if v = 0x0C#8 then 14 else 6) else s.xtc.fifo.totalExpected⟩
      (f.writeIndex ≠ f.totalExpected →
        exec (.xtcOutData v) s = .next { s with xtc := { s.xtc with fifo := f } }) ∧
      (f.writeIndex = f.totalExpected →
        exec (.xtcOutData v) s = .next (State.xtcExecute { s with xtc := { s.xtc with fifo := f } })))

/-- R170, R171, R431: a write to the Output register. With the enable bit clear it resets the FDC, whatever was in
progress; the byte is stored. With it set only the byte is stored, and leaving reset raises the interrupt if the byte
arms it. Rests on the spec's own decisions D18, D22, D50. -/
def Obligations.FdcOutputWrite : Prop :=
  ∀ (s : State) (v : Byte),
    (v.getLsbD 2 = false → exec (.fdcOutOutput v) s = .next { s with
      fdc := ⟨v, s.fdc.rate, .command, ⟨List.replicate s.cfg.fifoCapFdc 0x00#8, 0, 0, 0⟩, false, 0#2, 0xC0#8⟩
      floppy := s.floppy.map fun d => { d with
        errorCode := .none
        senseCode := .none
        cur := ⟨none, 0, 0, false⟩
        fmt := ⟨[0x00#8, 0x00#8, 0x00#8, 0x00#8], 0, 0x00#8, 0⟩ }
      dma := { s.dma with fdc := none } }) ∧
    (v.getLsbD 2 = true → exec (.fdcOutOutput v) s = .next { s with fdc := { s.fdc with
      out := v
      irq := s.fdc.irq || (!s.fdc.out.getLsbD 2 && v.getLsbD 3) } })

/-- R236, R432, R286, R433: the hard-disk controllers' resets. Any write to 0x321 resets the XTC; a write to 0x3F6 with
bit 2 set resets the ATC, and every write there stores its byte. No interrupt, no completion. Rests on the spec's
own decision D50. -/
def Obligations.HdcResets : Prop :=
  ∀ (s : State) (v : Byte),
    (s.cfg.hdcVariant = .xtc → exec (.xtcOutReset v) s = .next { s with
      xtc := { s.xtc with
        phase := .command
        fifo := ⟨List.replicate s.cfg.fifoCapXtc 0x00#8, 0, 0, 0⟩
        pattern := 0x00#8
        selected := false
        irq := false
        bufIndex := 0 }
      fixed := s.fixed.map fun d => { d with errorCode := .none, senseCode := .none, cur := ⟨none, 0, 0, false⟩ }
      dma := { s.dma with xtc := none } }) ∧
    (s.cfg.hdcVariant = .atc →
      (v.getLsbD 2 = true → exec (.atcOutFdr v) s = .next { s with
        atc := { s.atc with
          phase := .command
          dir := .none
          error := 0x00#8
          wprecomp := 0x00#8
          secCount := 0x00#8
          secNum := 0x00#8
          cylLo := 0x00#8
          cylHi := 0x00#8
          driveHead := 0x00#8
          command := 0x00#8
          status := if 1 ≤ s.cfg.hdcDrives then 0x50#8 else 0x00#8
          irq := false
          fdr := v }
        fixed := s.fixed.map fun d =>
          { d with errorCode := .none, senseCode := .none, cur := ⟨none, 0, 0, false⟩ } }) ∧
      (v.getLsbD 2 = false → exec (.atcOutFdr v) s = .next { s with atc := { s.atc with fdr := v } }))

/-! ### Accesses without a behaviour -/

/-- R164, R169, R162, R254, R298: the port accesses the spec calls `fault` stop so, each under its own name; a Data
write to a disabled FDC is ignored. A whole command row (the macro of R156) stops, or is ignored, as its first byte
does. The model's reading: the rows of whole commands (log 7). Rests on the spec's own decision D9. -/
def Obligations.UndefinedPortAccesses : Prop :=
  ∀ (s : State) (v : Byte),
    (s.fdc.enabled = true → s.fdc.phase ≠ .command →
      exec (.fdcOutData v) s = .fault (.protocolViolation .dataWritePhase)) ∧
    (s.fdc.enabled = true → s.fdc.phase ≠ .result →
      exec .fdcInData s = .fault (.protocolViolation .dataReadPhase)) ∧
    (s.fdc.enabled = false →
      exec (.fdcOutData v) s = .next s ∧ exec .fdcInData s = .fault (.protocolViolation .dataReadDisabled)) ∧
    (s.cfg.hdcVariant = .xtc →
      (s.xtc.phase ≠ .command → exec (.xtcOutData v) s = .fault (.protocolViolation .dataWritePhase)) ∧
      (s.xtc.phase ≠ .result → exec .xtcInData s = .fault (.protocolViolation .dataReadPhase))) ∧
    (s.cfg.hdcVariant = .atc →
      (s.atc.phase = .execution → exec (.atcOutCommand v) s = .fault (.protocolViolation .atcAccess) ∧
        ∀ reg, exec (.atcTaskfile reg (some v)) s = .fault (.protocolViolation .atcAccess)) ∧
      (¬ (s.atc.phase = .execution ∧ s.atc.dir = .read ∧ s.atc.status.getLsbD 3 = true) →
        exec .atcInData s = .fault (.protocolViolation .atcAccess)) ∧
      (¬ (s.atc.phase = .execution ∧ s.atc.dir = .write ∧ s.atc.status.getLsbD 3 = true) →
        exec (.atcOutData v) s = .fault (.protocolViolation .atcAccess))) ∧
    ∀ i : Instr,
      (i.space = .fdc → s.fdc.enabled = true → s.fdc.phase ≠ .command →
        exec i s = .fault (.protocolViolation .dataWritePhase)) ∧
      (i.space = .fdc → s.fdc.enabled = false → exec i s = .next s) ∧
      (i.space = .xtc → s.cfg.hdcVariant = .xtc → s.xtc.phase ≠ .command →
        exec i s = .fault (.protocolViolation .dataWritePhase)) ∧
      (i.space = .atc → s.cfg.hdcVariant = .atc → s.atc.phase ≠ .command →
        exec i s = .fault (.protocolViolation .atcAccess))

/-- R80, R81, R82, R83: on an instance that does not claim its port an instruction is refused: an XTC row without the
XTC, an ATC row without the ATC, 0x3F7 without the rate port. The model's reading: that the stop is a refusal (log
20). Rests on the spec's own decisions D29, D41, D59. -/
def Obligations.UnclaimedPortsAreRefused : Prop :=
  ∀ (i : Instr) (s : State),
    (s.cfg.hasRatePort = false → (i = .fdcInInput ∨ ∃ v, i = .fdcOutControl v) →
      exec i s = .refused .portNotClaimed) ∧
    (s.cfg.hdcVariant ≠ .xtc → (Cfg.withPort s.cfg i).hdcVariant = .xtc → exec i s = .refused .portNotClaimed) ∧
    (s.cfg.hdcVariant ≠ .atc → (Cfg.withPort s.cfg i).hdcVariant = .atc → exec i s = .refused .portNotClaimed)

/-! ### The error taxonomy's bytes -/

/-- R383, R384, R385: the FDC's status bytes, the XTC's code and completion byte, the ATC's Error and Status byte of every
error class. Rests on the spec's own decisions D10, D34, D43. -/
def Obligations.StatusBytesOfTheErrorClasses : Prop :=
  (∀ (u : BitVec 2) (hd : BitVec 1) (seekEnd : Bool),
    let base := u.setWidth 8 + 4#8 * hd.setWidth 8 + (if seekEnd then 0x20#8 else 0x00#8)
    fdcStatus .none u hd seekEnd = (base, 0x00#8, 0x00#8) ∧
    fdcStatus .notReady u hd seekEnd = (base + 0x48#8, 0x00#8, 0x00#8) ∧
    fdcStatus .noSectorFound u hd seekEnd = (base + 0x40#8, 0x04#8, 0x00#8) ∧
    fdcStatus .writeFault u hd seekEnd = (base + 0x40#8, 0x02#8, 0x00#8) ∧
    fdcStatus .crcError u hd seekEnd = (base + 0x40#8, 0x20#8, 0x20#8) ∧
    fdcStatus .incomplete u hd seekEnd = (base + 0x40#8, 0x00#8, 0x00#8) ∧
    fdcStatus .commandAborted u hd seekEnd = (base + 0x40#8, 0x00#8, 0x00#8)) ∧
  (xtcCode .none = 0x00#8 ∧ xtcCode .notReady = 0x04#8 ∧ xtcCode .noSectorFound = 0x14#8 ∧
    xtcCode .writeFault = 0x03#8 ∧ xtcCode .crcError = 0x11#8 ∧ xtcCode .commandAborted = 0x20#8 ∧
    xtcCode .incomplete = 0x04#8 ∧
    ∀ e u, xtcCompletion e u = (if e ≠ .none then 0x02#8 else 0x00#8) + (u.setWidth 8 <<< 5)) ∧
  (atcErrorByte .none = 0x00#8 ∧ atcErrorByte .notReady = 0x04#8 ∧ atcErrorByte .noSectorFound = 0x10#8 ∧
    atcErrorByte .writeFault = 0x04#8 ∧ atcErrorByte .crcError = 0x40#8 ∧ atcErrorByte .commandAborted = 0x04#8 ∧
    atcErrorByte .incomplete = 0x04#8) ∧
  (atcStatusByte .none = 0x50#8 ∧ atcStatusByte .notReady = 0x01#8 ∧ atcStatusByte .writeFault = 0x71#8 ∧
    atcStatusByte .noSectorFound = 0x51#8 ∧ atcStatusByte .crcError = 0x51#8 ∧
    atcStatusByte .commandAborted = 0x51#8 ∧ atcStatusByte .incomplete = 0x51#8)

/-! ### Interrupts -/

/-- R74, R390, R391, R393: the request line of a controller the instance has shows its pending latch, and no other
line shows anything; raising sets that latch and nothing else; the end of a command raises exactly when the enable is set
and the class is not `NotReady`. The model's choice: two controllers on one line number show the OR of their latches
(log 23). Rests on the spec's own decisions D23, D61. -/
def Obligations.RequestLinesAndPolicy : Prop :=
  ∀ (s : State) (n : Nat) (e : Err),
    (s.irqLine n = true ↔ (n = s.cfg.fdcIrq ∧ s.fdc.irq = true) ∨
      (s.cfg.hdcVariant = .xtc ∧ n = s.cfg.xtcIrq ∧ s.xtc.irq = true) ∨
      (s.cfg.hdcVariant = .atc ∧ n = s.cfg.atcIrq ∧ s.atc.irq = true)) ∧
    s.raiseIrq .fdc = { s with fdc := { s.fdc with irq := true } } ∧
    s.raiseIrq .xtc = { s with xtc := { s.xtc with irq := true } } ∧
    s.raiseIrq .atc = { s with atc := { s.atc with irq := true } } ∧
    s.endOfCommandIrq .fdc e =
      { s with fdc := { s.fdc with irq := s.fdc.irq || (s.fdc.out.getLsbD 3 && decide (e ≠ .notReady)) } } ∧
    s.endOfCommandIrq .xtc e =
      { s with xtc := { s.xtc with irq := s.xtc.irq || (s.xtc.pattern.getLsbD 1 && decide (e ≠ .notReady)) } } ∧
    s.endOfCommandIrq .atc e =
      { s with atc := { s.atc with irq := s.atc.irq || (!s.atc.fdr.getLsbD 1 && decide (e ≠ .notReady)) } }

/-! ### XTC commands -/

/-- R240, R241, R245, with R232, R233, R384: TEST_READY, RECALIBRATE and SEEK. On a drive that exists: the position
the rule gives, no error, success latched, the completion byte with the drive bit, the interrupt if armed. On one
that does not: `NotReady` in the completion byte, no interrupt, nothing else. Rests on the spec's own decisions D34,
D61 (log 18). -/
def Obligations.XtcDriveCommands : Prop :=
  ∀ (s : State) (b : XtcBlock) (i : Instr) (move : Pos → Pos), XtcIdle s →
    ((i = .xtcTestReady b ∧ move = id) ∨ (i = .xtcRecalibrate b ∧ move = fun p => { p with cylinder := 0 }) ∨
      (i = .xtcSeek b ∧ move = fun p => { p with
        cylinder := (b.cylHigh.toNat <<< 8) + b.cylLow.toNat
        head := b.head.toNat })) →
    ∃ ok bad, ok.length = s.xtc.fifo.buffer.length ∧ bad.length = s.xtc.fifo.buffer.length ∧
      ok.take 1 = [b.drive.setWidth 8 <<< 5] ∧ bad.take 1 = [0x02#8 + (b.drive.setWidth 8 <<< 5)] ∧
      (∀ d, s.fixed[b.drive.toNat]? = some d → exec i s = .next { s with
        xtc := { s.xtc with
          phase := .result
          fifo := ⟨ok, 1, 0, 1⟩
          irq := s.xtc.irq || s.xtc.pattern.getLsbD 1 }
        fixed := s.fixed.set b.drive.toNat { d with
          errorCode := .none
          senseCode := .none
          pos := move d.pos } }) ∧
      (s.fixed[b.drive.toNat]? = none → exec i s = .next { s with
        xtc := { s.xtc with phase := .result, fifo := ⟨bad, 1, 0, 1⟩ } })

/-- R250, R252, R253, with R232, R233, R384: the three diagnostics report success, whether or not the drive exists.
Rests on the spec's own decisions D33, D34, D61 (log 18). -/
def Obligations.XtcDiagnostics : Prop :=
  ∀ (s : State) (b : XtcBlock) (i : Instr), XtcIdle s →
    (i = .xtcRamDiagnostic b ∨ i = .xtcDriveDiagnostic b ∨ i = .xtcControllerDiagnostic b) →
    ∃ ok, ok.length = s.xtc.fifo.buffer.length ∧ ok.take 1 = [b.drive.setWidth 8 <<< 5] ∧
      (∀ d, s.fixed[b.drive.toNat]? = some d → exec i s = .next { s with
        xtc := { s.xtc with
          phase := .result
          fifo := ⟨ok, 1, 0, 1⟩
          irq := s.xtc.irq || s.xtc.pattern.getLsbD 1 }
        fixed := s.fixed.set b.drive.toNat { d with errorCode := .none, senseCode := .none } }) ∧
      (s.fixed[b.drive.toNat]? = none → exec i s = .next { s with
        xtc := { s.xtc with
          phase := .result
          fifo := ⟨ok, 1, 0, 1⟩
          irq := s.xtc.irq || s.xtc.pattern.getLsbD 1 } })

/-- R242: REQUEST_SENSE answers the latched code and the current position, four bytes and a completion byte without
error, and keeps the latch; a drive that does not exist reports `NotReady` and zeros. Rests on the spec's own
decision D35. -/
def Obligations.XtcRequestSense : Prop :=
  ∀ (s : State) (b : XtcBlock), XtcIdle s →
    ∃ res, res.length = s.xtc.fifo.buffer.length ∧
      (∀ d, s.fixed[b.drive.toNat]? = some d →
        res.take 5 = [xtcCode d.senseCode,
          BitVec.ofNat 8 ((b.drive.toNat <<< 5) + d.pos.head % 32),
          BitVec.ofNat 8 ((((d.pos.cylinder >>> 8) % 4) <<< 6) + d.pos.sector % 64),
          BitVec.ofNat 8 (d.pos.cylinder % 256), b.drive.setWidth 8 <<< 5] ∧
        exec (.xtcRequestSense b) s = .next { s with
          xtc := { s.xtc with
            phase := .result
            fifo := ⟨res, 5, 0, 5⟩
            irq := s.xtc.irq || s.xtc.pattern.getLsbD 1 }
          fixed := s.fixed.set b.drive.toNat { d with errorCode := .none } }) ∧
      (s.fixed[b.drive.toNat]? = none →
        res.take 5 = [0x04#8, b.drive.setWidth 8 <<< 5, 0x00#8, 0x00#8, b.drive.setWidth 8 <<< 5] ∧
        exec (.xtcRequestSense b) s = .next { s with
          xtc := { s.xtc with
            phase := .result
            fifo := ⟨res, 5, 0, 5⟩
            irq := s.xtc.irq || s.xtc.pattern.getLsbD 1 } })

/-- R243, R244, R246: READ_DATA and WRITE_DATA. With DMA enabled the session opens and the XTC stays in Execution Phase;
with DMA disabled the command ends `NotReady` with the position and the count loaded; a drive that does not exist gives
`NotReady` and loads nothing. Rests on the spec's own decisions D27, D61. -/
def Obligations.XtcReadWriteData : Prop :=
  ∀ (s : State) (b : XtcBlock) (i : Instr) (dir : Direction) (tm : Bool), XtcIdle s →
    ((i = .xtcReadData b ∧ dir = .read ∧ tm = true) ∨ (i = .xtcWriteData b ∧ dir = .write ∧ tm = false)) →
    ∃ run bad, run.length = s.xtc.fifo.buffer.length ∧ bad.length = s.xtc.fifo.buffer.length ∧
      run.take 6 = i.bytes ∧ bad.take 1 = [0x02#8 + (b.drive.setWidth 8 <<< 5)] ∧
      (∀ d, s.fixed[b.drive.toNat]? = some d → s.xtc.pattern.getLsbD 0 = true → exec i s = .next { s with
        xtc := { s.xtc with phase := .execution, fifo := ⟨run, 6, 6, 6⟩ }
        fixed := s.fixed.set b.drive.toNat { d with
          errorCode := .none
          pos := ⟨(b.cylHigh.toNat <<< 8) + b.cylLow.toNat, b.head.toNat, b.sector.toNat⟩
          cur := ⟨none, 0, (if b.count = 0#8 then 256 else b.count.toNat) * d.geo.bytesPerSector, false⟩ }
        dma := { s.dma with xtc := some ⟨some b.drive.toNat, dir, tm, false⟩ } }) ∧
      (∀ d, s.fixed[b.drive.toNat]? = some d → s.xtc.pattern.getLsbD 0 = false → exec i s = .next { s with
        xtc := { s.xtc with phase := .result, fifo := ⟨bad, 1, 0, 1⟩ }
        fixed := s.fixed.set b.drive.toNat { d with
          errorCode := .notReady
          senseCode := .notReady
          pos := ⟨(b.cylHigh.toNat <<< 8) + b.cylLow.toNat, b.head.toNat, b.sector.toNat⟩
          cur := ⟨none, 0, (if b.count = 0#8 then 256 else b.count.toNat) * d.geo.bytesPerSector, false⟩ } }) ∧
      (s.fixed[b.drive.toNat]? = none → exec i s = .next { s with
        xtc := { s.xtc with phase := .result, fifo := ⟨bad, 1, 0, 1⟩ } })

/-- R247, R358: INITIALIZE_DRIVE_CHARACTERISTICS captures the parameters for either drive number. A drive that exists
takes the cylinders and heads, with one warning when they differ from its table row. One that does not exist is a success,
unless the flag of R411 is armed: then `NotReady`, no interrupt, and the flag is consumed. Rests on the spec's own
decision D36. -/
def Obligations.XtcInitDrive : Prop :=
  ∀ (s : State) (b : XtcBlock) (p : InitParams), XtcIdle s →
    ∃ ok bad, ok.length = s.xtc.fifo.buffer.length ∧ bad.length = s.xtc.fifo.buffer.length ∧
      ok.take 1 = [b.drive.setWidth 8 <<< 5] ∧ bad.take 1 = [0x02#8 + (b.drive.setWidth 8 <<< 5)] ∧
      (∀ d, s.fixed[b.drive.toNat]? = some d → exec (.xtcInitDrive b p) s = .next { s with
        xtc := { s.xtc with
          phase := .result
          fifo := ⟨ok, 1, 0, 1⟩
          irq := s.xtc.irq || s.xtc.pattern.getLsbD 1
          initParams0 := if b.drive = 0#1 then p else s.xtc.initParams0
          initParams1 := if b.drive = 1#1 then p else s.xtc.initParams1 }
        fixed := s.fixed.set b.drive.toNat { d with
          errorCode := .none
          senseCode := .none
          geo := { d.geo with cylinders := p.maxCylinders.toNat, heads := p.heads.toNat } }
        diag := match s.cfg.tableGeometry b.drive.toNat with
          | some t =>
            if p.maxCylinders.toNat = t.cylinders ∧ p.heads.toNat = t.heads then s.diag
            else s.diag ++ [.geometryMismatch b.drive.toNat]
          | none => s.diag }) ∧
      (s.fixed[b.drive.toNat]? = none → s.xtc.allowInitFail = true →
        exec (.xtcInitDrive b p) s = .next { s with xtc := { s.xtc with
          phase := .result
          fifo := ⟨bad, 1, 0, 1⟩
          allowInitFail := false
          initParams0 := if b.drive = 0#1 then p else s.xtc.initParams0
          initParams1 := if b.drive = 1#1 then p else s.xtc.initParams1 } }) ∧
      (s.fixed[b.drive.toNat]? = none → s.xtc.allowInitFail = false →
        exec (.xtcInitDrive b p) s = .next { s with xtc := { s.xtc with
          phase := .result
          fifo := ⟨ok, 1, 0, 1⟩
          irq := s.xtc.irq || s.xtc.pattern.getLsbD 1
          initParams0 := if b.drive = 0#1 then p else s.xtc.initParams0
          initParams1 := if b.drive = 1#1 then p else s.xtc.initParams1 } })

/-- R248, R249: READ_BUFFER and WRITE_BUFFER rewind the buffer index and, with DMA enabled, open a Buffer session with no
Drive; with DMA disabled they end `NotReady`. The drive bit only goes into the completion byte (and, where the drive
exists, its error is cleared at the start and the class latched at the end, R232, R233). Rests on the spec's own
decision D61. -/
def Obligations.XtcBufferCommands : Prop :=
  ∀ (s : State) (b : XtcBlock) (i : Instr) (tm : Bool), XtcIdle s →
    ((i = .xtcReadBuffer b ∧ tm = true) ∨ (i = .xtcWriteBuffer b ∧ tm = false)) →
    ∃ run bad, run.length = s.xtc.fifo.buffer.length ∧ bad.length = s.xtc.fifo.buffer.length ∧
      run.take 6 = i.bytes ∧ bad.take 1 = [0x02#8 + (b.drive.setWidth 8 <<< 5)] ∧
      (s.xtc.pattern.getLsbD 0 = true → exec i s = .next { s with
        xtc := { s.xtc with phase := .execution, fifo := ⟨run, 6, 6, 6⟩, bufIndex := 0 }
        fixed := s.fixed.modify b.drive.toNat fun d => { d with errorCode := .none }
        dma := { s.dma with xtc := some ⟨none, .buffer, tm, false⟩ } }) ∧
      (s.xtc.pattern.getLsbD 0 = false → exec i s = .next { s with
        xtc := { s.xtc with phase := .result, fifo := ⟨bad, 1, 0, 1⟩, bufIndex := 0 }
        fixed := s.fixed.modify b.drive.toNat fun d => { d with errorCode := .none, senseCode := .notReady } })

/-- R251, R140: an unknown XTC opcode takes its six bytes, records `CommandAborted` where the drive exists, sets the error
bit, raises the interrupt if armed, and emits one diagnostic event. Rests on the spec's own decision D37. -/
def Obligations.XtcUnknownOpcode : Prop :=
  ∀ (s : State) (c0 : Byte) (b : XtcBlock), XtcIdle s → (Instr.xtcUnknown c0 b).wf = true →
    ∃ bad, bad.length = s.xtc.fifo.buffer.length ∧ bad.take 1 = [0x02#8 + (b.drive.setWidth 8 <<< 5)] ∧
      exec (.xtcUnknown c0 b) s = .next { s with
        xtc := { s.xtc with
          phase := .result
          fifo := ⟨bad, 1, 0, 1⟩
          irq := s.xtc.irq || s.xtc.pattern.getLsbD 1 }
        fixed := s.fixed.modify b.drive.toNat fun d =>
          { d with errorCode := .commandAborted, senseCode := .commandAborted }
        diag := s.diag ++ [.xtcUnsupported c0] }

/-! ### ATC commands -/

/-- R283, R146: a write to 0x1F7 in Command Phase runs the command its byte is, and answers. Rests on the spec's own
decision D42. -/
def Obligations.AtcCommandWrite : Prop :=
  ∀ (s : State) (v : Byte), AtcIdle s →
    ∃ i t, decode .atc [v] = .ok (i, []) ∧ i.wf = true ∧ exec (.atcOutCommand v) s = .next t ∧ exec i s = .next t

/-- R290, R291, with R283, R289, R385: RESTORE and SEEK. The drive of the task file goes to cylinder 0, or to the
cylinder and head of the task file; status 0x50, error 0x00, the interrupt unless `INT_DISABLE`. A drive that does
not exist gives status 0x01, error 0x04 and no interrupt. The command byte is kept, the task file is not rewritten.
Rests on the spec's own decisions D41, D43, D61 (log 18). -/
def Obligations.AtcRestoreSeek : Prop :=
  ∀ (s : State) (rate : BitVec 4) (i : Instr) (v : Byte) (move : Pos → Pos), AtcIdle s →
    ((i = .atcRestore rate ∧ v = 0x10#8 + rate.setWidth 8 ∧ move = fun p => { p with cylinder := 0 }) ∨
      (i = .atcSeek rate ∧ v = 0x70#8 + rate.setWidth 8 ∧ move = fun p => { p with
        cylinder := (s.atc.cylHi.toNat <<< 8) + s.atc.cylLo.toNat
        head := (s.atc.driveHead.extractLsb' 0 4).toNat })) →
    (∀ d, s.fixed[(s.atc.driveHead.extractLsb' 4 1).toNat]? = some d → exec i s = .next { s with
      atc := { s.atc with
        command := v
        error := 0x00#8
        status := 0x50#8
        dir := .none
        irq := s.atc.irq || !s.atc.fdr.getLsbD 1 }
      fixed := s.fixed.set (s.atc.driveHead.extractLsb' 4 1).toNat { d with
        errorCode := .none
        pos := move d.pos } }) ∧
    (s.fixed[(s.atc.driveHead.extractLsb' 4 1).toNat]? = none → exec i s = .next { s with
      atc := { s.atc with command := v, error := 0x04#8, status := 0x01#8, dir := .none } })

/-- R292, R293, R287: READ_DATA and WRITE_DATA load the position and the byte count of the task file and look up the
first sector. Found: `DATA_REQ`, for a read with an interrupt. Missing: `NoSectorFound` ends the command. Pending: the
controller stays `BUSY`. A drive that does not exist: `NotReady`. Rests on the spec's own decisions D44, D61. With a
geometry number of 0 every lookup is missing (U8, log 10). -/
def Obligations.AtcReadWriteData : Prop :=
  ∀ (s : State) (retry : BitVec 1) (i : Instr) (v : Byte) (dir : AtcDir), AtcIdle s →
    ((i = .atcReadData retry ∧ v = 0x20#8 + retry.setWidth 8 ∧ dir = .read) ∨
      (i = .atcWriteData retry ∧ v = 0x30#8 + retry.setWidth 8 ∧ dir = .write)) →
    (∀ d img, s.fixed[(s.atc.driveHead.extractLsb' 4 1).toNat]? = some d → d.disk = some img →
      1 ≤ d.geo.bytesPerSector →
      let p : Pos := ⟨(s.atc.cylHi.toNat <<< 8) + s.atc.cylLo.toNat, (s.atc.driveHead.extractLsb' 0 4).toNat,
        s.atc.secNum.toNat⟩
      let n := (if s.atc.secCount = 0#8 then 256 else s.atc.secCount.toNat) * d.geo.bytesPerSector
      let look : SeekAnswer × Store :=
        if d.geo.cylinders = 0 ∨ d.geo.heads = 0 ∨ d.geo.sectorsPerTrack = 0 then (.missing, s.store)
        else s.store.diskSeek img ⟨p.cylinder, p.head, p.sector⟩ d.geo.bytesPerSector
      (∀ h, look.1 = .found h → exec i s = .next { s with
        atc := { s.atc with
          command := v
          error := 0x00#8
          status := 0x58#8
          phase := .execution
          dir := dir
          irq := s.atc.irq || (decide (dir = .read) && !s.atc.fdr.getLsbD 1) }
        fixed := s.fixed.set (s.atc.driveHead.extractLsb' 4 1).toNat { d with
          errorCode := .none
          pos := p
          cur := ⟨some h, 0, n, false⟩ }
        store := look.2 }) ∧
      (look.1 = .missing → exec i s = .next { s with
        atc := { s.atc with
          command := v
          error := 0x10#8
          status := 0x51#8
          dir := .none
          irq := s.atc.irq || !s.atc.fdr.getLsbD 1 }
        fixed := s.fixed.set (s.atc.driveHead.extractLsb' 4 1).toNat { d with
          errorCode := .noSectorFound
          pos := p
          cur := ⟨none, 0, n, false⟩ }
        store := look.2 }) ∧
      (look.1 = .pending → exec i s = .next { s with
        atc := { s.atc with
          command := v
          error := 0x00#8
          status := 0x80#8
          phase := .execution
          dir := dir }
        fixed := s.fixed.set (s.atc.driveHead.extractLsb' 4 1).toNat { d with
          errorCode := .none
          pos := p
          cur := ⟨none, 0, n, true⟩ }
        store := look.2 })) ∧
    (s.fixed[(s.atc.driveHead.extractLsb' 4 1).toNat]? = none → exec i s = .next { s with
      atc := { s.atc with command := v, error := 0x04#8, status := 0x01#8, dir := .none } })

/-- R294, R358: SET_PARAMETERS takes the heads and the sectors per track from the task file, with one warning when they
differ from the drive's table row; the programmed values win. Rests on the spec's own decision D45. -/
def Obligations.AtcSetParameters : Prop :=
  ∀ s : State, AtcIdle s →
    (∀ d, s.fixed[(s.atc.driveHead.extractLsb' 4 1).toNat]? = some d → exec .atcSetParameters s = .next { s with
      atc := { s.atc with
        command := 0x91#8
        error := 0x00#8
        status := 0x50#8
        dir := .none
        irq := s.atc.irq || !s.atc.fdr.getLsbD 1 }
      fixed := s.fixed.set (s.atc.driveHead.extractLsb' 4 1).toNat { d with
        errorCode := .none
        geo := { d.geo with
          heads := (s.atc.driveHead.extractLsb' 0 4).toNat + 1
          sectorsPerTrack := s.atc.secCount.toNat } }
      diag := match s.cfg.tableGeometry (s.atc.driveHead.extractLsb' 4 1).toNat with
        | some t =>
          if (s.atc.driveHead.extractLsb' 0 4).toNat + 1 = t.heads ∧ s.atc.secCount.toNat = t.sectorsPerTrack then s.diag
          else s.diag ++ [.geometryMismatch (s.atc.driveHead.extractLsb' 4 1).toNat]
        | none => s.diag }) ∧
    (s.fixed[(s.atc.driveHead.extractLsb' 4 1).toNat]? = none → exec .atcSetParameters s = .next { s with
      atc := { s.atc with command := 0x91#8, error := 0x04#8, status := 0x01#8, dir := .none } })

/-- R295, R296: DIAGNOSE reports 0x01 and success, whatever the drive; an unknown byte ends `CommandAborted` with one
diagnostic event, recorded where the drive exists (whose error every command clears first, R283). The model's
reading: DIAGNOSE keeps R283's clearing (log 19). Rests on the spec's own decision D42. -/
def Obligations.AtcDiagnoseAndUnknown : Prop :=
  ∀ s : State, AtcIdle s →
    exec .atcDiagnose s = .next { s with
      atc := { s.atc with
        command := 0x90#8
        error := 0x01#8
        status := 0x50#8
        irq := s.atc.irq || !s.atc.fdr.getLsbD 1 }
      fixed := s.fixed.modify (s.atc.driveHead.extractLsb' 4 1).toNat fun d => { d with errorCode := .none } } ∧
    ∀ v, (Instr.atcUnknown v).wf = true → exec (.atcUnknown v) s = .next { s with
      atc := { s.atc with
        command := v
        error := 0x04#8
        status := 0x51#8
        dir := .none
        irq := s.atc.irq || !s.atc.fdr.getLsbD 1 }
      fixed := s.fixed.modify (s.atc.driveHead.extractLsb' 4 1).toNat fun d => { d with errorCode := .commandAborted }
      diag := s.diag ++ [.atcUnsupported v] }

/-! ### The ATC's data path -/

/-- R284, R365, R368, R288, R297: a read of 0x1F0 with `DATA_REQ`. An error already recorded, or a failed image read
(`CrcError`), ends the command and answers 0x00. Otherwise the answer is the byte of the active sector: inside the sector
only the offset moves; the transfer's last byte advances the position, writes it back to the task file and ends the
command with status 0x50 and no interrupt. Rests on the spec's own decisions D43, D44. -/
def Obligations.AtcDataRead : Prop :=
  ∀ (s : State) (d : Drive) (h : Handle), s.cfg.hdcVariant = .atc → s.atc.phase = .execution → s.atc.dir = .read →
    s.atc.status.getLsbD 3 = true → s.fixed[(s.atc.driveHead.extractLsb' 4 1).toNat]? = some d →
    d.cur.activeSector = some h →
    let u := (s.atc.driveHead.extractLsb' 4 1).toNat
    let rd := s.store.diskRead h d.cur.byteOffset
    let p := d.pos.advance d.geo 1
    (d.errorCode ≠ .none → exec .atcInData s = .next { s with
      answer := .byte 0x00#8
      atc := { s.atc with
        error := atcErrorByte d.errorCode
        status := atcStatusByte d.errorCode
        phase := .command
        dir := .none
        irq := s.atc.irq || (!s.atc.fdr.getLsbD 1 && decide (d.errorCode ≠ .notReady)) } }) ∧
    (d.errorCode = .none → rd.1 = none → exec .atcInData s = .next { s with
      answer := .byte 0x00#8
      atc := { s.atc with
        error := 0x40#8
        status := 0x51#8
        phase := .command
        dir := .none
        irq := s.atc.irq || !s.atc.fdr.getLsbD 1 }
      fixed := s.fixed.set u { d with errorCode := .crcError }
      store := rd.2 }) ∧
    (∀ v, d.errorCode = .none → rd.1 = some v → d.cur.byteOffset + 1 ≠ d.geo.bytesPerSector →
      v = s.store.cells.read (diskAddress h d.cur.byteOffset) ∧ exec .atcInData s = .next { s with
        answer := .byte v
        fixed := s.fixed.set u { d with cur := { d.cur with byteOffset := d.cur.byteOffset + 1 } }
        store := rd.2 }) ∧
    (∀ v, d.errorCode = .none → rd.1 = some v → d.cur.byteOffset + 1 = d.geo.bytesPerSector →
      d.cur.bytesRemaining = d.geo.bytesPerSector → exec .atcInData s = .next { s with
        answer := .byte v
        atc := { s.atc with
          status := 0x50#8
          phase := .command
          dir := .none
          secCount := s.atc.secCount - 1#8
          secNum := BitVec.ofNat 8 p.sector
          cylLo := BitVec.ofNat 8 p.cylinder
          cylHi := BitVec.ofNat 8 (p.cylinder / 256)
          driveHead := s.atc.driveHead &&& 0xF0#8 ||| BitVec.ofNat 8 (p.head % 16) }
        fixed := s.fixed.set u { d with pos := p, cur := ⟨none, 0, 0, d.cur.pending⟩ }
        store := rd.2 })

/-- R285, R366, R368, R288, R289: a write to 0x1F0 with `DATA_REQ`. A read-only image gives `WriteFault` and a failed
image write `CrcError`; both end the command and change no byte of the image. Otherwise the byte is stored at the active
sector's offset and nowhere else: inside the sector only the offset moves; the transfer's last byte ends the command with
status 0x50 and the interrupt. Rests on the spec's own decision D61. -/
def Obligations.AtcDataWrite : Prop :=
  ∀ (s : State) (v : Byte) (d : Drive) (h : Handle) (img : Nat), s.cfg.hdcVariant = .atc → s.atc.phase = .execution →
    s.atc.dir = .write → s.atc.status.getLsbD 3 = true →
    s.fixed[(s.atc.driveHead.extractLsb' 4 1).toNat]? = some d → d.disk = some img → d.cur.activeSector = some h →
    let u := (s.atc.driveHead.extractLsb' 4 1).toNat
    let wr := s.store.diskWrite h d.cur.byteOffset v
    let p := d.pos.advance d.geo 1
    (d.errorCode ≠ .none → exec (.atcOutData v) s = .next { s with
      atc := { s.atc with
        error := atcErrorByte d.errorCode
        status := atcStatusByte d.errorCode
        phase := .command
        dir := .none
        irq := s.atc.irq || (!s.atc.fdr.getLsbD 1 && decide (d.errorCode ≠ .notReady)) } }) ∧
    (d.errorCode = .none → s.store.writable img = false → exec (.atcOutData v) s = .next { s with
      atc := { s.atc with
        error := 0x04#8
        status := 0x71#8
        phase := .command
        dir := .none
        irq := s.atc.irq || !s.atc.fdr.getLsbD 1 }
      fixed := s.fixed.set u { d with errorCode := .writeFault } }) ∧
    (d.errorCode = .none → s.store.writable img = true → wr.1 = false → wr.2.cells = s.store.cells ∧
      exec (.atcOutData v) s = .next { s with
        atc := { s.atc with
          error := 0x40#8
          status := 0x51#8
          phase := .command
          dir := .none
          irq := s.atc.irq || !s.atc.fdr.getLsbD 1 }
        fixed := s.fixed.set u { d with errorCode := .crcError }
        store := wr.2 }) ∧
    (d.errorCode = .none → s.store.writable img = true → wr.1 = true →
      (Memory.wf s.store.cells = true → wr.2.cells.read (diskAddress h d.cur.byteOffset) = v) ∧
      (∀ a, a ≠ diskAddress h d.cur.byteOffset → wr.2.cells.read a = s.store.cells.read a) ∧
      (d.cur.byteOffset + 1 ≠ d.geo.bytesPerSector → exec (.atcOutData v) s = .next { s with
        fixed := s.fixed.set u { d with cur := { d.cur with byteOffset := d.cur.byteOffset + 1 } }
        store := wr.2 }) ∧
      (d.cur.byteOffset + 1 = d.geo.bytesPerSector → d.cur.bytesRemaining = d.geo.bytesPerSector →
        exec (.atcOutData v) s = .next { s with
          atc := { s.atc with
            error := 0x00#8
            status := 0x50#8
            phase := .command
            dir := .none
            irq := s.atc.irq || !s.atc.fdr.getLsbD 1
            secCount := s.atc.secCount - 1#8
            secNum := BitVec.ofNat 8 p.sector
            cylLo := BitVec.ofNat 8 p.cylinder
            cylHi := BitVec.ofNat 8 (p.cylinder / 256)
            driveHead := s.atc.driveHead &&& 0xF0#8 ||| BitVec.ofNat 8 (p.head % 16) }
          fixed := s.fixed.set u { d with pos := p, cur := ⟨none, 0, 0, d.cur.pending⟩ }
          store := wr.2 }))

/-- R288, R297, R287: the last byte of a sector that is not the transfer's last. The count of the task file goes down by
one, the task file shows the next sector, and that sector is looked up, with the interrupt of a sector written (write) or
ready (read). `moved` is the store after the byte itself has moved. Rests on the spec's own decision D44. With a
geometry number of 0 every lookup is missing (U8, log 10). -/
def Obligations.AtcSectorBoundary : Prop :=
  ∀ (s : State) (i : Instr) (d : Drive) (h : Handle) (img : Nat) (moved : Store) (a : Answer),
    s.cfg.hdcVariant = .atc → s.atc.phase = .execution → s.atc.status.getLsbD 3 = true →
    s.fixed[(s.atc.driveHead.extractLsb' 4 1).toNat]? = some d → d.disk = some img → d.cur.activeSector = some h →
    d.errorCode = .none → d.cur.byteOffset + 1 = d.geo.bytesPerSector →
    d.geo.bytesPerSector < d.cur.bytesRemaining →
    ((i = .atcInData ∧ s.atc.dir = .read ∧
        ∃ v, s.store.diskRead h d.cur.byteOffset = (some v, moved) ∧ a = .byte v) ∨
      (∃ v, i = .atcOutData v ∧ s.atc.dir = .write ∧ s.store.writable img = true ∧
        s.store.diskWrite h d.cur.byteOffset v = (true, moved) ∧ a = s.answer)) →
    let u := (s.atc.driveHead.extractLsb' 4 1).toNat
    let p := d.pos.advance d.geo 1
    let left := d.cur.bytesRemaining - d.geo.bytesPerSector
    let look : SeekAnswer × Store :=
      if d.geo.cylinders = 0 ∨ d.geo.heads = 0 ∨ d.geo.sectorsPerTrack = 0 then (.missing, moved)
      else moved.diskSeek img ⟨p.cylinder, p.head, p.sector⟩ d.geo.bytesPerSector
    let task : Atc := { s.atc with
      secCount := s.atc.secCount - 1#8
      secNum := BitVec.ofNat 8 p.sector
      cylLo := BitVec.ofNat 8 p.cylinder
      cylHi := BitVec.ofNat 8 (p.cylinder / 256)
      driveHead := s.atc.driveHead &&& 0xF0#8 ||| BitVec.ofNat 8 (p.head % 16) }
    let armed := s.atc.irq || !s.atc.fdr.getLsbD 1
    (∀ k, look.1 = .found k → exec i s = .next { s with
      answer := a
      atc := { task with status := 0x58#8, irq := armed }
      fixed := s.fixed.set u { d with pos := p, cur := ⟨some k, 0, left, d.cur.pending⟩ }
      store := look.2 }) ∧
    (look.1 = .missing → exec i s = .next { s with
      answer := a
      atc := { task with error := 0x10#8, status := 0x51#8, phase := .command, dir := .none, irq := armed }
      fixed := s.fixed.set u { d with
        errorCode := .noSectorFound
        pos := p
        cur := ⟨none, 0, left, d.cur.pending⟩ }
      store := look.2 }) ∧
    (look.1 = .pending → exec i s = .next { s with
      answer := a
      atc := { task with status := 0x80#8, irq := if s.atc.dir = .write then armed else s.atc.irq }
      fixed := s.fixed.set u { d with pos := p, cur := ⟨none, 0, left, true⟩ }
      store := look.2 })

/-! ### The DMA bridge -/

/-- R321, R323: a session that is not engaged takes the peer's answer and no byte and no close; engaging it changes nothing
else. With no session no step of the peer exists; an engaged one is not engaged again; a pull is for a session towards
memory, a push for one from memory, and neither exists while the Drive's lookup is pending. Rests on the spec's own
decisions D1, D27. -/
def Obligations.DmaStepsEnabled : Prop :=
  ∀ (s : State) (ss : Session) (b : Byte) (yes completed : Bool),
    (s.dma.fdc = some ss → ss.engaged = false → runAgent (.dmaEngage .fdc true) s =
      .next { s with dma := { s.dma with fdc := some { ss with engaged := true } } }) ∧
    (s.dma.xtc = some ss → ss.engaged = false → runAgent (.dmaEngage .xtc true) s =
      .next { s with dma := { s.dma with xtc := some { ss with engaged := true } } }) ∧
    ∀ c, let open? := (match c with | .fdc => s.dma.fdc | .xtc => s.dma.xtc)
      (open? = none → runAgent (.dmaEngage c yes) s = .refused .stepNotEnabled ∧
        runAgent (.dmaClose c completed) s = .refused .stepNotEnabled) ∧
      (open? = some ss → ss.engaged = true → runAgent (.dmaEngage c yes) s = .refused .stepNotEnabled) ∧
      (open? = some ss → ss.engaged = false →
        runAgent (.dmaClose c completed) s = .refused .stepNotEnabled) ∧
      (open? = none ∨ (open? = some ss ∧ (ss.engaged = false ∨ ss.toMemory = false ∨
          ∃ u d, ss.drive = some u ∧ s.drive? (c.drive u) = some d ∧ d.cur.pending = true)) →
        runAgent (.dmaPull c) s = .refused .stepNotEnabled) ∧
      (open? = none ∨ (open? = some ss ∧ (ss.engaged = false ∨ ss.toMemory = true ∨
          ∃ u d, ss.drive = some u ∧ s.drive? (c.drive u) = some d ∧ d.cur.pending = true)) →
        runAgent (.dmaPush c b) s = .refused .stepNotEnabled)

/-- R324, R364, R365, R368: a pull on an engaged Read session. `put` is the state with that Drive, that store, that answer.
An error already recorded, or a count used up, answers `EOF` and changes nothing; no image, no sector or a failed read
records its class; a pending lookup marks the cursor. Otherwise the byte is the active sector's (or, at a boundary, the
first one of the sector just looked up), the offset moves on, and the sector's last byte takes the count down and the
position to the next sector. The model's choice: the images as plain data (log 4, log 5). With a geometry number of
0 every lookup is missing (U8, log 10). -/
def Obligations.DmaPullMovesOneByte : Prop :=
  ∀ (s : State) (c : Chan) (u : Nat) (d : Drive), s.session c = some ⟨some u, .read, true, true⟩ →
    s.drive? (c.drive u) = some d → d.cur.pending = false →
    let bias := (match c with | .fdc => 1 | .xtc => 0)
    let look : Nat → SeekAnswer × Store := fun img =>
      if d.geo.cylinders = 0 ∨ d.geo.heads = 0 ∨ d.geo.sectorsPerTrack = 0 then (.missing, s.store)
      else s.store.diskSeek img ⟨d.pos.cylinder, d.pos.head, d.pos.sector + 1 - bias⟩ d.geo.bytesPerSector
    let put := fun (d' : Drive) (st : Store) (a : Answer) =>
      (Host.Outcome.next { s.modifyDrive (c.drive u) (fun _ => d') with store := st, answer := a } : Out)
    (d.errorCode ≠ .none → runAgent (.dmaPull c) s = .next { s with answer := .eof }) ∧
    (d.errorCode = .none → d.cur.activeSector = none →
      (d.disk = none → runAgent (.dmaPull c) s = put { d with errorCode := .notReady } s.store .eof) ∧
      (∀ img, d.disk = some img → d.cur.bytesRemaining = 0 →
        runAgent (.dmaPull c) s = .next { s with answer := .eof }) ∧
      (∀ img st, d.disk = some img → 0 < d.cur.bytesRemaining →
        (look img = (.missing, st) →
          runAgent (.dmaPull c) s = put { d with errorCode := .noSectorFound } st .eof) ∧
        (look img = (.pending, st) →
          runAgent (.dmaPull c) s = put { d with cur := { d.cur with pending := true } } st .pending))) ∧
    (∀ h off st, d.errorCode = .none →
      ((d.cur.activeSector = some h ∧ off = d.cur.byteOffset ∧ st = s.store) ∨
        (d.cur.activeSector = none ∧ off = 0 ∧ 0 < d.cur.bytesRemaining ∧ ∃ img, d.disk = some img ∧
          look img = (.found h, st))) →
      ((st.diskRead h off).1 = none → runAgent (.dmaPull c) s = put { d with
        errorCode := .crcError
        cur := { d.cur with activeSector := some h, byteOffset := off } } (st.diskRead h off).2 .eof) ∧
      (∀ v, (st.diskRead h off).1 = some v → v = s.store.cells.read (diskAddress h off) ∧
        (off + 1 ≠ d.geo.bytesPerSector → runAgent (.dmaPull c) s = put { d with
          cur := { d.cur with activeSector := some h, byteOffset := off + 1 } } (st.diskRead h off).2 (.byte v)) ∧
        (off + 1 = d.geo.bytesPerSector → runAgent (.dmaPull c) s = put { d with
          pos := d.pos.advance d.geo bias
          cur := ⟨none, 0, d.cur.bytesRemaining - d.geo.bytesPerSector, false⟩ } (st.diskRead h off).2 (.byte v))))

/-- R325, R364, R366, R368: a push on an engaged Write session, as the pull; a read-only image gives `WriteFault` before
any lookup. The byte is stored at the one address of the active sector's offset; every other address, and on a failed
write every address, reads as before. The model's choice: the images as plain data (log 4, log 5). With a geometry
number of 0 every lookup is missing (U8, log 10). -/
def Obligations.DmaPushMovesOneByte : Prop :=
  ∀ (s : State) (c : Chan) (u : Nat) (d : Drive) (v : Byte), s.session c = some ⟨some u, .write, false, true⟩ →
    s.drive? (c.drive u) = some d → d.cur.pending = false →
    let bias := (match c with | .fdc => 1 | .xtc => 0)
    let look : Nat → SeekAnswer × Store := fun img =>
      if d.geo.cylinders = 0 ∨ d.geo.heads = 0 ∨ d.geo.sectorsPerTrack = 0 then (.missing, s.store)
      else s.store.diskSeek img ⟨d.pos.cylinder, d.pos.head, d.pos.sector + 1 - bias⟩ d.geo.bytesPerSector
    let put := fun (d' : Drive) (st : Store) (a : Answer) =>
      (Host.Outcome.next { s.modifyDrive (c.drive u) (fun _ => d') with store := st, answer := a } : Out)
    (d.errorCode ≠ .none → runAgent (.dmaPush c v) s = .next { s with answer := .error }) ∧
    (∀ img, d.errorCode = .none → d.disk = some img → s.store.writable img = false →
      runAgent (.dmaPush c v) s = put { d with errorCode := .writeFault } s.store .error) ∧
    (d.errorCode = .none → d.cur.activeSector = none →
      (d.disk = none → runAgent (.dmaPush c v) s = put { d with errorCode := .notReady } s.store .error) ∧
      (∀ img, d.disk = some img → s.store.writable img = true → d.cur.bytesRemaining = 0 →
        runAgent (.dmaPush c v) s = .next { s with answer := .error }) ∧
      (∀ img st, d.disk = some img → s.store.writable img = true → 0 < d.cur.bytesRemaining →
        (look img = (.missing, st) →
          runAgent (.dmaPush c v) s = put { d with errorCode := .noSectorFound } st .error) ∧
        (look img = (.pending, st) →
          runAgent (.dmaPush c v) s = put { d with cur := { d.cur with pending := true } } st .pending))) ∧
    (∀ img h off st, d.errorCode = .none → d.disk = some img → s.store.writable img = true →
      ((d.cur.activeSector = some h ∧ off = d.cur.byteOffset ∧ st = s.store) ∨
        (d.cur.activeSector = none ∧ off = 0 ∧ 0 < d.cur.bytesRemaining ∧
          look img = (.found h, st))) →
      ((st.diskWrite h off v).1 = false → (st.diskWrite h off v).2.cells = s.store.cells ∧
        runAgent (.dmaPush c v) s = put { d with
          errorCode := .crcError
          cur := { d.cur with activeSector := some h, byteOffset := off } } (st.diskWrite h off v).2 .error) ∧
      ((st.diskWrite h off v).1 = true →
        (Memory.wf s.store.cells = true → (st.diskWrite h off v).2.cells.read (diskAddress h off) = v) ∧
        (∀ a, a ≠ diskAddress h off → (st.diskWrite h off v).2.cells.read a = s.store.cells.read a) ∧
        (off + 1 ≠ d.geo.bytesPerSector → runAgent (.dmaPush c v) s = put { d with
          cur := { d.cur with activeSector := some h, byteOffset := off + 1 } } (st.diskWrite h off v).2 .accepted) ∧
        (off + 1 = d.geo.bytesPerSector → runAgent (.dmaPush c v) s = put { d with
          pos := d.pos.advance d.geo bias
          cur := ⟨none, 0, d.cur.bytesRemaining - d.geo.bytesPerSector, false⟩ } (st.diskWrite h off v).2 .accepted)))

/-- R248, R249, R324, R325: the sector buffer. A pull delivers the cell at the index, a push stores it, the index moves on;
at 512 a pull answers `EOF` and a push `error`, and nothing changes. -/
def Obligations.DmaBufferMovesOneByte : Prop :=
  ∀ (s : State) (v : Byte),
    (s.dma.xtc = some ⟨none, .buffer, true, true⟩ →
      (s.xtc.bufIndex = 512 → runAgent (.dmaPull .xtc) s = .next { s with answer := .eof }) ∧
      (∀ x, s.xtc.bufIndex < 512 → s.xtc.sectorBuffer[s.xtc.bufIndex]? = some x →
        runAgent (.dmaPull .xtc) s = .next { s with
          answer := .byte x
          xtc := { s.xtc with bufIndex := s.xtc.bufIndex + 1 } })) ∧
    (s.dma.xtc = some ⟨none, .buffer, false, true⟩ →
      (s.xtc.bufIndex = 512 → runAgent (.dmaPush .xtc v) s = .next { s with answer := .error }) ∧
      (s.xtc.bufIndex < 512 → runAgent (.dmaPush .xtc v) s = .next { s with
        answer := .accepted
        xtc := { s.xtc with
          sectorBuffer := s.xtc.sectorBuffer.set s.xtc.bufIndex v
          bufIndex := s.xtc.bufIndex + 1 } }))

/-- R210: a push on an engaged Format session of the FDC. An error recorded, or all sectors done, answers `error`
and changes nothing. The first three ID bytes are kept. The fourth sets the position from the ID and looks its
sector up: no image is `NotReady`, a count used up answers `error` with no class, a missing sector is
`NoSectorFound`, a pending one is accepted and marks the cursor, and a sector found is filled (`SectorFill`: a
read-only image, a failing write, the whole sector). With a geometry number of 0 every lookup is missing (U8, log
10). Rests on the spec's own decision D20. -/
def Obligations.FdcFormatPush : Prop :=
  ∀ (s : State) (u : Nat) (d : Drive) (v : Byte), s.dma.fdc = some ⟨some u, .format, false, true⟩ →
    s.floppy[u]? = some d → d.cur.pending = false →
    (d.errorCode ≠ .none ∨ d.sectorEnd.toNat ≤ d.fmt.sectorsFormatted →
      runAgent (.dmaPush .fdc v) s = .next { s with answer := .error }) ∧
    (d.errorCode = .none → d.fmt.sectorsFormatted < d.sectorEnd.toNat →
      (d.fmt.idCount < 3 → runAgent (.dmaPush .fdc v) s = .next { s with
        answer := .accepted
        floppy := s.floppy.set u { d with fmt := { d.fmt with
          idBuf := d.fmt.idBuf.set d.fmt.idCount v
          idCount := d.fmt.idCount + 1 } } }) ∧
      (∀ x y z w, d.fmt.idBuf = [x, y, z, w] → d.fmt.idCount = 3 →
        let loaded : Drive := { d with
          pos := ⟨x.toNat, y.toNat, z.toNat⟩
          fmt := { d.fmt with idBuf := [x, y, z, v], idCount := 0 } }
        let put := fun (d' : Drive) (st : Store) (a : Answer) =>
          (Host.Outcome.next { s with floppy := s.floppy.set u d', store := st, answer := a } : Out)
        (d.disk = none →
          runAgent (.dmaPush .fdc v) s = put { loaded with errorCode := .notReady } s.store .error) ∧
        (∀ img, d.disk = some img →
          (d.cur.bytesRemaining = 0 → runAgent (.dmaPush .fdc v) s = put loaded s.store .error) ∧
          (0 < d.cur.bytesRemaining →
            let look : SeekAnswer × Store :=
              if d.geo.cylinders = 0 ∨ d.geo.heads = 0 ∨ d.geo.sectorsPerTrack = 0 then (.missing, s.store)
              else s.store.diskSeek img ⟨x.toNat, y.toNat, z.toNat⟩ d.geo.bytesPerSector
            (look.1 = .missing →
              runAgent (.dmaPush .fdc v) s = put { loaded with errorCode := .noSectorFound } look.2 .error) ∧
            (look.1 = .pending →
              runAgent (.dmaPush .fdc v) s =
                put { loaded with cur := { d.cur with pending := true } } look.2 .accepted) ∧
            (∀ h, look.1 = .found h → 1 ≤ d.geo.bytesPerSector → ∃ a d' st', SectorFill loaded look.2 h a d' st' ∧
              runAgent (.dmaPush .fdc v) s = put d' st' (if a = .accepted then .accepted else .error))))))

/-- R327, R328, R177, R323: the end of an FDC session, by the peer's close or by its refusal to engage (which is a close
short). An error recorded stays; without one, a close short is `NotReady` and a complete one a success. The result is the
status bytes of that class and the Drive's final position, with the request's N; the interrupt is raised if armed and the
class is not `NotReady`. Rests on the spec's own decisions D25, D27. -/
def Obligations.FdcTransferEnds : Prop :=
  ∀ (s : State) (ss : Session) (u : Nat) (d : Drive) (a : AgentStep) (completed : Bool), s.dma.fdc = some ss →
    ss.drive = some u → s.floppy[u]? = some d → 7 ≤ s.fdc.fifo.buffer.length →
    ((a = .dmaClose .fdc completed ∧ ss.engaged = true) ∨
      (a = .dmaEngage .fdc false ∧ ss.engaged = false ∧ completed = false)) →
    let e := if d.errorCode ≠ .none then d.errorCode else if completed then .none else .notReady
    let us := reqByte s.fdc.fifo.buffer 1
    let st := fdcStatus e (us.extractLsb' 0 2) (us.extractLsb' 2 1) false
    ∃ b, b.length = s.fdc.fifo.buffer.length ∧
      b.take 7 = [st.1, st.2.1, st.2.2, BitVec.ofNat 8 d.pos.cylinder, BitVec.ofNat 8 d.pos.head,
        BitVec.ofNat 8 d.pos.sector,
        if (reqByte s.fdc.fifo.buffer 0).extractLsb' 0 5 = 0x0D#5 then reqByte s.fdc.fifo.buffer 2
        else reqByte s.fdc.fifo.buffer 5] ∧
      runAgent a s = .next { s with
        fdc := { s.fdc with
          phase := .result
          fifo := ⟨b, 7, 0, 7⟩
          endStatus := st.1
          irq := s.fdc.irq || (s.fdc.out.getLsbD 3 && decide (e ≠ .notReady)) }
        floppy := s.floppy.set u { d with errorCode := e, cur := { d.cur with pending := false } }
        dma := { s.dma with fdc := none } }

/-- R327, R328, R246, R233, R454: the end of an XTC session. For a disk transfer a complete close with bytes
outstanding is `Incomplete`, and the class is recorded and latched on the Drive. A Buffer session has no Drive, so
no class is recorded, and its outcome is latched as `senseCode` on the Drive the block addresses, where it exists.
The completion byte carries the error and the block's drive bit. The model's reading: that latch after a Buffer
session (log 11; ruling C4 of spec/90_conflicts.md). Rests on the spec's own decisions D25, D61. -/
def Obligations.XtcTransferEnds : Prop :=
  ∀ (s : State) (ss : Session) (a : AgentStep) (completed : Bool), s.dma.xtc = some ss →
    1 ≤ s.xtc.fifo.buffer.length →
    ((a = .dmaClose .xtc completed ∧ ss.engaged = true) ∨
      (a = .dmaEngage .xtc false ∧ ss.engaged = false ∧ completed = false)) →
    let drv := ((reqByte s.xtc.fifo.buffer 1).extractLsb' 5 1).setWidth 8 <<< 5
    (∀ u d, ss.drive = some u → (ss.direction = .read ∨ ss.direction = .write) → s.fixed[u]? = some d →
      let e := if d.errorCode ≠ .none then d.errorCode else if completed = false then .notReady
        else if 0 < d.cur.bytesRemaining then .incomplete else .none
      ∃ b, b.length = s.xtc.fifo.buffer.length ∧
        b.take 1 = [(if e = .none then 0x00#8 else 0x02#8) + drv] ∧ runAgent a s = .next { s with
          xtc := { s.xtc with
            phase := .result
            fifo := ⟨b, 1, 0, 1⟩
            irq := s.xtc.irq || (s.xtc.pattern.getLsbD 1 && decide (e ≠ .notReady)) }
          fixed := s.fixed.set u { d with
            errorCode := e
            senseCode := e
            cur := { d.cur with pending := false } }
          dma := { s.dma with xtc := none } }) ∧
    (ss.drive = none →
      ∃ b, b.length = s.xtc.fifo.buffer.length ∧
        b.take 1 = [(if completed then 0x00#8 else 0x02#8) + drv] ∧ runAgent a s = .next { s with
          xtc := { s.xtc with
            phase := .result
            fifo := ⟨b, 1, 0, 1⟩
            irq := s.xtc.irq || (s.xtc.pattern.getLsbD 1 && completed) }
          fixed := s.fixed.modify ((reqByte s.xtc.fifo.buffer 1).extractLsb' 5 1).toNat fun d =>
            { d with senseCode := if completed then .none else .notReady }
          dma := { s.dma with xtc := none } })

/-! ### Positions and images -/

/-- R353, R354: `AdvanceSector`. From any position: the next sector, or the first one of the next head, or of head 0 of the
next cylinder. Within the bounds of the geometry it stays within them, and `sectorsPerTrack * heads` of them come back to
the same head and sector, one cylinder further. -/
def Obligations.AdvanceSectorPeriod : Prop :=
  ∀ (p : Pos) (g : Geometry) (bias : Nat),
    (p.sector + 1 < g.sectorsPerTrack + bias → p.advance g bias = { p with sector := p.sector + 1 }) ∧
    (g.sectorsPerTrack + bias ≤ p.sector + 1 → p.head + 1 < g.heads →
      p.advance g bias = ⟨p.cylinder, p.head + 1, bias⟩) ∧
    (g.sectorsPerTrack + bias ≤ p.sector + 1 → g.heads ≤ p.head + 1 →
      p.advance g bias = ⟨p.cylinder + 1, 0, bias⟩) ∧
    (bias ≤ p.sector → p.sector < g.sectorsPerTrack + bias → p.head < g.heads →
      (let q := p.advance g bias; bias ≤ q.sector ∧ q.sector < g.sectorsPerTrack + bias ∧ q.head < g.heads) ∧
      (fun q : Pos => q.advance g bias)^[g.sectorsPerTrack * g.heads] p = { p with cylinder := p.cylinder + 1 })

/-- R361, R362, R363: the laws of the store. A read answers what was last written there, a write changes no other place, a
failed one no place; reads, writes and lookups never change which sectors an image has; two different sectors never share a
handle, nor two different places an address; a preloaded image answers at once and never fails. The model's choice:
the images as plain data (log 4, log 5). Rests on the spec's own decision D55. -/
def Obligations.StoreLaws : Prop :=
  ∀ (st : Store) (h k : Handle) (off off' : Nat) (v : Byte), Memory.wf st.cells = true →
    (let w := st.diskWrite h off v
     (w.1 = true → ∀ x, (w.2.diskRead h off).1 = some x → x = v) ∧
     (w.1 = true → (h, off) ≠ (k, off') →
       w.2.cells.read (diskAddress k off') = st.cells.read (diskAddress k off')) ∧
     (w.1 = false → w.2.cells = st.cells) ∧ Memory.wf w.2.cells = true ∧
     (∀ x, (st.diskRead h off).1 = some x → x = st.cells.read (diskAddress h off)) ∧
     (st.diskRead h off).2.cells = st.cells ∧
     ∀ img id len, w.2.hasSector img id len = st.hasSector img id len ∧
       (st.diskRead h off).2.hasSector img id len = st.hasSector img id len ∧
       (st.diskSeek img id len).2.hasSector img id len = st.hasSector img id len ∧
       (st.diskSeek img id len).2.cells = st.cells ∧
       (∀ j, (st.diskSeek img id len).1 = .found j → j = ⟨img, id⟩ ∧ st.hasSector img id len = true) ∧
       ((st.diskSeek img id len).1 = .missing → st.hasSector img id len = false) ∧
       (id.sec = 0 → st.hasSector img id len = false)) ∧
    (diskAddress h off = diskAddress k off' ↔ h = k ∧ off = off') ∧
    (st.preloaded h.image = true → (st.diskWrite h off v).1 = true ∧ (st.diskRead h off).1 ≠ none ∧
      ∀ id len, (st.diskSeek h.image id len).1 ≠ .pending)

/-- R364: the delivery of a pending lookup, enabled only while it is pending. The answer is the image's: found makes
the sector active, missing records `NoSectorFound` unless an error stands. On an ATC Drive the waiting command goes
on (`AtcPrimed`); a Drive the FDC is formatting, without an error, has its sector filled in the same step when it is
found (R210, `SectorFill`: no byte outside the sector changes); every other Drive waits for the peer's repeated
call. The model's reading: the answer is computed at delivery (log 15). Rests on the spec's own decisions D20, D44. -/
def Obligations.ResolveDelivers : Prop :=
  ∀ (s : State) (r : DriveRef) (d : Drive), s.drive? r = some d →
    (d.cur.pending = false → runAgent (.resolve r) s = .refused .stepNotEnabled) ∧
    (∀ img, d.cur.pending = true → d.disk = some img →
      let bias := (match r with | .floppy _ => 1 | .fixed _ => fixedBias s.cfg.hdcVariant)
      let id : SectorId := ⟨d.pos.cylinder, d.pos.head, d.pos.sector + 1 - bias⟩
      let there := s.store.hasSector img id d.geo.bytesPerSector
      let d' : Drive :=
        if there then
          { d with cur := { d.cur with activeSector := some ⟨img, id⟩, byteOffset := 0, pending := false } }
        else { d with
          errorCode := if d.errorCode = .none then .noSectorFound else d.errorCode
          cur := { d.cur with pending := false } }
      (∀ u, r = .floppy u →
        (s.dma.fdc.map (fun ss => (ss.drive, ss.direction)) ≠ some (some u, .format) ∨ there = false ∨
          (d.errorCode ≠ .none ∧ 1 ≤ d.geo.bytesPerSector) →
            runAgent (.resolve r) s = .next { s with floppy := s.floppy.set u d' }) ∧
        (s.dma.fdc.map (fun ss => (ss.drive, ss.direction)) = some (some u, .format) → there = true →
          d.errorCode = .none → 1 ≤ d.geo.bytesPerSector →
            ∃ a dd st', SectorFill { d with cur := { d.cur with pending := false } } s.store ⟨img, id⟩ a dd st' ∧
              runAgent (.resolve r) s = .next { s with floppy := s.floppy.set u dd, store := st' })) ∧
      (∀ u, r = .fixed u → s.cfg.hdcVariant ≠ .atc →
        runAgent (.resolve r) s = .next { s with fixed := s.fixed.set u d' }) ∧
      (∀ u, r = .fixed u → s.cfg.hdcVariant = .atc → d.errorCode = .none →
        (there = true → runAgent (.resolve r) s = .next { s with
          atc := { s.atc with
            status := 0x58#8
            irq := s.atc.irq || (decide (s.atc.dir = .read) && !s.atc.fdr.getLsbD 1) }
          fixed := s.fixed.set u d' }) ∧
        (there = false → runAgent (.resolve r) s = .next { s with
          atc := { s.atc with
            error := 0x10#8
            status := 0x51#8
            phase := .command
            dir := .none
            irq := s.atc.irq || !s.atc.fdr.getLsbD 1 }
          fixed := s.fixed.set u d' })))

/-! ### Reset, persistence, media, hooks -/

/-- R430, R434: power-up, and machine reset with the same effect, from any state: every register of the FDC and of the
instance's HDC at its power-up value, every Drive at cylinder 0, head 0, the first sector of its controller, with the
configured geometry, no error and an empty cursor. The mounted images and their bytes stay; so do the trace, the chipset's
mask and the registers of the HDC the instance does not have. The model's choices: a drive-type or floppy-geometry miss
keeps the Drive's geometry, and without an HDC the fixed Drives start at sector 1 (log 16); the absent HDC's registers
stay (log 3). The model's reading: the fixed Drives' `fmt` and error fields (log 17). Rests on the spec's own decisions D50, D51. -/
def Obligations.PowerUpValues : Prop :=
  ∀ (s : State) (a : AgentStep), (a = .powerUp ∨ a = .mreset) → ∃ t, runAgent a s = .next t ∧
    t.fdc = ⟨0x00#8, 0x00#8, .command, ⟨List.replicate s.cfg.fifoCapFdc 0x00#8, 0, 0, 0⟩, false, 0#2, 0xC0#8⟩ ∧
    (s.cfg.hdcVariant = .xtc → t.xtc = ⟨.command, ⟨List.replicate s.cfg.fifoCapXtc 0x00#8, 0, 0, 0⟩, 0x00#8, false,
      false, false, List.replicate 512 0x00#8, 0, ⟨0, 0, 0, 0, 0⟩, ⟨0, 0, 0, 0, 0⟩⟩ ∧ t.dma.xtc = none) ∧
    (s.cfg.hdcVariant = .atc → t.atc = { s.atc with
      error := 0x00#8, wprecomp := 0x00#8, secCount := 0x00#8, secNum := 0x00#8, cylLo := 0x00#8, cylHi := 0x00#8,
      driveHead := 0x00#8, status := if 1 ≤ s.cfg.hdcDrives then 0x50#8 else 0x00#8, command := 0x00#8, fdr := 0x00#8,
      irq := false, phase := .command, dir := .none }) ∧
    (s.cfg.hdcVariant ≠ .xtc → t.xtc = s.xtc ∧ t.dma.xtc = s.dma.xtc) ∧ (s.cfg.hdcVariant ≠ .atc → t.atc = s.atc) ∧
    t.dma.fdc = none ∧
    (∀ u : Nat, t.floppy[u]? = (s.floppy[u]?).map fun (d : Drive) =>
      (⟨⟨0, 0, 1⟩, match d.disk.bind (s.store.images[·]?) with
        | some g => g.geo
        | none => (s.cfg.floppyGeometry[u]?).getD d.geo,
        .none, .none, ⟨none, 0, 0, false⟩, d.disk, 0x00#8, ⟨[0x00#8, 0x00#8, 0x00#8, 0x00#8], 0, 0x00#8, 0⟩, false⟩ :
        Drive)) ∧
    (∀ u : Nat, t.fixed[u]? = (s.fixed[u]?).map fun (d : Drive) =>
      (⟨⟨0, 0, if s.cfg.hdcVariant = .xtc then 0 else 1⟩, (s.cfg.tableGeometry u).getD d.geo, .none, .none,
        ⟨none, 0, 0, false⟩, d.disk, 0x00#8, ⟨[0x00#8, 0x00#8, 0x00#8, 0x00#8], 0, 0x00#8, 0⟩, false⟩ : Drive)) ∧
    t.cfg = s.cfg ∧ t.store = s.store ∧ t.masked = s.masked ∧ t.input = s.input ∧ t.answer = s.answer ∧
    t.diag = s.diag ∧ t.drawn = s.drawn ∧ t.dma.fdcConnected = s.dma.fdcConnected ∧
    t.dma.xtcConnected = s.dma.xtcConnected

/-- R445: `SAVE` answers a copy of every register set, Drive and session and changes nothing; `RESTORE` of it, in
any state of the same instance whose Drives have the same images mounted, gives all of them back. `RESTORE` of any
copy restores the registers and sessions and every Drive, floppy or fixed, whose mounted image is the copy's; a
Drive whose image is another one, or for which the copy has no entry, is left in its power-up state with the image
now mounted; nothing else changes. The model's reading: what the copy holds and what a failed Drive becomes (log
12). Rests on the spec's own decision D54. -/
def Obligations.SaveRestoreRoundTrip : Prop :=
  ∀ s t : State,
    (∃ v, runAgent .save s = .next { s with answer := .saved v } ∧
      (t.floppy.map Drive.disk = s.floppy.map Drive.disk → t.fixed.map Drive.disk = s.fixed.map Drive.disk →
        runAgent (.restore v) t = .next { t with
          fdc := s.fdc, xtc := s.xtc, atc := s.atc, floppy := s.floppy, fixed := s.fixed, dma := s.dma })) ∧
    (∀ v : Saved, ∃ floppy fixed p,
      runAgent (.restore v) t = .next { t with
        fdc := v.fdc, xtc := v.xtc, atc := v.atc, dma := v.dma, floppy := floppy, fixed := fixed } ∧
      runAgent .powerUp t = .next p ∧ floppy.length = t.floppy.length ∧ fixed.length = t.fixed.length ∧
      (∀ (u : Nat) (d : Drive), t.floppy[u]? = some d →
        (∀ e, v.floppy[u]? = some e → (d.disk = e.disk → floppy[u]? = some e) ∧
          (d.disk ≠ e.disk → floppy[u]? = p.floppy[u]?)) ∧
        (v.floppy[u]? = none → floppy[u]? = p.floppy[u]?)) ∧
      (∀ (u : Nat) (d : Drive), t.fixed[u]? = some d →
        (∀ e, v.fixed[u]? = some e → (d.disk = e.disk → fixed[u]? = some e) ∧
          (d.disk ≠ e.disk → fixed[u]? = p.fixed[u]?)) ∧
        (v.fixed[u]? = none → fixed[u]? = p.fixed[u]?)))

/-- R446, U9: mounting needs an empty floppy unit that no session uses and an image that is there and attached
nowhere; unmounting a mounted unit that no session uses. Mounting sets the image, its geometry and the disk-change
flag, unmounting clears the image and sets the flag; nothing else changes. Every other such step is not enabled: on
a unit that does not exist, with an image that is not there, on a fixed Drive. Rests on the spec's own decision D57. -/
def Obligations.MountAndUnmount : Prop :=
  ∀ (s : State) (u img : Nat),
    (∀ (d : Drive) (g : Geometry), s.floppy[u]? = some d → s.store.imageGeometry img = some g →
      (d.disk = none → img ∉ s.attachedImages → (∀ ss, s.dma.fdc = some ss → ss.drive ≠ some u) →
        runAgent (.mount (.floppy u) img) s = .next { s with
          floppy := s.floppy.set u { d with disk := some img, geo := g, diskChanged := true } }) ∧
      (d.disk ≠ none ∨ img ∈ s.attachedImages ∨ (∃ ss, s.dma.fdc = some ss ∧ ss.drive = some u) →
        runAgent (.mount (.floppy u) img) s = .refused .stepNotEnabled)) ∧
    (s.floppy[u]? = none ∨ s.store.imageGeometry img = none →
      runAgent (.mount (.floppy u) img) s = .refused .stepNotEnabled) ∧
    (∀ d : Drive, s.floppy[u]? = some d →
      (d.disk ≠ none → (∀ ss, s.dma.fdc = some ss → ss.drive ≠ some u) →
        runAgent (.unmount (.floppy u)) s = .next { s with
          floppy := s.floppy.set u { d with disk := none, diskChanged := true } }) ∧
      (d.disk = none ∨ (∃ ss, s.dma.fdc = some ss ∧ ss.drive = some u) →
        runAgent (.unmount (.floppy u)) s = .refused .stepNotEnabled)) ∧
    (s.floppy[u]? = none → runAgent (.unmount (.floppy u)) s = .refused .stepNotEnabled) ∧
    runAgent (.mount (.fixed u) img) s = .refused .stepNotEnabled ∧
    runAgent (.unmount (.fixed u)) s = .refused .stepNotEnabled

/-- R410, R411, R412, R390: the notification hook. INT 0x13 always goes on; its reset call on a fixed-disk number without a
drive arms the XTC's flag. The chained INT 0x40 is skipped for the reset call while the chipset masks the FDC's line; the
mask is the set of lines the chipset has masked and not unmasked. Nothing else changes. The model's choice: the mask
as a list (log 14). Rests on the spec's own decision D52. -/
def Obligations.NotificationHook : Prop :=
  ∀ (s : State) (a l : Byte) (n : Nat),
    runAgent (.notify 0x13#8 a l) s = .next { s with
      answer := .go
      xtc := { s.xtc with allowInitFail := s.xtc.allowInitFail || (s.cfg.hackInitFail &&
        decide (s.cfg.hdcVariant = .xtc ∧ a = 0x00#8 ∧ 0x80 + s.cfg.hdcDrives ≤ l.toNat)) } } ∧
    runAgent (.notify 0x40#8 a l) s = .next { s with answer :=
      if s.cfg.hackSuppressResetIrq = true ∧ s.cfg.hdcVariant ≠ .none ∧ a = 0x00#8 ∧ s.cfg.fdcIrq ∈ s.masked then .skip
      else .go } ∧
    (∃ m, runAgent (.mask n) s = .next { s with masked := m } ∧ ∀ k, k ∈ m ↔ k = n ∨ k ∈ s.masked) ∧
    (∃ m, runAgent (.unmask n) s = .next { s with masked := m } ∧ ∀ k, k ∈ m ↔ k ≠ n ∧ k ∈ s.masked)

/-! ### The whole machine -/

/-- R86, R363: every step keeps the bytes of the images in their one canonical form. The model's choice: the form
and what an unlisted byte reads as (log 4). Rests on the spec's own decision D55. -/
def Obligations.EveryStepKeepsMemoryCanonical : Prop :=
  ∀ s t : State, MemoryCanonical s → step s = .next t → MemoryCanonical t

/-- R26, R51, R57, R72, R161, R162, R230, R280, R299, R364: every step, whichever agent takes it, keeps the register sets
consistent: FIFO counters and session fit the phase of each controller, a session is open exactly in Execution Phase and is
the one of the command in the FIFO, a disabled FDC is in its reset state, the ATC shows `DATA_REQ` or `BUSY` exactly while
its sector is there or looked up, and a lookup is pending only for a transfer in progress. Rests on the spec's own
decisions D1, D9, D26, D38. -/
def Obligations.EveryStepKeepsTheSequencers : Prop :=
  ∀ s t : State, Sequenced s → step s = .next t → Sequenced t

/-- R78, R440: the machine right after reset meets the invariants, and is what construction of its instance gives.
The model's choice: the instance of `State.reset` (log 2), whose images have no byte listed and no choice queued (log 4,
log 5). Rests on the spec's own decisions D50, D51. -/
def Obligations.ResetMeetsTheInvariants : Prop :=
  MemoryCanonical State.reset ∧ Sequenced State.reset ∧ State.reset.attachedImages.Nodup ∧
    construct Cfg.default defaultImages [some 0] [1] true = some State.reset ∧
    runAgent .powerUp State.reset = .next State.reset

/-- R7, R45, R446: no step changes the configuration or the images; a Drive's image is changed only by a mount or an
unmount of its unit (or put back by a `RESTORE` where it is the same); so no image is ever attached to two Drives.
Rests on the spec's own decisions D5, D28, D32, D52, D57. -/
def Obligations.ConfigurationAndMediaStay : Prop :=
  ∀ s t : State, step s = .next t →
    t.cfg = s.cfg ∧ t.store.images = s.store.images ∧ t.fixed.map Drive.disk = s.fixed.map Drive.disk ∧
    ((∀ r img rest, s.input ≠ .agent (.mount r img) :: rest ∧ s.input ≠ .agent (.unmount r) :: rest) →
      t.floppy.map Drive.disk = s.floppy.map Drive.disk) ∧
    (s.attachedImages.Nodup → t.attachedImages.Nodup)

/-- R86: the bytes of the images are reached by three steps only: a write of 0x1F0, a push of the DMA peer, and the
delivery of a pending lookup to a floppy unit the FDC's open session is formatting (which runs the fill,
ResolveDelivers). Every other step, every other delivery included, leaves every byte as it was. Rests on the spec's
own decision D55. -/
def Obligations.ImageBytesChangeOnlyByTransfers : Prop :=
  ∀ s t : State, step s = .next t →
    (∀ sp bs left v rest, s.input = .host sp bs :: rest → decode sp bs ≠ .ok (.atcOutData v, left)) →
    (∀ c v rest, s.input ≠ .agent (.dmaPush c v) :: rest) →
    (∀ u ss rest, s.input = .agent (.resolve (.floppy u)) :: rest → s.dma.fdc = some ss →
      ¬ (ss.drive = some u ∧ ss.direction = .format)) →
    t.store.cells = s.store.cells

/-- R392: what clears a pending interrupt, the complete list: the Result-Phase read of 0x3F5 or 0x320, the read of 0x1F7,
the reset of that controller, power-up and machine reset (and the replacement of the state by a `RESTORE`). Rests on
the spec's own decisions D22, D40. -/
def Obligations.OnlyTheListedStepsClearAnInterrupt : Prop :=
  ∀ s t : State, step s = .next t →
    (∀ rest, s.input ≠ .agent .powerUp :: rest ∧ s.input ≠ .agent .mreset :: rest ∧
      ∀ v, s.input ≠ .agent (.restore v) :: rest) →
    (s.fdc.irq = true → t.fdc.irq = false → ∃ sp bs left rest i, s.input = .host sp bs :: rest ∧
      decode sp bs = .ok (i, left) ∧ (i = .fdcInData ∨ ∃ v, i = .fdcOutOutput v ∧ v.getLsbD 2 = false)) ∧
    (s.xtc.irq = true → t.xtc.irq = false → ∃ sp bs left rest i, s.input = .host sp bs :: rest ∧
      decode sp bs = .ok (i, left) ∧ (i = .xtcInData ∨ ∃ v, i = .xtcOutReset v)) ∧
    (s.atc.irq = true → t.atc.irq = false → ∃ sp bs left rest i, s.input = .host sp bs :: rest ∧
      decode sp bs = .ok (i, left) ∧ (i = .atcInStatus ∨ ∃ v, i = .atcOutFdr v ∧ v.getLsbD 2 = true))

/-- R161: the FDC's phase transitions, the complete list. Execution and, for commands without a transfer, Result are
entered from Command Phase by bytes written to 0x3F5; Result from Execution by the end of the session; Command from Result
by a read of 0x3F5; and Command from any by the write that clears the enable bit. Rests on the spec's own decision
D1. -/
def Obligations.FdcPhaseTransitions : Prop :=
  ∀ s t : State, Sequenced s → step s = .next t → t.fdc.phase ≠ s.fdc.phase →
    (∃ sp bs left rest i, s.input = .host sp bs :: rest ∧ decode sp bs = .ok (i, left) ∧
      ((s.fdc.phase = .command ∧ (i.space = .fdc ∨ ∃ v, i = .fdcOutData v)) ∨
        (s.fdc.phase = .result ∧ t.fdc.phase = .command ∧ i = .fdcInData) ∨
        (t.fdc.phase = .command ∧ ∃ v, i = .fdcOutOutput v ∧ v.getLsbD 2 = false))) ∨
    (∃ rest, s.fdc.phase = .execution ∧ t.fdc.phase = .result ∧
      (s.input = .agent (.dmaEngage .fdc false) :: rest ∨ ∃ c, s.input = .agent (.dmaClose .fdc c) :: rest)) ∨
    (∃ rest, s.input = .agent .powerUp :: rest ∨ s.input = .agent .mreset :: rest ∨
      ∃ v, s.input = .agent (.restore v) :: rest)

/-- R102, R330, R435: no cross-controller register sharing. An instruction of the FDC neither reads nor changes
anything of the HDC, and one of the HDC nothing of the FDC: with the other side replaced by anything, it does the
same and leaves that side as it is. The same of the DMA peer's steps on one channel: they touch neither the other
controller nor its Drives and session (the FDC opens no Buffer session, EveryStepKeepsTheSequencers). Rests on the
spec's own decision D28. -/
def Obligations.ControllersAreIndependent : Prop :=
  ∀ (i : Instr) (s : State),
    ((i.space = .fdc ∨ i = .fdcInMainStatus ∨ i = .fdcInData ∨ i = .fdcInInput ∨
        ∃ v, i = .fdcOutOutput v ∨ i = .fdcOutData v ∨ i = .fdcOutControl v) →
      ∀ (x : Xtc) (a : Atc) (fixed : List Drive) (ss : Option Session),
        exec i { s with xtc := x, atc := a, fixed := fixed, dma := { s.dma with xtc := ss } } =
          match exec i s with
          | .next t => .next { t with xtc := x, atc := a, fixed := fixed, dma := { t.dma with xtc := ss } }
          | .fault f => .fault f
          | .refused r => .refused r) ∧
    (¬ (i.space = .fdc ∨ i = .fdcInMainStatus ∨ i = .fdcInData ∨ i = .fdcInInput ∨
        ∃ v, i = .fdcOutOutput v ∨ i = .fdcOutData v ∨ i = .fdcOutControl v) →
      ∀ (f : Fdc) (floppy : List Drive) (ss : Option Session),
        exec i { s with fdc := f, floppy := floppy, dma := { s.dma with fdc := ss } } =
          match exec i s with
          | .next t => .next { t with fdc := f, floppy := floppy, dma := { t.dma with fdc := ss } }
          | .fault f => .fault f
          | .refused r => .refused r) ∧
    (∀ a : AgentStep,
      ((a = .dmaPull .fdc ∨ ∃ yes b, a = .dmaEngage .fdc yes ∨ a = .dmaPush .fdc b ∨ a = .dmaClose .fdc yes) →
        (∀ ss, s.dma.fdc = some ss → ss.direction ≠ .buffer) → ∀ (x : Xtc) (c : Atc) (fixed : List Drive) (ss : Option Session),
          runAgent a { s with xtc := x, atc := c, fixed := fixed, dma := { s.dma with xtc := ss } } =
            match runAgent a s with
            | .next t => .next { t with xtc := x, atc := c, fixed := fixed, dma := { t.dma with xtc := ss } }
            | .fault f => .fault f
            | .refused r => .refused r) ∧
      ((a = .dmaPull .xtc ∨ ∃ yes b, a = .dmaEngage .xtc yes ∨ a = .dmaPush .xtc b ∨ a = .dmaClose .xtc yes) →
        ∀ (f : Fdc) (c : Atc) (floppy : List Drive) (ss : Option Session),
          runAgent a { s with fdc := f, atc := c, floppy := floppy, dma := { s.dma with fdc := ss } } =
            match runAgent a s with
            | .next t => .next { t with fdc := f, atc := c, floppy := floppy, dma := { t.dma with fdc := ss } }
            | .fault f => .fault f
            | .refused r => .refused r))

/-- R440, R7, R45, R351, R103: construction gives an instance exactly when the DMA peer is there and the descriptors are
well-formed: the parameters in their ranges, one descriptor for each Drive, no geometry number 0, every fixed drive with a
table row, every configured image there, with the unit's geometry, and attached once. That instance has those Drives, no
image on two of them, no geometry with a 0, meets the invariants, and is as power-up leaves it. The model's reading: what
makes a descriptor malformed (log 22). Rests on the spec's own decision D5. -/
def Obligations.ConstructionChecksDescriptors : Prop :=
  ∀ (c : Cfg) (images : List Image) (floppyImages : List (Option Nat)) (fixedImages : List Nat) (peer : Bool),
    let ok : Geometry → Prop := fun g =>
      1 ≤ g.cylinders ∧ 1 ≤ g.heads ∧ 1 ≤ g.sectorsPerTrack ∧ 1 ≤ g.bytesPerSector
    let attached := floppyImages.filterMap id ++ fixedImages
    ((∃ s, construct c images floppyImages fixedImages peer = some s) ↔
      peer = true ∧ c.fdcDrives ≤ 4 ∧ c.hdcDrives ≤ 2 ∧ 9 ≤ c.fifoCapFdc ∧ 14 ≤ c.fifoCapXtc ∧
      c.fdcDrives ≤ c.floppyGeometry.length ∧ floppyImages.length = c.fdcDrives ∧
      fixedImages.length = c.hdcDrives ∧ (∀ g ∈ c.floppyGeometry, ok g) ∧ (∀ row ∈ c.driveTypeTable, ok row.2) ∧
      (∀ g ∈ images, ok g.geo) ∧ (∀ img ∈ attached, img < images.length) ∧ attached.Nodup ∧
      (∀ u, u < c.hdcDrives → c.tableGeometry u ≠ none) ∧
      (∀ (u img : Nat) (g : Image), floppyImages[u]? = some (some img) → images[img]? = some g →
        c.floppyGeometry[u]? = some g.geo)) ∧
    ∀ s, construct c images floppyImages fixedImages peer = some s →
      s.cfg = c ∧ s.store.images = images ∧ s.floppy.map Drive.disk = floppyImages ∧
      s.fixed.map Drive.disk = fixedImages.map some ∧ s.attachedImages.Nodup ∧
      (∀ (u : Nat) (d : Drive), s.floppy[u]? = some d → c.floppyGeometry[u]? = some d.geo ∧ ok d.geo) ∧
      (∀ (u : Nat) (d : Drive), s.fixed[u]? = some d → c.tableGeometry u = some d.geo ∧ ok d.geo) ∧
      MemoryCanonical s ∧ Sequenced s ∧ runAgent .powerUp s = .next s

end
end

