-- ==== Sys2Proof/Laws/State.lean ====
section
/-! SUPPORT. One lemma per field for every update of the state, so that no later proof unfolds a record update. -/

namespace Sys2Proof.Machine

/-! ### `modifyDrive` -/

@[simp] theorem State.modifyDrive_cfg (s : State) (r : DriveRef) (f : Drive → Drive) :
    (s.modifyDrive r f).cfg = s.cfg := by cases r <;> rfl

@[simp] theorem State.modifyDrive_fdc (s : State) (r : DriveRef) (f : Drive → Drive) :
    (s.modifyDrive r f).fdc = s.fdc := by cases r <;> rfl

@[simp] theorem State.modifyDrive_xtc (s : State) (r : DriveRef) (f : Drive → Drive) :
    (s.modifyDrive r f).xtc = s.xtc := by cases r <;> rfl

@[simp] theorem State.modifyDrive_atc (s : State) (r : DriveRef) (f : Drive → Drive) :
    (s.modifyDrive r f).atc = s.atc := by cases r <;> rfl

@[simp] theorem State.modifyDrive_dma (s : State) (r : DriveRef) (f : Drive → Drive) :
    (s.modifyDrive r f).dma = s.dma := by cases r <;> rfl

@[simp] theorem State.modifyDrive_store (s : State) (r : DriveRef) (f : Drive → Drive) :
    (s.modifyDrive r f).store = s.store := by cases r <;> rfl

@[simp] theorem State.modifyDrive_masked (s : State) (r : DriveRef) (f : Drive → Drive) :
    (s.modifyDrive r f).masked = s.masked := by cases r <;> rfl

@[simp] theorem State.modifyDrive_input (s : State) (r : DriveRef) (f : Drive → Drive) :
    (s.modifyDrive r f).input = s.input := by cases r <;> rfl

@[simp] theorem State.modifyDrive_answer (s : State) (r : DriveRef) (f : Drive → Drive) :
    (s.modifyDrive r f).answer = s.answer := by cases r <;> rfl

@[simp] theorem State.modifyDrive_diag (s : State) (r : DriveRef) (f : Drive → Drive) :
    (s.modifyDrive r f).diag = s.diag := by cases r <;> rfl

@[simp] theorem State.modifyDrive_drawn (s : State) (r : DriveRef) (f : Drive → Drive) :
    (s.modifyDrive r f).drawn = s.drawn := by cases r <;> rfl

@[simp] theorem State.modifyFloppy_floppy (s : State) (u : Nat) (f : Drive → Drive) :
    (s.modifyDrive (.floppy u) f).floppy = s.floppy.modify u f := rfl

@[simp] theorem State.modifyFloppy_fixed (s : State) (u : Nat) (f : Drive → Drive) :
    (s.modifyDrive (.floppy u) f).fixed = s.fixed := rfl

@[simp] theorem State.modifyFixed_fixed (s : State) (u : Nat) (f : Drive → Drive) :
    (s.modifyDrive (.fixed u) f).fixed = s.fixed.modify u f := rfl

@[simp] theorem State.modifyFixed_floppy (s : State) (u : Nat) (f : Drive → Drive) :
    (s.modifyDrive (.fixed u) f).floppy = s.floppy := rfl

/-! ### `putBay` -/

@[simp] theorem State.putBay_cfg (s : State) (r : DriveRef) (b : Bay) :
    (s.putBay r b).cfg = s.cfg := by cases r <;> rfl

@[simp] theorem State.putBay_fdc (s : State) (r : DriveRef) (b : Bay) :
    (s.putBay r b).fdc = s.fdc := by cases r <;> rfl

@[simp] theorem State.putBay_xtc (s : State) (r : DriveRef) (b : Bay) :
    (s.putBay r b).xtc = s.xtc := by cases r <;> rfl

@[simp] theorem State.putBay_atc (s : State) (r : DriveRef) (b : Bay) :
    (s.putBay r b).atc = s.atc := by cases r <;> rfl

@[simp] theorem State.putBay_dma (s : State) (r : DriveRef) (b : Bay) :
    (s.putBay r b).dma = s.dma := by cases r <;> rfl

@[simp] theorem State.putBay_masked (s : State) (r : DriveRef) (b : Bay) :
    (s.putBay r b).masked = s.masked := by cases r <;> rfl

@[simp] theorem State.putBay_input (s : State) (r : DriveRef) (b : Bay) :
    (s.putBay r b).input = s.input := by cases r <;> rfl

@[simp] theorem State.putBay_answer (s : State) (r : DriveRef) (b : Bay) :
    (s.putBay r b).answer = s.answer := by cases r <;> rfl

@[simp] theorem State.putBay_diag (s : State) (r : DriveRef) (b : Bay) :
    (s.putBay r b).diag = s.diag := by cases r <;> rfl

@[simp] theorem State.putBay_drawn (s : State) (r : DriveRef) (b : Bay) :
    (s.putBay r b).drawn = s.drawn := by cases r <;> rfl

@[simp] theorem State.putBay_store (s : State) (r : DriveRef) (b : Bay) :
    (s.putBay r b).store = b.store := rfl

@[simp] theorem State.putFloppy_floppy (s : State) (u : Nat) (b : Bay) :
    (s.putBay (.floppy u) b).floppy = s.floppy.modify u fun _ => b.drive := rfl

@[simp] theorem State.putFloppy_fixed (s : State) (u : Nat) (b : Bay) :
    (s.putBay (.floppy u) b).fixed = s.fixed := rfl

@[simp] theorem State.putFixed_fixed (s : State) (u : Nat) (b : Bay) :
    (s.putBay (.fixed u) b).fixed = s.fixed.modify u fun _ => b.drive := rfl

@[simp] theorem State.putFixed_floppy (s : State) (u : Nat) (b : Bay) :
    (s.putBay (.fixed u) b).floppy = s.floppy := rfl

/-! ### `raiseIrq` -/

@[simp] theorem State.raiseIrq_cfg (s : State) (k : Ctl) :
    (s.raiseIrq k).cfg = s.cfg := by cases k <;> rfl

@[simp] theorem State.raiseIrq_floppy (s : State) (k : Ctl) :
    (s.raiseIrq k).floppy = s.floppy := by cases k <;> rfl

@[simp] theorem State.raiseIrq_fixed (s : State) (k : Ctl) :
    (s.raiseIrq k).fixed = s.fixed := by cases k <;> rfl

@[simp] theorem State.raiseIrq_dma (s : State) (k : Ctl) :
    (s.raiseIrq k).dma = s.dma := by cases k <;> rfl

@[simp] theorem State.raiseIrq_store (s : State) (k : Ctl) :
    (s.raiseIrq k).store = s.store := by cases k <;> rfl

@[simp] theorem State.raiseIrq_masked (s : State) (k : Ctl) :
    (s.raiseIrq k).masked = s.masked := by cases k <;> rfl

@[simp] theorem State.raiseIrq_input (s : State) (k : Ctl) :
    (s.raiseIrq k).input = s.input := by cases k <;> rfl

@[simp] theorem State.raiseIrq_answer (s : State) (k : Ctl) :
    (s.raiseIrq k).answer = s.answer := by cases k <;> rfl

@[simp] theorem State.raiseIrq_diag (s : State) (k : Ctl) :
    (s.raiseIrq k).diag = s.diag := by cases k <;> rfl

@[simp] theorem State.raiseIrq_drawn (s : State) (k : Ctl) :
    (s.raiseIrq k).drawn = s.drawn := by cases k <;> rfl

@[simp] theorem State.raiseIrq_fdc_fdc (s : State) :
    (s.raiseIrq .fdc).fdc = { s.fdc with irq := true } := rfl

@[simp] theorem State.raiseIrq_fdc_xtc (s : State) :
    (s.raiseIrq .fdc).xtc = s.xtc := rfl

@[simp] theorem State.raiseIrq_fdc_atc (s : State) :
    (s.raiseIrq .fdc).atc = s.atc := rfl

@[simp] theorem State.raiseIrq_xtc_fdc (s : State) :
    (s.raiseIrq .xtc).fdc = s.fdc := rfl

@[simp] theorem State.raiseIrq_xtc_xtc (s : State) :
    (s.raiseIrq .xtc).xtc = { s.xtc with irq := true } := rfl

@[simp] theorem State.raiseIrq_xtc_atc (s : State) :
    (s.raiseIrq .xtc).atc = s.atc := rfl

@[simp] theorem State.raiseIrq_atc_fdc (s : State) :
    (s.raiseIrq .atc).fdc = s.fdc := rfl

@[simp] theorem State.raiseIrq_atc_xtc (s : State) :
    (s.raiseIrq .atc).xtc = s.xtc := rfl

@[simp] theorem State.raiseIrq_atc_atc (s : State) :
    (s.raiseIrq .atc).atc = { s.atc with irq := true } := rfl

/-! ### `clearIrq` -/

@[simp] theorem State.clearIrq_cfg (s : State) (k : Ctl) :
    (s.clearIrq k).cfg = s.cfg := by cases k <;> rfl

@[simp] theorem State.clearIrq_floppy (s : State) (k : Ctl) :
    (s.clearIrq k).floppy = s.floppy := by cases k <;> rfl

@[simp] theorem State.clearIrq_fixed (s : State) (k : Ctl) :
    (s.clearIrq k).fixed = s.fixed := by cases k <;> rfl

@[simp] theorem State.clearIrq_dma (s : State) (k : Ctl) :
    (s.clearIrq k).dma = s.dma := by cases k <;> rfl

@[simp] theorem State.clearIrq_store (s : State) (k : Ctl) :
    (s.clearIrq k).store = s.store := by cases k <;> rfl

@[simp] theorem State.clearIrq_masked (s : State) (k : Ctl) :
    (s.clearIrq k).masked = s.masked := by cases k <;> rfl

@[simp] theorem State.clearIrq_input (s : State) (k : Ctl) :
    (s.clearIrq k).input = s.input := by cases k <;> rfl

@[simp] theorem State.clearIrq_answer (s : State) (k : Ctl) :
    (s.clearIrq k).answer = s.answer := by cases k <;> rfl

@[simp] theorem State.clearIrq_diag (s : State) (k : Ctl) :
    (s.clearIrq k).diag = s.diag := by cases k <;> rfl

@[simp] theorem State.clearIrq_drawn (s : State) (k : Ctl) :
    (s.clearIrq k).drawn = s.drawn := by cases k <;> rfl

@[simp] theorem State.clearIrq_fdc_fdc (s : State) :
    (s.clearIrq .fdc).fdc = { s.fdc with irq := false } := rfl

@[simp] theorem State.clearIrq_fdc_xtc (s : State) :
    (s.clearIrq .fdc).xtc = s.xtc := rfl

@[simp] theorem State.clearIrq_fdc_atc (s : State) :
    (s.clearIrq .fdc).atc = s.atc := rfl

@[simp] theorem State.clearIrq_xtc_fdc (s : State) :
    (s.clearIrq .xtc).fdc = s.fdc := rfl

@[simp] theorem State.clearIrq_xtc_xtc (s : State) :
    (s.clearIrq .xtc).xtc = { s.xtc with irq := false } := rfl

@[simp] theorem State.clearIrq_xtc_atc (s : State) :
    (s.clearIrq .xtc).atc = s.atc := rfl

@[simp] theorem State.clearIrq_atc_fdc (s : State) :
    (s.clearIrq .atc).fdc = s.fdc := rfl

@[simp] theorem State.clearIrq_atc_xtc (s : State) :
    (s.clearIrq .atc).xtc = s.xtc := rfl

@[simp] theorem State.clearIrq_atc_atc (s : State) :
    (s.clearIrq .atc).atc = { s.atc with irq := false } := rfl

/-! ### `endOfCommandIrq` -/

@[simp] theorem State.endOfCommandIrq_cfg (s : State) (k : Ctl) (e : Err) :
    (s.endOfCommandIrq k e).cfg = s.cfg := by
  unfold State.endOfCommandIrq; split <;> simp

@[simp] theorem State.endOfCommandIrq_floppy (s : State) (k : Ctl) (e : Err) :
    (s.endOfCommandIrq k e).floppy = s.floppy := by
  unfold State.endOfCommandIrq; split <;> simp

@[simp] theorem State.endOfCommandIrq_fixed (s : State) (k : Ctl) (e : Err) :
    (s.endOfCommandIrq k e).fixed = s.fixed := by
  unfold State.endOfCommandIrq; split <;> simp

@[simp] theorem State.endOfCommandIrq_dma (s : State) (k : Ctl) (e : Err) :
    (s.endOfCommandIrq k e).dma = s.dma := by
  unfold State.endOfCommandIrq; split <;> simp

@[simp] theorem State.endOfCommandIrq_store (s : State) (k : Ctl) (e : Err) :
    (s.endOfCommandIrq k e).store = s.store := by
  unfold State.endOfCommandIrq; split <;> simp

@[simp] theorem State.endOfCommandIrq_masked (s : State) (k : Ctl) (e : Err) :
    (s.endOfCommandIrq k e).masked = s.masked := by
  unfold State.endOfCommandIrq; split <;> simp

@[simp] theorem State.endOfCommandIrq_input (s : State) (k : Ctl) (e : Err) :
    (s.endOfCommandIrq k e).input = s.input := by
  unfold State.endOfCommandIrq; split <;> simp

@[simp] theorem State.endOfCommandIrq_answer (s : State) (k : Ctl) (e : Err) :
    (s.endOfCommandIrq k e).answer = s.answer := by
  unfold State.endOfCommandIrq; split <;> simp

@[simp] theorem State.endOfCommandIrq_diag (s : State) (k : Ctl) (e : Err) :
    (s.endOfCommandIrq k e).diag = s.diag := by
  unfold State.endOfCommandIrq; split <;> simp

@[simp] theorem State.endOfCommandIrq_drawn (s : State) (k : Ctl) (e : Err) :
    (s.endOfCommandIrq k e).drawn = s.drawn := by
  unfold State.endOfCommandIrq; split <;> simp

@[simp] theorem State.endOfCommandIrq_fdc_xtc (s : State) (e : Err) :
    (s.endOfCommandIrq .fdc e).xtc = s.xtc := by
  unfold State.endOfCommandIrq; split <;> rfl

@[simp] theorem State.endOfCommandIrq_fdc_atc (s : State) (e : Err) :
    (s.endOfCommandIrq .fdc e).atc = s.atc := by
  unfold State.endOfCommandIrq; split <;> rfl

@[simp] theorem State.endOfCommandIrq_xtc_fdc (s : State) (e : Err) :
    (s.endOfCommandIrq .xtc e).fdc = s.fdc := by
  unfold State.endOfCommandIrq; split <;> rfl

@[simp] theorem State.endOfCommandIrq_xtc_atc (s : State) (e : Err) :
    (s.endOfCommandIrq .xtc e).atc = s.atc := by
  unfold State.endOfCommandIrq; split <;> rfl

@[simp] theorem State.endOfCommandIrq_atc_fdc (s : State) (e : Err) :
    (s.endOfCommandIrq .atc e).fdc = s.fdc := by
  unfold State.endOfCommandIrq; split <;> rfl

@[simp] theorem State.endOfCommandIrq_atc_xtc (s : State) (e : Err) :
    (s.endOfCommandIrq .atc e).xtc = s.xtc := by
  unfold State.endOfCommandIrq; split <;> rfl

/-! ### `raiseIfArmed` -/

@[simp] theorem State.raiseIfArmed_cfg (s : State) (k : Ctl) :
    (s.raiseIfArmed k).cfg = s.cfg := by
  unfold State.raiseIfArmed; split <;> simp

@[simp] theorem State.raiseIfArmed_floppy (s : State) (k : Ctl) :
    (s.raiseIfArmed k).floppy = s.floppy := by
  unfold State.raiseIfArmed; split <;> simp

@[simp] theorem State.raiseIfArmed_fixed (s : State) (k : Ctl) :
    (s.raiseIfArmed k).fixed = s.fixed := by
  unfold State.raiseIfArmed; split <;> simp

@[simp] theorem State.raiseIfArmed_dma (s : State) (k : Ctl) :
    (s.raiseIfArmed k).dma = s.dma := by
  unfold State.raiseIfArmed; split <;> simp

@[simp] theorem State.raiseIfArmed_store (s : State) (k : Ctl) :
    (s.raiseIfArmed k).store = s.store := by
  unfold State.raiseIfArmed; split <;> simp

@[simp] theorem State.raiseIfArmed_masked (s : State) (k : Ctl) :
    (s.raiseIfArmed k).masked = s.masked := by
  unfold State.raiseIfArmed; split <;> simp

@[simp] theorem State.raiseIfArmed_input (s : State) (k : Ctl) :
    (s.raiseIfArmed k).input = s.input := by
  unfold State.raiseIfArmed; split <;> simp

@[simp] theorem State.raiseIfArmed_answer (s : State) (k : Ctl) :
    (s.raiseIfArmed k).answer = s.answer := by
  unfold State.raiseIfArmed; split <;> simp

@[simp] theorem State.raiseIfArmed_diag (s : State) (k : Ctl) :
    (s.raiseIfArmed k).diag = s.diag := by
  unfold State.raiseIfArmed; split <;> simp

@[simp] theorem State.raiseIfArmed_drawn (s : State) (k : Ctl) :
    (s.raiseIfArmed k).drawn = s.drawn := by
  unfold State.raiseIfArmed; split <;> simp

@[simp] theorem State.raiseIfArmed_fdc_xtc (s : State) :
    (s.raiseIfArmed .fdc).xtc = s.xtc := by
  unfold State.raiseIfArmed; split <;> rfl

@[simp] theorem State.raiseIfArmed_fdc_atc (s : State) :
    (s.raiseIfArmed .fdc).atc = s.atc := by
  unfold State.raiseIfArmed; split <;> rfl

@[simp] theorem State.raiseIfArmed_xtc_fdc (s : State) :
    (s.raiseIfArmed .xtc).fdc = s.fdc := by
  unfold State.raiseIfArmed; split <;> rfl

@[simp] theorem State.raiseIfArmed_xtc_atc (s : State) :
    (s.raiseIfArmed .xtc).atc = s.atc := by
  unfold State.raiseIfArmed; split <;> rfl

@[simp] theorem State.raiseIfArmed_atc_fdc (s : State) :
    (s.raiseIfArmed .atc).fdc = s.fdc := by
  unfold State.raiseIfArmed; split <;> rfl

@[simp] theorem State.raiseIfArmed_atc_xtc (s : State) :
    (s.raiseIfArmed .atc).xtc = s.xtc := by
  unfold State.raiseIfArmed; split <;> rfl

/-! ### The sessions -/

@[simp] theorem State.setSession_cfg (s : State) (c : Chan) (ss : Option Session) :
    (s.setSession c ss).cfg = s.cfg := by cases c <;> rfl

@[simp] theorem State.setSession_fdc (s : State) (c : Chan) (ss : Option Session) :
    (s.setSession c ss).fdc = s.fdc := by cases c <;> rfl

@[simp] theorem State.setSession_xtc (s : State) (c : Chan) (ss : Option Session) :
    (s.setSession c ss).xtc = s.xtc := by cases c <;> rfl

@[simp] theorem State.setSession_atc (s : State) (c : Chan) (ss : Option Session) :
    (s.setSession c ss).atc = s.atc := by cases c <;> rfl

@[simp] theorem State.setSession_floppy (s : State) (c : Chan) (ss : Option Session) :
    (s.setSession c ss).floppy = s.floppy := by cases c <;> rfl

@[simp] theorem State.setSession_fixed (s : State) (c : Chan) (ss : Option Session) :
    (s.setSession c ss).fixed = s.fixed := by cases c <;> rfl

@[simp] theorem State.setSession_store (s : State) (c : Chan) (ss : Option Session) :
    (s.setSession c ss).store = s.store := by cases c <;> rfl

@[simp] theorem State.setSession_masked (s : State) (c : Chan) (ss : Option Session) :
    (s.setSession c ss).masked = s.masked := by cases c <;> rfl

@[simp] theorem State.setSession_input (s : State) (c : Chan) (ss : Option Session) :
    (s.setSession c ss).input = s.input := by cases c <;> rfl

@[simp] theorem State.setSession_answer (s : State) (c : Chan) (ss : Option Session) :
    (s.setSession c ss).answer = s.answer := by cases c <;> rfl

@[simp] theorem State.setSession_diag (s : State) (c : Chan) (ss : Option Session) :
    (s.setSession c ss).diag = s.diag := by cases c <;> rfl

@[simp] theorem State.setSession_drawn (s : State) (c : Chan) (ss : Option Session) :
    (s.setSession c ss).drawn = s.drawn := by cases c <;> rfl

@[simp] theorem State.setSession_dma_fdc (s : State) (ss : Option Session) :
    (s.setSession .fdc ss).dma = { s.dma with fdc := ss } := rfl

@[simp] theorem State.setSession_dma_xtc (s : State) (ss : Option Session) :
    (s.setSession .xtc ss).dma = { s.dma with xtc := ss } := rfl

@[simp] theorem State.openSession_cfg (s : State) (c : Chan) (d : Option Nat) (dir : Direction) (tm : Bool) :
    (s.openSession c d dir tm).cfg = s.cfg := by cases c <;> rfl

@[simp] theorem State.openSession_fdc (s : State) (c : Chan) (d : Option Nat) (dir : Direction) (tm : Bool) :
    (s.openSession c d dir tm).fdc = s.fdc := by cases c <;> rfl

@[simp] theorem State.openSession_xtc (s : State) (c : Chan) (d : Option Nat) (dir : Direction) (tm : Bool) :
    (s.openSession c d dir tm).xtc = s.xtc := by cases c <;> rfl

@[simp] theorem State.openSession_atc (s : State) (c : Chan) (d : Option Nat) (dir : Direction) (tm : Bool) :
    (s.openSession c d dir tm).atc = s.atc := by cases c <;> rfl

@[simp] theorem State.openSession_floppy (s : State) (c : Chan) (d : Option Nat) (dir : Direction) (tm : Bool) :
    (s.openSession c d dir tm).floppy = s.floppy := by cases c <;> rfl

@[simp] theorem State.openSession_fixed (s : State) (c : Chan) (d : Option Nat) (dir : Direction) (tm : Bool) :
    (s.openSession c d dir tm).fixed = s.fixed := by cases c <;> rfl

@[simp] theorem State.openSession_store (s : State) (c : Chan) (d : Option Nat) (dir : Direction) (tm : Bool) :
    (s.openSession c d dir tm).store = s.store := by cases c <;> rfl

@[simp] theorem State.openSession_masked (s : State) (c : Chan) (d : Option Nat) (dir : Direction) (tm : Bool) :
    (s.openSession c d dir tm).masked = s.masked := by cases c <;> rfl

@[simp] theorem State.openSession_input (s : State) (c : Chan) (d : Option Nat) (dir : Direction) (tm : Bool) :
    (s.openSession c d dir tm).input = s.input := by cases c <;> rfl

@[simp] theorem State.openSession_answer (s : State) (c : Chan) (d : Option Nat) (dir : Direction) (tm : Bool) :
    (s.openSession c d dir tm).answer = s.answer := by cases c <;> rfl

@[simp] theorem State.openSession_diag (s : State) (c : Chan) (d : Option Nat) (dir : Direction) (tm : Bool) :
    (s.openSession c d dir tm).diag = s.diag := by cases c <;> rfl

@[simp] theorem State.openSession_drawn (s : State) (c : Chan) (d : Option Nat) (dir : Direction) (tm : Bool) :
    (s.openSession c d dir tm).drawn = s.drawn := by cases c <;> rfl

@[simp] theorem State.openSession_dma_fdc (s : State) (d : Option Nat) (dir : Direction) (tm : Bool) :
    (s.openSession .fdc d dir tm).dma = { s.dma with fdc := some ⟨d, dir, dir.toMemory tm, false⟩ } := rfl

@[simp] theorem State.openSession_dma_xtc (s : State) (d : Option Nat) (dir : Direction) (tm : Bool) :
    (s.openSession .xtc d dir tm).dma = { s.dma with xtc := some ⟨d, dir, dir.toMemory tm, false⟩ } := rfl

/-! ### Outputs -/

@[simp] theorem State.emit_cfg (s : State) (m : Diag) :
    (s.emit m).cfg = s.cfg := rfl

@[simp] theorem State.emit_fdc (s : State) (m : Diag) :
    (s.emit m).fdc = s.fdc := rfl

@[simp] theorem State.emit_xtc (s : State) (m : Diag) :
    (s.emit m).xtc = s.xtc := rfl

@[simp] theorem State.emit_atc (s : State) (m : Diag) :
    (s.emit m).atc = s.atc := rfl

@[simp] theorem State.emit_floppy (s : State) (m : Diag) :
    (s.emit m).floppy = s.floppy := rfl

@[simp] theorem State.emit_fixed (s : State) (m : Diag) :
    (s.emit m).fixed = s.fixed := rfl

@[simp] theorem State.emit_dma (s : State) (m : Diag) :
    (s.emit m).dma = s.dma := rfl

@[simp] theorem State.emit_store (s : State) (m : Diag) :
    (s.emit m).store = s.store := rfl

@[simp] theorem State.emit_masked (s : State) (m : Diag) :
    (s.emit m).masked = s.masked := rfl

@[simp] theorem State.emit_input (s : State) (m : Diag) :
    (s.emit m).input = s.input := rfl

@[simp] theorem State.emit_answer (s : State) (m : Diag) :
    (s.emit m).answer = s.answer := rfl

@[simp] theorem State.emit_drawn (s : State) (m : Diag) :
    (s.emit m).drawn = s.drawn := rfl

@[simp] theorem State.emit_diag (s : State) (m : Diag) :
    (s.emit m).diag = s.diag ++ [m] := rfl

@[simp] theorem State.reply_cfg (s : State) (a : Answer) :
    (s.reply a).cfg = s.cfg := rfl

@[simp] theorem State.reply_fdc (s : State) (a : Answer) :
    (s.reply a).fdc = s.fdc := rfl

@[simp] theorem State.reply_xtc (s : State) (a : Answer) :
    (s.reply a).xtc = s.xtc := rfl

@[simp] theorem State.reply_atc (s : State) (a : Answer) :
    (s.reply a).atc = s.atc := rfl

@[simp] theorem State.reply_floppy (s : State) (a : Answer) :
    (s.reply a).floppy = s.floppy := rfl

@[simp] theorem State.reply_fixed (s : State) (a : Answer) :
    (s.reply a).fixed = s.fixed := rfl

@[simp] theorem State.reply_dma (s : State) (a : Answer) :
    (s.reply a).dma = s.dma := rfl

@[simp] theorem State.reply_store (s : State) (a : Answer) :
    (s.reply a).store = s.store := rfl

@[simp] theorem State.reply_masked (s : State) (a : Answer) :
    (s.reply a).masked = s.masked := rfl

@[simp] theorem State.reply_input (s : State) (a : Answer) :
    (s.reply a).input = s.input := rfl

@[simp] theorem State.reply_diag (s : State) (a : Answer) :
    (s.reply a).diag = s.diag := rfl

@[simp] theorem State.reply_drawn (s : State) (a : Answer) :
    (s.reply a).drawn = s.drawn := rfl

@[simp] theorem State.reply_answer (s : State) (a : Answer) :
    (s.reply a).answer = a := rfl

@[simp] theorem State.verifyGeometry_cfg (s : State) (u : Nat) :
    (s.verifyGeometry u).cfg = s.cfg := by
  unfold State.verifyGeometry; dsimp only; repeat' split
  all_goals rfl

@[simp] theorem State.verifyGeometry_fdc (s : State) (u : Nat) :
    (s.verifyGeometry u).fdc = s.fdc := by
  unfold State.verifyGeometry; dsimp only; repeat' split
  all_goals rfl

@[simp] theorem State.verifyGeometry_xtc (s : State) (u : Nat) :
    (s.verifyGeometry u).xtc = s.xtc := by
  unfold State.verifyGeometry; dsimp only; repeat' split
  all_goals rfl

@[simp] theorem State.verifyGeometry_atc (s : State) (u : Nat) :
    (s.verifyGeometry u).atc = s.atc := by
  unfold State.verifyGeometry; dsimp only; repeat' split
  all_goals rfl

@[simp] theorem State.verifyGeometry_floppy (s : State) (u : Nat) :
    (s.verifyGeometry u).floppy = s.floppy := by
  unfold State.verifyGeometry; dsimp only; repeat' split
  all_goals rfl

@[simp] theorem State.verifyGeometry_fixed (s : State) (u : Nat) :
    (s.verifyGeometry u).fixed = s.fixed := by
  unfold State.verifyGeometry; dsimp only; repeat' split
  all_goals rfl

@[simp] theorem State.verifyGeometry_dma (s : State) (u : Nat) :
    (s.verifyGeometry u).dma = s.dma := by
  unfold State.verifyGeometry; dsimp only; repeat' split
  all_goals rfl

@[simp] theorem State.verifyGeometry_store (s : State) (u : Nat) :
    (s.verifyGeometry u).store = s.store := by
  unfold State.verifyGeometry; dsimp only; repeat' split
  all_goals rfl

@[simp] theorem State.verifyGeometry_masked (s : State) (u : Nat) :
    (s.verifyGeometry u).masked = s.masked := by
  unfold State.verifyGeometry; dsimp only; repeat' split
  all_goals rfl

@[simp] theorem State.verifyGeometry_input (s : State) (u : Nat) :
    (s.verifyGeometry u).input = s.input := by
  unfold State.verifyGeometry; dsimp only; repeat' split
  all_goals rfl

@[simp] theorem State.verifyGeometry_answer (s : State) (u : Nat) :
    (s.verifyGeometry u).answer = s.answer := by
  unfold State.verifyGeometry; dsimp only; repeat' split
  all_goals rfl

@[simp] theorem State.verifyGeometry_drawn (s : State) (u : Nat) :
    (s.verifyGeometry u).drawn = s.drawn := by
  unfold State.verifyGeometry; dsimp only; repeat' split
  all_goals rfl

/-! ### The trace -/

@[simp] theorem State.fetched_cfg (s : State) (i : Instr) (sp : Space) (left : List Byte) (rest : List Event) :
    (s.fetched i sp left rest).cfg = s.cfg := rfl

@[simp] theorem State.fetched_fdc (s : State) (i : Instr) (sp : Space) (left : List Byte) (rest : List Event) :
    (s.fetched i sp left rest).fdc = s.fdc := rfl

@[simp] theorem State.fetched_xtc (s : State) (i : Instr) (sp : Space) (left : List Byte) (rest : List Event) :
    (s.fetched i sp left rest).xtc = s.xtc := rfl

@[simp] theorem State.fetched_atc (s : State) (i : Instr) (sp : Space) (left : List Byte) (rest : List Event) :
    (s.fetched i sp left rest).atc = s.atc := rfl

@[simp] theorem State.fetched_floppy (s : State) (i : Instr) (sp : Space) (left : List Byte) (rest : List Event) :
    (s.fetched i sp left rest).floppy = s.floppy := rfl

@[simp] theorem State.fetched_fixed (s : State) (i : Instr) (sp : Space) (left : List Byte) (rest : List Event) :
    (s.fetched i sp left rest).fixed = s.fixed := rfl

@[simp] theorem State.fetched_dma (s : State) (i : Instr) (sp : Space) (left : List Byte) (rest : List Event) :
    (s.fetched i sp left rest).dma = s.dma := rfl

@[simp] theorem State.fetched_store (s : State) (i : Instr) (sp : Space) (left : List Byte) (rest : List Event) :
    (s.fetched i sp left rest).store = s.store := rfl

@[simp] theorem State.fetched_masked (s : State) (i : Instr) (sp : Space) (left : List Byte) (rest : List Event) :
    (s.fetched i sp left rest).masked = s.masked := rfl

@[simp] theorem State.fetched_diag (s : State) (i : Instr) (sp : Space) (left : List Byte) (rest : List Event) :
    (s.fetched i sp left rest).diag = s.diag := rfl

@[simp] theorem State.taken_cfg (s : State) (rest : List Event) :
    (s.taken rest).cfg = s.cfg := rfl

@[simp] theorem State.taken_fdc (s : State) (rest : List Event) :
    (s.taken rest).fdc = s.fdc := rfl

@[simp] theorem State.taken_xtc (s : State) (rest : List Event) :
    (s.taken rest).xtc = s.xtc := rfl

@[simp] theorem State.taken_atc (s : State) (rest : List Event) :
    (s.taken rest).atc = s.atc := rfl

@[simp] theorem State.taken_floppy (s : State) (rest : List Event) :
    (s.taken rest).floppy = s.floppy := rfl

@[simp] theorem State.taken_fixed (s : State) (rest : List Event) :
    (s.taken rest).fixed = s.fixed := rfl

@[simp] theorem State.taken_dma (s : State) (rest : List Event) :
    (s.taken rest).dma = s.dma := rfl

@[simp] theorem State.taken_store (s : State) (rest : List Event) :
    (s.taken rest).store = s.store := rfl

@[simp] theorem State.taken_masked (s : State) (rest : List Event) :
    (s.taken rest).masked = s.masked := rfl

@[simp] theorem State.taken_diag (s : State) (rest : List Event) :
    (s.taken rest).diag = s.diag := rfl

@[simp] theorem State.taken_input (s : State) (rest : List Event) :
    (s.taken rest).input = rest := rfl

/-! ### The resets -/

@[simp] theorem State.fdcControllerReset_cfg (s : State) :
    (s.fdcControllerReset).cfg = s.cfg := rfl

@[simp] theorem State.fdcControllerReset_xtc (s : State) :
    (s.fdcControllerReset).xtc = s.xtc := rfl

@[simp] theorem State.fdcControllerReset_atc (s : State) :
    (s.fdcControllerReset).atc = s.atc := rfl

@[simp] theorem State.fdcControllerReset_fixed (s : State) :
    (s.fdcControllerReset).fixed = s.fixed := rfl

@[simp] theorem State.fdcControllerReset_store (s : State) :
    (s.fdcControllerReset).store = s.store := rfl

@[simp] theorem State.fdcControllerReset_masked (s : State) :
    (s.fdcControllerReset).masked = s.masked := rfl

@[simp] theorem State.fdcControllerReset_input (s : State) :
    (s.fdcControllerReset).input = s.input := rfl

@[simp] theorem State.fdcControllerReset_answer (s : State) :
    (s.fdcControllerReset).answer = s.answer := rfl

@[simp] theorem State.fdcControllerReset_diag (s : State) :
    (s.fdcControllerReset).diag = s.diag := rfl

@[simp] theorem State.fdcControllerReset_drawn (s : State) :
    (s.fdcControllerReset).drawn = s.drawn := rfl

@[simp] theorem State.xtcControllerReset_cfg (s : State) :
    (s.xtcControllerReset).cfg = s.cfg := rfl

@[simp] theorem State.xtcControllerReset_fdc (s : State) :
    (s.xtcControllerReset).fdc = s.fdc := rfl

@[simp] theorem State.xtcControllerReset_atc (s : State) :
    (s.xtcControllerReset).atc = s.atc := rfl

@[simp] theorem State.xtcControllerReset_floppy (s : State) :
    (s.xtcControllerReset).floppy = s.floppy := rfl

@[simp] theorem State.xtcControllerReset_store (s : State) :
    (s.xtcControllerReset).store = s.store := rfl

@[simp] theorem State.xtcControllerReset_masked (s : State) :
    (s.xtcControllerReset).masked = s.masked := rfl

@[simp] theorem State.xtcControllerReset_input (s : State) :
    (s.xtcControllerReset).input = s.input := rfl

@[simp] theorem State.xtcControllerReset_answer (s : State) :
    (s.xtcControllerReset).answer = s.answer := rfl

@[simp] theorem State.xtcControllerReset_diag (s : State) :
    (s.xtcControllerReset).diag = s.diag := rfl

@[simp] theorem State.xtcControllerReset_drawn (s : State) :
    (s.xtcControllerReset).drawn = s.drawn := rfl

@[simp] theorem State.atcControllerReset_cfg (s : State) :
    (s.atcControllerReset).cfg = s.cfg := rfl

@[simp] theorem State.atcControllerReset_fdc (s : State) :
    (s.atcControllerReset).fdc = s.fdc := rfl

@[simp] theorem State.atcControllerReset_xtc (s : State) :
    (s.atcControllerReset).xtc = s.xtc := rfl

@[simp] theorem State.atcControllerReset_floppy (s : State) :
    (s.atcControllerReset).floppy = s.floppy := rfl

@[simp] theorem State.atcControllerReset_dma (s : State) :
    (s.atcControllerReset).dma = s.dma := rfl

@[simp] theorem State.atcControllerReset_store (s : State) :
    (s.atcControllerReset).store = s.store := rfl

@[simp] theorem State.atcControllerReset_masked (s : State) :
    (s.atcControllerReset).masked = s.masked := rfl

@[simp] theorem State.atcControllerReset_input (s : State) :
    (s.atcControllerReset).input = s.input := rfl

@[simp] theorem State.atcControllerReset_answer (s : State) :
    (s.atcControllerReset).answer = s.answer := rfl

@[simp] theorem State.atcControllerReset_diag (s : State) :
    (s.atcControllerReset).diag = s.diag := rfl

@[simp] theorem State.atcControllerReset_drawn (s : State) :
    (s.atcControllerReset).drawn = s.drawn := rfl

@[simp] theorem State.hdcPowerUp_cfg (s : State) :
    (s.hdcPowerUp).cfg = s.cfg := by
  unfold State.hdcPowerUp; split <;> rfl

@[simp] theorem State.hdcPowerUp_fdc (s : State) :
    (s.hdcPowerUp).fdc = s.fdc := by
  unfold State.hdcPowerUp; split <;> rfl

@[simp] theorem State.hdcPowerUp_floppy (s : State) :
    (s.hdcPowerUp).floppy = s.floppy := by
  unfold State.hdcPowerUp; split <;> rfl

@[simp] theorem State.hdcPowerUp_store (s : State) :
    (s.hdcPowerUp).store = s.store := by
  unfold State.hdcPowerUp; split <;> rfl

@[simp] theorem State.hdcPowerUp_masked (s : State) :
    (s.hdcPowerUp).masked = s.masked := by
  unfold State.hdcPowerUp; split <;> rfl

@[simp] theorem State.hdcPowerUp_input (s : State) :
    (s.hdcPowerUp).input = s.input := by
  unfold State.hdcPowerUp; split <;> rfl

@[simp] theorem State.hdcPowerUp_answer (s : State) :
    (s.hdcPowerUp).answer = s.answer := by
  unfold State.hdcPowerUp; split <;> rfl

@[simp] theorem State.hdcPowerUp_diag (s : State) :
    (s.hdcPowerUp).diag = s.diag := by
  unfold State.hdcPowerUp; split <;> rfl

@[simp] theorem State.hdcPowerUp_drawn (s : State) :
    (s.hdcPowerUp).drawn = s.drawn := by
  unfold State.hdcPowerUp; split <;> rfl

@[simp] theorem State.powerUp_cfg (s : State) :
    (s.powerUp).cfg = s.cfg := by
  simp [State.powerUp]

@[simp] theorem State.powerUp_store (s : State) :
    (s.powerUp).store = s.store := by
  simp [State.powerUp]

@[simp] theorem State.powerUp_masked (s : State) :
    (s.powerUp).masked = s.masked := by
  simp [State.powerUp]

@[simp] theorem State.powerUp_input (s : State) :
    (s.powerUp).input = s.input := by
  simp [State.powerUp]

@[simp] theorem State.powerUp_answer (s : State) :
    (s.powerUp).answer = s.answer := by
  simp [State.powerUp]

@[simp] theorem State.powerUp_diag (s : State) :
    (s.powerUp).diag = s.diag := by
  simp [State.powerUp]

@[simp] theorem State.powerUp_drawn (s : State) :
    (s.powerUp).drawn = s.drawn := by
  simp [State.powerUp]

/-! ### The ends of commands -/

@[simp] theorem State.fdcFinish_cfg (s : State) (res : List Byte) (el : Bool) (st0 : Byte) (e : Err) :
    (s.fdcFinish res el st0 e).cfg = s.cfg := by
  unfold State.fdcFinish; dsimp only; split <;> simp

@[simp] theorem State.fdcFinish_xtc (s : State) (res : List Byte) (el : Bool) (st0 : Byte) (e : Err) :
    (s.fdcFinish res el st0 e).xtc = s.xtc := by
  unfold State.fdcFinish; dsimp only; split <;> simp

@[simp] theorem State.fdcFinish_atc (s : State) (res : List Byte) (el : Bool) (st0 : Byte) (e : Err) :
    (s.fdcFinish res el st0 e).atc = s.atc := by
  unfold State.fdcFinish; dsimp only; split <;> simp

@[simp] theorem State.fdcFinish_floppy (s : State) (res : List Byte) (el : Bool) (st0 : Byte) (e : Err) :
    (s.fdcFinish res el st0 e).floppy = s.floppy := by
  unfold State.fdcFinish; dsimp only; split <;> simp

@[simp] theorem State.fdcFinish_fixed (s : State) (res : List Byte) (el : Bool) (st0 : Byte) (e : Err) :
    (s.fdcFinish res el st0 e).fixed = s.fixed := by
  unfold State.fdcFinish; dsimp only; split <;> simp

@[simp] theorem State.fdcFinish_dma (s : State) (res : List Byte) (el : Bool) (st0 : Byte) (e : Err) :
    (s.fdcFinish res el st0 e).dma = s.dma := by
  unfold State.fdcFinish; dsimp only; split <;> simp

@[simp] theorem State.fdcFinish_store (s : State) (res : List Byte) (el : Bool) (st0 : Byte) (e : Err) :
    (s.fdcFinish res el st0 e).store = s.store := by
  unfold State.fdcFinish; dsimp only; split <;> simp

@[simp] theorem State.fdcFinish_masked (s : State) (res : List Byte) (el : Bool) (st0 : Byte) (e : Err) :
    (s.fdcFinish res el st0 e).masked = s.masked := by
  unfold State.fdcFinish; dsimp only; split <;> simp

@[simp] theorem State.fdcFinish_input (s : State) (res : List Byte) (el : Bool) (st0 : Byte) (e : Err) :
    (s.fdcFinish res el st0 e).input = s.input := by
  unfold State.fdcFinish; dsimp only; split <;> simp

@[simp] theorem State.fdcFinish_answer (s : State) (res : List Byte) (el : Bool) (st0 : Byte) (e : Err) :
    (s.fdcFinish res el st0 e).answer = s.answer := by
  unfold State.fdcFinish; dsimp only; split <;> simp

@[simp] theorem State.fdcFinish_diag (s : State) (res : List Byte) (el : Bool) (st0 : Byte) (e : Err) :
    (s.fdcFinish res el st0 e).diag = s.diag := by
  unfold State.fdcFinish; dsimp only; split <;> simp

@[simp] theorem State.fdcFinish_drawn (s : State) (res : List Byte) (el : Bool) (st0 : Byte) (e : Err) :
    (s.fdcFinish res el st0 e).drawn = s.drawn := by
  unfold State.fdcFinish; dsimp only; split <;> simp

@[simp] theorem State.xtcFinish_cfg (s : State) (u : BitVec 1) (d : Option Nat) (e : Err) (pre : List Byte) (l : Bool) :
    (s.xtcFinish u d e pre l).cfg = s.cfg := by
  unfold State.xtcFinish; dsimp only; split <;> simp

@[simp] theorem State.xtcFinish_fdc (s : State) (u : BitVec 1) (d : Option Nat) (e : Err) (pre : List Byte) (l : Bool) :
    (s.xtcFinish u d e pre l).fdc = s.fdc := by
  unfold State.xtcFinish; dsimp only; split <;> simp

@[simp] theorem State.xtcFinish_atc (s : State) (u : BitVec 1) (d : Option Nat) (e : Err) (pre : List Byte) (l : Bool) :
    (s.xtcFinish u d e pre l).atc = s.atc := by
  unfold State.xtcFinish; dsimp only; split <;> simp

@[simp] theorem State.xtcFinish_floppy (s : State) (u : BitVec 1) (d : Option Nat) (e : Err) (pre : List Byte) (l : Bool) :
    (s.xtcFinish u d e pre l).floppy = s.floppy := by
  unfold State.xtcFinish; dsimp only; split <;> simp

@[simp] theorem State.xtcFinish_dma (s : State) (u : BitVec 1) (d : Option Nat) (e : Err) (pre : List Byte) (l : Bool) :
    (s.xtcFinish u d e pre l).dma = s.dma := by
  unfold State.xtcFinish; dsimp only; split <;> simp

@[simp] theorem State.xtcFinish_store (s : State) (u : BitVec 1) (d : Option Nat) (e : Err) (pre : List Byte) (l : Bool) :
    (s.xtcFinish u d e pre l).store = s.store := by
  unfold State.xtcFinish; dsimp only; split <;> simp

@[simp] theorem State.xtcFinish_masked (s : State) (u : BitVec 1) (d : Option Nat) (e : Err) (pre : List Byte) (l : Bool) :
    (s.xtcFinish u d e pre l).masked = s.masked := by
  unfold State.xtcFinish; dsimp only; split <;> simp

@[simp] theorem State.xtcFinish_input (s : State) (u : BitVec 1) (d : Option Nat) (e : Err) (pre : List Byte) (l : Bool) :
    (s.xtcFinish u d e pre l).input = s.input := by
  unfold State.xtcFinish; dsimp only; split <;> simp

@[simp] theorem State.xtcFinish_answer (s : State) (u : BitVec 1) (d : Option Nat) (e : Err) (pre : List Byte) (l : Bool) :
    (s.xtcFinish u d e pre l).answer = s.answer := by
  unfold State.xtcFinish; dsimp only; split <;> simp

@[simp] theorem State.xtcFinish_diag (s : State) (u : BitVec 1) (d : Option Nat) (e : Err) (pre : List Byte) (l : Bool) :
    (s.xtcFinish u d e pre l).diag = s.diag := by
  unfold State.xtcFinish; dsimp only; split <;> simp

@[simp] theorem State.xtcFinish_drawn (s : State) (u : BitVec 1) (d : Option Nat) (e : Err) (pre : List Byte) (l : Bool) :
    (s.xtcFinish u d e pre l).drawn = s.drawn := by
  unfold State.xtcFinish; dsimp only; split <;> simp

@[simp] theorem State.atcFinish_cfg (s : State) (e : Err) :
    (s.atcFinish e).cfg = s.cfg := by
  unfold State.atcFinish; simp

@[simp] theorem State.atcFinish_fdc (s : State) (e : Err) :
    (s.atcFinish e).fdc = s.fdc := by
  unfold State.atcFinish; simp

@[simp] theorem State.atcFinish_xtc (s : State) (e : Err) :
    (s.atcFinish e).xtc = s.xtc := by
  unfold State.atcFinish; simp

@[simp] theorem State.atcFinish_floppy (s : State) (e : Err) :
    (s.atcFinish e).floppy = s.floppy := by
  unfold State.atcFinish; simp

@[simp] theorem State.atcFinish_fixed (s : State) (e : Err) :
    (s.atcFinish e).fixed = s.fixed := by
  unfold State.atcFinish; simp

@[simp] theorem State.atcFinish_dma (s : State) (e : Err) :
    (s.atcFinish e).dma = s.dma := by
  unfold State.atcFinish; simp

@[simp] theorem State.atcFinish_store (s : State) (e : Err) :
    (s.atcFinish e).store = s.store := by
  unfold State.atcFinish; simp

@[simp] theorem State.atcFinish_masked (s : State) (e : Err) :
    (s.atcFinish e).masked = s.masked := by
  unfold State.atcFinish; simp

@[simp] theorem State.atcFinish_input (s : State) (e : Err) :
    (s.atcFinish e).input = s.input := by
  unfold State.atcFinish; simp

@[simp] theorem State.atcFinish_answer (s : State) (e : Err) :
    (s.atcFinish e).answer = s.answer := by
  unfold State.atcFinish; simp

@[simp] theorem State.atcFinish_diag (s : State) (e : Err) :
    (s.atcFinish e).diag = s.diag := by
  unfold State.atcFinish; simp

@[simp] theorem State.atcFinish_drawn (s : State) (e : Err) :
    (s.atcFinish e).drawn = s.drawn := by
  unfold State.atcFinish; simp

end Sys2Proof.Machine
end

