-- ==== Sys2Proof/Laws/Memory.lean ====
section
/-! SUPPORT. The bytes of the disk images: a read after a write, what a write leaves alone, and the canonical form, kept
by every operation of the Disk Image Port. -/

namespace Sys2Proof.Machine

/-! ### Reading what was written -/

/-- In a canonical memory every listed address is at least the first one. -/
theorem Memory.read_below (t : Memory) (k : Nat) (v : Byte) (h : Memory.wf ((k, v) :: t) = true) :
    ∀ a, a < k → Memory.read ((k, v) :: t) a = Memory.unlisted := by
  induction t generalizing k v with
  | nil => intro a ha; simp [Memory.read]; omega
  | cons e t ih =>
    obtain ⟨k', v'⟩ := e
    intro a ha
    simp only [Memory.wf, Bool.and_eq_true, decide_eq_true_eq] at h
    rw [Memory.read, if_neg (by omega)]
    exact ih k' v' h.2 a (by omega)

theorem Memory.wf_tail (e : Nat × Byte) (t : Memory) (h : Memory.wf (e :: t) = true) : Memory.wf t = true := by
  obtain ⟨k, v⟩ := e
  cases t with
  | nil => rfl
  | cons e' t => simp only [Memory.wf, Bool.and_eq_true] at h; exact h.2

/-- R361, R363 (b): the byte just written is read. -/
theorem Memory.read_write_same (m : Memory) (a : Nat) (b : Byte) (h : Memory.wf m = true) :
    (m.write a b).read a = b := by
  induction m with
  | nil => unfold Memory.write; split <;> simp_all [Memory.read]
  | cons e t ih =>
    obtain ⟨k, v⟩ := e
    have ht := Memory.wf_tail _ _ h
    unfold Memory.write
    split
    · split
      · subst b; exact Memory.read_below t k v h a ‹_›
      · simp [Memory.read]
    · split
      · subst a
        split
        · subst b
          cases t with
          | nil => rfl
          | cons e' t' =>
            obtain ⟨k', v'⟩ := e'
            simp only [Memory.wf, Bool.and_eq_true, decide_eq_true_eq] at h
            exact Memory.read_below t' k' v' h.2 k h.1.2
        · simp [Memory.read]
      · rw [Memory.read, if_neg (by omega)]
        exact ih ht

/-- R363 (c): a write changes no other address. -/
theorem Memory.read_write_other (m : Memory) (a : Nat) (b : Byte) (x : Nat) (hx : x ≠ a) :
    (m.write a b).read x = m.read x := by
  induction m with
  | nil => unfold Memory.write; split <;> simp [Memory.read, Ne.symm hx]
  | cons e t ih =>
    obtain ⟨k, v⟩ := e
    unfold Memory.write
    split
    · split
      · rfl
      · rw [Memory.read, if_neg (Ne.symm hx)]
    · split
      · subst a
        split
        · conv_rhs => rw [Memory.read, if_neg (Ne.symm hx)]
        · simp [Memory.read, Ne.symm hx]
      · simp only [Memory.read]
        split
        · rfl
        · exact ih

/-! ### The canonical form -/

/-- What stands first after a write. -/
theorem Memory.write_head (t : Memory) (k : Nat) (v : Byte) (a : Nat) (b : Byte) (hk : k < a)
    (h : Memory.wf ((k, v) :: t) = true) (ht : Memory.wf (t.write a b) = true) :
    Memory.wf ((k, v) :: t.write a b) = true := by
  have hv : (v != Memory.unlisted) = true := by
    cases t with
    | nil => simpa [Memory.wf] using h
    | cons e t => simp only [Memory.wf, Bool.and_eq_true] at h; exact h.1.1
  revert ht
  cases t with
  | nil =>
    unfold Memory.write
    split
    · intro _; simpa [Memory.wf] using hv
    · intro ht; simp only [Memory.wf, Bool.and_eq_true, decide_eq_true_eq] at *; exact ⟨⟨hv, hk⟩, ht⟩
  | cons e t =>
    obtain ⟨k', v'⟩ := e
    simp only [Memory.wf, Bool.and_eq_true, decide_eq_true_eq] at h
    obtain ⟨⟨_, hlt⟩, hwf⟩ := h
    unfold Memory.write
    split
    · split
      · intro ht; simp only [Memory.wf, Bool.and_eq_true, decide_eq_true_eq]; exact ⟨⟨hv, hlt⟩, ht⟩
      · intro ht; simp only [Memory.wf, Bool.and_eq_true, decide_eq_true_eq] at *; exact ⟨⟨hv, hk⟩, ht⟩
    · split
      · split
        · intro ht
          cases t with
          | nil => simpa [Memory.wf] using hv
          | cons e2 t2 =>
            obtain ⟨k2, v2⟩ := e2
            simp only [Memory.wf, Bool.and_eq_true, decide_eq_true_eq] at *
            exact ⟨⟨hv, by omega⟩, ht⟩
        · intro ht; simp only [Memory.wf, Bool.and_eq_true, decide_eq_true_eq]; exact ⟨⟨hv, hk⟩, ht⟩
      · intro ht; simp only [Memory.wf, Bool.and_eq_true, decide_eq_true_eq]; exact ⟨⟨hv, hlt⟩, ht⟩

/-- A write keeps the canonical form. -/
theorem Memory.write_wf (m : Memory) (a : Nat) (b : Byte) (h : Memory.wf m = true) :
    Memory.wf (m.write a b) = true := by
  induction m with
  | nil => unfold Memory.write; split <;> simp_all [Memory.wf]
  | cons e t ih =>
    obtain ⟨k, v⟩ := e
    have ht := Memory.wf_tail _ _ h
    by_cases h1 : a < k
    · unfold Memory.write
      rw [if_pos h1]
      split
      · exact h
      · simp_all [Memory.wf]
    · by_cases h2 : a = k
      · subst a
        unfold Memory.write
        rw [if_neg h1, if_pos rfl]
        split
        · exact ht
        · cases t with
          | nil => simp_all [Memory.wf]
          | cons e' t => obtain ⟨k', v'⟩ := e'; simp_all [Memory.wf]
      · have hw : Memory.write ((k, v) :: t) a b = (k, v) :: Memory.write t a b := by
          conv_lhs => unfold Memory.write
          rw [if_neg h1, if_neg h2]
        rw [hw]
        exact Memory.write_head t k v a b (by omega) h (ih ht)

/-- The memory after reset is canonical. -/
theorem reset_memory_wf : Memory.wf State.reset.store.cells = true := rfl

/-! ### The addresses -/

/-- R363 (d): different places have different addresses. -/
theorem diskAddress_inj (h k : Handle) (m n : Nat) : diskAddress h m = diskAddress k n ↔ h = k ∧ m = n := by
  obtain ⟨hi, ⟨hc, hh, hs⟩⟩ := h
  obtain ⟨ki, ⟨kc, kh, ks⟩⟩ := k
  simp only [diskAddress, Nat.pair_eq_pair, Handle.mk.injEq, SectorId.mk.injEq]
  tauto

/-! ### The Disk Image Port: a call changes nothing but the oracle, and a write one byte -/

/-- A store that another one differs from only in its oracle. -/
theorem Store.drawPend_spec (st : Store) (img : Nat) :
    (st.drawPend img).2.images = st.images ∧ (st.drawPend img).2.cells = st.cells := by
  unfold Store.drawPend
  split
  · exact ⟨rfl, rfl⟩
  · split <;> exact ⟨rfl, rfl⟩

theorem Store.drawFail_spec (st : Store) (img : Nat) :
    (st.drawFail img).2.images = st.images ∧ (st.drawFail img).2.cells = st.cells := by
  unfold Store.drawFail
  split
  · exact ⟨rfl, rfl⟩
  · split <;> exact ⟨rfl, rfl⟩

/-- Everything a lookup can do (R360): the images and their bytes stay; a sector found is the one asked for. -/
theorem Store.diskSeek_spec (st : Store) (img : Nat) (id : SectorId) (len : Nat) :
    (st.diskSeek img id len).2.images = st.images ∧ (st.diskSeek img id len).2.cells = st.cells ∧
      ∀ h, (st.diskSeek img id len).1 = .found h → h = ⟨img, id⟩ := by
  have h1 := st.drawPend_spec img
  unfold Store.diskSeek
  split
  · rename_i st' he; rw [he] at h1; exact ⟨h1.1, h1.2, by simp⟩
  · rename_i st' he
    rw [he] at h1
    refine ⟨h1.1, h1.2, ?_⟩
    intro h
    dsimp only
    split
    · intro hf; cases hf; rfl
    · intro hf; cases hf

/-- Everything a read can do (R361). -/
theorem Store.diskRead_spec (st : Store) (h : Handle) (off : Nat) :
    (st.diskRead h off).2.images = st.images ∧ (st.diskRead h off).2.cells = st.cells ∧
      ∀ v, (st.diskRead h off).1 = some v → v = st.cells.read (diskAddress h off) := by
  have h1 := st.drawFail_spec h.image
  unfold Store.diskRead
  split
  · rename_i st' he; rw [he] at h1; exact ⟨h1.1, h1.2, by simp⟩
  · rename_i st' he
    rw [he] at h1
    exact ⟨h1.1, h1.2, by intro v hv; cases hv; rfl⟩

/-- Everything a write can do (R362): `ok` stores the byte, `fail` leaves the bytes. -/
theorem Store.diskWrite_spec (st : Store) (h : Handle) (off : Nat) (b : Byte) :
    (st.diskWrite h off b).2.images = st.images ∧
      (((st.diskWrite h off b).1 = true ∧
          (st.diskWrite h off b).2.cells = st.cells.write (diskAddress h off) b) ∨
        ((st.diskWrite h off b).1 = false ∧ (st.diskWrite h off b).2.cells = st.cells)) := by
  have h1 := st.drawFail_spec h.image
  unfold Store.diskWrite
  split
  · rename_i st' he; rw [he] at h1; exact ⟨h1.1, Or.inr ⟨rfl, h1.2⟩⟩
  · rename_i st' he
    rw [he] at h1
    refine ⟨h1.1, Or.inl ⟨rfl, ?_⟩⟩
    show Memory.write _ _ _ = _
    rw [h1.2]

/-- The Disk Image Port keeps the canonical form. -/
theorem Store.diskWrite_wf (st : Store) (h : Handle) (off : Nat) (b : Byte) (hw : Memory.wf st.cells = true) :
    Memory.wf (st.diskWrite h off b).2.cells = true := by
  obtain ⟨-, ⟨-, hc⟩ | ⟨-, hc⟩⟩ := st.diskWrite_spec h off b
  · rw [hc]; exact Memory.write_wf _ _ _ hw
  · rw [hc]; exact hw

/-! ### Images that answer at once and never fail -/

theorem Store.drawPend_preloaded (st : Store) (img : Nat) (h : st.preloaded img = true) :
    st.drawPend img = (false, st) := by simp [Store.drawPend, h]

theorem Store.drawFail_preloaded (st : Store) (img : Nat) (h : st.preloaded img = true) :
    st.drawFail img = (false, st) := by simp [Store.drawFail, h]

end Sys2Proof.Machine
end

