-- ==== Sys2Proof/Laws/Drives.lean ====
section
/-! SUPPORT. The Drives of the state and the sector cursor: how `modifyDrive` and `runBay` act, and what each cursor
operation can do (spec/45_geometry.md). -/

namespace Sys2Proof.Machine

/-! ### Drives in the state -/

/-- Changing the element that is there replaces it. -/
theorem modify_eq_set {α : Type} (l : List α) (u : Nat) (f : α → α) (d : α) (h : l[u]? = some d) :
    l.modify u f = l.set u (f d) := by
  apply List.ext_getElem?
  intro i
  rw [List.getElem?_modify, List.getElem?_set]
  by_cases hi : u = i
  · subst hi
    obtain ⟨hl, rfl⟩ := List.getElem?_eq_some_iff.mp h
    simp [hl]
  · simp [hi]

/-- An element that was replaced, read back. -/
theorem getElem?_set_present {α : Type} (l : List α) (u : Nat) (x d : α) (h : l[u]? = some d) :
    (l.set u x)[u]? = some x :=
  List.getElem?_set_self (List.getElem?_eq_some_iff.mp h).1

/-- Changing an element that is not there changes nothing. -/
theorem modify_absent {α : Type} (l : List α) (u : Nat) (f : α → α) (h : l[u]? = none) : l.modify u f = l := by
  apply List.ext_getElem?
  intro i
  rw [List.getElem?_modify]
  split
  · rename_i hi; subst hi; simp [h]
  · simp

@[simp] theorem State.drive?_floppy (s : State) (u : Nat) : s.drive? (.floppy u) = s.floppy[u]? := rfl

@[simp] theorem State.drive?_fixed (s : State) (u : Nat) : s.drive? (.fixed u) = s.fixed[u]? := rfl

/-- The Drive that was changed, read back. -/
theorem State.drive?_modifyDrive (s : State) (r : DriveRef) (f : Drive → Drive) :
    (s.modifyDrive r f).drive? r = (s.drive? r).map f := by
  cases r <;> simp [State.drive?, State.modifyDrive]

/-- A change of a floppy Drive that exists. -/
theorem State.modifyDrive_floppy (s : State) (u : Nat) (f : Drive → Drive) (d : Drive) (h : s.floppy[u]? = some d) :
    s.modifyDrive (.floppy u) f = { s with floppy := s.floppy.set u (f d) } := by
  show ({ s with floppy := s.floppy.modify u f } : State) = _
  rw [modify_eq_set _ _ _ _ h]

/-- A change of a fixed Drive that exists. -/
theorem State.modifyDrive_fixed (s : State) (u : Nat) (f : Drive → Drive) (d : Drive) (h : s.fixed[u]? = some d) :
    s.modifyDrive (.fixed u) f = { s with fixed := s.fixed.set u (f d) } := by
  show ({ s with fixed := s.fixed.modify u f } : State) = _
  rw [modify_eq_set _ _ _ _ h]

/-- A change of a Drive that does not exist. -/
theorem State.modifyDrive_absent (s : State) (r : DriveRef) (f : Drive → Drive) (h : s.drive? r = none) :
    s.modifyDrive r f = s := by
  cases r with
  | floppy u => show ({ s with floppy := s.floppy.modify u f } : State) = _; rw [modify_absent _ _ _ h]
  | fixed u => show ({ s with fixed := s.fixed.modify u f } : State) = _; rw [modify_absent _ _ _ h]

/-- Two changes of one Drive are one. -/
theorem State.modifyDrive_modifyDrive (s : State) (r : DriveRef) (f g : Drive → Drive) :
    (s.modifyDrive r f).modifyDrive r g = s.modifyDrive r (g ∘ f) := by
  cases r with
  | floppy u =>
    show ({ s with floppy := (s.floppy.modify u f).modify u g } : State) = { s with floppy := s.floppy.modify u (g ∘ f) }
    rw [List.modify_modify_eq]
  | fixed u =>
    show ({ s with fixed := (s.fixed.modify u f).modify u g } : State) = { s with fixed := s.fixed.modify u (g ∘ f) }
    rw [List.modify_modify_eq]

theorem State.runBay_absent {α : Type} (s : State) (r : DriveRef) (x : α) (f : Bay → α × Bay)
    (h : s.drive? r = none) : s.runBay r x f = (x, s) := by
  unfold State.runBay; rw [h]

theorem State.runBay_present {α : Type} (s : State) (r : DriveRef) (x : α) (f : Bay → α × Bay) (d : Drive)
    (h : s.drive? r = some d) :
    s.runBay r x f = ((f ⟨d, s.store⟩).1, s.putBay r (f ⟨d, s.store⟩).2) := by
  unfold State.runBay; rw [h]

/-! ### What the cursor operations leave alone -/

/-- The fields of a Drive and of the store that no cursor operation changes: the image, the geometry, the sense latch,
the bound, the disk-change flag, the images. -/
structure Bay.Keeps (b b' : Bay) : Prop where
  disk : b'.drive.disk = b.drive.disk
  geo : b'.drive.geo = b.drive.geo
  senseCode : b'.drive.senseCode = b.drive.senseCode
  sectorEnd : b'.drive.sectorEnd = b.drive.sectorEnd
  diskChanged : b'.drive.diskChanged = b.drive.diskChanged
  images : b'.store.images = b.store.images

theorem Bay.Keeps.refl (b : Bay) : b.Keeps b := ⟨rfl, rfl, rfl, rfl, rfl, rfl⟩

theorem Bay.Keeps.trans {a b c : Bay} (h : a.Keeps b) (k : b.Keeps c) : a.Keeps c :=
  ⟨k.1.trans h.1, k.2.trans h.2, k.3.trans h.3, k.4.trans h.4, k.5.trans h.5, k.6.trans h.6⟩

/-- R386: what recording an error changes. -/
theorem Drive.raise_eq (e : Err) (d : Drive) :
    d.raise e = { d with errorCode := if d.errorCode = .none then e else d.errorCode } := by
  unfold Drive.raise
  split <;> simp_all

/-- The Drive after one byte has moved (R365, R366, R368). -/
theorem Drive.byteMoved_eq (bias : Nat) (d : Drive) :
    d.byteMoved bias =
      if d.cur.byteOffset + 1 = d.geo.bytesPerSector then
        { d with
          cur := { d.cur with
            activeSector := none, byteOffset := 0, bytesRemaining := d.cur.bytesRemaining - d.geo.bytesPerSector }
          pos := d.pos.advance d.geo bias }
      else { d with cur := { d.cur with byteOffset := d.cur.byteOffset + 1 } } := by
  unfold Drive.byteMoved
  split <;> rfl

theorem Drive.byteMoved_keeps (bias : Nat) (d : Drive) (st st' : Store) (h : st'.images = st.images) :
    Bay.Keeps ⟨d, st⟩ ⟨d.byteMoved bias, st'⟩ := by
  rw [Drive.byteMoved_eq]
  split <;> exact ⟨rfl, rfl, rfl, rfl, rfl, h⟩

theorem Drive.raise_keeps (e : Err) (d : Drive) (st st' : Store) (h : st'.images = st.images) :
    Bay.Keeps ⟨d, st⟩ ⟨d.raise e, st'⟩ := by
  rw [Drive.raise_eq]
  exact ⟨rfl, rfl, rfl, rfl, rfl, h⟩

/-- The lookup of the current sector (R364, U8), written out. -/
theorem Store.lookSector_eq (st : Store) (img bias : Nat) (d : Drive) :
    st.lookSector img bias d =
      if d.geo.cylinders = 0 ∨ d.geo.heads = 0 ∨ d.geo.sectorsPerTrack = 0 then (.missing, st)
      else st.diskSeek img ⟨d.pos.cylinder, d.pos.head, d.pos.sector + 1 - bias⟩ d.geo.bytesPerSector := by
  simp [Store.lookSector, Drive.noSectors, Drive.imageSector, or_assoc]

/-- Everything the lookup of the current sector can do (R364, U8): a sector found is the one at the position, of a
drive whose geometry has no 0. -/
theorem Store.lookSector_spec (st : Store) (img bias : Nat) (d : Drive) :
    (st.lookSector img bias d).2.images = st.images ∧ (st.lookSector img bias d).2.cells = st.cells ∧
      ∀ h, (st.lookSector img bias d).1 = .found h → h = ⟨img, d.imageSector bias⟩ ∧ d.noSectors = false := by
  have hs := st.diskSeek_spec img (d.imageSector bias) d.geo.bytesPerSector
  unfold Store.lookSector
  split
  · exact ⟨rfl, rfl, fun h hh => by cases hh⟩
  · rename_i hz
    exact ⟨hs.1, hs.2.1, fun h hh => ⟨hs.2.2 h hh, by simpa using hz⟩⟩

/-- Everything `NextSector` can do (R364). -/
theorem nextSector_spec (bias : Nat) (b : Bay) :
    b.Keeps (nextSector bias b).2 ∧ (nextSector bias b).2.store.cells = b.store.cells ∧
      (nextSector bias b).2.drive.fmt = b.drive.fmt ∧ (nextSector bias b).2.drive.pos = b.drive.pos ∧
      (nextSector bias b).2.drive.cur.bytesRemaining = b.drive.cur.bytesRemaining ∧
      (((nextSector bias b).1 = .found ∧ 0 < b.drive.cur.bytesRemaining ∧ ∃ img, b.drive.disk = some img ∧
          (nextSector bias b).2.drive = { b.drive with cur := { b.drive.cur with
            activeSector := some ⟨img, b.drive.imageSector bias⟩, byteOffset := 0 } }) ∨
        ((nextSector bias b).1 = .pending ∧ 0 < b.drive.cur.bytesRemaining ∧
          (nextSector bias b).2.drive = { b.drive with cur := { b.drive.cur with pending := true } }) ∨
        ((nextSector bias b).1 = .failed ∧ ((nextSector bias b).2.drive = b.drive.raise .notReady ∨
          (nextSector bias b).2.drive = b.drive.raise .noSectorFound)) ∨
        ((nextSector bias b).1 = .done ∧ (nextSector bias b).2.drive = b.drive ∧
          b.drive.cur.bytesRemaining = 0)) := by
  unfold nextSector
  split
  · refine ⟨Drive.raise_keeps _ _ _ _ rfl, rfl, ?_, ?_, ?_, Or.inr (Or.inr (Or.inl ⟨rfl, Or.inl rfl⟩))⟩ <;>
      simp [Bay.raise, Drive.raise_eq]
  · rename_i img hdisk
    split
    · exact ⟨.refl b, rfl, rfl, rfl, rfl, Or.inr (Or.inr (Or.inr ⟨rfl, rfl, ‹_›⟩))⟩
    · rename_i hpos
      have hp : 0 < b.drive.cur.bytesRemaining := by omega
      have hs := b.store.lookSector_spec img bias b.drive
      split
      · rename_i h st he
        rw [he] at hs
        have := (hs.2.2 h rfl).1
        subst this
        exact ⟨⟨rfl, rfl, rfl, rfl, rfl, hs.1⟩, hs.2.1, rfl, rfl, rfl, Or.inl ⟨rfl, hp, img, hdisk, rfl⟩⟩
      · rename_i st he
        rw [he] at hs
        refine ⟨Drive.raise_keeps _ _ _ _ hs.1, hs.2.1, ?_, ?_, ?_,
          Or.inr (Or.inr (Or.inl ⟨rfl, Or.inr rfl⟩))⟩ <;> simp [Drive.raise_eq]
      · rename_i st he
        rw [he] at hs
        exact ⟨⟨rfl, rfl, rfl, rfl, rfl, hs.1⟩, hs.2.1, rfl, rfl, rfl, Or.inr (Or.inl ⟨rfl, hp, rfl⟩)⟩

/-- Everything reading a byte of the active sector can do (R365). -/
theorem readActive_spec (bias : Nat) (h : Handle) (b : Bay) :
    (readActive bias h b).2.store.images = b.store.images ∧ (readActive bias h b).2.store.cells = b.store.cells ∧
      (((readActive bias h b).1 = .eof ∧ (readActive bias h b).2.drive = b.drive.raise .crcError) ∨
        ((readActive bias h b).1 = .byte (b.store.cells.read (diskAddress h b.drive.cur.byteOffset)) ∧
          (readActive bias h b).2.drive = b.drive.byteMoved bias)) := by
  have hs := b.store.diskRead_spec h b.drive.cur.byteOffset
  unfold readActive
  split
  · rename_i st he; rw [he] at hs; exact ⟨hs.1, hs.2.1, Or.inl ⟨rfl, rfl⟩⟩
  · rename_i v st he
    rw [he] at hs
    exact ⟨hs.1, hs.2.1, Or.inr ⟨by rw [hs.2.2 v rfl], rfl⟩⟩

/-- Everything writing a byte of the active sector can do (R366). -/
theorem writeActive_spec (bias : Nat) (h : Handle) (v : Byte) (b : Bay) :
    (writeActive bias h v b).2.store.images = b.store.images ∧
      (((writeActive bias h v b).1 = .error ∧ (writeActive bias h v b).2.drive = b.drive.raise .crcError ∧
          (writeActive bias h v b).2.store.cells = b.store.cells) ∨
        ((writeActive bias h v b).1 = .accepted ∧ (writeActive bias h v b).2.drive = b.drive.byteMoved bias ∧
          (writeActive bias h v b).2.store.cells =
            b.store.cells.write (diskAddress h b.drive.cur.byteOffset) v)) := by
  have hs := b.store.diskWrite_spec h b.drive.cur.byteOffset v
  unfold writeActive
  split
  · rename_i st he; rw [he] at hs
    exact ⟨hs.1, Or.inl ⟨rfl, rfl, by simpa using hs.2⟩⟩
  · rename_i st he
    rw [he] at hs
    exact ⟨hs.1, Or.inr ⟨rfl, rfl, by simpa using hs.2⟩⟩

/-- The cases of `ReadByte` (R365). -/
theorem readByte_cases (bias : Nat) (b : Bay) :
    (b.drive.errorCode ≠ .none ∧ readByte bias b = (.eof, b)) ∨
    (b.drive.errorCode = .none ∧ ∃ h, b.drive.cur.activeSector = some h ∧ readByte bias b = readActive bias h b) ∨
    (b.drive.errorCode = .none ∧ b.drive.cur.activeSector = none ∧
      (((nextSector bias b).1 = .found ∧ ∃ h, (nextSector bias b).2.drive.cur.activeSector = some h ∧
          readByte bias b = readActive bias h (nextSector bias b).2) ∨
        ((nextSector bias b).1 = .pending ∧ readByte bias b = (.pending, (nextSector bias b).2)) ∨
        (((nextSector bias b).1 = .done ∨ (nextSector bias b).1 = .failed) ∧
          readByte bias b = (.eof, (nextSector bias b).2)))) := by
  have hn := (nextSector_spec bias b).2.2.2.2.2
  unfold readByte
  split
  · exact Or.inl ⟨‹_›, rfl⟩
  · rename_i he
    refine Or.inr ?_
    split
    · rename_i h hh; exact Or.inl ⟨not_not.mp he, h, hh, rfl⟩
    · rename_i hh
      refine Or.inr ⟨not_not.mp he, hh, ?_⟩
      split
      · rename_i b' hb
        rw [hb] at hn
        simp only [true_and, reduceCtorEq, false_and, or_false] at hn
        obtain ⟨-, img, -, hd⟩ := hn
        refine Or.inl ⟨by rw [hb], ⟨img, b.drive.imageSector bias⟩, ?_, ?_⟩
        · rw [hb]; simp [hd]
        · simp [hd, hb]
      · rename_i b' hb; exact Or.inr (Or.inl ⟨by rw [hb], by rw [hb]⟩)
      · rename_i b' hb; exact Or.inr (Or.inr ⟨Or.inl (by rw [hb]), by rw [hb]⟩)
      · rename_i b' hb; exact Or.inr (Or.inr ⟨Or.inr (by rw [hb]), by rw [hb]⟩)

/-- The cases of `WriteByte` (R366). -/
theorem writeByte_cases (bias : Nat) (v : Byte) (b : Bay) :
    (b.drive.errorCode ≠ .none ∧ writeByte bias v b = (.error, b)) ∨
    (b.drive.errorCode = .none ∧ b.readOnly = true ∧ writeByte bias v b = (.error, b.raise .writeFault)) ∨
    (b.drive.errorCode = .none ∧ b.readOnly = false ∧
      ∃ h, b.drive.cur.activeSector = some h ∧ writeByte bias v b = writeActive bias h v b) ∨
    (b.drive.errorCode = .none ∧ b.readOnly = false ∧ b.drive.cur.activeSector = none ∧
      (((nextSector bias b).1 = .found ∧ ∃ h, (nextSector bias b).2.drive.cur.activeSector = some h ∧
          writeByte bias v b = writeActive bias h v (nextSector bias b).2) ∨
        ((nextSector bias b).1 = .pending ∧ writeByte bias v b = (.pending, (nextSector bias b).2)) ∨
        (((nextSector bias b).1 = .done ∨ (nextSector bias b).1 = .failed) ∧
          writeByte bias v b = (.error, (nextSector bias b).2)))) := by
  have hn := (nextSector_spec bias b).2.2.2.2.2
  unfold writeByte
  split
  · exact Or.inl ⟨‹_›, rfl⟩
  · rename_i he
    have he := not_not.mp he
    refine Or.inr ?_
    split
    · exact Or.inl ⟨he, ‹_›, rfl⟩
    · rename_i hr
      have hr : b.readOnly = false := by simpa using hr
      refine Or.inr ?_
      split
      · rename_i h hh; exact Or.inl ⟨he, hr, h, hh, rfl⟩
      · rename_i hh
        refine Or.inr ⟨he, hr, hh, ?_⟩
        split
        · rename_i b' hb
          rw [hb] at hn
          simp only [true_and, reduceCtorEq, false_and, or_false] at hn
          obtain ⟨-, img, -, hd⟩ := hn
          refine Or.inl ⟨by rw [hb], ⟨img, b.drive.imageSector bias⟩, ?_, ?_⟩
          · rw [hb]; simp [hd]
          · simp [hd, hb]
        · rename_i b' hb; exact Or.inr (Or.inl ⟨by rw [hb], by rw [hb]⟩)
        · rename_i b' hb; exact Or.inr (Or.inr ⟨Or.inl (by rw [hb]), by rw [hb]⟩)
        · rename_i b' hb; exact Or.inr (Or.inr ⟨Or.inr (by rw [hb]), by rw [hb]⟩)

end Sys2Proof.Machine
end

