-- ==== Sys2Proof/Laws/Deliver.lean ====
section
/-! SUPPORT. Delivering the bytes of a whole request: the FIFO collects them one by one and the last one runs the
command, once, on exactly those bytes (spec/40_fdc_sequencer.md R163, R165, spec/42_hdc_xtc.md R231). -/

namespace Sys2Proof.Machine

/-! ### The command rows (R156) -/

/-- An FDC row writes its bytes to 0x3F5. -/
theorem exec_fdcRow (i : Instr) (s : State) (h : i.space = .fdc) : exec i s = deliver fdcDataWrite i.bytes s := by
  cases i with
  | atcTaskfile reg w => cases w <;> cases h
  | _ => first | rfl | cases h

/-- An XTC row writes its bytes to 0x320. -/
theorem exec_xtcRow (i : Instr) (s : State) (h : i.space = .xtc) : exec i s = deliver xtcDataWrite i.bytes s := by
  cases i with
  | atcTaskfile reg w => cases w <;> cases h
  | _ => first | rfl | cases h

/-- An ATC row writes its byte to 0x1F7. -/
theorem exec_atcRow (i : Instr) (s : State) (h : i.space = .atc) : exec i s = deliver atcCommandWrite i.bytes s := by
  cases i with
  | atcTaskfile reg w => cases w <;> cases h
  | _ => first | rfl | cases h

/-- No instruction has no bytes. -/
theorem bytes_ne_nil (i : Instr) : i.bytes ≠ [] := by
  cases i with
  | atcTaskfile reg w => cases w <;> simp [Instr.bytes, encodeIn, encodeOut]
  | _ => simp [Instr.bytes, encodeXtcBlock, encodeIn, encodeOut]

/-- A delivery keeps what the handler keeps. -/
theorem deliver_keeps (handler : Byte → State → Out) (P : State → Prop)
    (h : ∀ b s t, P s → handler b s = .next t → P t) :
    ∀ (bs : List Byte) (s t : State), P s → deliver handler bs s = .next t → P t := by
  intro bs
  induction bs with
  | nil => intro s t hs ht; cases ht; exact hs
  | cons b bs ih =>
    intro s t hs ht
    rw [deliver] at ht
    split at ht
    · exact ih _ _ (h b s _ hs ‹_›) ht
    · cases ht
    · cases ht

/-- The FIFO with a whole request collected. -/
def Fifo.loaded (f : Fifo) (bs : List Byte) : Fifo := ⟨bs ++ f.buffer.drop bs.length, bs.length, 0, bs.length⟩

theorem set_overwrites {α : Type} (l : List α) (w : Nat) (v : α) (rest : List α) (n : Nat) (h : w + 1 + n ≤ l.length) :
    (l.set w v).take (w + 1) ++ rest ++ (l.set w v).drop (w + 1 + n) =
      l.take w ++ (v :: rest) ++ l.drop (w + (n + 1)) := by
  rw [List.take_set, List.take_succ_eq_append_getElem (by omega), List.set_append_right _ _ (by simp)]
  simp only [List.length_take]
  rw [Nat.min_eq_left (by omega), Nat.sub_self, List.set_cons_zero, List.drop_set_of_lt (by omega)]
  simp [Nat.add_assoc, Nat.add_comm 1 n]

section Collect

variable (handler : Byte → State → Out) (get : State → Fifo) (put : Fifo → State → State) (ok : State → Prop)
  (run : State → State) (len : Byte → Nat)

/-- A port handler that collects request bytes in a FIFO. -/
structure Collects : Prop where
  get_put : ∀ f s, get (put f s) = f
  put_put : ∀ f g s, put f (put g s) = put f s
  keeps : ∀ f s, ok s → ok (put f s)
  takes : ∀ v s, ok s → handler v s =
    .next (if ((get s).accept len v).full then run (put ((get s).accept len v) s)
      else put ((get s).accept len v) s)

variable {handler get put ok run len}

/-- The bytes after the first. -/
theorem Collects.tail (c : Collects handler get put ok run len) : ∀ (bs : List Byte) (s : State), ok s →
    1 ≤ (get s).writeIndex → bs ≠ [] → (get s).writeIndex + bs.length = (get s).totalExpected →
    (get s).totalExpected ≤ (get s).buffer.length →
    deliver handler bs s = .next (run (put ⟨(get s).buffer.take (get s).writeIndex ++ bs ++
      (get s).buffer.drop ((get s).writeIndex + bs.length), (get s).totalExpected, (get s).readIndex,
      (get s).totalExpected⟩ s)) := by
  intro bs
  induction bs with
  | nil => intro s _ _ h; exact absurd rfl h
  | cons v rest ih =>
    intro s hok h1 _ hlen hroom
    have hw : (get s).writeIndex ≠ 0 := by omega
    have hacc : (get s).accept len v = ⟨(get s).buffer.set (get s).writeIndex v, (get s).writeIndex + 1,
        (get s).readIndex, (get s).totalExpected⟩ := by simp [Fifo.accept, hw]
    simp only [List.length_cons] at hlen
    have hset := set_overwrites (get s).buffer (get s).writeIndex v rest rest.length (by omega)
    rw [deliver, c.takes v s hok, hacc]
    cases rest with
    | nil =>
      simp only [List.length_nil] at hlen hset
      have hf : (⟨(get s).buffer.set (get s).writeIndex v, (get s).writeIndex + 1, (get s).readIndex,
          (get s).totalExpected⟩ : Fifo).full = true := by simp [Fifo.full]; omega
      rw [if_pos hf]
      simp only [deliver]
      congr 3
      simp only [List.append_nil, Nat.add_zero] at hset
      rw [List.take_append_drop] at hset
      rw [hset, ← hlen]
      rfl
    | cons v' rest' =>
      simp only [List.length_cons] at hlen
      have hf : ¬ (⟨(get s).buffer.set (get s).writeIndex v, (get s).writeIndex + 1, (get s).readIndex,
          (get s).totalExpected⟩ : Fifo).full = true := by simp [Fifo.full]; omega
      rw [if_neg hf]
      simp only
      rw [ih _ (c.keeps _ _ hok) (by rw [c.get_put]; exact Nat.le_add_left 1 _) (by simp)
        (by rw [c.get_put]; simp only [List.length_cons]; omega)
        (by rw [c.get_put]; simpa using hroom)]
      rw [c.get_put, c.put_put]
      simp only
      rw [hset]
      rfl

/-- A whole request, from idle. -/
theorem Collects.all (c : Collects handler get put ok run len) (b0 : Byte) (rest : List Byte) (s : State) (hok : ok s)
    (hidle : (get s).writeIndex = 0) (hlen : (b0 :: rest).length = len b0)
    (hroom : (b0 :: rest).length ≤ (get s).buffer.length) :
    deliver handler (b0 :: rest) s = .next (run (put ((get s).loaded (b0 :: rest)) s)) := by
  have hacc : (get s).accept len b0 = ⟨(get s).buffer.set 0 b0, 1, 0, len b0⟩ := by simp [Fifo.accept, hidle]
  simp only [List.length_cons] at hlen hroom
  have hset := set_overwrites (get s).buffer 0 b0 rest rest.length (by omega)
  simp only [Nat.zero_add, List.take_zero, List.nil_append] at hset
  rw [deliver, c.takes b0 s hok, hacc]
  cases rest with
  | nil =>
    simp only [List.length_nil] at hlen hset
    have hf : (⟨(get s).buffer.set 0 b0, 1, 0, len b0⟩ : Fifo).full = true := by simp [Fifo.full]; omega
    rw [if_pos hf]
    simp only [deliver]
    congr 3
    simp only [List.append_nil, Nat.add_zero] at hset
    rw [List.take_append_drop] at hset
    rw [hset, ← hlen]
    rfl
  | cons v' rest' =>
    simp only [List.length_cons] at hlen hroom
    have hf : ¬ (⟨(get s).buffer.set 0 b0, 1, 0, len b0⟩ : Fifo).full = true := by simp [Fifo.full]; omega
    rw [if_neg hf]
    simp only
    rw [c.tail _ _ (c.keeps _ _ hok) (by rw [c.get_put]) (by simp)
      (by rw [c.get_put]; simp only [List.length_cons]; omega)
      (by rw [c.get_put]; simp only [List.length_set]; omega)]
    rw [c.get_put, c.put_put]
    simp only
    rw [hset, ← hlen]
    rfl

end Collect

/-- The FDC's Data port collects (R163). -/
theorem fdcDataWrite_collects : Collects fdcDataWrite (fun s => s.fdc.fifo)
    (fun f s => { s with fdc := { s.fdc with fifo := f } })
    (fun s => s.fdc.enabled = true ∧ s.fdc.phase = .command) State.fdcExecute fdcReqLen where
  get_put _ _ := rfl
  put_put _ _ _ := rfl
  keeps _ _ h := h
  takes v s h := by
    unfold fdcDataWrite
    rw [if_neg (by simp [h.1]), if_neg (by simp [h.2])]

/-- A whole FDC request from idle runs its command once, on its bytes (R163, R165). -/
theorem deliver_fdc (s : State) (h : FdcIdle s) (b0 : Byte) (rest : List Byte)
    (hlen : (b0 :: rest).length = fdcReqLen b0) (hmax : (b0 :: rest).length ≤ 9) :
    deliver fdcDataWrite (b0 :: rest) s =
      .next { s with fdc := { s.fdc with fifo := s.fdc.fifo.loaded (b0 :: rest) } }.fdcExecute :=
  fdcDataWrite_collects.all b0 rest s ⟨h.enabled, h.phase⟩ h.fresh hlen (Nat.le_trans hmax h.room)

/-- The XTC's Data port collects (R231). -/
theorem xtcDataWrite_collects : Collects xtcDataWrite (fun s => s.xtc.fifo)
    (fun f s => { s with xtc := { s.xtc with fifo := f } })
    (fun s => s.cfg.hdcVariant = .xtc ∧ s.xtc.phase = .command) State.xtcExecute xtcReqLen where
  get_put _ _ := rfl
  put_put _ _ _ := rfl
  keeps _ _ h := h
  takes v s h := by
    unfold xtcDataWrite onXtc
    rw [if_pos h.1, if_neg (by simp [h.2])]

/-- A whole XTC command block from idle runs its command once, on its bytes (R231, R232). -/
theorem deliver_xtc (s : State) (h : XtcIdle s) (b0 : Byte) (rest : List Byte)
    (hlen : (b0 :: rest).length = xtcReqLen b0) (hmax : (b0 :: rest).length ≤ 14) :
    deliver xtcDataWrite (b0 :: rest) s =
      .next { s with xtc := { s.xtc with fifo := s.xtc.fifo.loaded (b0 :: rest) } }.xtcExecute :=
  xtcDataWrite_collects.all b0 rest s ⟨h.variant, h.phase⟩ h.fresh hlen (Nat.le_trans hmax h.room)

/-- The FIFO of a command in execution: its request collected and replayed (R26, R165). -/
def Fifo.executing (f : Fifo) (bs : List Byte) : Fifo :=
  ⟨bs ++ f.buffer.drop bs.length, bs.length, bs.length, bs.length⟩

/-- A loaded request, read back. -/
theorem Fifo.request_loaded (f : Fifo) (bs : List Byte) : (f.loaded bs).request = bs := by
  simp [Fifo.request, Fifo.loaded]

/-- The first cells of a loaded FIFO are the request. -/
theorem Fifo.take_loaded (f : Fifo) (bs : List Byte) : (f.loaded bs).buffer.take bs.length = bs := by
  simp [Fifo.loaded]

theorem Fifo.length_loaded (f : Fifo) (bs : List Byte) (h : bs.length ≤ f.buffer.length) :
    (f.loaded bs).buffer.length = f.buffer.length := by
  simp [Fifo.loaded]; omega

/-! ### The interrupt at the end of a command (R393) -/

theorem State.endOfCommandIrq_fdc (s : State) (e : Err) :
    s.endOfCommandIrq .fdc e = { s with fdc := { s.fdc with
      irq := s.fdc.irq || (s.fdc.out.getLsbD 3 && decide (e ≠ .notReady)) } } := by
  unfold State.endOfCommandIrq State.armed Fdc.armed
  by_cases he : e = .notReady
  · simp [he]
  · cases ha : s.fdc.out.getLsbD 3 <;> simp [State.raiseIrq, he]

theorem State.endOfCommandIrq_xtc (s : State) (e : Err) :
    s.endOfCommandIrq .xtc e = { s with xtc := { s.xtc with
      irq := s.xtc.irq || (s.xtc.pattern.getLsbD 1 && decide (e ≠ .notReady)) } } := by
  unfold State.endOfCommandIrq State.armed Xtc.armed
  by_cases he : e = .notReady
  · simp [he]
  · cases ha : s.xtc.pattern.getLsbD 1 <;> simp [State.raiseIrq, he]

theorem State.endOfCommandIrq_atc (s : State) (e : Err) :
    s.endOfCommandIrq .atc e = { s with atc := { s.atc with
      irq := s.atc.irq || (!s.atc.fdr.getLsbD 1 && decide (e ≠ .notReady)) } } := by
  unfold State.endOfCommandIrq State.armed Atc.armed
  by_cases he : e = .notReady
  · simp [he]
  · cases ha : s.atc.fdr.getLsbD 1 <;> simp [State.raiseIrq, he]

theorem State.raiseIfArmed_atc (s : State) :
    s.raiseIfArmed .atc = { s with atc := { s.atc with irq := s.atc.irq || !s.atc.fdr.getLsbD 1 } } := by
  unfold State.raiseIfArmed State.armed Atc.armed
  cases ha : s.atc.fdr.getLsbD 1 <;> simp [State.raiseIrq]

/-! ### Loading results (R166, R233) -/

theorem overlay_length (bs rs : List Byte) : (overlay bs rs).length = bs.length := by
  induction bs generalizing rs with
  | nil => cases rs <;> rfl
  | cons b bs ih => cases rs with
    | nil => rfl
    | cons r rs => simp [overlay, ih]

theorem overlay_take (bs rs : List Byte) (h : rs.length ≤ bs.length) : (overlay bs rs).take rs.length = rs := by
  induction bs generalizing rs with
  | nil =>
    cases rs with
    | nil => rfl
    | cons r rs => simp at h
  | cons b bs ih =>
    cases rs with
    | nil => rfl
    | cons r rs => simp [overlay]; exact ih rs (by simpa using h)

/-- The FIFO of an executing command, drained (R166): only the cells are open. -/
theorem Fifo.loaded_drained (f : Fifo) (bs : List Byte) (h : bs.length ≤ f.buffer.length) :
    ∃ b, b.length = f.buffer.length ∧ (f.executing bs).drained = ⟨b, 0, 0, 0⟩ :=
  ⟨_, Fifo.length_loaded _ _ h, rfl⟩

/-- The FIFO of an executing command (R26): its first cells are the request. -/
theorem Fifo.loaded_executing (f : Fifo) (bs : List Byte) (h : bs.length ≤ f.buffer.length) :
    ∃ b, b.length = f.buffer.length ∧ b.take bs.length = bs ∧
      f.executing bs = ⟨b, bs.length, bs.length, bs.length⟩ :=
  ⟨_, Fifo.length_loaded _ _ h, Fifo.take_loaded _ _, rfl⟩

/-- A result loaded over an executing command's request (R166). -/
theorem Fifo.loaded_result (f : Fifo) (bs res : List Byte) (h : bs.length ≤ f.buffer.length)
    (hr : res.length ≤ f.buffer.length) :
    ∃ b, b.length = f.buffer.length ∧ b.take res.length = res ∧
      (f.executing bs).loadResult res = ⟨b, res.length, 0, res.length⟩ := by
  refine ⟨overlay (f.loaded bs).buffer res, ?_, ?_, rfl⟩
  · rw [overlay_length, Fifo.length_loaded _ _ h]
  · exact overlay_take _ _ (by rw [Fifo.length_loaded _ _ h]; exact hr)

/-- A loaded result: the counters, the bytes and the number of cells (R166). -/
theorem Fifo.loadResult_spec (f : Fifo) (res : List Byte) (h : res.length ≤ f.buffer.length) :
    ∃ b, b.length = f.buffer.length ∧ b.take res.length = res ∧
      f.loadResult res = ⟨b, res.length, 0, res.length⟩ :=
  ⟨overlay f.buffer res, overlay_length _ _, overlay_take _ _ h, rfl⟩

end Sys2Proof.Machine
end

