-- ==== Sys2Proof/Laws/Fdc.lean ====
section
/-! SUPPORT. The FDC: the fields of its requests read back, the run of a loaded request, and the end of a command, each
said once. -/

namespace Sys2Proof.Machine

/-! ### Fields of the bytes (R121, R124) -/

@[simp] theorem fdcMaskedOp_first (m : BitVec 3) (op : BitVec 5) : fdcMaskedOp (encodeFdcFirst m op) = op := by
  revert m op; decide

theorem unitSelect_unit (us : UnitSelect) : (encodeUnitSelect us).extractLsb' 0 2 = us.unit := by
  obtain ⟨i, h, u⟩ := us; revert i h u; decide

theorem unitSelect_head (us : UnitSelect) : (encodeUnitSelect us).extractLsb' 2 1 = us.headSelect := by
  obtain ⟨i, h, u⟩ := us; revert i h u; decide

@[simp] theorem fdcReqUnit_cons (b0 : Byte) (us : UnitSelect) (rest : List Byte) :
    fdcReqUnit (b0 :: encodeUnitSelect us :: rest) = us.unit := unitSelect_unit us

@[simp] theorem fdcReqHead_cons (b0 : Byte) (us : UnitSelect) (rest : List Byte) :
    fdcReqHead (b0 :: encodeUnitSelect us :: rest) = us.headSelect := unitSelect_head us

@[simp] theorem reqByte_cons_zero (b : Byte) (bs : List Byte) : reqByte (b :: bs) 0 = b := rfl

@[simp] theorem reqByte_cons_succ (b : Byte) (bs : List Byte) (k : Nat) : reqByte (b :: bs) (k + 1) = reqByte bs k := rfl

/-- The command of an opcode (R165). -/
def State.fdcCommand (s : State) (op : FdcOp) (req : List Byte) : State :=
  match op with
  | .specify => s.fdcSpecify req
  | .writeData => s.fdcWriteData req
  | .readData => s.fdcReadData req
  | .recalibrate => s.fdcRecalibrate req
  | .senseInterruptStatus => s.fdcSenseInterruptStatus req
  | .formatTrack => s.fdcFormatTrack req
  | .seek => s.fdcSeek req
  | .unknown => s.fdcUnknown req

/-- The state a command of the FDC runs in: Execution Phase, its request in the FIFO and replayed (R165). -/
def State.fdcExecuting (s : State) (bs : List Byte) : State :=
  { s with fdc := { s.fdc with phase := .execution, fifo := s.fdc.fifo.executing bs } }

/-- A loaded request runs the command of its masked opcode, on its bytes (R165). -/
theorem fdcExecute_loaded (s : State) (bs : List Byte) :
    { s with fdc := { s.fdc with fifo := s.fdc.fifo.loaded bs } }.fdcExecute =
      (s.fdcExecuting bs).fdcCommand (fdcOp (fdcMaskedOp (reqByte bs 0))) bs := by
  have h : { s with fdc := { s.fdc with fifo := s.fdc.fifo.loaded bs } }.fdc.fifo.request = bs := by
    simp [Fifo.request, Fifo.loaded]
  unfold State.fdcExecute
  simp only [h]
  rfl

/-- A whole FDC command from idle (R163, R165). -/
theorem fdc_command (s : State) (h : FdcIdle s) (m : BitVec 3) (op : BitVec 5) (rest : List Byte)
    (hlen : rest.length + 1 = (fdcOp op).reqLen) (hmax : rest.length + 1 ≤ 9) :
    deliver fdcDataWrite (encodeFdcFirst m op :: rest) s =
      .next ((s.fdcExecuting (encodeFdcFirst m op :: rest)).fdcCommand (fdcOp op) (encodeFdcFirst m op :: rest)) := by
  rw [deliver_fdc s h _ _ (by simp [fdcReqLen, hlen]) (by simpa using hmax), fdcExecute_loaded]
  simp

/-- The end of a command without result bytes (R166, M = 0). -/
theorem fdcFinish_nil (s : State) (eligible : Bool) (st0 : Byte) (e : Err) :
    s.fdcFinish [] eligible st0 e = { s with fdc := { s.fdc with
      endStatus := if eligible then st0 else s.fdc.endStatus
      fifo := s.fdc.fifo.drained
      phase := .command
      irq := s.fdc.irq || (eligible && (s.fdc.out.getLsbD 3 && decide (e ≠ .notReady))) } } := by
  cases eligible
  · simp [State.fdcFinish]
  · exact State.endOfCommandIrq_fdc _ _

/-- The end of a command with result bytes (R166, M > 0). -/
theorem fdcFinish_cons (s : State) (r : Byte) (rs : List Byte) (eligible : Bool) (st0 : Byte) (e : Err) :
    s.fdcFinish (r :: rs) eligible st0 e = { s with fdc := { s.fdc with
      endStatus := if eligible then st0 else s.fdc.endStatus
      fifo := s.fdc.fifo.loadResult (r :: rs)
      phase := .result
      irq := s.fdc.irq || (eligible && (s.fdc.out.getLsbD 3 && decide (e ≠ .notReady))) } } := by
  cases eligible
  · simp [State.fdcFinish]
  · exact State.endOfCommandIrq_fdc _ _

/-- R204, R205: what a step to a cylinder makes of a Drive whose error was cleared. -/
theorem Drive.stepTo_clearError (c : Nat) (d : Drive) :
    d.clearError.stepTo c = { d with
      errorCode := .none
      pos := { d.pos with cylinder := c }
      diskChanged := if d.disk = none then d.diskChanged else false } := by
  obtain ⟨pos, geo, e, sc, cur, disk, se, fmt, dch⟩ := d
  cases disk <;> rfl

/-- R165: a command that names a unit that exists. -/
theorem State.fdcNameUnit_present (s : State) (u : BitVec 2) (d : Drive) (h : s.floppy[u.toNat]? = some d) :
    s.fdcNameUnit u = { s with
      fdc := { s.fdc with lastUnit := u }
      floppy := s.floppy.set u.toNat { d with errorCode := .none } } := by
  unfold State.fdcNameUnit
  rw [State.modifyDrive_floppy _ _ _ d (by exact h)]
  rfl

/-- R165: a command that names a unit that does not exist. -/
theorem State.fdcNameUnit_absent (s : State) (u : BitVec 2) (h : s.floppy[u.toNat]? = none) :
    s.fdcNameUnit u = { s with fdc := { s.fdc with lastUnit := u } } := by
  unfold State.fdcNameUnit
  rw [State.modifyDrive_absent _ _ _ (by exact h)]

/-- R209: the full-length result of a transfer command whose Drive is not ready. -/
theorem State.fdcNotReady_eq (s : State) (req : List Byte) :
    s.fdcNotReady req = { s with fdc := { s.fdc with
      endStatus := (fdcStatus .notReady (fdcReqUnit req) (fdcReqHead req) false).1
      fifo := s.fdc.fifo.loadResult ([(fdcStatus .notReady (fdcReqUnit req) (fdcReqHead req) false).1, 0x00#8,
        0x00#8] ++ notReadyChrn req (s.drive? (.floppy (fdcReqUnit req).toNat)))
      phase := .result } } := by
  unfold State.fdcNotReady
  simp only [List.cons_append, List.nil_append, fdcFinish_cons]
  simp [fdcStatus]

/-- ST0 of `NotReady` (R383). -/
theorem st0_notReady (u : BitVec 2) (hd : BitVec 1) :
    (fdcStatus .notReady u hd false).1 = 0x48#8 + 4#8 * hd.setWidth 8 + u.setWidth 8 := by
  simp [fdcStatus, st0Base]
  ac_rfl

/-- R201 to R203: a transfer command on a Drive that is ready opens its session. -/
theorem State.fdcOpen_ready (s : State) (req : List Byte) (prepare : Drive → Drive) (dir : Direction) (d : Drive)
    (h : s.floppy[(fdcReqUnit req).toNat]? = some d) (hdisk : d.disk ≠ none)
    (hsel : s.fdc.out.extractLsb' 0 2 = fdcReqUnit req) :
    s.fdcOpenOrNotReady req prepare dir = { s with
      floppy := s.floppy.set (fdcReqUnit req).toNat (prepare d)
      dma := { s.dma with
        fdc := some ⟨some (fdcReqUnit req).toNat, dir, dir.toMemory false, false⟩ } } := by
  unfold State.fdcOpenOrNotReady
  simp only [State.drive?_floppy, h]
  rw [if_pos (by simp [State.floppyReady, Fdc.select, hsel, Option.isSome_iff_ne_none, hdisk]),
    State.modifyDrive_floppy _ _ _ d h]
  rfl

/-- R201 to R203: a transfer command on a Drive that is not ready raises `NotReady`. -/
theorem State.fdcOpen_notReady (s : State) (req : List Byte) (prepare : Drive → Drive) (dir : Direction) (d : Drive)
    (h : s.floppy[(fdcReqUnit req).toNat]? = some d)
    (hn : d.disk = none ∨ s.fdc.out.extractLsb' 0 2 ≠ fdcReqUnit req) :
    s.fdcOpenOrNotReady req prepare dir =
      { s with floppy := s.floppy.set (fdcReqUnit req).toNat (d.raise .notReady) }.fdcNotReady req := by
  unfold State.fdcOpenOrNotReady
  simp only [State.drive?_floppy, h]
  rw [if_neg (by simp [State.floppyReady, Fdc.select, Option.isSome_iff_ne_none]; tauto),
    State.modifyDrive_floppy _ _ _ d h]

/-- R201 to R203: a transfer command on a unit that does not exist. -/
theorem State.fdcOpen_absent (s : State) (req : List Byte) (prepare : Drive → Drive) (dir : Direction)
    (h : s.floppy[(fdcReqUnit req).toNat]? = none) :
    s.fdcOpenOrNotReady req prepare dir = s.fdcNotReady req := by
  unfold State.fdcOpenOrNotReady
  simp only [State.drive?_floppy, h]

end Sys2Proof.Machine
end

