-- ==== Sys2Proof/Laws/Atc.lean ====
section
/-! SUPPORT. The ATC: the run of a command byte, the end of a command, the priming of a sector and the task file's
write-back, each said once. -/

namespace Sys2Proof.Machine

/-- The state a command of the ATC runs in: the command byte kept, the Error register and the Drive's error cleared
(R283). -/
def State.atcStarted (s : State) (v : Byte) : State :=
  { s with
    atc := { s.atc with command := v, error := 0x00#8 }
    fixed := s.fixed.modify s.atc.drive.toNat Drive.clearError }

/-- The command of an opcode (R283). -/
def State.atcCommand (s : State) (op : AtcOp) (v : Byte) : State :=
  match op with
  | .restore => s.atcRestore
  | .readData => s.atcReadData
  | .writeData => s.atcWriteData
  | .seek => s.atcSeek
  | .diagnose => s.atcDiagnose
  | .setParameters => s.atcSetParameters
  | .unknown => s.atcUnknown v

theorem atcExecute_eq (s : State) (v : Byte) : s.atcExecute v = (s.atcStarted v).atcCommand (atcOp v) v := rfl

/-- A command byte in Command Phase (R283). -/
theorem atc_command (s : State) (h : AtcIdle s) (v : Byte) :
    atcCommandWrite v s = .next ((s.atcStarted v).atcCommand (atcOp v) v) := by
  unfold atcCommandWrite onAtc
  rw [if_pos h.variant, if_neg (by simp [h.phase])]
  rfl

/-- The one byte of an ATC command row. -/
theorem deliver_atc (s : State) (h : AtcIdle s) (v : Byte) :
    deliver atcCommandWrite [v] s = .next ((s.atcStarted v).atcCommand (atcOp v) v) := by
  simp only [deliver, atc_command s h v]

/-- R289. -/
theorem State.atcFinish_eq (s : State) (e : Err) :
    s.atcFinish e = { s with atc := { s.atc with
      error := atcErrorByte e
      status := atcStatusByte e
      phase := .command
      dir := .none
      irq := s.atc.irq || (!s.atc.fdr.getLsbD 1 && decide (e ≠ .notReady)) } } := by
  unfold State.atcFinish
  rw [State.endOfCommandIrq_atc]

/-- A command's Drive that exists, after its error was cleared (R283). -/
theorem State.atcStarted_present (s : State) (v : Byte) (d : Drive) (h : s.fixed[s.atc.drive.toNat]? = some d) :
    s.atcStarted v = { s with
      atc := { s.atc with command := v, error := 0x00#8 }
      fixed := s.fixed.set s.atc.drive.toNat { d with errorCode := .none } } := by
  unfold State.atcStarted
  rw [modify_eq_set _ _ _ d h]
  rfl

theorem State.atcStarted_absent (s : State) (v : Byte) (h : s.fixed[s.atc.drive.toNat]? = none) :
    s.atcStarted v = { s with atc := { s.atc with command := v, error := 0x00#8 } } := by
  unfold State.atcStarted
  rw [modify_absent _ _ _ h]

/-- Everything a lookup at the current position does (R364), by the image's answer. -/
theorem nextSector_look (bias : Nat) (d : Drive) (st : Store) (img : Nat) (hd : d.disk = some img)
    (hn : 0 < d.cur.bytesRemaining) :
    nextSector bias ⟨d, st⟩ =
      match (st.lookSector img bias d).1 with
      | .found h => (.found, ⟨{ d with cur := { d.cur with activeSector := some h, byteOffset := 0 } },
          (st.lookSector img bias d).2⟩)
      | .missing => (.failed, ⟨d.raise .noSectorFound,
          (st.lookSector img bias d).2⟩)
      | .pending => (.pending, ⟨{ d with cur := { d.cur with pending := true } },
          (st.lookSector img bias d).2⟩) := by
  unfold nextSector
  simp only [hd]
  rw [if_neg (by omega)]
  generalize st.lookSector img bias d = r
  obtain ⟨a, st'⟩ := r
  cases a <;> rfl

/-- R287: the priming of a sector that is found. -/
theorem State.atcPrime_found (s : State) (u : Nat) (d : Drive) (img : Nat) (h : Handle)
    (hd : s.fixed[u]? = some d) (hi : d.disk = some img) (hn : 0 < d.cur.bytesRemaining)
    (hf : (s.store.lookSector img 1 d).1 = .found h) :
    s.atcPrime (.fixed u) = { s with
      atc := { s.atc with
        status := 0x58#8
        irq := s.atc.irq || (decide (s.atc.dir = .read) && !s.atc.fdr.getLsbD 1) }
      fixed := s.fixed.set u { d with cur := { d.cur with activeSector := some h, byteOffset := 0 } }
      store := (s.store.lookSector img 1 d).2 } := by
  unfold State.atcPrime
  dsimp only
  rw [State.runBay_present _ _ _ _ d (by exact hd), nextSector_look 1 d _ img hi hn, hf]
  simp only [State.putBay, State.modifyDrive, State.atcPrimed, State.raiseIfArmed_atc]
  rw [modify_eq_set _ _ _ d (by exact hd)]
  by_cases hr : s.atc.dir = .read <;> simp [hr]

/-- R287: the priming of a sector that is missing. -/
theorem State.atcPrime_missing (s : State) (u : Nat) (d : Drive) (img : Nat)
    (hd : s.fixed[u]? = some d) (hi : d.disk = some img) (hn : 0 < d.cur.bytesRemaining) (he : d.errorCode = .none)
    (hf : (s.store.lookSector img 1 d).1 = .missing) :
    s.atcPrime (.fixed u) = { s with
      atc := { s.atc with
        error := 0x10#8
        status := 0x51#8
        phase := .command
        dir := .none
        irq := s.atc.irq || !s.atc.fdr.getLsbD 1 }
      fixed := s.fixed.set u { d with errorCode := .noSectorFound }
      store := (s.store.lookSector img 1 d).2 } := by
  have hl := (List.getElem?_eq_some_iff.mp hd).1
  unfold State.atcPrime
  dsimp only
  rw [State.runBay_present _ _ _ _ d (by exact hd), nextSector_look 1 d _ img hi hn, hf]
  simp only [State.putBay, State.modifyDrive, State.atcPrimed, State.atcFinish_eq]
  rw [modify_eq_set _ _ _ d (by exact hd)]
  simp [State.errorOf, hl, Drive.raise_eq, he, atcErrorByte, atcStatusByte]

/-- R287: the priming of a sector whose lookup is pending. -/
theorem State.atcPrime_pending (s : State) (u : Nat) (d : Drive) (img : Nat)
    (hd : s.fixed[u]? = some d) (hi : d.disk = some img) (hn : 0 < d.cur.bytesRemaining)
    (hf : (s.store.lookSector img 1 d).1 = .pending) :
    s.atcPrime (.fixed u) = { s with
      atc := { s.atc with status := 0x80#8 }
      fixed := s.fixed.set u { d with cur := { d.cur with pending := true } }
      store := (s.store.lookSector img 1 d).2 } := by
  unfold State.atcPrime
  dsimp only
  rw [State.runBay_present _ _ _ _ d (by exact hd), nextSector_look 1 d _ img hi hn, hf]
  simp only [State.putBay, State.modifyDrive]
  rw [modify_eq_set _ _ _ d (by exact hd)]

/-- R297, with the number of the drive bit kept. -/
theorem Atc.writeBack_eq (a : Atc) (p : Pos) :
    a.writeBack p = { a with
      secNum := BitVec.ofNat 8 p.sector
      cylLo := BitVec.ofNat 8 p.cylinder
      cylHi := BitVec.ofNat 8 (p.cylinder / 256)
      driveHead := a.driveHead &&& 0xF0#8 ||| BitVec.ofNat 8 (p.head % 16) } := by
  have h : ∀ (x : Byte) (m : Fin 16), (x &&& 0xF0#8) + BitVec.ofNat 8 m.val = x &&& 0xF0#8 ||| BitVec.ofNat 8 m.val := by
    decide +revert
  unfold Atc.writeBack
  rw [h a.driveHead ⟨p.head % 16, Nat.mod_lt _ (by decide)⟩, Nat.shiftRight_eq_div_pow]

/-! ### The data path -/

/-- R284: a read of the data register whose byte moves. -/
theorem State.atcDataRead_byte (s : State) (u : Nat) (d : Drive) (h : Handle) (v : Byte) (st : Store)
    (hu : s.atc.drive.toNat = u) (hd : s.fixed[u]? = some d) (he : d.errorCode = .none)
    (ha : d.cur.activeSector = some h) (hr : s.store.diskRead h d.cur.byteOffset = (some v, st)) :
    s.atcDataRead = (State.atcByteDone { s with fixed := s.fixed.set u (d.byteMoved 1), store := st }
      (.fixed u)).reply (.byte v) := by
  unfold State.atcDataRead State.atcRef
  dsimp only
  rw [hu, State.runBay_present _ _ _ _ d (by exact hd)]
  have : readByte 1 ⟨d, s.store⟩ = (.byte v, ⟨d.byteMoved 1, st⟩) := by
    simp only [readByte, he, ne_eq, not_true_eq_false, if_false, ha, readActive, hr]
  rw [this]
  simp only [State.putBay, State.modifyDrive]
  rw [modify_eq_set _ _ _ d hd]

/-- R285: a write of the data register whose byte moves. -/
theorem State.atcDataWrite_byte (s : State) (u : Nat) (d : Drive) (h : Handle) (v : Byte) (img : Nat) (st : Store)
    (hu : s.atc.drive.toNat = u) (hd : s.fixed[u]? = some d) (he : d.errorCode = .none) (hi : d.disk = some img)
    (hw : s.store.writable img = true) (ha : d.cur.activeSector = some h)
    (hr : s.store.diskWrite h d.cur.byteOffset v = (true, st)) :
    s.atcDataWrite v = State.atcByteDone { s with fixed := s.fixed.set u (d.byteMoved 1), store := st }
      (.fixed u) := by
  unfold State.atcDataWrite State.atcRef
  dsimp only
  rw [hu, State.runBay_present _ _ _ _ d (by exact hd)]
  have : writeByte 1 v ⟨d, s.store⟩ = (.accepted, ⟨d.byteMoved 1, st⟩) := by
    simp only [writeByte, Bay.readOnly, he, hi, hw, ne_eq, not_true_eq_false, if_false, ha, writeActive, hr]
    rfl
  rw [this]
  simp only [State.putBay, State.modifyDrive]
  rw [modify_eq_set _ _ _ d hd]

/-- R284, R289: a read of the data register that the cursor does not answer. -/
theorem State.atcDataRead_stop (s : State) (u : Nat) (d d' : Drive) (st : Store)
    (hu : s.atc.drive.toNat = u) (hd : s.fixed[u]? = some d) (hr : readByte 1 ⟨d, s.store⟩ = (.eof, ⟨d', st⟩)) :
    s.atcDataRead =
      (State.atcFinish { s with fixed := s.fixed.set u d', store := st } d'.errorCode).reply (.byte 0x00#8) := by
  unfold State.atcDataRead State.atcRef
  dsimp only
  rw [hu, State.runBay_present _ _ _ _ d (by exact hd), hr]
  simp only [State.putBay, State.modifyDrive]
  rw [modify_eq_set _ _ _ d hd]
  simp only [State.errorOf, State.drive?_fixed, getElem?_set_present _ _ _ _ hd]

/-- R285, R289: a write of the data register that the cursor does not take. -/
theorem State.atcDataWrite_stop (s : State) (u : Nat) (v : Byte) (d d' : Drive) (st : Store)
    (hu : s.atc.drive.toNat = u) (hd : s.fixed[u]? = some d) (hr : writeByte 1 v ⟨d, s.store⟩ = (.error, ⟨d', st⟩)) :
    s.atcDataWrite v = State.atcFinish { s with fixed := s.fixed.set u d', store := st } d'.errorCode := by
  unfold State.atcDataWrite State.atcRef
  dsimp only
  rw [hu, State.runBay_present _ _ _ _ d (by exact hd), hr]
  simp only [State.putBay, State.modifyDrive]
  rw [modify_eq_set _ _ _ d hd]
  simp only [State.errorOf, State.drive?_fixed, getElem?_set_present _ _ _ _ hd]

/-- R284, R285: a byte inside the sector. -/
theorem State.atcByteDone_inside (s : State) (u : Nat) (d : Drive) (h : Handle) (hd : s.fixed[u]? = some d)
    (ha : d.cur.activeSector = some h) : s.atcByteDone (.fixed u) = s := by
  unfold State.atcByteDone
  simp only [State.drive?_fixed, hd]
  rw [if_neg (by simp [ha])]

/-- R284, R285: the last byte of a sector. -/
theorem State.atcByteDone_last (s : State) (u : Nat) (d : Drive) (hd : s.fixed[u]? = some d)
    (ha : d.cur.activeSector = none) : s.atcByteDone (.fixed u) = s.atcSectorDone (.fixed u) d := by
  unfold State.atcByteDone
  simp only [State.drive?_fixed, hd]
  rw [if_pos ha]

/-- R288: between two sectors. -/
theorem State.atcSectorDone_more (s : State) (r : DriveRef) (d : Drive) (h : d.cur.bytesRemaining ≠ 0) :
    s.atcSectorDone r d = State.atcPrime { s with atc := { s.atc with
      secCount := s.atc.secCount - 1#8
      secNum := BitVec.ofNat 8 d.pos.sector
      cylLo := BitVec.ofNat 8 d.pos.cylinder
      cylHi := BitVec.ofNat 8 (d.pos.cylinder / 256)
      driveHead := s.atc.driveHead &&& 0xF0#8 ||| BitVec.ofNat 8 (d.pos.head % 16)
      irq := if s.atc.dir = .write then s.atc.irq || !s.atc.fdr.getLsbD 1 else s.atc.irq } } r := by
  unfold State.atcSectorDone
  rw [if_neg h]
  simp only [Atc.writeBack_eq]
  split
  · rw [State.raiseIfArmed_atc]
  · rfl

/-- R368: the Drive after the last byte of a sector. -/
theorem Drive.byteMoved_last (d : Drive) (h : d.cur.byteOffset + 1 = d.geo.bytesPerSector) :
    d.byteMoved 1 = { d with
      pos := d.pos.advance d.geo 1
      cur := ⟨none, 0, d.cur.bytesRemaining - d.geo.bytesPerSector, d.cur.pending⟩ } := by
  rw [Drive.byteMoved_eq, if_pos h]

/-- R365, R366: the Drive after a byte inside a sector. -/
theorem Drive.byteMoved_inside (d : Drive) (h : d.cur.byteOffset + 1 ≠ d.geo.bytesPerSector) :
    d.byteMoved 1 = { d with cur := { d.cur with byteOffset := d.cur.byteOffset + 1 } } := by
  rw [Drive.byteMoved_eq, if_neg h]

end Sys2Proof.Machine
end

