-- ==== Sys2Proof/Laws/Dma.lean ====
section
/-! SUPPORT. The DMA bridge and the cursor under it: where a byte comes from or goes to, and the steps of the peer on an
engaged disk session, and the fill of a sector being formatted, each said once. -/

namespace Sys2Proof.Machine

/-- The sector the next byte of a transfer is in: the active one, or at a boundary the one just looked up (R364). -/
inductive NextByteAt (bias : Nat) (d : Drive) (st : Store) (h : Handle) : Nat → Store → Prop where
  | active (ha : d.cur.activeSector = some h) : NextByteAt bias d st h d.cur.byteOffset st
  | boundary (st' : Store) (img : Nat) (ha : d.cur.activeSector = none) (hn : 0 < d.cur.bytesRemaining)
      (hi : d.disk = some img)
      (hf : st.lookSector img bias d = (.found h, st')) :
      NextByteAt bias d st h 0 st'

/-- The Drive with that sector active, at that offset. -/
def Drive.at (d : Drive) (h : Handle) (off : Nat) : Drive :=
  { d with cur := { d.cur with activeSector := some h, byteOffset := off } }

theorem Drive.at_active (d : Drive) (h : Handle) (ha : d.cur.activeSector = some h) : d.at h d.cur.byteOffset = d := by
  obtain ⟨pos, geo, ec, sc, ⟨act, off, rem, pend⟩, disk, se, fmt, dch⟩ := d
  simp only at ha
  subst ha
  rfl

/-- R365: the read of the next byte. -/
theorem readByte_at (bias : Nat) (d : Drive) (st st' : Store) (h : Handle) (off : Nat) (he : d.errorCode = .none)
    (hb : NextByteAt bias d st h off st') : readByte bias ⟨d, st⟩ = readActive bias h ⟨d.at h off, st'⟩ := by
  cases hb with
  | active ha => rw [Drive.at_active d h ha]; simp only [readByte, he, ne_eq, not_true_eq_false, if_false, ha]
  | boundary _ img ha hn hi hf =>
    have hx := nextSector_look bias d st img hi hn
    rw [hf] at hx
    simp only [readByte, he, ne_eq, not_true_eq_false, if_false, ha, hx]
    simp [Drive.at, he]

/-- R366: the write of the next byte. -/
theorem writeByte_at (bias : Nat) (v : Byte) (d : Drive) (st st' : Store) (h : Handle) (off : Nat)
    (he : d.errorCode = .none) (hw : Bay.readOnly ⟨d, st⟩ = false) (hb : NextByteAt bias d st h off st') :
    writeByte bias v ⟨d, st⟩ = writeActive bias h v ⟨d.at h off, st'⟩ := by
  cases hb with
  | active ha => rw [Drive.at_active d h ha]; simp only [writeByte, he, ne_eq, not_true_eq_false, if_false, ha, hw]; rfl
  | boundary _ img ha hn hi hf =>
    have hx := nextSector_look bias d st img hi hn
    rw [hf] at hx
    simp only [writeByte, he, ne_eq, not_true_eq_false, if_false, ha, hx, hw]
    simp [Drive.at, he]

/-- Between sectors, with the lookup not finding the sector: what both a read and a write do first (R364). -/
theorem nextSector_none (bias : Nat) (d : Drive) (st : Store) (hi : d.disk = none) :
    nextSector bias ⟨d, st⟩ = (.failed, ⟨d.raise .notReady, st⟩) := by
  simp [nextSector, hi, Bay.raise]

theorem nextSector_done (bias : Nat) (d : Drive) (st : Store) (img : Nat) (hi : d.disk = some img)
    (hn : d.cur.bytesRemaining = 0) : nextSector bias ⟨d, st⟩ = (.done, ⟨d, st⟩) := by
  simp [nextSector, hi, hn]

/-- Putting back the Drive that was there, with its store, changes nothing. -/
theorem State.modifyDrive_same (s : State) (r : DriveRef) (d : Drive) (h : s.drive? r = some d) :
    s.modifyDrive r (fun _ => d) = s := by
  have hs : ∀ l : List Drive, ∀ u, l[u]? = some d → l.modify u (fun _ => d) = l := by
    intro l u hu
    rw [modify_eq_set _ _ _ d hu]
    obtain ⟨hl, rfl⟩ := List.getElem?_eq_some_iff.mp hu
    exact List.set_getElem_self hl
  cases r with
  | floppy u => show ({ s with floppy := s.floppy.modify u _ } : State) = s; rw [hs _ _ h]
  | fixed u => show ({ s with fixed := s.fixed.modify u _ } : State) = s; rw [hs _ _ h]

/-- R324: a pull on an engaged Read session runs `ReadByte` on its Drive. -/
theorem dmaPull_read (s : State) (c : Chan) (u : Nat) (d : Drive) (hs : s.session c = some ⟨some u, .read, true, true⟩)
    (hd : s.drive? (c.drive u) = some d) (hp : d.cur.pending = false) :
    dmaPull c s = .next { s.modifyDrive (c.drive u) (fun _ => (readByte c.bias ⟨d, s.store⟩).2.drive) with
      store := (readByte c.bias ⟨d, s.store⟩).2.store
      answer := (readByte c.bias ⟨d, s.store⟩).1.answer } := by
  simp only [dmaPull, hs, State.sessionPending, State.sessionDrive, Option.bind_some, hd, hp, State.runSession]
  rw [State.runBay_present _ _ _ _ d hd]
  rfl

/-- R325: a push on an engaged Write session runs `WriteByte` on its Drive. -/
theorem dmaPush_write (s : State) (c : Chan) (u : Nat) (d : Drive) (v : Byte)
    (hs : s.session c = some ⟨some u, .write, false, true⟩)
    (hd : s.drive? (c.drive u) = some d) (hp : d.cur.pending = false) :
    dmaPush c v s = .next { s.modifyDrive (c.drive u) (fun _ => (writeByte c.bias v ⟨d, s.store⟩).2.drive) with
      store := (writeByte c.bias v ⟨d, s.store⟩).2.store
      answer := (writeByte c.bias v ⟨d, s.store⟩).1.answer } := by
  simp only [dmaPush, hs, State.sessionPending, State.sessionDrive, Option.bind_some, hd, hp, State.runSession]
  rw [State.runBay_present _ _ _ _ d hd]
  rfl

/-- R325: a push on an engaged Format session runs `FdcFormatPush` on its Drive. -/
theorem dmaPush_format (s : State) (u : Nat) (d : Drive) (v : Byte)
    (hs : s.dma.fdc = some ⟨some u, .format, false, true⟩) (hd : s.floppy[u]? = some d) (hp : d.cur.pending = false) :
    dmaPush .fdc v s = .next { s.modifyDrive (.floppy u) (fun _ => (formatPush v ⟨d, s.store⟩).2.drive) with
      store := (formatPush v ⟨d, s.store⟩).2.store
      answer := (formatPush v ⟨d, s.store⟩).1.answer } := by
  have hs' : s.session .fdc = some ⟨some u, .format, false, true⟩ := hs
  have hd' : s.drive? (Chan.fdc.drive u) = some d := hd
  simp only [dmaPush, hs', State.sessionPending, State.sessionDrive, Option.bind_some, hd', hp, State.runSession]
  rw [State.runBay_present _ _ _ _ d hd']
  rfl

/-! ### The fill of a sector (R210, R366) -/

/-- R362, with the choice drawn: what one write does, by the head of the image's failures. -/
theorem Store.diskWrite_failures (st : Store) (h : Handle) (off : Nat) (v : Byte) :
    (st.diskWrite h off v).1 = !(st.failures h.image).headD false ∧
      (st.diskWrite h off v).2.images = st.images ∧ (st.diskWrite h off v).2.oracle.pend = st.oracle.pend ∧
      (st.diskWrite h off v).2.failures h.image = (st.failures h.image).tail ∧
      (st.diskWrite h off v).2.oracle.fail =
        (if st.preloaded h.image then st.oracle.fail else st.oracle.fail.drop 1) ∧
      (st.diskWrite h off v).2.cells =
        if (st.failures h.image).headD false then st.cells else st.cells.write (diskAddress h off) v := by
  by_cases hp : st.preloaded h.image = true
  · have e : st.diskWrite h off v = (true, { st with cells := st.cells.write (diskAddress h off) v }) := by
      simp [Store.diskWrite, Store.drawFail_preloaded _ _ hp]
    have hp' : Store.preloaded { st with cells := st.cells.write (diskAddress h off) v } h.image = true := hp
    rw [e]
    simp [Store.failures, hp, hp']
  · have hx : ∀ cells' bs, Store.preloaded ⟨st.images, cells', ⟨st.oracle.pend, bs⟩⟩ h.image = false := fun _ _ => by
      simpa [Store.preloaded] using hp
    have hp0 : st.preloaded h.image = false := by simpa using hp
    cases hl : st.oracle.fail with
    | nil =>
      have e : st.diskWrite h off v = (true, ⟨st.images, st.cells.write (diskAddress h off) v,
          ⟨st.oracle.pend, []⟩⟩) := by
        simp only [Store.diskWrite, Store.drawFail, hp0, hl, Bool.false_eq_true, if_false]
        rw [← hl]
      rw [e]
      simp [Store.failures, hp0, hl, hx]
    | cons b bs =>
      cases b with
      | false =>
        have e : st.diskWrite h off v = (true, ⟨st.images, st.cells.write (diskAddress h off) v,
            ⟨st.oracle.pend, bs⟩⟩) := by
          simp [Store.diskWrite, Store.drawFail, hp0, hl]
        rw [e]
        simp [Store.failures, hp0, hl, hx]
      | true =>
        have e : st.diskWrite h off v = (false, ⟨st.images, st.cells, ⟨st.oracle.pend, bs⟩⟩) := by
          simp [Store.diskWrite, Store.drawFail, hp0, hl]
        rw [e]
        simp [Store.failures, hp0, hl, hx]

theorem Store.writable_of_images (st st' : Store) (img : Nat) (h : st'.images = st.images) :
    st'.writable img = st.writable img := by simp [Store.writable, h]

theorem Store.preloaded_of_images (st st' : Store) (img : Nat) (h : st'.images = st.images) :
    st'.preloaded img = st.preloaded img := by simp [Store.preloaded, h]

/-- R366: a byte written into the active sector of a writable image, by the image's next choice. -/
theorem writeByte_active (d : Drive) (st : Store) (h : Handle) (v : Byte) (he : d.errorCode = .none)
    (hi : d.disk = some h.image) (hw : st.writable h.image = true) (ha : d.cur.activeSector = some h) :
    writeByte 1 v ⟨d, st⟩ =
      if (st.failures h.image).headD false then
        (.error, ⟨{ d with errorCode := .crcError }, (st.diskWrite h d.cur.byteOffset v).2⟩)
      else (.accepted, ⟨d.byteMoved 1, (st.diskWrite h d.cur.byteOffset v).2⟩) := by
  rw [writeByte_at 1 v d st st h _ he (by simp [Bay.readOnly, hi, hw]) (.active ha), Drive.at_active d h ha]
  have h1 := (st.diskWrite_failures h d.cur.byteOffset v).1
  unfold writeActive
  dsimp only
  generalize st.diskWrite h d.cur.byteOffset v = r at *
  obtain ⟨x, st'⟩ := r
  simp only at h1
  subst h1
  cases (st.failures h.image).headD false <;> simp [Drive.raise_eq, he]

/-- The fill from the present offset on: `k` bytes are left of the sector. -/
structure FillFrom (k : Nat) (d : Drive) (st : Store) (h : Handle) (a : WriteAnswer) (d' : Drive) (st' : Store) :
    Prop where
  frame : ∀ x, (∀ off, d.cur.byteOffset ≤ off → off < d.cur.byteOffset + k → x ≠ diskAddress h off) →
    st'.cells.read x = st.cells.read x
  canonical : Memory.wf st.cells = true → Memory.wf st'.cells = true
  images : st'.images = st.images ∧ st'.oracle.pend = st.oracle.pend
  whole : (∀ j, j < k → (st.failures h.image)[j]? ≠ some true) → a = .accepted ∧
    st'.oracle.fail = (if st.preloaded h.image then st.oracle.fail else st.oracle.fail.drop k) ∧
    (Memory.wf st.cells = true → ∀ off, d.cur.byteOffset ≤ off → off < d.cur.byteOffset + k →
      st'.cells.read (diskAddress h off) = d.fmt.filler) ∧
    d' = { d with
      pos := d.pos.advance d.geo 1
      cur := ⟨none, 0, d.cur.bytesRemaining - d.geo.bytesPerSector, d.cur.pending⟩
      fmt := { d.fmt with sectorsFormatted := d.fmt.sectorsFormatted + 1 } }
  stopped : ∀ m, m < k → (st.failures h.image)[m]? = some true →
    (∀ j, j < m → (st.failures h.image)[j]? ≠ some true) → a = .error ∧
    st'.oracle.fail = st.oracle.fail.drop (m + 1) ∧
    (Memory.wf st.cells = true → ∀ off, d.cur.byteOffset ≤ off → off < d.cur.byteOffset + m →
      st'.cells.read (diskAddress h off) = d.fmt.filler) ∧
    (∀ off, d.cur.byteOffset + m ≤ off → st'.cells.read (diskAddress h off) = st.cells.read (diskAddress h off)) ∧
    d' = { d with errorCode := .crcError, cur := { d.cur with byteOffset := d.cur.byteOffset + m } }

/-- R210: the fill of the rest of the active sector of a writable image. -/
theorem formatFillBytes_spec (h : Handle) : ∀ (k : Nat) (d : Drive) (st : Store), d.errorCode = .none →
    d.disk = some h.image → st.writable h.image = true → d.cur.activeSector = some h →
    d.cur.byteOffset + k = d.geo.bytesPerSector → 1 ≤ k →
    ∃ a d' st', formatFillBytes k ⟨d, st⟩ = (a, ⟨d', st'⟩) ∧ FillFrom k d st h a d' st' := by
  intro k
  induction k with
  | zero => intros; omega
  | succ k ih =>
    intro d st he hi hw ha hk _
    have hwr := writeByte_active d st h d.fmt.filler he hi hw ha
    obtain ⟨-, g1, g2, g3, g4, g5⟩ := st.diskWrite_failures h d.cur.byteOffset d.fmt.filler
    have hnp : (st.failures h.image).headD false = true → st.preloaded h.image = false := by
      intro hx
      by_contra hc
      have hc' : st.preloaded h.image = true := by simpa using hc
      simp [Store.failures, hc'] at hx
    have hat : ∀ j, (st.failures h.image)[j + 1]? = (st.failures h.image).tail[j]? := fun j => by
      rw [List.getElem?_tail]
    have h0 : (st.failures h.image)[0]? = some true ↔ (st.failures h.image).headD false = true := by
      cases st.failures h.image <;> simp
    generalize st.diskWrite h d.cur.byteOffset d.fmt.filler = w at *
    obtain ⟨ok, st1⟩ := w
    simp only at g1 g2 g3 g4 g5
    unfold formatFillBytes
    dsimp only
    rw [hwr]
    by_cases hf : (st.failures h.image).headD false = true
    · rw [if_pos hf]
      rw [if_pos hf] at g5
      rw [hnp hf] at g4
      refine ⟨_, _, _, rfl, ⟨fun x _ => by rw [g5], fun hm => by rw [g5]; exact hm, ⟨g1, g2⟩, ?_, ?_⟩⟩
      · intro hall
        exact absurd (h0.mpr hf) (hall 0 (by omega))
      · intro m _ hm hlt
        obtain rfl : m = 0 := by
          by_contra hc
          exact hlt 0 (by omega) (h0.mpr hf)
        refine ⟨rfl, by simpa using g4, fun _ off h1 h2 => by omega, fun off _ => by rw [g5], by simp⟩
    · rw [if_neg hf]
      rw [if_neg hf] at g5
      dsimp only
      have hn0 : (st.failures h.image)[0]? ≠ some true := fun hc => hf (h0.mp hc)
      by_cases hk0 : k = 0
      · subst hk0
        unfold formatFillBytes
        rw [Drive.byteMoved_last d (by omega)]
        refine ⟨_, _, _, rfl, ⟨?_, fun hm => by rw [g5]; exact Memory.write_wf _ _ _ hm, ⟨g1, g2⟩, ?_, ?_⟩⟩
        · intro x hx
          rw [g5]
          exact Memory.read_write_other _ _ _ _ (hx _ (Nat.le_refl _) (by omega))
        · intro _
          refine ⟨rfl, g4, ?_, rfl⟩
          intro hm off h1 h2
          obtain rfl : off = d.cur.byteOffset := by omega
          rw [g5]
          exact Memory.read_write_same _ _ _ hm
        · intro m hm hc
          obtain rfl : m = 0 := by omega
          exact absurd hc hn0
      · rw [Drive.byteMoved_inside d (by omega)]
        obtain ⟨a, d', st', e, F⟩ := ih { d with cur := { d.cur with byteOffset := d.cur.byteOffset + 1 } } st1 he hi
          (by rw [st.writable_of_images st1 _ g1]; exact hw) ha (by simp only; omega) (by omega)
        have hpre := st.preloaded_of_images st1 h.image g1
        refine ⟨a, d', st', e, ?_⟩
        obtain ⟨f1, f2, f3, f4, f5⟩ := F
        simp only [g3, hpre] at f1 f4 f5
        have hself : ∀ (off : Nat), d.cur.byteOffset + 1 ≤ off → ∀ o2, o2 ≤ d.cur.byteOffset →
            diskAddress h o2 ≠ diskAddress h off := by
          intro off h1 o2 h2 hc
          have := ((diskAddress_inj _ _ _ _).mp hc).2
          omega
        have hfirst : Memory.wf st.cells = true → st'.cells.read (diskAddress h d.cur.byteOffset) = d.fmt.filler := by
          intro hm
          rw [f1 _ (fun off h1 _ => hself off h1 _ (Nat.le_refl _)), g5]
          exact Memory.read_write_same _ _ _ hm
        have hwf1 : Memory.wf st.cells = true → Memory.wf st1.cells = true := fun hm => by
          rw [g5]; exact Memory.write_wf _ _ _ hm
        refine ⟨?_, fun hm => f2 (hwf1 hm), ⟨f3.1.trans g1, f3.2.trans g2⟩, ?_, ?_⟩
        · intro x hx
          rw [f1 x (fun off h1 h2 => hx off (by omega) (by omega)), g5]
          exact Memory.read_write_other _ _ _ _ (hx _ (Nat.le_refl _) (by omega))
        · intro hall
          obtain ⟨k1, k2, k3, k4⟩ := f4 (fun j hj => by rw [← hat]; exact hall (j + 1) (by omega))
          refine ⟨k1, ?_, ?_, k4⟩
          · rw [k2, g4]
            split
            · rfl
            · rw [List.drop_drop, Nat.add_comm]
          · intro hm off h1 h2
            by_cases ho : off = d.cur.byteOffset
            · subst ho; exact hfirst hm
            · exact k3 (hwf1 hm) off (by omega) (by omega)
        · intro m hm hc hlt
          obtain ⟨m, rfl⟩ : ∃ m', m = m' + 1 := by
            cases m with
            | zero => exact absurd hc hn0
            | succ m => exact ⟨m, rfl⟩
          have hnpr : st.preloaded h.image = false := by
            by_contra hx
            have hx' : st.preloaded h.image = true := by simpa using hx
            simp [Store.failures, hx'] at hc
          rw [hat] at hc
          obtain ⟨k1, k2, k3, k4, k5⟩ := f5 m (by omega) hc (fun j hj => by rw [← hat]; exact hlt (j + 1) (by omega))
          rw [hnpr] at g4
          refine ⟨k1, ?_, ?_, ?_, ?_⟩
          · rw [k2, g4]; simp only [Bool.false_eq_true, if_false, List.drop_drop]; congr 1; omega
          · intro hmm off h1 h2
            by_cases ho : off = d.cur.byteOffset
            · subst ho; exact hfirst hmm
            · exact k3 (hwf1 hmm) off (by omega) (by omega)
          · intro off ho
            rw [k4 off (by omega), g5]
            exact Memory.read_write_other _ _ _ _ (fun hx => hself off (by omega) _ (Nat.le_refl _) hx.symm)
          · rw [k5, show d.cur.byteOffset + 1 + m = d.cur.byteOffset + (m + 1) by omega]

/-- R210: everything the fill of a sector just found can do. -/
theorem formatFill_spec (d : Drive) (st : Store) (h : Handle) (he : d.errorCode = .none)
    (hi : d.disk = some h.image) (hb : 1 ≤ d.geo.bytesPerSector) :
    ∃ a d' st', formatFill ⟨{ d with cur := { d.cur with activeSector := some h, byteOffset := 0 } }, st⟩ =
      (a, ⟨d', st'⟩) ∧ SectorFill d st h a d' st' := by
  unfold formatFill
  dsimp only
  by_cases hw : st.writable h.image = true
  · obtain ⟨a, d', st', e, F⟩ := formatFillBytes_spec h d.geo.bytesPerSector
      { d with cur := { d.cur with activeSector := some h, byteOffset := 0 } } st he hi hw rfl (by simp) hb
    refine ⟨a, d', st', e, ?_, F.canonical, F.images, fun hc => ?_, fun _ hall => ?_, fun _ m hm hc hlt => ?_⟩
    · intro x hx
      exact F.frame x fun off _ h2 => hx off (by simpa using h2)
    · rw [hw] at hc; cases hc
    · obtain ⟨k1, k2, k3, k4⟩ := F.whole hall
      exact ⟨k1, k2, fun hm off ho => k3 hm off (Nat.zero_le _) (by simpa using ho), k4⟩
    · obtain ⟨k1, k2, k3, k4, k5⟩ := F.stopped m hm hc hlt
      refine ⟨k1, k2, fun hmm off ho => k3 hmm off (Nat.zero_le _) (by simpa using ho),
        fun off ho => k4 off (by simpa using ho), ?_⟩
      rw [k5]; simp
  · have hw' : st.writable h.image = false := by simpa using hw
    obtain ⟨n, hn⟩ : ∃ n, d.geo.bytesPerSector = n + 1 := ⟨d.geo.bytesPerSector - 1, by omega⟩
    rw [hn]
    unfold formatFillBytes
    have hx : writeByte 1 d.fmt.filler
        ⟨{ d with cur := { d.cur with activeSector := some h, byteOffset := 0 } }, st⟩ =
        (.error, (⟨{ d with
            errorCode := .writeFault
            cur := { d.cur with activeSector := some h, byteOffset := 0 } }, st⟩ : Bay)) := by
      simp [writeByte, he, Bay.readOnly, hi, hw', Bay.raise, Drive.raise_eq]
    dsimp only
    rw [hx]
    refine ⟨_, _, _, rfl, fun _ _ => rfl, id, ⟨rfl, rfl⟩, fun _ => ⟨rfl, rfl, rfl⟩, fun hc => absurd hc hw,
      fun hc => absurd hc hw⟩

/-- The fill of a sector answers `accepted` or `error`: its three cases are all there are. -/
theorem SectorFill.answered {d : Drive} {st : Store} {h : Handle} {a : WriteAnswer} {d' : Drive} {st' : Store}
    (F : SectorFill d st h a d' st') : a = .accepted ∨ a = .error := by
  by_cases hw : st.writable h.image = true
  · by_cases hall : ∀ k, k < d.geo.bytesPerSector → (st.failures h.image)[k]? ≠ some true
    · exact .inl (F.whole hw hall).1
    · classical
      have hex : ∃ k, k < d.geo.bytesPerSector ∧ (st.failures h.image)[k]? = some true := by
        push Not at hall
        exact hall
      obtain ⟨h1, h2⟩ := Nat.find_spec hex
      exact .inr (F.stopped hw _ h1 h2 fun j hj hc => Nat.find_min hex hj ⟨Nat.lt_trans hj h1, hc⟩).1
  · exact .inr (F.readOnly (by simpa using hw)).1

/-- The fill does nothing on a Drive with an error. -/
theorem formatFill_error (d : Drive) (st : Store) (he : d.errorCode ≠ .none) :
    (formatFill ⟨d, st⟩).2 = if d.geo.bytesPerSector = 0 then
      ⟨{ d with fmt := { d.fmt with sectorsFormatted := d.fmt.sectorsFormatted + 1 } }, st⟩ else ⟨d, st⟩ := by
  unfold formatFill
  dsimp only
  generalize d.geo.bytesPerSector = n
  cases n with
  | zero => rfl
  | succ n => unfold formatFillBytes; simp [writeByte, he]

end Sys2Proof.Machine
end

