-- ==== Sys2Proof/Laws/Xtc.lean ====
section
/-! SUPPORT. The XTC: the fields of its command blocks read back, the run of a loaded block, and the end of a command,
each said once. -/

namespace Sys2Proof.Machine

/-! ### Fields of the bytes (R135, R137) -/

theorem xtcByte1_drive (i : BitVec 2) (d : BitVec 1) (h : BitVec 5) : (i ++ d ++ h : Byte).extractLsb' 5 1 = d := by
  revert i d h; decide

theorem xtcByte1_head (i : BitVec 2) (d : BitVec 1) (h : BitVec 5) : (i ++ d ++ h : Byte).extractLsb' 0 5 = h := by
  revert i d h; decide

theorem xtcByte2_cylHigh (c : BitVec 2) (s : BitVec 6) : (c ++ s : Byte).extractLsb' 6 2 = c := by
  revert c s; decide

theorem xtcByte2_sector (c : BitVec 2) (s : BitVec 6) : (c ++ s : Byte).extractLsb' 0 6 = s := by
  revert c s; decide

@[simp] theorem xtcReqDrive_block (c0 : Byte) (b : XtcBlock) (rest : List Byte) :
    xtcReqDrive (encodeXtcBlock c0 b ++ rest) = b.drive := xtcByte1_drive _ _ _

@[simp] theorem xtcReqHead_block (c0 : Byte) (b : XtcBlock) (rest : List Byte) :
    xtcReqHead (encodeXtcBlock c0 b ++ rest) = b.head := xtcByte1_head _ _ _

@[simp] theorem xtcReqSector_block (c0 : Byte) (b : XtcBlock) (rest : List Byte) :
    xtcReqSector (encodeXtcBlock c0 b ++ rest) = b.sector := xtcByte2_sector _ _

@[simp] theorem xtcReqCylinder_block (c0 : Byte) (b : XtcBlock) (rest : List Byte) :
    xtcReqCylinder (encodeXtcBlock c0 b ++ rest) = (b.cylHigh.toNat <<< 8) + b.cylLow.toNat := by
  show (((b.cylHigh ++ b.sector : Byte).extractLsb' 6 2).toNat <<< 8) + b.cylLow.toNat = _
  rw [xtcByte2_cylHigh]

@[simp] theorem xtcReqCount_block (c0 : Byte) (b : XtcBlock) (rest : List Byte) :
    xtcReqCount (encodeXtcBlock c0 b ++ rest) = if b.count = 0#8 then 256 else b.count.toNat := rfl

theorem high_low (w : BitVec 16) : highByte w ++ lowByte w = w := by
  unfold highByte lowByte
  ext i hi
  rw [BitVec.getElem_append]
  split
  · simp [BitVec.getLsbD_eq_getElem hi]
  · rename_i h
    have : 8 + (i - 8) = i := by omega
    simp [this, BitVec.getLsbD_eq_getElem hi]

@[simp] theorem xtcReqParams_block (c0 : Byte) (b : XtcBlock) (p : InitParams) :
    xtcReqParams (encodeXtcBlock c0 b ++ encodeInitParams p) = p := by
  show decodeInitParams _ _ _ _ _ _ _ _ = p
  simp only [encodeXtcBlock, encodeInitParams, decodeInitParams, reqByte, List.cons_append, List.nil_append,
    List.getD_cons_succ, List.getD_cons_zero, high_low]

/-! ### The run of a block -/

/-- The command of an opcode (R232). -/
def State.xtcCommand (s : State) (op : XtcOp) (req : List Byte) : State :=
  match op with
  | .testReady => s.xtcTestReady req
  | .recalibrate => s.xtcRecalibrate req
  | .requestSense => s.xtcRequestSense req
  | .readData => s.xtcReadData req
  | .writeData => s.xtcWriteData req
  | .seek => s.xtcSeek req
  | .initDrive => s.xtcInitDrive req
  | .readBuffer => s.xtcReadBuffer req
  | .writeBuffer => s.xtcWriteBuffer req
  | .ramDiagnostic => s.xtcRamDiagnostic req
  | .driveDiagnostic => s.xtcDriveDiagnostic req
  | .controllerDiagnostic => s.xtcControllerDiagnostic req
  | .unknown => s.xtcUnknown req

/-- The state a command of the XTC runs in: Execution Phase, its block in the FIFO and replayed, its Drive's error
cleared (R232). -/
def State.xtcExecuting (s : State) (bs : List Byte) : State :=
  { s with
    xtc := { s.xtc with phase := .execution, fifo := s.xtc.fifo.executing bs }
    fixed := s.fixed.modify (xtcReqDrive bs).toNat Drive.clearError }

/-- A loaded block runs the command of its first byte, on its bytes (R232). -/
theorem xtcExecute_loaded (s : State) (bs : List Byte) :
    { s with xtc := { s.xtc with fifo := s.xtc.fifo.loaded bs } }.xtcExecute =
      (s.xtcExecuting bs).xtcCommand (xtcOp (reqByte bs 0)) bs := by
  have h : { s with xtc := { s.xtc with fifo := s.xtc.fifo.loaded bs } }.xtc.fifo.request = bs := by
    simp [Fifo.request, Fifo.loaded]
  unfold State.xtcExecute
  simp only [h]
  rfl

/-- A whole XTC command from idle (R231, R232). -/
theorem xtc_command (s : State) (h : XtcIdle s) (c0 : Byte) (b : XtcBlock) (rest : List Byte)
    (hlen : rest.length + 6 = xtcReqLen c0) (hmax : rest.length ≤ 8) :
    deliver xtcDataWrite (encodeXtcBlock c0 b ++ rest) s =
      .next ((s.xtcExecuting (encodeXtcBlock c0 b ++ rest)).xtcCommand (xtcOp c0) (encodeXtcBlock c0 b ++ rest)) := by
  have hl : (encodeXtcBlock c0 b ++ rest).length = xtcReqLen c0 := by
    rw [← hlen]; simp [encodeXtcBlock]
  have hd := deliver_xtc s h c0 ((encodeXtcBlock c0 b ++ rest).tail) hl (by simp [encodeXtcBlock]; omega)
  exact hd.trans (by rw [xtcExecute_loaded]; rfl)

/-- R232: a command on a Drive that exists. -/
theorem State.xtcExecuting_present (s : State) (bs : List Byte) (d : Drive)
    (h : s.fixed[(xtcReqDrive bs).toNat]? = some d) :
    s.xtcExecuting bs = { s with
      xtc := { s.xtc with phase := .execution, fifo := s.xtc.fifo.executing bs }
      fixed := s.fixed.set (xtcReqDrive bs).toNat { d with errorCode := .none } } := by
  unfold State.xtcExecuting
  rw [modify_eq_set _ _ _ d h]
  rfl

/-- R232: a command on a Drive that does not exist. -/
theorem State.xtcExecuting_absent (s : State) (bs : List Byte) (h : s.fixed[(xtcReqDrive bs).toNat]? = none) :
    s.xtcExecuting bs = { s with xtc := { s.xtc with phase := .execution, fifo := s.xtc.fifo.executing bs } } := by
  unfold State.xtcExecuting
  rw [modify_absent _ _ _ h]

theorem State.xtcUnit_present (s : State) (bs : List Byte) (d : Drive)
    (h : s.fixed[(xtcReqDrive bs).toNat]? = some d) : s.xtcUnit bs = some (xtcReqDrive bs).toNat := by
  simp only [State.xtcUnit, State.drive?_fixed, h]

theorem State.xtcUnit_absent (s : State) (bs : List Byte) (h : s.fixed[(xtcReqDrive bs).toNat]? = none) :
    s.xtcUnit bs = none := by
  simp only [State.xtcUnit, State.drive?_fixed, h]

/-- R233: the end of a command that latches its class on a Drive. -/
theorem State.xtcFinish_latch (s : State) (u : BitVec 1) (k : Nat) (d : Drive) (e : Err) (hd : s.fixed[k]? = some d) :
    s.xtcFinish u (some k) e [] true = { s with
      fixed := s.fixed.set k { d with senseCode := e }
      xtc := { s.xtc with
        fifo := s.xtc.fifo.loadResult [xtcCompletion e u]
        phase := .result
        irq := s.xtc.irq || (s.xtc.pattern.getLsbD 1 && decide (e ≠ .notReady)) } } := by
  unfold State.xtcFinish
  dsimp only
  rw [State.modifyDrive_fixed _ _ _ d hd, State.endOfCommandIrq_xtc]
  rfl

/-- R233: the end of a command without a Drive, or of one that latches nothing. -/
theorem State.xtcFinish_plain (s : State) (u : BitVec 1) (d : Option Nat) (e : Err) (pre : List Byte) (l : Bool)
    (h : l = false ∨ d = none) :
    s.xtcFinish u d e pre l = { s with
      xtc := { s.xtc with
        fifo := s.xtc.fifo.loadResult (pre ++ [xtcCompletion e u])
        phase := .result
        irq := s.xtc.irq || (s.xtc.pattern.getLsbD 1 && decide (e ≠ .notReady)) } } := by
  unfold State.xtcFinish
  rcases h with rfl | rfl
  · cases d <;> exact State.endOfCommandIrq_xtc _ _
  · cases l <;> exact State.endOfCommandIrq_xtc _ _

end Sys2Proof.Machine
end

