-- ==== Sys2Proof/Laws/Reset.lean ====
section
/-! SUPPORT. Power-up: every Drive in its power-up state; construction, and what its checks say
(spec/70_reset_and_hazards.md R430, R440). -/

namespace Sys2Proof.Machine

/-- R430: the floppy Drives after power-up. -/
theorem powerUp_floppy (s : State) (u : Nat) :
    s.powerUp.floppy[u]? = (s.floppy[u]?).map (s.powerUpDrive (.floppy u)) := by
  unfold State.powerUp State.hdcPowerUp
  cases hv : s.cfg.hdcVariant <;>
    simp [-List.reduceReplicate, hv, List.getElem?_mapIdx, State.fdcControllerReset, State.xtcControllerReset,
      State.atcControllerReset, Function.comp_def, State.powerUpDrive, State.bias, State.configuredGeometry,
      Drive.clearForReset] <;>
    cases s.floppy[u]? <;> rfl

/-- R430: the fixed Drives after power-up. -/
theorem powerUp_fixed (s : State) (u : Nat) :
    s.powerUp.fixed[u]? = (s.fixed[u]?).map (s.powerUpDrive (.fixed u)) := by
  unfold State.powerUp State.hdcPowerUp
  cases hv : s.cfg.hdcVariant <;>
    simp [-List.reduceReplicate, hv, List.getElem?_mapIdx, State.fdcControllerReset, State.xtcControllerReset,
      State.atcControllerReset, Function.comp_def, State.powerUpDrive, State.bias, State.configuredGeometry,
      Drive.clearForReset, Cfg.tableGeometry] <;>
    cases s.fixed[u]? <;> simp [State.powerUpDrive, State.bias, State.configuredGeometry, hv, Cfg.tableGeometry]

/-! ### Construction (R440) -/

/-- R440: the floppy Drives of a construction are those of the descriptors, each with its unit's geometry. -/
theorem floppyDrives_some (c : Cfg) (images : List Image) : ∀ (l : List (Option Nat)) (u : Nat) (ds),
    floppyDrives c images u l = some ds → ds.map Prod.snd = l ∧
      ∀ k g disk, ds[k]? = some (g, disk) → unitGeometry c images (u + k) disk = some g := by
  intro l
  induction l with
  | nil => intro u ds h; cases h; exact ⟨rfl, fun k g disk hk => by cases hk⟩
  | cons disk rest ih =>
    intro u ds h
    unfold floppyDrives at h
    split at h
    · rename_i g' ds' hg hd
      cases h
      obtain ⟨h1, h2⟩ := ih _ _ hd
      refine ⟨by simp [h1], fun k g dk hk => ?_⟩
      cases k with
      | zero => cases hk; exact hg
      | succ k =>
        rw [show u + (k + 1) = u + 1 + k by omega]
        exact h2 k g dk (by simpa using hk)
    · cases h

/-- R440: no floppy Drives are constructed exactly when some unit has no geometry. -/
theorem floppyDrives_none (c : Cfg) (images : List Image) : ∀ (l : List (Option Nat)) (u : Nat),
    floppyDrives c images u l = none ↔ ∃ k disk, l[k]? = some disk ∧ unitGeometry c images (u + k) disk = none := by
  intro l
  induction l with
  | nil => intro u; simp [floppyDrives]
  | cons disk rest ih =>
    intro u
    have hr := ih (u + 1)
    constructor
    · intro h
      unfold floppyDrives at h
      cases hg : unitGeometry c images u disk with
      | none => exact ⟨0, disk, rfl, hg⟩
      | some g =>
        cases hd : floppyDrives c images (u + 1) rest with
        | none =>
          obtain ⟨k, dk, h1, h2⟩ := hr.mp hd
          exact ⟨k + 1, dk, by simpa using h1, by rw [show u + (k + 1) = u + 1 + k by omega]; exact h2⟩
        | some ds => rw [hg, hd] at h; cases h
    · rintro ⟨k, dk, h1, h2⟩
      unfold floppyDrives
      cases k with
      | zero => cases h1; rw [show u + 0 = u from rfl] at h2; rw [h2]
      | succ k =>
        rw [hr.mpr ⟨k, dk, by simpa using h1, by rw [show u + 1 + k = u + (k + 1) by omega]; exact h2⟩]
        split <;> simp_all

/-- R440 (2): the fixed Drives of a construction, each with its table row. -/
theorem fixedDrives_some (c : Cfg) : ∀ (l : List Nat) (u : Nat) (ds), fixedDrives c u l = some ds →
    ds.map Prod.snd = l ∧ ∀ k g img, ds[k]? = some (g, img) → c.tableGeometry (u + k) = some g := by
  intro l
  induction l with
  | nil => intro u ds h; cases h; exact ⟨rfl, fun k g disk hk => by cases hk⟩
  | cons img rest ih =>
    intro u ds h
    unfold fixedDrives at h
    split at h
    · rename_i g' ds' hg hd
      cases h
      obtain ⟨h1, h2⟩ := ih _ _ hd
      refine ⟨by simp [h1], fun k g dk hk => ?_⟩
      cases k with
      | zero => cases hk; exact hg
      | succ k =>
        rw [show u + (k + 1) = u + 1 + k by omega]
        exact h2 k g dk (by simpa using hk)
    · cases h

/-- R440 (2): no fixed Drives are constructed exactly when some drive misses the table. -/
theorem fixedDrives_none (c : Cfg) : ∀ (l : List Nat) (u : Nat),
    fixedDrives c u l = none ↔ ∃ k, k < l.length ∧ c.tableGeometry (u + k) = none := by
  intro l
  induction l with
  | nil => intro u; simp [fixedDrives]
  | cons img rest ih =>
    intro u
    have hr := ih (u + 1)
    constructor
    · intro h
      unfold fixedDrives at h
      cases hg : c.tableGeometry u with
      | none => exact ⟨0, by simp, hg⟩
      | some g =>
        cases hd : fixedDrives c (u + 1) rest with
        | none =>
          obtain ⟨k, h1, h2⟩ := hr.mp hd
          exact ⟨k + 1, by simpa using h1, by rw [show u + (k + 1) = u + 1 + k by omega]; exact h2⟩
        | some ds => rw [hg, hd] at h; cases h
    · rintro ⟨k, h1, h2⟩
      unfold fixedDrives
      cases k with
      | zero => rw [show u + 0 = u from rfl] at h2; rw [h2]
      | succ k =>
        rw [hr.mpr ⟨k, by simpa using h1, by rw [show u + 1 + k = u + (k + 1) by omega]; exact h2⟩]
        split <;> simp_all

/-- R440: everything construction can do. -/
theorem construct_spec (c : Cfg) (images : List Image) (fi : List (Option Nat)) (xi : List Nat) (peer : Bool)
    (s : State) :
    construct c images fi xi peer = some s ↔ peer = true ∧ descriptorsOk c images fi xi = true ∧
      ∃ fs ds, floppyDrives c images 0 fi = some fs ∧ fixedDrives c 0 xi = some ds ∧
        s = State.initial c images fs ds := by
  unfold construct
  cases peer <;> cases descriptorsOk c images fi xi <;> simp
  cases floppyDrives c images 0 fi <;> cases fixedDrives c 0 xi <;> simp
  exact eq_comm

/-- R351, R42: a legal geometry. -/
theorem Geometry.positive_iff (g : Geometry) : g.positive = true ↔
    1 ≤ g.cylinders ∧ 1 ≤ g.heads ∧ 1 ≤ g.sectorsPerTrack ∧ 1 ≤ g.bytesPerSector := by
  simp [Geometry.positive, and_assoc]

/-- R440: what makes the descriptors of a construction well-formed. -/
theorem descriptorsOk_iff (c : Cfg) (images : List Image) (fi : List (Option Nat)) (xi : List Nat) :
    descriptorsOk c images fi xi = true ↔
      c.wf = true ∧ fi.length = c.fdcDrives ∧ xi.length = c.hdcDrives ∧
      (∀ g ∈ images, g.geo.positive = true) ∧ (∀ img ∈ configuredImages fi xi, img < images.length) ∧
      (configuredImages fi xi).Nodup := by
  simp [descriptorsOk, and_assoc]

end Sys2Proof.Machine
end

