-- ==== Sys2Proof/Laws/Frames.lean ====
section
/-! SUPPORT. What the operations leave alone: one relation between the states before and after, kept by every
operation that neither stores to an image nor clears an interrupt, and a weaker one for those that store. -/

namespace Sys2Proof.Machine

/-- What only a step of the trace itself changes. -/
def State.fixedParts (s : State) := (s.cfg, s.input, s.dma.fdcConnected, s.dma.xtcConnected)

/-- No image byte is stored, no image changes, no Drive is mounted or unmounted, no pending interrupt is cleared. -/
structure Steady (s t : State) : Prop where
  cfg : t.fixedParts = s.fixedParts
  cells : t.store.cells = s.store.cells
  images : t.store.images = s.store.images
  fl : t.floppy.map Drive.disk = s.floppy.map Drive.disk
  fx : t.fixed.map Drive.disk = s.fixed.map Drive.disk
  fi : s.fdc.irq = true → t.fdc.irq = true
  xi : s.xtc.irq = true → t.xtc.irq = true
  ai : s.atc.irq = true → t.atc.irq = true

theorem Steady.refl (s : State) : Steady s s := ⟨rfl, rfl, rfl, rfl, rfl, id, id, id⟩

theorem Steady.trans {s t u : State} (a : Steady s t) (b : Steady t u) : Steady s u :=
  ⟨b.1.trans a.1, b.2.trans a.2, b.3.trans a.3, b.4.trans a.4, b.5.trans a.5, b.6 ∘ a.6, b.7 ∘ a.7, b.8 ∘ a.8⟩

theorem map_modify_disk (l : List Drive) (u : Nat) (f : Drive → Drive) (h : ∀ d, (f d).disk = d.disk) :
    (l.modify u f).map Drive.disk = l.map Drive.disk := by
  apply List.ext_getElem?; intro i; simp only [List.getElem?_map, List.getElem?_modify]
  split <;> cases l[i]? <;> simp [h]

theorem Steady.drive {s0 s : State} (h : Steady s0 s) {r : DriveRef} {f : Drive → Drive}
    (hf : ∀ d, (f d).disk = d.disk) : Steady s0 (s.modifyDrive r f) := by
  refine h.trans ?_
  cases r with
  | floppy u => exact ⟨rfl, rfl, rfl, map_modify_disk _ _ _ hf, rfl, id, id, id⟩
  | fixed u => exact ⟨rfl, rfl, rfl, rfl, map_modify_disk _ _ _ hf, id, id, id⟩

theorem Steady.raise {s0 s : State} (h : Steady s0 s) {k : Ctl} : Steady s0 (s.raiseIrq k) := by
  refine h.trans ?_
  cases k <;> exact ⟨rfl, rfl, rfl, rfl,
    rfl, by intro h; first | exact h | rfl, by intro h; first | exact h | rfl, by intro h; first | exact h | rfl⟩

theorem Steady.endOfCommandIrq {s0 s : State} (h : Steady s0 s) {k : Ctl} {e : Err} : Steady s0
    (s.endOfCommandIrq k e) := by
  unfold State.endOfCommandIrq; split
  · exact h.raise
  · exact h

theorem Steady.raiseIfArmed {s0 s : State} (h : Steady s0 s) {k : Ctl} : Steady s0 (s.raiseIfArmed k) := by
  unfold State.raiseIfArmed; split
  · exact h.raise
  · exact h

theorem Steady.reply {s0 s : State} (h : Steady s0 s) {a} : Steady s0 (s.reply a) :=
    ⟨h.1, h.2, h.3, h.4, h.5, h.6, h.7, h.8⟩

theorem Steady.emit {s0 s : State} (h : Steady s0 s) {a} : Steady s0 (s.emit a) :=
    ⟨h.1, h.2, h.3, h.4, h.5, h.6, h.7, h.8⟩

theorem Steady.fdcFinish {s0 s : State} (h : Steady s0 s) {res el st0 e} : Steady s0
    (s.fdcFinish res el st0 e) := by
  unfold State.fdcFinish; dsimp only
  split
  · refine Steady.endOfCommandIrq ?_
    exact ⟨h.1, h.2, h.3, h.4, h.5, h.6, h.7, h.8⟩
  · exact ⟨h.1, h.2, h.3, h.4, h.5, h.6, h.7, h.8⟩

theorem Steady.setSession {s0 s : State} (h : Steady s0 s) {c ss} : Steady s0 (s.setSession c ss) := by
  cases c <;> exact ⟨h.1, h.2, h.3, h.4, h.5, h.6, h.7, h.8⟩

theorem Steady.openSession {s0 s : State} (h : Steady s0 s) {c a b d} : Steady s0 (s.openSession c a b d) :=
    h.setSession

theorem Drive.raise_disk (e : Err) (d : Drive) : (d.raise e).disk = d.disk := by rw [Drive.raise_eq]

theorem Steady.fdcNotReady {s0 s : State} (h : Steady s0 s) {r} : Steady s0 (s.fdcNotReady r) := by
  unfold State.fdcNotReady; exact h.fdcFinish

theorem Steady.fdcOpen {s0 s : State} (h : Steady s0 s) {req} {p : Drive → Drive} {dir}
    (hp : ∀ d, (p d).disk = d.disk) : Steady s0 (s.fdcOpenOrNotReady req p dir) := by
  unfold State.fdcOpenOrNotReady; dsimp only
  split
  · exact h.fdcNotReady
  · split
    · exact (h.drive hp).openSession
    · exact (h.drive (Drive.raise_disk _)).fdcNotReady

theorem Steady.nameUnit {s0 s : State} (h : Steady s0 s) {u} : Steady s0 (s.fdcNameUnit u) := by
  unfold State.fdcNameUnit; refine Steady.drive ?_ (by intro d; rfl)
  exact ⟨h.1, h.2, h.3, h.4, h.5, h.6, h.7, h.8⟩

theorem Steady.fdcExecute {s0 s : State} (h : Steady s0 s) : Steady s0 s.fdcExecute := by
  unfold State.fdcExecute; dsimp only
  have h : Steady s0 { s with fdc := { s.fdc with phase := .execution, fifo := s.fdc.fifo.replayed } } :=
    ⟨h.1, h.2, h.3, h.4, h.5, h.6, h.7, h.8⟩
  split
  · unfold State.fdcSpecify; exact h.fdcFinish
  · unfold State.fdcWriteData; dsimp only; exact (h.nameUnit.drive (by intro d; rfl)).fdcOpen (by intro d; rfl)
  · unfold State.fdcReadData; dsimp only; exact (h.nameUnit.drive (by intro d; rfl)).fdcOpen (by intro d; rfl)
  · unfold State.fdcRecalibrate; dsimp only; split
    · exact h.nameUnit.fdcFinish
    · exact (h.nameUnit.drive (by intro d; rfl)).fdcFinish
  · unfold State.fdcSenseInterruptStatus; exact h.fdcFinish
  · unfold State.fdcFormatTrack; exact h.nameUnit.fdcOpen (by intro d; rfl)
  · unfold State.fdcSeek; dsimp only; split
    · exact h.nameUnit.fdcFinish
    · exact (h.nameUnit.drive (by intro d; rfl)).fdcFinish
  · unfold State.fdcUnknown; exact h.emit.fdcFinish

/-- R162 to R165: a write of 0x3F5, whatever command it runs. -/
theorem Steady.fdcDataWrite (v : Byte) (s t : State) (h : Machine.fdcDataWrite v s = .next t) : Steady s t := by
  unfold Machine.fdcDataWrite at h
  split at h
  · cases h; exact .refl s
  · split at h
    · cases h
    · cases h
      have h : Steady s { s with fdc := { s.fdc with fifo := s.fdc.fifo.accept fdcReqLen v } } :=
        ⟨rfl, rfl, rfl, rfl, rfl, id, id, id⟩
      dsimp only
      split
      · exact h.fdcExecute
      · exact h

/-- A delivery of bytes is steady where its handler is. -/
theorem Steady.deliver (hd : Byte → State → Out) (h : ∀ b s t, hd b s = .next t → Steady s t) (bs) (s t)
    (ht : Machine.deliver hd bs s = .next t) : Steady s t :=
  deliver_keeps hd (Steady s) (fun b _ _ hs hn => hs.trans (h b _ _ hn)) bs s t (.refl s) ht

theorem Steady.xtcFinish {s0 s : State} (h : Steady s0 s) {u d e p l} : Steady s0 (s.xtcFinish u d e p l) := by
  unfold State.xtcFinish; dsimp only
  refine Steady.endOfCommandIrq ?_
  split
  · have h := h.drive (r := .fixed ‹Nat›) (f := Drive.latchSense e) (by intro d; rfl)
    exact ⟨h.1, h.2, h.3, h.4, h.5, h.6, h.7, h.8⟩
  · exact ⟨h.1, h.2, h.3, h.4, h.5, h.6, h.7, h.8⟩
  · exact ⟨h.1, h.2, h.3, h.4, h.5, h.6, h.7, h.8⟩

theorem Steady.verify {s0 s : State} (h : Steady s0 s) {u} : Steady s0 (s.verifyGeometry u) := by
  unfold State.verifyGeometry; dsimp only
  repeat' split
  all_goals first | exact h.emit | exact h

theorem Steady.xtcOnDrive {s0 s : State} (h : Steady s0 s) {r} {f : Drive → Drive} (hf : ∀ d, (f d).disk = d.disk) :
    Steady s0 (s.xtcOnDrive r f) := by
  unfold State.xtcOnDrive; dsimp only; split
  · exact h.xtcFinish
  · exact (h.drive hf).xtcFinish

theorem Steady.xtcTransfer {s0 s : State} (h : Steady s0 s) {r d} : Steady s0 (s.xtcTransfer r d) := by
  unfold State.xtcTransfer; dsimp only; split
  · exact h.xtcFinish
  · split
    · exact (h.drive (by intro d; rfl)).openSession
    · exact ((h.drive (by intro d; rfl)).drive (Drive.raise_disk _)).xtcFinish

theorem Xtc.setParams_irq (x : Xtc) (u p) : (x.setParams u p).irq = x.irq := by unfold Xtc.setParams; split <;> rfl

theorem Steady.xtcInit {s0 s : State} (h : Steady s0 s) {r} : Steady s0 (s.xtcInitDrive r) := by
  unfold State.xtcInitDrive; dsimp only
  have h : Steady s0 { s with xtc := s.xtc.setParams (xtcReqDrive r) (xtcReqParams r) } :=
    ⟨h.1, h.2, h.3, h.4, h.5, h.6, fun k => (Xtc.setParams_irq _ _ _).trans (h.7 k), h.8⟩
  split
  · exact ((h.drive (by intro d; rfl)).verify).xtcFinish
  · split
    · refine Steady.xtcFinish ?_
      exact ⟨h.1, h.2, h.3, h.4, h.5, h.6, h.7, h.8⟩
    · exact h.xtcFinish

theorem Steady.xtcBuffer {s0 s : State} (h : Steady s0 s) {r t} : Steady s0 (s.xtcBuffer r t) := by
  unfold State.xtcBuffer; dsimp only
  have h : Steady s0 { s with xtc := { s.xtc with bufIndex := 0 } } := ⟨h.1, h.2, h.3, h.4, h.5, h.6, h.7, h.8⟩
  split
  · exact h.openSession
  · exact h.xtcFinish

theorem Steady.xtcExecute {s0 s : State} (h : Steady s0 s) : Steady s0 s.xtcExecute := by
  unfold State.xtcExecute; dsimp only
  have h : Steady s0 { s with xtc := { s.xtc with phase := .execution, fifo := s.xtc.fifo.replayed } } :=
    ⟨h.1, h.2, h.3, h.4, h.5, h.6, h.7, h.8⟩
  have h := h.drive (r := .fixed (xtcReqDrive s.xtc.fifo.request).toNat) (f := Drive.clearError) (by intro d; rfl)
  split
  · exact h.xtcOnDrive (by intro d; rfl)
  · exact h.xtcOnDrive (by intro d; rfl)
  · unfold State.xtcRequestSense; exact h.xtcFinish
  · exact h.xtcTransfer
  · exact h.xtcTransfer
  · exact h.xtcOnDrive (by intro d; rfl)
  · exact h.xtcInit
  · exact h.xtcBuffer
  · exact h.xtcBuffer
  · exact h.xtcFinish
  · exact h.xtcFinish
  · exact h.xtcFinish
  · unfold State.xtcUnknown; dsimp only
    exact (h.emit.drive (Drive.raise_disk _)).xtcFinish

theorem onXtc_next {s t : State} {o : Out} (h : onXtc s o = .next t) : s.cfg.hdcVariant = .xtc ∧ o = .next t := by
  unfold onXtc at h; split at h
  · exact ⟨‹_›, h⟩
  · cases h

theorem onAtc_next {s t : State} {o : Out} (h : onAtc s o = .next t) : s.cfg.hdcVariant = .atc ∧ o = .next t := by
  unfold onAtc at h; split at h
  · exact ⟨‹_›, h⟩
  · cases h

theorem onRatePort_next {s t u : State} (h : onRatePort s u = .next t) : u = t := by
  unfold onRatePort at h; split at h
  · cases h; rfl
  · cases h

/-- R231, R232: a write of 0x320, whatever command it runs. -/
theorem Steady.xtcDataWrite (v : Byte) (s t : State) (h : Machine.xtcDataWrite v s = .next t) : Steady s t := by
  obtain ⟨-, h⟩ := onXtc_next h
  split at h
  · cases h
  · cases h
    have h : Steady s { s with xtc := { s.xtc with fifo := s.xtc.fifo.accept xtcReqLen v } } :=
      ⟨rfl, rfl, rfl, rfl, rfl, id, id, id⟩
    dsimp only
    split
    · exact h.xtcExecute
    · exact h

theorem Steady.atcFinish {s0 s : State} (h : Steady s0 s) {e} : Steady s0 (s.atcFinish e) := by
  unfold State.atcFinish; refine Steady.endOfCommandIrq ?_
  exact ⟨h.1, h.2, h.3, h.4, h.5, h.6, h.7, h.8⟩

theorem Steady.atcPrimed {s0 s : State} (h : Steady s0 s) {r f} : Steady s0 (s.atcPrimed r f) := by
  unfold State.atcPrimed; dsimp only; split
  · have h : Steady s0 { s with atc := { s.atc with status := 0x58#8 } } := ⟨h.1, h.2, h.3, h.4, h.5, h.6, h.7, h.8⟩
    split
    · exact h.raiseIfArmed
    · exact h
  · exact h.atcFinish

theorem map_set_disk (l : List Drive) (u : Nat) (d x : Drive) (hd : l[u]? = some d) (h : x.disk = d.disk) :
    (l.set u x).map Drive.disk = l.map Drive.disk := by
  apply List.ext_getElem?; intro i; simp only [List.getElem?_map, List.getElem?_set]
  split
  · rename_i hi; subst hi; have hl := (List.getElem?_eq_some_iff.mp hd).1; rw [if_pos hl, hd]; simp [h]
  · rfl

theorem Steady.putBay {s0 s : State} (h : Steady s0 s) {r d} {b : Bay} (hd : s.drive? r = some d)
    (hdisk : b.drive.disk = d.disk) (hi : b.store.images = s.store.images) (hc : b.store.cells = s.store.cells) :
    Steady s0 (s.putBay r b) := by
  refine h.trans ?_
  cases r with
  | floppy u =>
    refine ⟨rfl, hc, hi, ?_, rfl, id, id, id⟩
    show (s.floppy.modify u _).map _ = _
    rw [modify_eq_set _ _ _ d hd]; exact map_set_disk _ _ _ _ hd hdisk
  | fixed u =>
    refine ⟨rfl, hc, hi, rfl, ?_, id, id, id⟩
    show (s.fixed.modify u _).map _ = _
    rw [modify_eq_set _ _ _ d hd]; exact map_set_disk _ _ _ _ hd hdisk

theorem Steady.runBay {α : Type} {s0 s : State} (h : Steady s0 s) {r : DriveRef} {x : α} {f : Bay → α × Bay}
    (hf : ∀ b : Bay, (f b).2.drive.disk = b.drive.disk ∧ (f b).2.store.images = b.store.images ∧
    (f b).2.store.cells = b.store.cells) : Steady s0 (s.runBay r x f).2 := by
  cases hd : s.drive? r with
  | none => rw [State.runBay_absent _ _ _ _ hd]; exact h
  | some d =>
    rw [State.runBay_present _ _ _ _ d hd]
    have := hf ⟨d, s.store⟩
    exact h.putBay hd this.1 this.2.1 this.2.2

theorem nextSector_keeps (bias) (b : Bay) : (nextSector bias b).2.drive.disk = b.drive.disk ∧
    (nextSector bias b).2.store.images = b.store.images ∧ (nextSector bias b).2.store.cells = b.store.cells :=
  ⟨(nextSector_spec bias b).1.disk, (nextSector_spec bias b).1.images, (nextSector_spec bias b).2.1⟩

theorem Drive.byteMoved_disk (bias) (d : Drive) : (d.byteMoved bias).disk =
    d.disk := by rw [Drive.byteMoved_eq]; split <;> rfl

theorem readActive_keeps (bias h) (b : Bay) : (readActive bias h b).2.drive.disk = b.drive.disk ∧
    (readActive bias h b).2.store.images = b.store.images ∧ (readActive bias h b).2.store.cells =
    b.store.cells := by
  obtain ⟨h1, h2, h3⟩ := readActive_spec bias h b
  refine ⟨?_, h1, h2⟩
  rcases h3 with ⟨_, h3⟩ | ⟨_, h3⟩ <;> rw [h3]
  · exact Drive.raise_disk _ _
  · exact Drive.byteMoved_disk _ _

theorem readByte_keeps (bias) (b : Bay) : (readByte bias b).2.drive.disk = b.drive.disk ∧
    (readByte bias b).2.store.images = b.store.images ∧ (readByte bias b).2.store.cells = b.store.cells := by
  have hn := nextSector_keeps bias b
  rcases readByte_cases bias b with ⟨_, h⟩ | ⟨_, h, _, h2⟩ | ⟨_, _, ⟨_, h, _, h2⟩ | ⟨_, h⟩ | ⟨_, h⟩⟩
  · rw [h]; exact ⟨rfl, rfl, rfl⟩
  · rw [h2]; exact readActive_keeps _ _ _
  · rw [h2]
    have := readActive_keeps bias h (nextSector bias b).2
    exact ⟨this.1.trans hn.1, this.2.1.trans hn.2.1, this.2.2.trans hn.2.2⟩
  · rw [h]; exact hn
  · rw [h]; exact hn

theorem Steady.atcPrime {s0 s : State} (h : Steady s0 s) {r} : Steady s0 (s.atcPrime r) := by
  unfold State.atcPrime; dsimp only
  have h : Steady s0 { s with atc := { s.atc with status := 0x80#8 } } := ⟨h.1, h.2, h.3, h.4, h.5, h.6, h.7, h.8⟩
  have h := h.runBay (r := r) (x := NextAnswer.failed) (nextSector_keeps 1)
  split <;> rename_i s1 he <;> rw [he] at h
  · exact h
  · exact h.atcPrimed
  · exact h.atcPrimed
  · exact h.atcPrimed

theorem Steady.atcSectorDone {s0 s : State} (h : Steady s0 s) {r d} : Steady s0 (s.atcSectorDone r d) := by
  unfold State.atcSectorDone; dsimp only
  have h : Steady s0 { s with atc := { s.atc with secCount := s.atc.secCount - 1#8 }.writeBack d.pos } :=
    ⟨h.1, h.2, h.3, h.4, h.5, h.6, h.7, h.8⟩
  split
  · split
    · exact h.atcFinish
    · exact ⟨h.1, h.2, h.3, h.4, h.5, h.6, h.7, h.8⟩
  · split
    · exact h.raiseIfArmed.atcPrime
    · exact h.atcPrime

theorem Steady.atcByteDone {s0 s : State} (h : Steady s0 s) {r} : Steady s0 (s.atcByteDone r) := by
  unfold State.atcByteDone; split
  · split
    · exact h.atcSectorDone
    · exact h
  · exact h

/-- R284: a read of 0x1F0. -/
theorem Steady.atcDataRead {s0 s : State} (h : Steady s0 s) : Steady s0 s.atcDataRead := by
  unfold State.atcDataRead; dsimp only
  have h := h.runBay (r := s.atcRef) (x := ReadAnswer.eof) (readByte_keeps 1)
  split <;> rename_i s1 he <;> rw [he] at h
  · exact h.atcByteDone.reply
  · exact h.atcFinish.reply
  · exact h.atcFinish.reply

theorem Steady.atcOnDrive {s0 s : State} (h : Steady s0 s) {f : Drive → Drive} (hf : ∀ d, (f d).disk = d.disk) :
    Steady s0 (s.atcOnDrive f) := by
  unfold State.atcOnDrive; split
  · exact h.atcFinish
  · exact (h.drive hf).atcFinish

theorem Steady.atcTransfer {s0 s : State} (h : Steady s0 s) {d} : Steady s0 (s.atcTransfer d) := by
  unfold State.atcTransfer; dsimp only; split
  · exact h.atcFinish
  · refine Steady.atcPrime ?_
    have h := h.drive (r := s.atcRef) (f := loadAtcTransfer s.atc) (by intro d; rfl)
    exact ⟨h.1, h.2, h.3, h.4, h.5, h.6, h.7, h.8⟩

theorem Steady.atcExecute {s0 s : State} (h : Steady s0 s) {v} : Steady s0 (s.atcExecute v) := by
  unfold State.atcExecute; dsimp only
  have h : Steady s0 { s with atc := { s.atc with command := v, error := 0x00#8 } } :=
    ⟨h.1, h.2, h.3, h.4, h.5, h.6, h.7, h.8⟩
  have h := h.drive (r := State.atcRef { s with atc := { s.atc with command := v, error := 0x00#8 } })
    (f := Drive.clearError) (by intro d; rfl)
  split
  · exact h.atcOnDrive (by intro d; rfl)
  · exact h.atcTransfer
  · exact h.atcTransfer
  · exact h.atcOnDrive (by intro d; rfl)
  · unfold State.atcDiagnose; refine Steady.raiseIfArmed ?_
    exact ⟨h.1, h.2, h.3, h.4, h.5, h.6, h.7, h.8⟩
  · unfold State.atcSetParameters; split
    · exact h.atcFinish
    · exact (h.drive (by intro d; rfl)).verify.atcFinish
  · unfold State.atcUnknown; exact (h.emit.drive (Drive.raise_disk _)).atcFinish

/-- R283: a write of 0x1F7, whatever command it runs. -/
theorem Steady.atcCommandWrite (v : Byte) (s t : State) (h : Machine.atcCommandWrite v s = .next t) :
    Steady s t := by
  obtain ⟨-, h⟩ := onAtc_next h
  split at h
  · cases h
  · cases h; exact (Steady.refl s).atcExecute

theorem Steady.xtcDone {s0 s : State} (h : Steady s0 s) {d e} : Steady s0
    (s.xtcTransferDone d e) := by unfold State.xtcTransferDone; exact h.xtcFinish

theorem Steady.fdcDone {s0 s : State} (h : Steady s0 s) {d e} : Steady s0
    (s.fdcTransferDone d e) := by unfold State.fdcTransferDone; exact h.fdcFinish

/-- R327: the end of a session. -/
theorem Steady.closeSession {s0 s : State} (h : Steady s0 s) {c ss b} : Steady s0 (s.closeSession c ss b) := by
  unfold State.closeSession; dsimp only
  have h2 : Steady s0 (s.modifySessionDrive c ss (Drive.closeWith (closeError c ss (s.sessionDrive c ss) b))) := by
    unfold State.modifySessionDrive; split
    · exact h.drive (by intro d; rfl)
    · exact h
  cases c
  · exact h2.setSession.fdcDone
  · exact h2.setSession.xtcDone

/-- The configuration, the images and the fixed Drives' media stay, and the bytes stay in canonical form. -/
structure Media (s t : State) : Prop where
  cfg : t.cfg = s.cfg
  images : t.store.images = s.store.images
  fx : t.fixed.map Drive.disk = s.fixed.map Drive.disk
  wf : Memory.wf s.store.cells = true → Memory.wf t.store.cells = true

theorem fixedParts_cfg {s t : State} (h : t.fixedParts = s.fixedParts) : t.cfg = s.cfg := congrArg Prod.fst h

theorem fixedParts_input {s t : State} (h : t.fixedParts = s.fixedParts) : t.input = s.input := congrArg
    (fun p => p.2.1) h

theorem fixedParts_fdcConnected {s t : State} (h : t.fixedParts = s.fixedParts) : t.dma.fdcConnected =
    s.dma.fdcConnected := congrArg (fun p => p.2.2.1) h

theorem fixedParts_xtcConnected {s t : State} (h : t.fixedParts = s.fixedParts) : t.dma.xtcConnected =
    s.dma.xtcConnected := congrArg (fun p => p.2.2.2) h

theorem Steady.media {s t} (h : Steady s t) : Media s t := ⟨fixedParts_cfg h.1, h.3, h.5, by rw [h.2]; exact id⟩

/-- As `Steady`, but image bytes may be stored. -/
structure Writes (s t : State) : Prop where
  cfg : t.fixedParts = s.fixedParts
  images : t.store.images = s.store.images
  fl : t.floppy.map Drive.disk = s.floppy.map Drive.disk
  fx : t.fixed.map Drive.disk = s.fixed.map Drive.disk
  fi : s.fdc.irq = true → t.fdc.irq = true
  xi : s.xtc.irq = true → t.xtc.irq = true
  ai : s.atc.irq = true → t.atc.irq = true
  wf : Memory.wf s.store.cells = true → Memory.wf t.store.cells = true

theorem Steady.writes {s t} (h : Steady s t) : Writes s t :=
    ⟨h.1, h.3, h.4, h.5, h.6, h.7, h.8, by rw [h.2]; exact id⟩

theorem Writes.trans {s t u : State} (a : Writes s t) (b : Writes t u) : Writes s u :=
  ⟨b.1.trans a.1, b.2.trans a.2, b.3.trans a.3, b.4.trans a.4, b.5 ∘ a.5, b.6 ∘ a.6, b.7 ∘ a.7, b.8 ∘ a.8⟩

/-- A cursor operation keeps the mounted image, the images and the canonical form. -/
def Bay.KeepsMedia (b b' : Bay) : Prop := b'.drive.disk = b.drive.disk ∧ b'.store.images = b.store.images ∧
    (Memory.wf b.store.cells = true → Memory.wf b'.store.cells = true)

theorem Bay.KeepsMedia.trans {a b c} (h : Bay.KeepsMedia a b) (k : Bay.KeepsMedia b c) : Bay.KeepsMedia a c :=
    ⟨k.1.trans h.1, k.2.1.trans h.2.1, k.2.2 ∘ h.2.2⟩

theorem nextSector_keepsMedia (bias) (b : Bay) : Bay.KeepsMedia b (nextSector bias b).2 :=
    ⟨(nextSector_keeps bias b).1, (nextSector_keeps bias b).2.1, by rw [(nextSector_keeps bias b).2.2]; exact id⟩

theorem writeActive_keepsMedia (bias h v) (b : Bay) : Bay.KeepsMedia b (writeActive bias h v b).2 := by
  obtain ⟨h1, ⟨_, h2, h3⟩ | ⟨_, h2, h3⟩⟩ := writeActive_spec bias h v b
  · exact ⟨by rw [h2]; exact Drive.raise_disk _ _, h1, by rw [h3]; exact id⟩
  · exact ⟨by rw [h2]; exact Drive.byteMoved_disk _ _, h1, by rw [h3]; exact Memory.write_wf _ _ _⟩

theorem writeByte_keepsMedia (bias v) (b : Bay) : Bay.KeepsMedia b (writeByte bias v b).2 := by
  have hn := nextSector_keepsMedia bias b
  rcases writeByte_cases bias v b with ⟨_, h⟩ | ⟨_, _, h⟩ | ⟨_, _, h, _, h2⟩ |
    ⟨_, _, _, ⟨_, h, _, h2⟩ | ⟨_, h⟩ | ⟨_, h⟩⟩
  · rw [h]; exact ⟨rfl, rfl, id⟩
  · rw [h]; exact ⟨Drive.raise_disk _ _, rfl, id⟩
  · rw [h2]; exact writeActive_keepsMedia _ _ _ _
  · rw [h2]; exact hn.trans (writeActive_keepsMedia _ _ _ _)
  · rw [h]; exact hn
  · rw [h]; exact hn

theorem formatFill_keepsMedia (n) (b : Bay) : Bay.KeepsMedia b (formatFillBytes n b).2 := by
  induction n generalizing b with
  | zero => exact ⟨rfl, rfl, id⟩
  | succ n ih =>
    unfold formatFillBytes
    have h := writeByte_keepsMedia 1 b.drive.fmt.filler b
    split
    · rename_i b' he; rw [he] at h; exact h
    · rename_i b' _ he; rw [he] at h; exact h.trans (ih _)

theorem formatPush_keepsMedia (v) (b : Bay) : Bay.KeepsMedia b (formatPush v b).2 := by
  unfold formatPush
  split
  · exact ⟨rfl, rfl, id⟩
  split
  · exact ⟨rfl, rfl, id⟩
  split
  · exact ⟨rfl, rfl, id⟩
  have h := nextSector_keepsMedia 1 { b with drive := (b.drive.takeIdByte v).loadId }
  have h0 : Bay.KeepsMedia b { b with drive := (b.drive.takeIdByte v).loadId } := ⟨rfl, rfl, id⟩
  split <;> rename_i b' he <;> rw [he] at h
  · exact h0.trans h
  · exact (h0.trans h).trans (formatFill_keepsMedia _ _)
  · exact h0.trans h
  · exact h0.trans h

theorem Writes.runBay {α : Type} {s0 s : State} (h : Writes s0 s) {r : DriveRef} {x : α} {f : Bay → α × Bay}
    (hf : ∀ b : Bay, Bay.KeepsMedia b (f b).2) : Writes s0 (s.runBay r x f).2 := by
  cases hd : s.drive? r with
  | none => rw [State.runBay_absent _ _ _ _ hd]; exact h
  | some d =>
    rw [State.runBay_present _ _ _ _ d hd]
    refine h.trans ?_
    obtain ⟨h1, h2, h3⟩ := hf ⟨d, s.store⟩
    cases r with
    | floppy u =>
      refine ⟨rfl, h2, ?_, rfl, id, id, id, h3⟩
      show (s.floppy.modify u _).map _ = _
      rw [modify_eq_set _ _ _ d hd]; exact map_set_disk _ _ _ _ hd h1
    | fixed u =>
      refine ⟨rfl, h2, rfl, ?_, id, id, id, h3⟩
      show (s.fixed.modify u _).map _ = _
      rw [modify_eq_set _ _ _ d hd]; exact map_set_disk _ _ _ _ hd h1

theorem Writes.refl (s : State) : Writes s s := (Steady.refl s).writes

theorem Writes.atcDataWrite (s : State) (v) : Writes s (s.atcDataWrite v) := by
  unfold State.atcDataWrite; dsimp only
  have h := (Writes.refl s).runBay (r := s.atcRef) (x := WriteAnswer.error) (writeByte_keepsMedia 1 v)
  split <;> rename_i s1 he <;> rw [he] at h
  · exact h.trans (Steady.refl s1).atcByteDone.writes
  · exact h.trans (Steady.refl s1).atcFinish.writes
  · exact h.trans (Steady.refl s1).atcFinish.writes

theorem Writes.runSession {α : Type} {s0 s : State} (h : Writes s0 s) {c ss} {x : α} {f : Bay → α × Bay}
    (hf : ∀ b : Bay, Bay.KeepsMedia b (f b).2) : Writes s0 (s.runSession c ss x f).2 := by
  unfold State.runSession; split
  · exact h.runBay hf
  · exact h

theorem Steady.runSession {α : Type} {s0 s : State} (h : Steady s0 s) {c ss} {x : α} {f : Bay → α × Bay}
    (hf : ∀ b : Bay, (f b).2.drive.disk = b.drive.disk ∧ (f b).2.store.images = b.store.images ∧
    (f b).2.store.cells = b.store.cells) : Steady s0 (s.runSession c ss x f).2 := by
  unfold State.runSession; split
  · exact h.runBay hf
  · exact h

theorem Writes.dmaPush (s t : State) (c b) (h : Machine.dmaPush c b s = .next t) : Writes s t := by
  unfold Machine.dmaPush at h
  split at h
  · cases h
  split at h
  · cases h
  split at h
  · cases h
    exact ((Writes.refl s).runSession (writeByte_keepsMedia _ _)).trans (Steady.refl _).reply.writes
  · cases h
    exact ((Writes.refl s).runSession (formatPush_keepsMedia _)).trans (Steady.refl _).reply.writes
  · cases h; unfold State.bufferPush; split
    · exact Steady.writes ⟨rfl, rfl, rfl, rfl, rfl, id, id, id⟩
    · exact Steady.writes ⟨rfl, rfl, rfl, rfl, rfl, id, id, id⟩
  · cases h

theorem Drive.resolved_disk (h) (d : Drive) : (d.resolved h).disk = d.disk := by
  unfold Drive.resolved; dsimp only; split
  · rfl
  · exact Drive.raise_disk _ _

theorem Writes.resolve (s t : State) (r) (h : Machine.resolve r s = .next t) : Writes s t := by
  unfold Machine.resolve at h
  split at h
  · cases h
  split at h
  · cases h
  dsimp only at h
  split at h
  · cases h
    have h := (Steady.refl s).drive (r := .fixed ‹Nat›) (Drive.resolved_disk (s.resolution (.fixed ‹Nat›) ‹Drive›))
    split
    · exact h.atcPrimed.writes
    · exact h.writes
  · cases h
    have h := ((Steady.refl s).drive (r := .floppy ‹Nat›) (Drive.resolved_disk
      (s.resolution (.floppy ‹Nat›) ‹Drive›))).writes
    split
    · exact h.runBay fun b => formatFill_keepsMedia _ b
    · exact h

theorem Steady.dmaPull (s t : State) (c) (h : Machine.dmaPull c s = .next t) : Steady s t := by
  unfold Machine.dmaPull at h
  split at h
  · cases h
  split at h
  · cases h
  split at h
  · cases h
    exact ((Steady.refl s).runSession (readByte_keeps _)).reply
  · cases h; unfold State.bufferPull; split <;> exact ⟨rfl, rfl, rfl, rfl, rfl, id, id, id⟩
  · cases h
  · cases h

theorem Steady.dmaEngage (s t : State) (c y) (h : Machine.dmaEngage c y s = .next t) : Steady s t := by
  unfold Machine.dmaEngage at h
  split at h
  · cases h
  split at h
  · cases h
  split at h
  · cases h; exact (Steady.refl s).setSession
  · cases h; exact (Steady.refl s).closeSession

theorem Steady.dmaClose (s t : State) (c y) (h : Machine.dmaClose c y s = .next t) : Steady s t := by
  unfold Machine.dmaClose at h
  split at h
  · cases h
  split at h
  · cases h; exact (Steady.refl s).closeSession
  · cases h

theorem Steady.notify (s t : State) (v a l) (h : Machine.notify v a l s = .next t) : Steady s t := by
  unfold Machine.notify at h
  split at h
  · cases h; unfold State.hackInitFail; split <;> exact ⟨rfl, rfl, rfl, rfl, rfl, id, id, id⟩
  split at h
  · cases h; exact (Steady.refl s).reply
  · cases h

/-- The instructions that clear an interrupt or store to an image. -/
def Instr.mayClear : Instr → Bool
  | .fdcOutOutput _ | .fdcInData | .xtcOutReset _ | .xtcInData | .atcInStatus | .atcOutFdr _ | .atcOutData _ => true
  | _ => false

/-- Every other instruction is steady. -/
theorem Steady.exec (i : Instr) (s t : State) (hi : Instr.mayClear i = false) (h : Machine.exec i s = .next t) :
    Steady s t := by
  by_cases hf : i.space = .fdc
  · rw [exec_fdcRow i s hf] at h; exact .deliver _ Steady.fdcDataWrite _ _ _ h
  by_cases hx : i.space = .xtc
  · rw [exec_xtcRow i s hx] at h; exact .deliver _ Steady.xtcDataWrite _ _ _ h
  by_cases ha : i.space = .atc
  · rw [exec_atcRow i s ha] at h; exact .deliver _ Steady.atcCommandWrite _ _ _ h
  cases i with
  | fdcOutData v => exact .fdcDataWrite v _ _ h
  | fdcInMainStatus => cases h; exact (Steady.refl s).reply
  | fdcInInput => cases onRatePort_next h; exact (Steady.refl s).reply
  | fdcOutControl v => cases onRatePort_next h; exact ⟨rfl, rfl, rfl, rfl, rfl, id, id, id⟩
  | xtcOutData v => exact .xtcDataWrite v _ _ h
  | xtcInStatus => obtain ⟨-, h⟩ := onXtc_next h; cases h; exact (Steady.refl s).reply
  | xtcInConfig => obtain ⟨-, h⟩ := onXtc_next h; cases h; exact (Steady.refl s).reply
  | xtcOutSelect v => obtain ⟨-, h⟩ := onXtc_next h; cases h; exact ⟨rfl, rfl, rfl, rfl, rfl, id, id, id⟩
  | xtcOutPattern v => obtain ⟨-, h⟩ := onXtc_next h; cases h; exact ⟨rfl, rfl, rfl, rfl, rfl, id, id, id⟩
  | xtcOutNoise p v => obtain ⟨-, h⟩ := onXtc_next h; cases h; exact .refl s
  | atcInData =>
    obtain ⟨-, h⟩ := onAtc_next h
    split at h
    · cases h; exact (Steady.refl s).atcDataRead
    · cases h
  | atcTaskfile reg w =>
    obtain ⟨-, h⟩ := onAtc_next h
    split at h
    · cases h; exact (Steady.refl s).reply
    · split at h
      · cases h; refine ⟨rfl, rfl, rfl, rfl, rfl, id, id, ?_⟩
        cases reg <;> exact id
      · cases h
  | atcOutCommand v => exact .atcCommandWrite v _ _ h
  | atcInAltStatus => obtain ⟨-, h⟩ := onAtc_next h; cases h; exact (Steady.refl s).reply
  | fdcOutOutput | fdcInData | xtcOutReset | xtcInData | atcInStatus | atcOutFdr | atcOutData => cases hi
  | _ => first | exact absurd rfl hf | exact absurd rfl hx | exact absurd rfl ha

end Sys2Proof.Machine
end

