-- ==== Sys2Proof/Laws/Steps.lean ====
section
/-! SUPPORT. One step, taken apart: the three ways it can come to a next state, and what an instruction and an agent's
step keep of the media and of the pending interrupts. -/

namespace Sys2Proof.Machine

theorem map_keeps_disk (l : List Drive) (f : Drive → Drive) (h : ∀ d, (f d).disk = d.disk) :
    (l.map f).map Drive.disk = l.map Drive.disk := by
  rw [List.map_map]; exact List.map_congr_left fun d _ => h d

/-- An instruction keeps the media, and every image byte unless it is a write of 0x1F0. -/
theorem exec_keepsMedia (i : Instr) (s t : State) (h : Machine.exec i s = .next t) :
    t.fixedParts = s.fixedParts ∧ t.store.images = s.store.images ∧ t.floppy.map Drive.disk =
      s.floppy.map Drive.disk ∧ t.fixed.map Drive.disk = s.fixed.map Drive.disk ∧
    (Memory.wf s.store.cells = true → Memory.wf t.store.cells = true) ∧
      ((∀ v, i ≠ .atcOutData v) → t.store.cells = s.store.cells) := by
  by_cases hn : Instr.mayClear i = false
  · have k := Steady.exec i s t hn h; exact ⟨k.1, k.3, k.4, k.5, by rw [k.2]; exact id, fun _ => k.2⟩
  · cases i with
    | fdcOutOutput v =>
      cases h
      unfold State.fdcOutputWrite; split
      · refine ⟨rfl, rfl, map_keeps_disk _ _ fun d => rfl, rfl, id, fun _ => rfl⟩
      · dsimp only; split <;> exact ⟨rfl, rfl, rfl, rfl, id, fun _ => rfl⟩
    | fdcInData =>
      change fdcDataRead s = _ at h
      unfold fdcDataRead at h; split at h
      · cases h
      split at h
      · cases h
      cases h; exact ⟨rfl, rfl, rfl, rfl, id, fun _ => rfl⟩
    | xtcOutReset v =>
      obtain ⟨-, h⟩ := onXtc_next h
      cases h
      exact ⟨rfl, rfl, rfl, map_keeps_disk _ _ fun d => rfl, id, fun _ => rfl⟩
    | xtcInData =>
      obtain ⟨-, h⟩ := onXtc_next h
      split at h
      · cases h
      cases h; exact ⟨rfl, rfl, rfl, rfl, id, fun _ => rfl⟩
    | atcInStatus => obtain ⟨-, h⟩ := onAtc_next h; cases h; exact ⟨rfl, rfl, rfl, rfl, id, fun _ => rfl⟩
    | atcOutFdr v =>
      obtain ⟨-, h⟩ := onAtc_next h; cases h
      unfold State.atcFdrWrite; dsimp only
      split
      · exact ⟨rfl, rfl, rfl, map_keeps_disk _ _ fun d => rfl, id, fun _ => rfl⟩
      · exact ⟨rfl, rfl, rfl, rfl, id, fun _ => rfl⟩
    | atcOutData v =>
      obtain ⟨-, h⟩ := onAtc_next h
      split at h
      · cases h; have k := Writes.atcDataWrite s v; exact ⟨k.1, k.2, k.3, k.4, k.8, fun hh => absurd rfl (hh v)⟩
      · cases h
    | _ => exact absurd rfl hn

theorem powerUp_keepsMedia (s : State) : (s.powerUp).cfg = s.cfg ∧ s.powerUp.store = s.store ∧
    s.powerUp.floppy.map Drive.disk = s.floppy.map Drive.disk ∧ s.powerUp.fixed.map Drive.disk =
    s.fixed.map Drive.disk := by
  refine ⟨?_, ?_, ?_, ?_⟩
  · unfold State.powerUp State.hdcPowerUp; dsimp only; cases hv : s.fdcControllerReset.cfg.hdcVariant <;> rfl
  · unfold State.powerUp State.hdcPowerUp; dsimp only; cases hv : s.fdcControllerReset.cfg.hdcVariant <;> rfl
  · apply List.ext_getElem?
    intro i
    rw [List.getElem?_map, powerUp_floppy, List.getElem?_map]
    cases s.floppy[i]? <;> rfl
  · apply List.ext_getElem?
    intro i
    rw [List.getElem?_map, powerUp_fixed, List.getElem?_map]
    cases s.fixed[i]? <;> rfl

theorem restore_keepsMedia (s : State) (c : Saved) : (s.restoreFrom c).floppy.map Drive.disk =
    s.floppy.map Drive.disk ∧ (s.restoreFrom c).fixed.map Drive.disk = s.fixed.map Drive.disk := by
  have h : ∀ r d o, (s.restoreDrive r d o).disk = d.disk := by
    intro r d o; unfold State.restoreDrive
    cases o with
    | none => rfl
    | some e => dsimp only; split
                · assumption
                · rfl
  unfold State.restoreFrom; dsimp only
  constructor <;> (apply List.ext_getElem?; intro i; simp only [List.getElem?_map, List.getElem?_mapIdx])
  · cases s.floppy[i]? <;> simp [h]
  · cases s.fixed[i]? <;> simp [h]

/-- An agent's step keeps the media but for a mount or unmount, and every image byte but for a push or a delivery.
  -/
theorem runAgent_keepsMedia (a : AgentStep) (s t : State) (h : runAgent a s = .next t) :
    t.cfg = s.cfg ∧ t.store.images = s.store.images ∧ t.fixed.map Drive.disk = s.fixed.map Drive.disk ∧
    (Memory.wf s.store.cells = true → Memory.wf t.store.cells = true) ∧
    ((∀ r img, a ≠ .mount r img ∧ a ≠ .unmount r) → t.floppy.map Drive.disk = s.floppy.map Drive.disk) ∧
    ((∀ c v, a ≠ .dmaPush c v) → (∀ r, a ≠ .resolve r) → t.store.cells = s.store.cells) := by
  have st : Steady s t → _ := fun k => (⟨fixedParts_cfg k.1, k.3, k.5, by rw [k.2]; exact id, fun _ => k.4,
    fun _ _ => k.2⟩ :  t.cfg = s.cfg ∧ t.store.images = s.store.images ∧ t.fixed.map Drive.disk =
    s.fixed.map Drive.disk ∧
    (Memory.wf s.store.cells = true → Memory.wf t.store.cells = true) ∧
    ((∀ r img, a ≠ .mount r img ∧ a ≠ .unmount r) → t.floppy.map Drive.disk = s.floppy.map Drive.disk) ∧
    ((∀ c v, a ≠ .dmaPush c v) → (∀ r, a ≠ .resolve r) → t.store.cells = s.store.cells))
  cases a with
  | dmaEngage c y => exact st (.dmaEngage _ _ _ _ h)
  | dmaPull c => exact st (.dmaPull _ _ _ h)
  | dmaPush c v =>
    have k := Writes.dmaPush _ _ _ _ h
    exact ⟨fixedParts_cfg k.1, k.2, k.4, k.8, fun _ => k.3, fun hh => absurd rfl (hh c v)⟩
  | dmaClose c y => exact st (.dmaClose _ _ _ _ h)
  | resolve r =>
    have k := Writes.resolve _ _ _ h
    exact ⟨fixedParts_cfg k.1, k.2, k.4, k.8, fun _ => k.3, fun _ hh => absurd rfl (hh r)⟩
  | notify v a l => exact st (.notify _ _ _ _ _ h)
  | mask n => cases h; refine st ?_; split <;> exact ⟨rfl, rfl, rfl, rfl, rfl, id, id, id⟩
  | unmask n => cases h; exact st ⟨rfl, rfl, rfl, rfl, rfl, id, id, id⟩
  | mount r img =>
    unfold runAgent mount at h
    dsimp only at h
    split at h
    · cases h
    split at h
    · split at h
      · cases h; exact ⟨rfl, rfl, rfl, id, fun hh => absurd rfl (hh _ _).1, fun _ _ => rfl⟩
      · cases h
    · cases h
  | unmount r =>
    unfold runAgent unmount at h
    dsimp only at h
    split at h
    · cases h
    split at h
    · split at h
      · cases h; exact ⟨rfl, rfl, rfl, id, fun hh => absurd rfl (hh _ 0).2, fun _ _ => rfl⟩
      · cases h
    · cases h
  | powerUp =>
    cases h
    have k := powerUp_keepsMedia s
    exact ⟨k.1, by rw [k.2.1], k.2.2.2, by rw [k.2.1]; exact id, fun _ => k.2.2.1, fun _ _ => by rw [k.2.1]⟩
  | mreset =>
    cases h
    have k := powerUp_keepsMedia s
    exact ⟨k.1, by rw [k.2.1], k.2.2.2, by rw [k.2.1]; exact id, fun _ => k.2.2.1, fun _ _ => by rw [k.2.1]⟩
  | save => cases h; exact st (Steady.refl s).reply
  | restore c => cases h; have k := restore_keepsMedia s c; exact ⟨rfl, rfl, k.2, id, fun _ => k.1, fun _ _ => rfl⟩

/-- A step that comes to a next state: nothing waiting, an instruction, or an agent's step. -/
theorem step_cases (s t : State) (h : step s = .next t) : (s.input = [] ∧ t = s) ∨
    (∃ sp bs rest i left, s.input = .host sp bs :: rest ∧ decode sp bs = .ok (i, left) ∧ exec i
      (s.fetched i sp left rest) = .next t) ∨
    (∃ a rest, s.input = .agent a :: rest ∧ runAgent a (s.taken rest) = .next t) := by
  unfold step State.fetch at h
  split at h <;> rename_i he
  · split at he
    · cases h; exact .inl ⟨‹_›, rfl⟩
    · cases he
    · split at he <;> cases he
  · split at he
    · cases he
    · cases he
    · rename_i sp bs rest hin
      split at he
      · rename_i i left hd; cases he; exact .inr (.inl ⟨_, _, _, _, _, hin, hd, h⟩)
      · cases he
  · split at he
    · cases he
    · cases he; exact .inr (.inr ⟨_, _, ‹_›, h⟩)
    · split at he <;> cases he
  · cases h

theorem attachedImages_eq (s t : State) (h1 : t.floppy.map Drive.disk = s.floppy.map Drive.disk)
    (h2 : t.fixed.map Drive.disk = s.fixed.map Drive.disk) : t.attachedImages = s.attachedImages := by
  have k : ∀ l : List Drive, l.filterMap Drive.disk =
    (l.map Drive.disk).filterMap id := by intro l; simp [List.filterMap_map]
  unfold State.attachedImages
  rw [k, k, List.map_append, List.map_append, h1, h2]

theorem nodup_set_none (l : List Drive) (r : List Nat) (u : Nat) (f : Drive → Drive) (hf : ∀ d, (f d).disk = none)
    (h : (l.filterMap Drive.disk ++ r).Nodup) : ((l.modify u f).filterMap Drive.disk ++ r).Nodup := by
  refine List.Nodup.sublist ?_ h
  apply List.Sublist.append_right
  induction l generalizing u with
  | nil => simp
  | cons d l ih => cases u with
    | zero => simp only [List.modify_zero_cons, List.filterMap_cons, hf]; split <;> simp
    | succ u => simp only [List.modify_succ_cons, List.filterMap_cons]; split
                · exact ih u (by rw [List.filterMap_cons] at h; simp_all)
                · refine List.Sublist.cons_cons _ (ih u ?_); rw [List.filterMap_cons] at h; simp_all

theorem perm_set_some (l : List Drive) (u img : Nat) (d : Drive) (f : Drive → Drive) (hu : l[u]? = some d)
    (hd : d.disk = none) (hf : ∀ d, (f d).disk = some img) : ((l.modify u f).filterMap Drive.disk).Perm
    (img :: l.filterMap Drive.disk) := by
  induction l generalizing u with
  | nil => simp at hu
  | cons x l ih => cases u with
    | zero => simp at hu; subst hu; simp [hf, hd]
    | succ u =>
      simp only [List.modify_succ_cons, List.filterMap_cons]
      have := ih u (by simpa using hu)
      split
      · exact this
      · exact (this.cons _).trans (List.Perm.swap _ _ _)

/-- No agent clears an interrupt, power-up, machine reset and a restoration apart. -/
theorem runAgent_keepsIrq (a : AgentStep) (s t : State) (h : runAgent a s = .next t) (h1 : a ≠ .powerUp)
    (h2 : a ≠ .mreset) (h3 : ∀ v, a ≠ .restore v) :
   (s.fdc.irq = true → t.fdc.irq = true) ∧ (s.xtc.irq = true → t.xtc.irq = true) ∧
     (s.atc.irq = true → t.atc.irq = true) := by
  have st : Steady s t → _ := fun k => And.intro k.6 (And.intro k.7 k.8)
  have wr : Writes s t → _ := fun k => And.intro k.5 (And.intro k.6 k.7)
  cases a with
  | dmaEngage c y => exact st (.dmaEngage _ _ _ _ h)
  | dmaPull c => exact st (.dmaPull _ _ _ h)
  | dmaPush c v => exact wr (Writes.dmaPush _ _ _ _ h)
  | dmaClose c y => exact st (.dmaClose _ _ _ _ h)
  | resolve r => exact wr (Writes.resolve _ _ _ h)
  | notify v a l => exact st (.notify _ _ _ _ _ h)
  | mask n => cases h; split <;> exact ⟨id, id, id⟩
  | unmask n => cases h; exact ⟨id, id, id⟩
  | mount r img =>
    unfold runAgent mount at h
    dsimp only at h
    split at h
    · cases h
    split at h
    · split at h
      · cases h; exact ⟨id, id, id⟩
      · cases h
    · cases h
  | unmount r =>
    unfold runAgent unmount at h
    dsimp only at h
    split at h
    · cases h
    split at h
    · split at h
      · cases h; exact ⟨id, id, id⟩
      · cases h
    · cases h
  | powerUp => exact absurd rfl h1
  | mreset => exact absurd rfl h2
  | save => cases h; exact st (Steady.refl s).reply
  | restore c => exact absurd rfl (h3 c)

theorem powerUp_fixedParts (s : State) : s.powerUp.fixedParts = s.fixedParts := by
  unfold State.powerUp State.hdcPowerUp; dsimp only; cases hv : s.fdcControllerReset.cfg.hdcVariant <;> rfl

/-- No agent changes the configuration or the rest of the trace; a restoration is apart. -/
theorem runAgent_fixedParts (a : AgentStep) (s t : State) (h : runAgent a s = .next t) (hr : ∀ v, a ≠ .restore v) :
    t.fixedParts = s.fixedParts := by
  cases a with
  | dmaEngage c y => exact (Steady.dmaEngage _ _ _ _ h).1
  | dmaPull c => exact (Steady.dmaPull _ _ _ h).1
  | dmaPush c v => exact (Writes.dmaPush _ _ _ _ h).1
  | dmaClose c y => exact (Steady.dmaClose _ _ _ _ h).1
  | resolve r => exact (Writes.resolve _ _ _ h).1
  | notify v a l => exact (Steady.notify _ _ _ _ _ h).1
  | mask n => cases h; split <;> rfl
  | unmask n => cases h; rfl
  | mount r img =>
    unfold runAgent mount at h
    dsimp only at h
    split at h
    · cases h
    split at h
    · split at h
      · cases h; rfl
      · cases h
    · cases h
  | unmount r =>
    unfold runAgent unmount at h
    dsimp only at h
    split at h
    · cases h
    split at h
    · split at h
      · cases h; rfl
      · cases h
    · cases h
  | powerUp => cases h; exact powerUp_fixedParts s
  | mreset => cases h; exact powerUp_fixedParts s
  | save => cases h; rfl
  | restore c => exact absurd rfl (hr c)

end Sys2Proof.Machine
end

