-- ==== Sys2Proof/Laws/FdcSide.lean ====
section
/-! SUPPORT. The FDC's half of the sequencer invariant (`FdcConsistent`, spec/10_state.md R26): what each of its
handlers and of the agents' steps on its session does to it. -/

namespace Sys2Proof.Machine

/-- A property of every Drive of a list, with its unit number. -/
def EveryDrive (P : Nat → Drive → Prop) (l : List Drive) : Prop := ∀ u d, l[u]? = some d → P u d

theorem EveryDrive.modify {P Q : Nat → Drive → Prop} {l : List Drive} {u : Nat} {f : Drive → Drive}
    (h : EveryDrive P l) (hk : ∀ d, P u d → Q u (f d)) (ho : ∀ v d, v ≠ u → P v d → Q v d) : EveryDrive Q
    (l.modify u f) := by
  intro i d hd
  rw [List.getElem?_modify] at hd
  by_cases hi : u = i
  · subst hi; simp only [if_true] at hd
    cases h2 : l[u]? with
    | none => simp [h2] at hd
    | some e => simp [h2] at hd; subst hd; exact hk e (h _ _ h2)
  · simp only [hi, if_false] at hd
    exact ho i d (fun h => hi h.symm) (h i d (by simpa using hd))

theorem EveryDrive.map {P Q : Nat → Drive → Prop} {l : List Drive} {f : Drive → Drive} (h : EveryDrive P l)
    (hk : ∀ u d, P u d → Q u (f d)) : EveryDrive Q (l.map f) := by
  intro i d hd
  rw [List.getElem?_map] at hd
  cases h2 : l[i]? with
  | none => simp [h2] at hd
  | some e => simp [h2] at hd; subst hd; exact hk _ _ (h _ _ h2)

theorem EveryDrive.mono {P Q : Nat → Drive → Prop} {l : List Drive} (h : EveryDrive P l)
    (hk : ∀ u d, P u d → Q u d) : EveryDrive Q l := fun u d hd => hk u d (h u d hd)

/-- The four ID cells of R47, fewer than four filled. -/
def Drive.IdsFit (d : Drive) : Prop := d.fmt.idBuf.length = 4 ∧ d.fmt.idCount < 4

/-- The FDC's half of `Consistent`. -/
structure FdcSide (c : Cfg) (f : Fdc) (ss : Option Session) (fl : List Drive) : Prop where
  con : FdcConsistent c f ss
  len : fl.length = c.fdcDrives
  drv : EveryDrive (fun u d => Drive.IdsFit d ∧ (d.cur.pending = true → ∃ s, ss = some s ∧ s.drive = some u)) fl

abbrev FdcHolds (s : State) : Prop := FdcSide s.cfg s.fdc s.dma.fdc s.floppy

/-- The FDC while a command runs: Execution Phase, the request replayed, no session yet, no lookup pending. -/
structure FdcRunning (s : State) : Prop where
  cap : 9 ≤ s.cfg.fifoCapFdc
  cells : s.fdc.fifo.buffer.length = s.cfg.fifoCapFdc
  en : s.fdc.enabled = true
  phase : s.fdc.phase = .execution
  ex : s.fdc.fifo.Executing fdcReqLen
  sess : s.dma.fdc = none
  len : s.floppy.length = s.cfg.fdcDrives
  drv : EveryDrive (fun _ d => Drive.IdsFit d ∧ d.cur.pending = false) s.floppy

theorem FdcRunning.modify {s : State} (h : FdcRunning s) {u f} (hf : ∀ d, Drive.IdsFit d → Drive.IdsFit (f d))
    (hp : ∀ d : Drive, d.cur.pending = false → (f d).cur.pending = false) : FdcRunning
    (s.modifyDrive (.floppy u) f) :=
  ⟨h.cap, h.cells, h.en, h.phase, h.ex, h.sess, by simp [h.len], h.drv.modify
    (fun d hd => ⟨hf d hd.1, hp d hd.2⟩) fun _ _ _ hd => hd⟩

theorem FdcRunning.part {s : State} (h : FdcRunning s) {f ss} (hc : FdcConsistent s.cfg f ss) :
    FdcSide s.cfg f ss s.floppy :=
  ⟨hc, h.len, h.drv.mono fun u d hd => ⟨hd.1, fun hp => by rw [hd.2] at hp; cases hp⟩⟩

theorem FdcRunning.finish {s : State} (h : FdcRunning s) {res el st0 e} (hr : res.length ≤ 7) : FdcHolds
    (s.fdcFinish res el st0 e) := by
  have hc := h.cap; have hl := h.cells
  cases res with
  | nil =>
    rw [fdcFinish_nil]
    refine h.part ⟨h.cells, fun _ => ⟨h.sess, .inl ⟨rfl, rfl, rfl⟩⟩, (by intro h; cases h), (by intro h; cases h),
      fun hn => ?_⟩
    exact absurd (show s.fdc.enabled = true from h.en) (by rw [show s.fdc.enabled = false from hn]; simp)
  | cons r rs =>
    rw [fdcFinish_cons]
    refine h.part ⟨?_, (by intro h; cases h), (by intro h; cases h), fun _ => ⟨h.sess, ?_⟩, fun hn => ?_⟩
    · simp [Fifo.loadResult, overlay_length, h.cells]
    · refine ⟨?_, rfl, by simpa [Fifo.loadResult] using hr⟩
      simp [Fifo.loadResult]
    · exact absurd (show s.fdc.enabled = true from h.en) (by rw [show s.fdc.enabled = false from hn]; simp)

theorem FdcRunning.name {s : State} (h : FdcRunning s) {u} : FdcRunning (s.fdcNameUnit u) := by
  unfold State.fdcNameUnit
  exact FdcRunning.modify (s := { s with fdc := { s.fdc with lastUnit := u } })
    ⟨h.cap, h.cells, h.en, h.phase, h.ex, h.sess, h.len, h.drv⟩ (fun d hd => hd) (fun d hd => hd)

theorem Drive.raise_fmt (e : Err) (d : Drive) : (d.raise e).fmt = d.fmt ∧ (d.raise e).cur =
    d.cur := by rw [Drive.raise_eq]; exact ⟨rfl, rfl⟩

theorem FdcRunning.notReady {s : State} (h : FdcRunning s) {req} : FdcHolds (s.fdcNotReady req) := by
  unfold State.fdcNotReady; refine h.finish ?_
  unfold notReadyChrn; split <;> simp

theorem FdcRunning.openOr {s : State} (h : FdcRunning s) {req p dir} (hp : ∀ d, Drive.IdsFit d → Drive.IdsFit (p d))
    (hp2 : ∀ d : Drive, d.cur.pending = false → (p d).cur.pending = false)
    (hu : fdcReqUnit req = fdcReqUnit s.fdc.fifo.buffer) (hd : fdcDirection
      (fdcOp (fdcMaskedOp (reqByte s.fdc.fifo.buffer 0))) = some dir) : FdcHolds
      (s.fdcOpenOrNotReady req p dir) := by
  unfold State.fdcOpenOrNotReady; dsimp only
  split
  · exact h.notReady
  · rename_i d hdr
    split
    · have h2 := h.modify (u := (fdcReqUnit req).toNat) hp hp2
      refine h2.part (f := s.fdc) ⟨h.cells, ?_, ?_, ?_, fun hn => ?_⟩
      · intro hh; rw [h.phase] at hh; cases hh
      · intro _; refine ⟨h.ex, dir, false, hd, ?_, ?_⟩
        · rw [← hu]; rfl
        · rw [← hu]; have := (List.getElem?_eq_some_iff.mp hdr).1; rw [h.len] at this; exact this
      · intro hh; rw [h.phase] at hh; cases hh
      · rw [h.en] at hn; cases hn
    · exact (h.modify (fun d hd => by unfold Drive.IdsFit; rw [(Drive.raise_fmt _ _).1]; exact hd)
        (fun d hd => by rw [(Drive.raise_fmt _ _).2]; exact hd)).notReady

theorem reqByte_take (l : List Byte) (n k : Nat) (h : k < n) : reqByte (l.take n) k = reqByte l k := by
  unfold reqByte; simp [List.getD_eq_getElem?_getD, h]

theorem fdcReqLen_pos (b : Byte) : 1 ≤ fdcReqLen b ∧
    fdcReqLen b ≤ 9 := by unfold fdcReqLen; cases fdcOp (fdcMaskedOp b) <;> decide

/-- R165: whatever the command, the FDC is consistent after it. -/
theorem FdcRunning.exec {s : State}
    (h : FdcRunning { s with fdc := { s.fdc with phase := .execution, fifo := s.fdc.fifo.replayed } }) :
    FdcHolds s.fdcExecute := by
  unfold State.fdcExecute; dsimp only
  have hlen : s.fdc.fifo.totalExpected = fdcReqLen (reqByte s.fdc.fifo.buffer 0) := h.ex.1
  have hpos := fdcReqLen_pos (reqByte s.fdc.fifo.buffer 0)
  have h0 : reqByte s.fdc.fifo.request 0 = reqByte s.fdc.fifo.buffer 0 := reqByte_take _ _ _ (by omega)
  have h1 : 2 ≤ s.fdc.fifo.totalExpected → fdcReqUnit s.fdc.fifo.request = fdcReqUnit s.fdc.fifo.buffer := by
    intro h; unfold fdcReqUnit; rw [Fifo.request, reqByte_take _ _ _ (by omega)]
  rw [h0]
  cases hop : fdcOp (fdcMaskedOp (reqByte s.fdc.fifo.buffer 0)) <;> dsimp only
  · exact h.finish (by simp)
  · unfold State.fdcWriteData; dsimp only
    refine ((h.name).modify (by intro d hd; exact hd) (by intro d hd; rfl)).openOr (by intro d hd; exact hd)
      (by intro d hd; exact hd) (h1 ?_) ?_
    · rw [hlen, fdcReqLen, hop]; decide
    · show fdcDirection (fdcOp (fdcMaskedOp (reqByte s.fdc.fifo.buffer 0))) = _; rw [hop]; rfl
  · unfold State.fdcReadData; dsimp only
    refine ((h.name).modify (by intro d hd; exact hd) (by intro d hd; rfl)).openOr (by intro d hd; exact hd)
      (by intro d hd; exact hd) (h1 ?_) ?_
    · rw [hlen, fdcReqLen, hop]; decide
    · show fdcDirection (fdcOp (fdcMaskedOp (reqByte s.fdc.fifo.buffer 0))) = _; rw [hop]; rfl
  · unfold State.fdcRecalibrate; dsimp only; split
    · exact h.name.finish (by simp)
    · exact ((h.name).modify (by intro d hd; exact hd) (by intro d hd; exact hd)).finish (by simp)
  · exact h.finish (by simp)
  · unfold State.fdcFormatTrack
    refine (h.name).openOr (by intro d hd; exact ⟨rfl, Nat.zero_lt_succ 3⟩) (by intro d hd; rfl) (h1 ?_) ?_
    · rw [hlen, fdcReqLen, hop]; decide
    · show fdcDirection (fdcOp (fdcMaskedOp (reqByte s.fdc.fifo.buffer 0))) = _; rw [hop]; rfl
  · unfold State.fdcSeek; dsimp only; split
    · exact h.name.finish (by simp)
    · exact ((h.name).modify (by intro d hd; exact hd) (by intro d hd; exact hd)).finish (by simp)
  · unfold State.fdcUnknown
    exact FdcRunning.finish
      (s := State.emit { s with fdc := { s.fdc with phase := .execution, fifo := s.fdc.fifo.replayed } } _)
      ⟨h.cap, h.cells, h.en, h.phase, h.ex, h.sess, h.len, h.drv⟩ (by simp)

theorem reqByte_set0 (l : List Byte) (v : Byte) (h : 0 < l.length) : reqByte (l.set 0 v) 0 = v := by
  cases l with
  | nil => simp at h
  | cons a l => rfl

theorem reqByte_setS (l : List Byte) (n : Nat) (v : Byte) (h : n ≠ 0) : reqByte (l.set n v) 0 = reqByte l 0 := by
  cases l with
  | nil => rfl
  | cons a l => cases n with
    | zero => exact absurd rfl h
    | succ n => rfl

theorem FdcHolds.dataWrite (v : Byte) (s t : State) (hc : 9 ≤ s.cfg.fifoCapFdc) (h : FdcHolds s)
    (ht : fdcDataWrite v s = .next t) : FdcHolds t := by
  unfold fdcDataWrite at ht
  split at ht
  · cases ht; exact h
  split at ht
  · cases ht
  rename_i hen hph
  have hen : s.fdc.enabled = true := by simpa using hen
  have hph : s.fdc.phase = .command := by simpa using hph
  obtain ⟨hs, hf⟩ := h.con.command hph
  have hcell := h.con.cells
  have hdrv : EveryDrive (fun _ d => Drive.IdsFit d ∧ d.cur.pending = false) s.floppy := h.drv.mono fun u d hd =>
    ⟨hd.1, by
    cases hp : d.cur.pending with
    | false => rfl
    | true => obtain ⟨x, hx, _⟩ := hd.2 hp; rw [hs] at hx; cases hx⟩
  cases ht; dsimp only
  -- accepted
  have key : 1 ≤ (s.fdc.fifo.accept fdcReqLen v).writeIndex ∧ (s.fdc.fifo.accept fdcReqLen v).writeIndex ≤
    (s.fdc.fifo.accept fdcReqLen v).totalExpected ∧ (s.fdc.fifo.accept fdcReqLen v).readIndex = 0 ∧
    (s.fdc.fifo.accept fdcReqLen v).totalExpected = fdcReqLen (reqByte
    (s.fdc.fifo.accept fdcReqLen v).buffer 0) := by
    rcases hf with ⟨a, b, c⟩ | ⟨a, b, c, d⟩
    · have := fdcReqLen_pos v
      simp only [Fifo.accept, a, if_true]
      rw [reqByte_set0 _ _ (by omega)]
      exact ⟨by omega, by omega, trivial, rfl⟩
    · have : s.fdc.fifo.writeIndex ≠ 0 := by omega
      simp only [Fifo.accept, this, if_false]
      rw [reqByte_setS _ _ _ this]
      exact ⟨by omega, by omega, c, d⟩
  have hl : (s.fdc.fifo.accept fdcReqLen v).buffer.length = s.cfg.fifoCapFdc := by simp [Fifo.accept, hcell]
  by_cases hfull : (s.fdc.fifo.accept fdcReqLen v).full = true
  · rw [if_pos hfull]
    apply FdcRunning.exec
    refine ⟨hc, hl, hen, rfl, ⟨key.2.2.2, ?_, rfl⟩, hs, h.len, hdrv⟩
    exact (by simpa [Fifo.full] using hfull : (s.fdc.fifo.accept fdcReqLen v).writeIndex =
      (s.fdc.fifo.accept fdcReqLen v).totalExpected)
  · rw [if_neg hfull]
    refine ⟨⟨hl, fun _ => ⟨hs, .inr ⟨key.1, ?_, key.2.2⟩⟩, ?_, ?_, ?_⟩, h.len, h.drv⟩
    · have : ¬ (s.fdc.fifo.accept fdcReqLen v).writeIndex =
        (s.fdc.fifo.accept fdcReqLen v).totalExpected := by simpa [Fifo.full] using hfull
      exact Nat.lt_of_le_of_ne key.2.1 this
    · intro hh; rw [show _ = Phase.command from hph] at hh; cases hh
    · intro hh; rw [show _ = Phase.command from hph] at hh; cases hh
    · intro hn; exact absurd (show s.fdc.enabled = true from hen) (by rw [show s.fdc.enabled = false from hn]; simp)

theorem FdcHolds.dataRead (s t : State) (h : FdcHolds s) (ht : fdcDataRead s = .next t) : FdcHolds t := by
  unfold fdcDataRead at ht
  split at ht
  · cases ht
  split at ht
  · cases ht
  rename_i hen hph
  have hen : s.fdc.enabled = true := by simpa using hen
  have hph : s.fdc.phase = .result := by simpa using hph
  obtain ⟨hs, hf⟩ := h.con.result hph
  cases ht
  have dis : ∀ {P : Prop}, s.fdc.enabled = false → P := fun hn => by rw [hen] at hn; cases hn
  by_cases hl : s.fdc.fifo.atLast = true
  · refine ⟨⟨?_, fun _ => ⟨hs, .inl ?_⟩, ?_, ?_, fun hn => dis hn⟩, h.len, h.drv⟩
    · show s.fdc.fifo.next.buffer.length = _
      unfold Fifo.next; split <;> exact h.con.cells
    · show s.fdc.fifo.next.Idle
      unfold Fifo.next; rw [if_pos (by simpa [Fifo.atLast] using hl)]; exact ⟨rfl, rfl, rfl⟩
    · intro hh; dsimp [State.reply] at hh; rw [if_pos hl] at hh; cases hh
    · intro hh; dsimp [State.reply] at hh; rw [if_pos hl] at hh; cases hh
  · refine ⟨⟨?_, ?_, ?_, fun _ => ⟨hs, ?_⟩, fun hn => dis hn⟩, h.len, h.drv⟩
    · show s.fdc.fifo.next.buffer.length = _
      unfold Fifo.next; split <;> exact h.con.cells
    · intro hh; dsimp [State.reply] at hh; rw [if_neg hl] at hh; cases hh
    · intro hh; dsimp [State.reply] at hh; rw [if_neg hl] at hh; cases hh
    · show s.fdc.fifo.next.Draining 7
      unfold Fifo.next; rw [if_neg (by simpa [Fifo.atLast] using hl)]
      obtain ⟨a, b, c⟩ := hf
      have : ¬ s.fdc.fifo.readIndex + 1 = s.fdc.fifo.totalExpected := by simpa [Fifo.atLast] using hl
      exact ⟨by dsimp only; omega, b, c⟩

theorem FdcSide.ofReset (s : State) (hlen : s.floppy.length = s.cfg.fdcDrives) (v : Byte) (r : Byte) : FdcSide s.cfg
    ⟨v, r, .command, .empty s.cfg.fifoCapFdc, false, 0#2, 0xC0#8⟩ none
    (s.floppy.map fun d => { d.clearForReset with fmt := .empty }) := by
  refine ⟨⟨by simp [Fifo.empty], fun _ => ⟨rfl, .inl ⟨rfl, rfl, rfl⟩⟩, (by intro h; cases h), (by intro h; cases h),
    fun _ => ⟨rfl, rfl, rfl, rfl, rfl⟩⟩, by simp [hlen], ?_⟩
  have : EveryDrive (fun _ _ => True) s.floppy := fun _ _ _ => trivial
  exact this.map fun u d _ => ⟨⟨rfl, Nat.zero_lt_succ 3⟩, by intro h; cases h⟩

theorem FdcHolds.outputWrite (s : State) (v : Byte) (h : FdcHolds s) : FdcHolds (s.fdcOutputWrite v) := by
  unfold State.fdcOutputWrite; split
  · exact FdcSide.ofReset s h.len v s.fdc.rate
  · rename_i hv
    have hv : v.getLsbD 2 = true := by simpa using hv
    have base : ∀ i, FdcSide s.cfg { s.fdc with out := v, irq := i } s.dma.fdc s.floppy := fun i =>
      ⟨⟨h.con.cells, h.con.command, h.con.execution, h.con.result, fun hn => absurd hv
        (by rw [show v.getLsbD 2 = false from hn]; simp)⟩, h.len, h.drv⟩
    dsimp only; split
    · exact base true
    · exact base s.fdc.irq

theorem FdcHolds.rate (s : State) (v : Byte) (h : FdcHolds s) : FdcSide s.cfg { s.fdc with rate := v } s.dma.fdc
    s.floppy :=
  ⟨⟨h.con.cells, h.con.command, h.con.execution, h.con.result, h.con.disabled⟩, h.len, h.drv⟩

theorem Drive.byteMoved_fmt (bias) (d : Drive) : (d.byteMoved bias).fmt =
    d.fmt := by rw [Drive.byteMoved_eq]; split <;> rfl

theorem nextSector_fmt (bias) (b : Bay) : (nextSector bias b).2.drive.fmt = b.drive.fmt :=
    (nextSector_spec bias b).2.2.1

theorem readActive_fmt (bias h) (b : Bay) : (readActive bias h b).2.drive.fmt = b.drive.fmt := by
  obtain ⟨_, _, ⟨_, h⟩ | ⟨_, h⟩⟩ := readActive_spec bias h b
  · rw [h]; exact (Drive.raise_fmt _ _).1
  · rw [h]; exact Drive.byteMoved_fmt _ _

theorem readByte_fmt (bias) (b : Bay) : (readByte bias b).2.drive.fmt = b.drive.fmt := by
  rcases readByte_cases bias b with ⟨_, h⟩ | ⟨_, h, _, h2⟩ | ⟨_, _, ⟨_, h, _, h2⟩ | ⟨_, h⟩ | ⟨_, h⟩⟩
  · rw [h]
  · rw [h2]; exact readActive_fmt _ _ _
  · rw [h2]; exact (readActive_fmt _ _ _).trans (nextSector_fmt _ _)
  · rw [h]; exact nextSector_fmt _ _
  · rw [h]; exact nextSector_fmt _ _

theorem writeActive_fmt (bias h v) (b : Bay) : (writeActive bias h v b).2.drive.fmt = b.drive.fmt := by
  obtain ⟨_, ⟨_, h, _⟩ | ⟨_, h, _⟩⟩ := writeActive_spec bias h v b
  · rw [h]; exact (Drive.raise_fmt _ _).1
  · rw [h]; exact Drive.byteMoved_fmt _ _

theorem writeByte_fmt (bias v) (b : Bay) : (writeByte bias v b).2.drive.fmt = b.drive.fmt := by
  rcases writeByte_cases bias v b with ⟨_, h⟩ | ⟨_, _, h⟩ | ⟨_, _, h, _, h2⟩ |
    ⟨_, _, _, ⟨_, h, _, h2⟩ | ⟨_, h⟩ | ⟨_, h⟩⟩
  · rw [h]
  · rw [h]; exact (Drive.raise_fmt _ _).1
  · rw [h2]; exact writeActive_fmt _ _ _ _
  · rw [h2]; exact (writeActive_fmt _ _ _ _).trans (nextSector_fmt _ _)
  · rw [h]; exact nextSector_fmt _ _
  · rw [h]; exact nextSector_fmt _ _

theorem formatFill_idsFit (n) (b : Bay) (h : Drive.IdsFit b.drive) : Drive.IdsFit
    (formatFillBytes n b).2.drive := by
  induction n generalizing b with
  | zero => exact h
  | succ n ih =>
    unfold formatFillBytes
    have k := writeByte_fmt 1 b.drive.fmt.filler b
    split <;> rename_i he <;> rw [he] at k
    · unfold Drive.IdsFit; rw [k]; exact h
    · apply ih; unfold Drive.IdsFit; rw [k]; exact h

theorem formatPush_idsFit (v) (b : Bay) (h : Drive.IdsFit b.drive) : Drive.IdsFit (formatPush v b).2.drive := by
  unfold formatPush
  split
  · exact h
  split
  · exact h
  split
  · exact ⟨by simp [Drive.takeIdByte, h.1], by simpa [Drive.takeIdByte] using ‹_›⟩
  have h0 : Drive.IdsFit ((b.drive.takeIdByte v).loadId) := ⟨by simp [Drive.takeIdByte, Drive.loadId, h.1],
    Nat.zero_lt_succ 3⟩
  have k := nextSector_fmt 1 { b with drive := (b.drive.takeIdByte v).loadId }
  have h1 : ∀ x : NextAnswer × Bay, nextSector 1 { b with drive := (b.drive.takeIdByte v).loadId } = x →
    Drive.IdsFit x.2.drive := by
    rintro x rfl; unfold Drive.IdsFit; rw [k]; exact h0
  split <;> rename_i b' he
  · exact h1 _ he
  · exact formatFill_idsFit _ _ (h1 _ he)
  · exact h1 _ he
  · exact h1 _ he

theorem FdcHolds.exec_of {s : State} (h : FdcHolds s) {ss} (hs : s.dma.fdc = some ss) : s.fdc.phase =
    .execution := by
  cases hp : s.fdc.phase with
  | command => have := (h.con.command hp).1; rw [hs] at this; cases this
  | execution => rfl
  | result => have := (h.con.result hp).1; rw [hs] at this; cases this

theorem FdcHolds.enabled {s : State} (h : FdcHolds s) (hp : s.fdc.phase = .execution) : s.fdc.enabled = true := by
  cases he : s.fdc.enabled with
  | true => rfl
  | false => have := (h.con.disabled he).1; rw [hp] at this; cases this

theorem FdcHolds.closeSession (s : State) (ss b) (hc : 9 ≤ s.cfg.fifoCapFdc) (h : FdcHolds s)
    (hs : s.dma.fdc = some ss) : FdcHolds (s.closeSession .fdc ss b) := by
  have hp := h.exec_of hs
  have he := h.enabled hp
  obtain ⟨hex, dir, eng, _, hss, hu⟩ := h.con.execution hp
  rw [hs] at hss; cases hss
  unfold State.closeSession State.modifySessionDrive; dsimp only
  unfold State.continuation State.fdcTransferDone; dsimp only
  generalize closeError _ _ _ _ = e
  have hr : FdcRunning ((s.modifyDrive (Chan.fdc.drive (fdcReqUnit s.fdc.fifo.buffer).toNat)
    (Drive.closeWith e)).setSession .fdc none) := by
    refine ⟨hc, h.con.cells, he, hp, hex, rfl, ?_, ?_⟩
    · simp [State.setSession, State.modifyDrive, Chan.drive, h.len]
    · refine h.drv.modify (fun d hd => ⟨hd.1, rfl⟩) fun v d hv hd => ⟨hd.1, ?_⟩
      cases hpp : d.cur.pending with
      | false => rfl
      | true => obtain ⟨x, hx, hx2⟩ := hd.2 hpp; rw [hs] at hx; cases hx; cases hx2; exact absurd rfl hv
  exact hr.finish (Nat.le_refl 7)

theorem FdcHolds.engage (s t : State) (y) (hc : 9 ≤ s.cfg.fifoCapFdc) (h : FdcHolds s)
    (ht : dmaEngage .fdc y s = .next t) : FdcHolds t := by
  unfold dmaEngage at ht
  split at ht
  · cases ht
  rename_i ss hs
  split at ht
  · cases ht
  split at ht
  · cases ht
    have hs : s.dma.fdc = some ss := hs
    have hp := h.exec_of hs
    obtain ⟨hex, dir, eng, h1, hss, hu⟩ := h.con.execution hp
    rw [hs] at hss; cases hss
    refine ⟨⟨h.con.cells, ?_, fun _ => ⟨hex, dir, true, h1, rfl, hu⟩, ?_, fun hn => ?_⟩, h.len,
      h.drv.mono fun u d hd => ⟨hd.1, fun hpd => ?_⟩⟩
    · intro hh; exact absurd (hp.symm.trans hh) (by simp)
    · intro hh; exact absurd (hp.symm.trans hh) (by simp)
    · exact absurd ((h.enabled hp).symm.trans hn) (by simp)
    · obtain ⟨x, hx, hx2⟩ := hd.2 hpd; rw [hs] at hx; cases hx; exact ⟨_, rfl, hx2⟩
  · cases ht; exact FdcHolds.closeSession _ _ _ hc h hs

theorem FdcHolds.close (s t : State) (y) (hc : 9 ≤ s.cfg.fifoCapFdc) (h : FdcHolds s)
    (ht : dmaClose .fdc y s = .next t) : FdcHolds t := by
  unfold dmaClose at ht
  split at ht
  · cases ht
  split at ht
  · cases ht; exact FdcHolds.closeSession _ _ _ hc h ‹_›
  · cases ht

/-- A cursor operation on the Drive of the open session. -/
theorem FdcHolds.runBay {α : Type} (s : State) (ss : Session) (x : α) (f : Bay → α × Bay)
    (hf : ∀ b : Bay, Drive.IdsFit b.drive → Drive.IdsFit (f b).2.drive) (h : FdcHolds s) (hs : s.dma.fdc = some ss)
    (u) (hu : ss.drive = some u) : FdcHolds (s.runBay (.floppy u) x f).2 := by
  cases hd : s.drive? (.floppy u) with
  | none => rw [State.runBay_absent _ _ _ _ hd]; exact h
  | some d =>
    rw [State.runBay_present _ _ _ _ d hd]
    refine ⟨h.con, by simpa [State.putBay, State.modifyDrive] using h.len, ?_⟩
    show EveryDrive _ (s.floppy.modify u _)
    rw [modify_eq_set _ _ _ d hd]
    intro i e he
    rw [List.getElem?_set] at he
    split at he
    · rename_i hi; subst hi
      have hl := (List.getElem?_eq_some_iff.mp hd).1
      rw [if_pos hl] at he; cases he
      exact ⟨hf ⟨d, s.store⟩ (h.drv _ _ hd).1, fun _ => ⟨ss, hs, hu⟩⟩
    · exact h.drv _ _ he

theorem FdcHolds.runSession {α : Type} (s : State) (ss : Session) (x : α) (f : Bay → α × Bay)
    (hf : ∀ b : Bay, Drive.IdsFit b.drive → Drive.IdsFit (f b).2.drive) (h : FdcHolds s)
    (hs : s.dma.fdc = some ss) : FdcHolds (s.runSession .fdc ss x f).2 := by
  unfold State.runSession; split
  · exact FdcHolds.runBay s ss x f hf h hs _ ‹_›
  · exact h

theorem FdcHolds.pull (s t : State) (h : FdcHolds s) (ht : dmaPull .fdc s = .next t) : FdcHolds t := by
  unfold dmaPull at ht
  split at ht
  · cases ht
  rename_i ss hs
  split at ht
  · cases ht
  split at ht
  · cases ht
    exact FdcHolds.runSession s ss _ _ (fun b hb => by unfold Drive.IdsFit; rw [readByte_fmt]; exact hb) h hs
  · cases ht; unfold State.bufferPull; split <;> exact h
  · cases ht
  · cases ht

theorem FdcHolds.push (s t : State) (v) (h : FdcHolds s) (ht : dmaPush .fdc v s = .next t) : FdcHolds t := by
  unfold dmaPush at ht
  split at ht
  · cases ht
  rename_i ss hs
  split at ht
  · cases ht
  split at ht
  · cases ht
    exact FdcHolds.runSession s ss _ _ (fun b hb => by unfold Drive.IdsFit; rw [writeByte_fmt]; exact hb) h hs
  · cases ht; exact FdcHolds.runSession s ss _ _ (fun b hb => formatPush_idsFit v b hb) h hs
  · cases ht; unfold State.bufferPush; split <;> exact h
  · cases ht

theorem Drive.resolved_fmt (o) (d : Drive) : (d.resolved o).fmt = d.fmt ∧ (d.resolved o).cur.pending = false := by
  unfold Drive.resolved; dsimp only; split
  · exact ⟨rfl, rfl⟩
  · exact ⟨(Drive.raise_fmt _ _).1, by rw [(Drive.raise_fmt _ _).2]⟩

theorem FdcHolds.delivery (s t : State) (u) (h : FdcHolds s) (ht : resolve (.floppy u) s = .next t) :
    FdcHolds t := by
  unfold resolve at ht
  split at ht
  · cases ht
  split at ht
  · cases ht
  dsimp only at ht
  cases ht
  rename_i d hd _
  have h1 : FdcHolds (s.modifyDrive (.floppy u) (Drive.resolved (s.resolution (.floppy u) d))) := by
    refine ⟨h.con, by simpa [State.modifyDrive] using h.len, ?_⟩
    exact h.drv.modify (fun e he => ⟨by unfold Drive.IdsFit; rw [(Drive.resolved_fmt _ _).1]; exact he.1,
      fun hp => by rw [(Drive.resolved_fmt _ _).2] at hp; cases hp⟩) fun _ _ _ he => he
  split
  · rename_i hc
    have hform := hc.1
    unfold State.formatting at hform
    cases hs : s.dma.fdc with
    | none => rw [hs] at hform; cases hform
    | some ss =>
      rw [hs] at hform; simp at hform
      exact FdcHolds.runBay _ ss _ _ (fun b hb => formatFill_idsFit _ b hb) h1 hs u hform.1
  · exact h1

theorem FdcHolds.mounted (s t : State) (r img) (h : FdcHolds s) (ht : mount r img s = .next t) : FdcHolds t := by
  unfold mount at ht
  split at ht
  · cases ht
  split at ht
  · split at ht
    · cases ht
      exact ⟨h.con, by simpa [State.modifyDrive] using h.len, h.drv.modify (fun d hd => hd) fun _ _ _ hd => hd⟩
    · cases ht
  · cases ht

theorem FdcHolds.unmounted (s t : State) (r) (h : FdcHolds s) (ht : unmount r s = .next t) : FdcHolds t := by
  unfold unmount at ht
  split at ht
  · cases ht
  split at ht
  · split at ht
    · cases ht
      exact ⟨h.con, by simpa [State.modifyDrive] using h.len, h.drv.modify (fun d hd => hd) fun _ _ _ hd => hd⟩
    · cases ht
  · cases ht

theorem powerUp_fdc (s : State) : s.powerUp.fdc = ⟨0x00#8, 0x00#8, .command, .empty s.cfg.fifoCapFdc, false, 0#2,
    0xC0#8⟩ ∧ s.powerUp.dma.fdc = none := by
  unfold State.powerUp State.hdcPowerUp
  dsimp only
  cases hv : s.fdcControllerReset.cfg.hdcVariant <;> exact ⟨rfl, rfl⟩

theorem FdcHolds.powerUp (s : State) (h : FdcHolds s) : FdcHolds s.powerUp := by
  have hc := (powerUp_keepsMedia s).1
  have hf := powerUp_fdc s
  unfold FdcHolds
  rw [hc, hf.1, hf.2]
  refine ⟨(FdcSide.ofReset s h.len _ _).con, ?_, ?_⟩
  · rw [← h.len, ← List.length_map (f := Drive.disk), (powerUp_keepsMedia s).2.2.1, List.length_map]
  · intro u d hd
    rw [powerUp_floppy] at hd
    cases hx : s.floppy[u]? with
    | none => simp [hx] at hd
    | some e => simp [hx] at hd; subst hd; exact ⟨⟨rfl, Nat.zero_lt_succ 3⟩, by intro h; cases h⟩

end Sys2Proof.Machine
end

