-- ==== Sys2Proof/Laws/HdcSide.lean ====
section
/-! SUPPORT. The hard-disk controllers' half of the sequencer invariant (`XtcConsistent`, `AtcConsistent`): what each
of their handlers and of the agents' steps on them does to it. -/

namespace Sys2Proof.Machine

/-- The hard-disk half of `Consistent`. -/
structure HdcSide (c : Cfg) (x : Xtc) (ss : Option Session) (a : Atc) (fx : List Drive) : Prop where
  xtc : c.hdcVariant = .xtc → XtcConsistent c x ss
  noXtc : c.hdcVariant ≠ .xtc → ss = none
  atc : c.hdcVariant = .atc → AtcConsistent a fx
  len : fx.length = c.hdcDrives
  drv : EveryDrive (fun u d => d.disk ≠ none ∧ (d.cur.pending = true → (∃ s, ss = some s ∧ s.drive = some u) ∨
    (c.hdcVariant = .atc ∧ a.phase = .execution ∧ a.drive.toNat = u))) fx

abbrev HdcHolds (s : State) : Prop := HdcSide s.cfg s.xtc s.dma.xtc s.atc s.fixed

/-- The XTC while a command runs: Execution Phase, the block replayed, no session yet, no lookup pending. -/
structure XtcRunning (s : State) : Prop where
  var : s.cfg.hdcVariant = .xtc
  cap : 14 ≤ s.cfg.fifoCapXtc
  cells : s.xtc.fifo.buffer.length = s.cfg.fifoCapXtc
  buf : s.xtc.sectorBuffer.length = 512 ∧ s.xtc.bufIndex ≤ 512
  phase : s.xtc.phase = .execution
  ex : s.xtc.fifo.Executing xtcReqLen
  sess : s.dma.xtc = none
  len : s.fixed.length = s.cfg.hdcDrives
  drv : EveryDrive (fun _ d => d.disk ≠ none ∧ d.cur.pending = false) s.fixed

theorem XtcRunning.modify {s : State} (h : XtcRunning s) {u f} (hf : ∀ d : Drive, (f d).disk = d.disk)
    (hp : ∀ d : Drive, d.cur.pending = false → (f d).cur.pending = false) : XtcRunning
    (s.modifyDrive (.fixed u) f) :=
  ⟨h.var, h.cap, h.cells, h.buf, h.phase, h.ex, h.sess, by simp [h.len], h.drv.modify
    (fun d hd => ⟨by rw [hf]; exact hd.1, hp d hd.2⟩) fun _ _ _ hd => hd⟩

theorem XtcRunning.part {s : State} (h : XtcRunning s) {x ss} (hc : XtcConsistent s.cfg x ss) :
    HdcSide s.cfg x ss s.atc s.fixed :=
  ⟨fun _ => hc, fun hv => absurd h.var hv, fun hv => (by rw [h.var] at hv; cases hv), h.len,
    h.drv.mono fun u d hd => ⟨hd.1, fun hp => by rw [hd.2] at hp; cases hp⟩⟩

theorem XtcRunning.load {s : State} (h : XtcRunning s) {res : List Byte} {i : Bool} (hr : res.length ≤ 5)
    (hr1 : 1 ≤ res.length) :
    HdcSide s.cfg { s.xtc with fifo := s.xtc.fifo.loadResult res, phase := .result, irq := i } s.dma.xtc s.atc
      s.fixed := by
  have := h.cap
  refine h.part ⟨?_, h.buf, (by intro h; cases h), (by intro h; cases h), fun _ => ⟨h.sess, ?_, rfl, hr⟩⟩
  · simp [Fifo.loadResult, overlay_length, h.cells]
  · show 0 < res.length; exact hr1

theorem XtcRunning.finish {s : State} (h : XtcRunning s) {u d e p l} (hp : p.length ≤ 4) : HdcHolds
    (s.xtcFinish u d e p l) := by
  unfold State.xtcFinish; dsimp only
  rw [State.endOfCommandIrq_xtc]
  split
  · exact (h.modify (u := ‹Nat›) (f := Drive.latchSense e) (by intro d; rfl) (by intro d hd; exact hd)).load
      (res := p ++ [xtcCompletion e u]) (by rw [List.length_append]; exact Nat.succ_le_succ hp)
      (by rw [List.length_append]; exact Nat.le_add_left _ _)
  · exact h.load (res := p ++ [xtcCompletion e u]) (by rw [List.length_append]; exact Nat.succ_le_succ hp)
      (by rw [List.length_append]; exact Nat.le_add_left _ _)
  · exact h.load (res := p ++ [xtcCompletion e u]) (by rw [List.length_append]; exact Nat.succ_le_succ hp)
      (by rw [List.length_append]; exact Nat.le_add_left _ _)

theorem XtcRunning.verify {s : State} (h : XtcRunning s) {u} : XtcRunning (s.verifyGeometry u) := by
  unfold State.verifyGeometry; dsimp only
  repeat' split
  all_goals first | exact h | exact ⟨h.var, h.cap, h.cells, h.buf, h.phase, h.ex, h.sess, h.len, h.drv⟩

theorem XtcRunning.onDrive {s : State} (h : XtcRunning s) {r f} (hf : ∀ d : Drive, (f d).disk = d.disk)
    (hp : ∀ d : Drive, d.cur.pending = false → (f d).cur.pending = false) : HdcHolds (s.xtcOnDrive r f) := by
  unfold State.xtcOnDrive; dsimp only; split
  · exact h.finish (Nat.zero_le _)
  · exact (h.modify hf hp).finish (Nat.zero_le _)

theorem XtcRunning.open {s : State} (h : XtcRunning s) {u dir tm}
    (hd : xtcDirection (xtcOp (reqByte s.xtc.fifo.buffer 0)) = some dir)
    (hu : (dir = .buffer ∧ u = none ∧ tm = decide (xtcOp (reqByte s.xtc.fifo.buffer 0) = .readBuffer)) ∨
      (dir ≠ .buffer ∧ tm = false ∧ u = some (xtcReqDrive s.xtc.fifo.buffer).toNat ∧
      (xtcReqDrive s.xtc.fifo.buffer).toNat < s.cfg.hdcDrives)) :
    HdcHolds (s.openSession .xtc u dir tm) := by
  refine h.part (x := s.xtc) ⟨h.cells, h.buf, ?_, ?_, ?_⟩
  · intro hh; rw [h.phase] at hh; cases hh
  · intro _; refine ⟨h.ex, dir, false, hd, ?_⟩
    rcases hu with ⟨h1, h2, h3⟩ | ⟨h1, h2, h3, h4⟩
    · subst h1 h2 h3; exact .inl ⟨rfl, rfl⟩
    · subst h2 h3; exact .inr ⟨h1, rfl, h4⟩
  · intro hh; rw [h.phase] at hh; cases hh

theorem xtcUnit_some {s : State} {r k} (h : s.xtcUnit r = some k) : k = (xtcReqDrive r).toNat ∧
    k < s.fixed.length := by
  unfold State.xtcUnit at h
  split at h
  · rename_i d hd; cases h; exact ⟨rfl, (List.getElem?_eq_some_iff.mp hd).1⟩
  · cases h

theorem Drive.raise_pending (e : Err) (d : Drive) (h : d.cur.pending = false) : (d.raise e).cur.pending =
    false := by rw [(Drive.raise_fmt _ _).2]; exact h

theorem XtcRunning.transfer {s : State} (h : XtcRunning s) {r dir}
    (hr : xtcReqDrive r = xtcReqDrive s.xtc.fifo.buffer) (hd : xtcDirection (xtcOp (reqByte s.xtc.fifo.buffer 0)) =
    some dir) (hb : dir ≠ .buffer) : HdcHolds (s.xtcTransfer r dir) := by
  unfold State.xtcTransfer; dsimp only; split
  · exact h.finish (Nat.zero_le _)
  · rename_i k hk
    obtain ⟨hk1, hk2⟩ := xtcUnit_some hk
    split
    · refine XtcRunning.open (h.modify (by intro d; rfl) (by intro d hd; rfl)) hd (.inr ⟨hb, rfl, ?_, ?_⟩)
      · rw [hk1, hr]; rfl
      · have := h.len; rw [hk1, hr, this] at hk2; exact hk2
    · exact ((h.modify (f := loadXtcTransfer r) (by intro d; rfl) (by intro d hd; rfl)).modify (Drive.raise_disk _)
        (Drive.raise_pending _)).finish (Nat.zero_le _)

theorem Xtc.setParams_frame (x : Xtc) (u p) : (x.setParams u p).fifo = x.fifo ∧ (x.setParams u p).phase = x.phase ∧
    (x.setParams u p).sectorBuffer = x.sectorBuffer ∧ (x.setParams u p).bufIndex = x.bufIndex := by
  unfold Xtc.setParams; split <;> exact ⟨rfl, rfl, rfl, rfl⟩

theorem XtcRunning.init {s : State} (h : XtcRunning s) {r} : HdcHolds (s.xtcInitDrive r) := by
  unfold State.xtcInitDrive; dsimp only
  obtain ⟨k1, k2, k3, k4⟩ := Xtc.setParams_frame s.xtc (xtcReqDrive r) (xtcReqParams r)
  have h : XtcRunning { s with xtc := s.xtc.setParams (xtcReqDrive r) (xtcReqParams r) } :=
    ⟨h.var, h.cap, by rw [show _ = _ from k1]; exact h.cells,
      ⟨by rw [show _ = _ from k3]; exact h.buf.1, by rw [show _ = _ from k4]; exact h.buf.2⟩, by rw [show _ = _ from k2]; exact h.phase, by rw [show _ = _ from k1]; exact h.ex, h.sess, h.len, h.drv⟩
  split
  · exact ((h.modify (by intro d; rfl) (by intro d hd; exact hd)).verify).finish (Nat.zero_le _)
  · split
    · refine XtcRunning.finish ?_ (Nat.zero_le _)
      exact ⟨h.var, h.cap, h.cells, h.buf, h.phase, h.ex, h.sess, h.len, h.drv⟩
    · exact h.finish (Nat.zero_le _)

theorem XtcRunning.buffer {s : State} (h : XtcRunning s) {r tm} (hd : xtcDirection
    (xtcOp (reqByte s.xtc.fifo.buffer 0)) = some .buffer) (ht : tm = decide
    (xtcOp (reqByte s.xtc.fifo.buffer 0) = .readBuffer)) : HdcHolds (s.xtcBuffer r tm) := by
  unfold State.xtcBuffer; dsimp only
  have h : XtcRunning { s with xtc := { s.xtc with bufIndex := 0 } } :=
    ⟨h.var, h.cap, h.cells, ⟨h.buf.1, Nat.zero_le _⟩, h.phase, h.ex, h.sess, h.len, h.drv⟩
  split
  · exact h.open hd (.inl ⟨rfl, rfl, ht⟩)
  · exact h.finish (Nat.zero_le _)

/-- R232: whatever the command, the XTC is consistent after it. -/
theorem XtcRunning.cmd {s : State} (h : XtcRunning s) (r) (hr : r = s.xtc.fifo.buffer.take s.xtc.fifo.totalExpected)
    : HdcHolds (s.xtcCommand (xtcOp (reqByte r 0)) r) := by
  have hlen : s.xtc.fifo.totalExpected = xtcReqLen (reqByte s.xtc.fifo.buffer 0) := h.ex.1
  have h6 : 6 ≤ s.xtc.fifo.totalExpected := by rw [hlen]; unfold xtcReqLen; split <;> decide
  have h0 : reqByte r 0 = reqByte s.xtc.fifo.buffer 0 := by rw [hr]; exact reqByte_take _ _ _ (by omega)
  have h1 : xtcReqDrive r =
    xtcReqDrive s.xtc.fifo.buffer := by unfold xtcReqDrive; rw [hr, reqByte_take _ _ _ (by omega)]
  rw [h0]
  cases hop : xtcOp (reqByte s.xtc.fifo.buffer 0)
  · exact h.onDrive (by intro d; rfl) (by intro d hd; exact hd)
  · exact h.onDrive (by intro d; rfl) (by intro d hd; exact hd)
  · show HdcHolds (s.xtcRequestSense r)
    unfold State.xtcRequestSense; refine h.finish ?_; split
    · exact Nat.le_refl 4
    · exact Nat.le_refl 4
  · exact h.transfer h1 (by rw [hop]; rfl) (by simp)
  · exact h.transfer h1 (by rw [hop]; rfl) (by simp)
  · exact h.onDrive (by intro d; rfl) (by intro d hd; exact hd)
  · exact h.init
  · exact h.buffer (by rw [hop]; rfl) (by rw [hop]; rfl)
  · exact h.buffer (by rw [hop]; rfl) (by rw [hop]; rfl)
  · exact h.finish (Nat.zero_le _)
  · exact h.finish (Nat.zero_le _)
  · exact h.finish (Nat.zero_le _)
  · show HdcHolds (s.xtcUnknown r)
    unfold State.xtcUnknown; dsimp only
    exact (XtcRunning.modify (s := s.emit (.xtcUnsupported (reqByte r 0)))
      ⟨h.var, h.cap, h.cells, h.buf, h.phase, h.ex, h.sess, h.len, h.drv⟩ (Drive.raise_disk _)
      (Drive.raise_pending _)).finish (Nat.zero_le _)

def State.xtcStarted (s : State) : State :=
    ({ s with xtc := { s.xtc with phase := .execution, fifo := s.xtc.fifo.replayed } } : State).modifyDrive
    (.fixed (xtcReqDrive s.xtc.fifo.request).toNat) Drive.clearError

theorem xtcExecute_eq (s : State) : s.xtcExecute = (State.xtcStarted s).xtcCommand
    (xtcOp (reqByte s.xtc.fifo.request 0)) s.xtc.fifo.request := rfl

theorem HdcHolds.xtcWrite (v : Byte) (s t : State) (hc : 14 ≤ s.cfg.fifoCapXtc) (h : HdcHolds s)
    (ht : xtcDataWrite v s = .next t) : HdcHolds t := by
  obtain ⟨hv, ht⟩ := onXtc_next ht
  split at ht
  · cases ht
  rename_i hph
  have hph : s.xtc.phase = .command := by simpa using hph
  have hx := h.xtc hv
  obtain ⟨hs, hf⟩ := hx.command hph
  have hcell := hx.cells
  have hdrv : EveryDrive (fun _ d => d.disk ≠ none ∧ d.cur.pending = false) s.fixed := h.drv.mono fun u d hd =>
    ⟨hd.1, by
    cases hp : d.cur.pending with
    | false => rfl
    | true => rcases hd.2 hp with ⟨x, hx, _⟩ | ⟨hx, _⟩
              · rw [hs] at hx; cases hx
              · rw [hv] at hx; cases hx⟩
  cases ht; dsimp only
  have hpos : ∀ v, 6 ≤ xtcReqLen v := by intro v; unfold xtcReqLen; split <;> decide
  have key : 1 ≤ (s.xtc.fifo.accept xtcReqLen v).writeIndex ∧ (s.xtc.fifo.accept xtcReqLen v).writeIndex ≤
    (s.xtc.fifo.accept xtcReqLen v).totalExpected ∧ (s.xtc.fifo.accept xtcReqLen v).readIndex = 0 ∧
    (s.xtc.fifo.accept xtcReqLen v).totalExpected = xtcReqLen (reqByte
    (s.xtc.fifo.accept xtcReqLen v).buffer 0) := by
    rcases hf with ⟨a, b, c⟩ | ⟨a, b, c, d⟩
    · have := hpos v
      simp only [Fifo.accept, a, if_true]
      rw [reqByte_set0 _ _ (by omega)]
      exact ⟨by omega, by omega, trivial, rfl⟩
    · have : s.xtc.fifo.writeIndex ≠ 0 := by omega
      simp only [Fifo.accept, this, if_false]
      rw [reqByte_setS _ _ _ this]
      exact ⟨by omega, by omega, c, d⟩
  have hl : (s.xtc.fifo.accept xtcReqLen v).buffer.length = s.cfg.fifoCapXtc := by simp [Fifo.accept, hcell]
  by_cases hfull : (s.xtc.fifo.accept xtcReqLen v).full = true
  · rw [if_pos hfull, xtcExecute_eq]
    have hfull : (s.xtc.fifo.accept xtcReqLen v).writeIndex =
      (s.xtc.fifo.accept xtcReqLen v).totalExpected := by simpa [Fifo.full] using hfull
    have hr : XtcRunning
      (State.xtcStarted { s with xtc := { s.xtc with fifo := s.xtc.fifo.accept xtcReqLen v } }) := by
      unfold State.xtcStarted
      refine XtcRunning.modify
        (s := { s with xtc := { s.xtc with phase := .execution, fifo := (s.xtc.fifo.accept xtcReqLen v).replayed } }) ⟨hv, hc, hl, hx.buffer, rfl, ⟨key.2.2.2, hfull, rfl⟩, hs, h.len, hdrv⟩ (by intro d; rfl) (by intro d hd; exact hd)
    exact hr.cmd _ rfl
  · rw [if_neg hfull]
    have : ¬ (s.xtc.fifo.accept xtcReqLen v).writeIndex = (s.xtc.fifo.accept xtcReqLen v).totalExpected := by simpa
      [Fifo.full] using hfull
    refine ⟨fun _ => ⟨hl, hx.buffer, fun _ => ⟨hs, .inr ⟨key.1, Nat.lt_of_le_of_ne key.2.1 this, key.2.2⟩⟩, ?_, ?_⟩,
      h.noXtc, h.atc, h.len, h.drv⟩
    · intro hh; exact absurd (hph.symm.trans hh) (by simp)
    · intro hh; exact absurd (hph.symm.trans hh) (by simp)

theorem HdcHolds.xtcRead (s t : State) (h : HdcHolds s) (ht : xtcDataRead s = .next t) : HdcHolds t := by
  obtain ⟨hv, ht⟩ := onXtc_next ht
  split at ht
  · cases ht
  rename_i hph
  have hph : s.xtc.phase = .result := by simpa using hph
  have hx := h.xtc hv
  obtain ⟨hs, hf⟩ := hx.result hph
  cases ht
  have hcells : s.xtc.fifo.next.buffer.length = s.cfg.fifoCapXtc := by unfold Fifo.next; split <;> exact hx.cells
  by_cases hl : s.xtc.fifo.atLast = true
  · refine ⟨fun _ => ⟨hcells, hx.buffer, fun _ => ⟨hs, .inl ?_⟩, ?_, ?_⟩, h.noXtc, h.atc, h.len, h.drv⟩
    · show s.xtc.fifo.next.Idle
      unfold Fifo.next; rw [if_pos (by simpa [Fifo.atLast] using hl)]; exact ⟨rfl, rfl, rfl⟩
    · intro hh; dsimp [State.reply] at hh; rw [if_pos hl] at hh; cases hh
    · intro hh; dsimp [State.reply] at hh; rw [if_pos hl] at hh; cases hh
  · refine ⟨fun _ => ⟨hcells, hx.buffer, ?_, ?_, fun _ => ⟨hs, ?_⟩⟩, h.noXtc, h.atc, h.len, h.drv⟩
    · intro hh; dsimp [State.reply] at hh; rw [if_neg hl] at hh; cases hh
    · intro hh; dsimp [State.reply] at hh; rw [if_neg hl] at hh; cases hh
    · show s.xtc.fifo.next.Draining 5
      unfold Fifo.next; rw [if_neg (by simpa [Fifo.atLast] using hl)]
      obtain ⟨a, b, c⟩ := hf
      have : ¬ s.xtc.fifo.readIndex + 1 = s.xtc.fifo.totalExpected := by simpa [Fifo.atLast] using hl
      exact ⟨by dsimp only; omega, b, c⟩

theorem HdcHolds.xtcReset (s : State) (hv : s.cfg.hdcVariant = .xtc) (h : HdcHolds s) :
    HdcHolds s.xtcControllerReset := by
  have hx := h.xtc hv
  refine ⟨fun _ => ⟨by simp [State.xtcControllerReset, Fifo.empty], ⟨hx.buffer.1, Nat.zero_le _⟩, fun _ =>
    ⟨rfl, .inl ⟨rfl, rfl, rfl⟩⟩, (by intro h; cases h), (by intro h; cases h)⟩, fun h => absurd hv h,
    fun h => absurd (hv.symm.trans h) (by simp), by simp [State.xtcControllerReset, h.len], ?_⟩
  exact h.drv.map fun u d hd => ⟨hd.1, by intro h; cases h⟩

theorem HdcHolds.xtcOther (s : State) (x : Xtc) (h : HdcHolds s) (h1 : x.fifo = s.xtc.fifo)
    (h2 : x.phase = s.xtc.phase) (h3 : x.sectorBuffer.length = s.xtc.sectorBuffer.length)
    (h4 : x.bufIndex ≤ 512 ∨ x.bufIndex = s.xtc.bufIndex) : HdcSide s.cfg x s.dma.xtc s.atc s.fixed := by
  refine ⟨fun hv => ?_, h.noXtc, h.atc, h.len, h.drv⟩
  have hx := h.xtc hv
  refine ⟨by rw [h1]; exact hx.cells,
    ⟨by rw [h3]; exact hx.buffer.1,
    ?_⟩, by rw [h1, h2]; exact hx.command, by rw [h1, h2]; exact hx.execution, by rw [h1, h2]; exact hx.result⟩
  rcases h4 with h4 | h4
  · exact h4
  · rw [h4]; exact hx.buffer.2

theorem HdcHolds.exec_of {s : State} (h : HdcHolds s) {ss} (hs : s.dma.xtc = some ss) : s.cfg.hdcVariant = .xtc ∧
    s.xtc.phase = .execution := by
  have hv : s.cfg.hdcVariant = .xtc := by
    by_cases hv : s.cfg.hdcVariant = .xtc
    · exact hv
    · have := h.noXtc hv; rw [hs] at this; cases this
  refine ⟨hv, ?_⟩
  have hx := h.xtc hv
  cases hp : s.xtc.phase with
  | command => have := (hx.command hp).1; rw [hs] at this; cases this
  | execution => rfl
  | result => have := (hx.result hp).1; rw [hs] at this; cases this

theorem HdcHolds.closeSession (s : State) (ss b) (hc : 14 ≤ s.cfg.fifoCapXtc) (h : HdcHolds s)
    (hs : s.dma.xtc = some ss) : HdcHolds (s.closeSession .xtc ss b) := by
  obtain ⟨hv, hp⟩ := h.exec_of hs
  have hx := h.xtc hv
  obtain ⟨hex, dir, eng, _, hss⟩ := hx.execution hp
  unfold State.closeSession; dsimp only
  unfold State.continuation State.xtcTransferDone; dsimp only
  generalize closeError _ _ _ _ = e
  have hr : XtcRunning ((s.modifySessionDrive .xtc ss (Drive.closeWith e)).setSession .xtc none) := by
    unfold State.modifySessionDrive
    split
    · rename_i u hu
      refine ⟨hv, hc, hx.cells, hx.buffer, hp, hex, rfl, ?_, ?_⟩
      · simp [State.setSession, State.modifyDrive, Chan.drive, h.len]
      · refine h.drv.modify (fun d hd => ⟨hd.1, rfl⟩) fun v d hvv hd => ⟨hd.1, ?_⟩
        cases hpp : d.cur.pending with
        | false => rfl
        | true =>
          rcases hd.2 hpp with ⟨x, hx, hx2⟩ | ⟨hx, _⟩
          · rw [hs] at hx; cases hx; rw [hu] at hx2; cases hx2; exact absurd rfl hvv
          · rw [hv] at hx; cases hx
    · rename_i hu
      refine ⟨hv, hc, hx.cells, hx.buffer, hp, hex, rfl, h.len, h.drv.mono fun v d hd => ⟨hd.1, ?_⟩⟩
      cases hpp : d.cur.pending with
      | false => rfl
      | true =>
        rcases hd.2 hpp with ⟨x, hx, hx2⟩ | ⟨hx, _⟩
        · rw [hs] at hx; cases hx; rw [hu] at hx2; cases hx2
        · rw [hv] at hx; cases hx
  exact hr.finish (Nat.zero_le _)

theorem HdcHolds.engage (s t : State) (y) (hc : 14 ≤ s.cfg.fifoCapXtc) (h : HdcHolds s)
    (ht : dmaEngage .xtc y s = .next t) : HdcHolds t := by
  unfold dmaEngage at ht
  split at ht
  · cases ht
  rename_i ss hs
  split at ht
  · cases ht
  split at ht
  · cases ht
    have hs : s.dma.xtc = some ss := hs
    obtain ⟨hv, hp⟩ := h.exec_of hs
    have hx := h.xtc hv
    obtain ⟨hex, dir, eng, h1, hss⟩ := hx.execution hp
    refine ⟨fun _ => ⟨hx.cells, hx.buffer, ?_, fun _ => ⟨hex, dir, true, h1, ?_⟩, ?_⟩, fun h => absurd hv h, h.atc,
      h.len, h.drv.mono fun u d hd => ⟨hd.1, fun hpd => ?_⟩⟩
    · intro hh; exact absurd (hp.symm.trans hh) (by simp)
    · rcases hss with ⟨ha, hb⟩ | ⟨ha, hb, hc⟩
      · rw [hs] at hb; cases hb; exact .inl ⟨ha, rfl⟩
      · rw [hs] at hb; cases hb; exact .inr ⟨ha, rfl, hc⟩
    · intro hh; exact absurd (hp.symm.trans hh) (by simp)
    · rcases hd.2 hpd with ⟨x, hx, hx2⟩ | hx
      · rw [hs] at hx; cases hx; exact .inl ⟨_, rfl, hx2⟩
      · exact .inr hx
  · cases ht; exact HdcHolds.closeSession _ _ _ hc h hs

theorem HdcHolds.close (s t : State) (y) (hc : 14 ≤ s.cfg.fifoCapXtc) (h : HdcHolds s)
    (ht : dmaClose .xtc y s = .next t) : HdcHolds t := by
  unfold dmaClose at ht
  split at ht
  · cases ht
  split at ht
  · cases ht; exact HdcHolds.closeSession _ _ _ hc h ‹_›
  · cases ht

theorem HdcHolds.runBay {α : Type} (s : State) (ss : Session) (x : α) (f : Bay → α × Bay)
    (hf : ∀ b : Bay, (f b).2.drive.disk = b.drive.disk) (h : HdcHolds s) (hs : s.dma.xtc = some ss) (u)
    (hu : ss.drive = some u) : HdcHolds (s.runBay (.fixed u) x f).2 := by
  obtain ⟨hv, hp⟩ := h.exec_of hs
  cases hd : s.drive? (.fixed u) with
  | none => rw [State.runBay_absent _ _ _ _ hd]; exact h
  | some d =>
    rw [State.runBay_present _ _ _ _ d hd]
    refine ⟨h.xtc, h.noXtc, fun hh => absurd (hv.symm.trans hh)
      (by simp), by simpa [State.putBay, State.modifyDrive] using h.len, ?_⟩
    show EveryDrive _ (s.fixed.modify u _)
    rw [modify_eq_set _ _ _ d hd]
    intro i e he
    rw [List.getElem?_set] at he
    split at he
    · rename_i hi; subst hi
      have hl := (List.getElem?_eq_some_iff.mp hd).1
      rw [if_pos hl] at he; cases he
      exact ⟨by rw [hf]; exact (h.drv _ _ hd).1, fun _ => .inl ⟨ss, hs, hu⟩⟩
    · exact h.drv _ _ he

theorem HdcHolds.runSession {α : Type} (s : State) (ss : Session) (x : α) (f : Bay → α × Bay)
    (hf : ∀ b : Bay, (f b).2.drive.disk = b.drive.disk) (h : HdcHolds s) (hs : s.dma.xtc = some ss) : HdcHolds
    (s.runSession .xtc ss x f).2 := by
  unfold State.runSession; split
  · exact HdcHolds.runBay s ss x f hf h hs _ ‹_›
  · exact h

theorem HdcHolds.pull (s t : State) (h : HdcHolds s) (ht : dmaPull .xtc s = .next t) : HdcHolds t := by
  unfold dmaPull at ht
  split at ht
  · cases ht
  rename_i ss hs
  split at ht
  · cases ht
  split at ht
  · cases ht; exact HdcHolds.runSession s ss _ _ (fun b => (readByte_keeps _ b).1) h hs
  · cases ht; unfold State.bufferPull
    have hx := (h.xtc (h.exec_of hs).1).buffer
    split
    · exact h
    · exact HdcHolds.xtcOther s { s.xtc with bufIndex := s.xtc.bufIndex + 1 } h rfl rfl rfl
        (.inl (by dsimp only; omega))
  · cases ht
  · cases ht

theorem HdcHolds.push (s t : State) (v) (h : HdcHolds s) (ht : dmaPush .xtc v s = .next t) : HdcHolds t := by
  unfold dmaPush at ht
  split at ht
  · cases ht
  rename_i ss hs
  split at ht
  · cases ht
  split at ht
  · cases ht; exact HdcHolds.runSession s ss _ _ (fun b => (writeByte_keepsMedia _ _ b).1) h hs
  · cases ht; exact HdcHolds.runSession s ss _ _ (fun b => (formatPush_keepsMedia _ b).1) h hs
  · cases ht; unfold State.bufferPush
    have hx := (h.xtc (h.exec_of hs).1).buffer
    split
    · exact h
    · exact HdcHolds.xtcOther s
        { s.xtc with sectorBuffer := s.xtc.sectorBuffer.set s.xtc.bufIndex v, bufIndex := s.xtc.bufIndex + 1 } h rfl
        rfl (by simp) (.inl (by dsimp only; omega))
  · cases ht

/-- The instance has the ATC, and no lookup is pending. -/
structure AtcFree (s : State) : Prop where
  var : s.cfg.hdcVariant = .atc
  sess : s.dma.xtc = none
  len : s.fixed.length = s.cfg.hdcDrives
  drv : EveryDrive (fun _ d => d.disk ≠ none ∧ d.cur.pending = false) s.fixed

theorem AtcFree.part {s : State} (h : AtcFree s) {a} (ha : AtcConsistent a s.fixed) :
    HdcSide s.cfg s.xtc s.dma.xtc a s.fixed :=
  ⟨fun hv => absurd (h.var.symm.trans hv) (by simp), fun _ => h.sess, fun _ => ha, h.len, h.drv.mono fun u d hd =>
    ⟨hd.1, fun hp => by rw [hd.2] at hp; cases hp⟩⟩

theorem atcStatusByte_idle (e : Err) : (atcStatusByte e).getLsbD 7 = false ∧ (atcStatusByte e).getLsbD 3 =
    false := by cases e <;> decide

theorem AtcFree.finish {s : State} (h : AtcFree s) {e} : HdcHolds (s.atcFinish e) := by
  rw [State.atcFinish_eq]
  exact h.part ⟨fun _ => ⟨rfl, (atcStatusByte_idle e).1, (atcStatusByte_idle e).2⟩, (by intro h; cases h)⟩

theorem AtcFree.modify {s : State} (h : AtcFree s) {u f} (hf : ∀ d : Drive, (f d).disk = d.disk)
    (hp : ∀ d : Drive, d.cur.pending = false → (f d).cur.pending = false) : AtcFree (s.modifyDrive (.fixed u) f) :=
  ⟨h.var, h.sess, by simp [h.len], h.drv.modify (fun d hd => ⟨by rw [hf]; exact hd.1,
    hp d hd.2⟩) fun _ _ _ hd => hd⟩

theorem AtcFree.put {s : State} (h : AtcFree s) {u d} {b : Bay} (hd : s.fixed[u]? = some d)
    (hk : b.drive.disk = d.disk) (hp : b.drive.cur.pending = false) : AtcFree (s.putBay (.fixed u) b) := by
  refine ⟨h.var, h.sess, by simpa [State.putBay, State.modifyDrive] using h.len, ?_⟩
  show EveryDrive _ (s.fixed.modify u _)
  rw [modify_eq_set _ _ _ d hd]
  intro i e he
  rw [List.getElem?_set] at he
  split at he
  · rename_i hi; subst hi
    rw [if_pos (List.getElem?_eq_some_iff.mp hd).1] at he; cases he
    exact ⟨by rw [hk]; exact (h.drv _ _ hd).1, hp⟩
  · exact h.drv _ _ he

theorem putBay_getElem {s : State} {u d} {b : Bay} (hd : s.fixed[u]? = some d) : (s.putBay (.fixed u) b).fixed[u]? =
    some b.drive := by
  show (s.fixed.modify u _)[u]? = _
  rw [modify_eq_set _ _ _ d hd]; exact getElem?_set_present _ _ _ _ hd

theorem nextSector_pending (bias) (b : Bay) (h : b.drive.cur.pending = false)
    (hn : (nextSector bias b).1 ≠ .pending) : (nextSector bias b).2.drive.cur.pending = false := by
  rcases (nextSector_spec bias b).2.2.2.2.2 with ⟨_, _, _, _, k⟩ | ⟨k, _⟩ | ⟨_, k | k⟩ | ⟨_, k, _⟩
  · rw [k]; exact h
  · exact absurd k hn
  · rw [k]; exact Drive.raise_pending _ _ h
  · rw [k]; exact Drive.raise_pending _ _ h
  · rw [k]; exact h

theorem AtcFree.primed {s : State} (h : AtcFree s) {u d b} (hu : s.atc.drive.toNat = u) (hd : s.fixed[u]? = some d)
    (hp : s.atc.phase = .execution) (hdir : s.atc.dir ≠ .none) (hb : b = true → d.cur.activeSector ≠ none) :
    HdcHolds (s.atcPrimed (.fixed u) b) := by
  unfold State.atcPrimed; dsimp only
  split
  · rename_i hbt
    have hc : ∀ i, AtcConsistent { s.atc with status := 0x58#8, irq := i } s.fixed := fun i =>
      ⟨fun hh => absurd (hp.symm.trans hh) (by simp), fun _ => ⟨hdir, d, by rw [← hu] at hd; exact hd, .inl
        ⟨rfl, (h.drv _ _ hd).2, hb hbt⟩⟩⟩
    split
    · rw [State.raiseIfArmed_atc]; exact h.part (hc _)
    · exact h.part (hc s.atc.irq)
  · exact h.finish

theorem AtcFree.prime {s : State} (h : AtcFree s) {u d} (hu : s.atc.drive.toNat = u) (hd : s.fixed[u]? = some d)
    (hp : s.atc.phase = .execution) (hdir : s.atc.dir ≠ .none) (ha : d.cur.activeSector = none) : HdcHolds
    (s.atcPrime (.fixed u)) := by
  unfold State.atcPrime; dsimp only
  rw [State.runBay_present _ _ _ _ d (by exact hd)]
  have h0 : AtcFree { s with atc := { s.atc with status := 0x80#8 } } := ⟨h.var, h.sess, h.len, h.drv⟩
  have hpd := (h.drv _ _ hd).2
  have hn := nextSector_pending 1 ⟨d, s.store⟩ hpd
  have hk := (nextSector_keeps 1 ⟨d, s.store⟩).1
  have hsp := (nextSector_spec 1 ⟨d, s.store⟩).2.2.2.2.2
  generalize nextSector 1 ⟨d, s.store⟩ = r at *
  obtain ⟨x, b⟩ := r
  cases x with
  | found =>
    have h1 := h0.put (b := b) hd hk (hn (by simp))
    refine h1.primed hu (putBay_getElem hd) hp hdir ?_
    intro _
    rcases hsp with ⟨_, _, _, _, k⟩ | ⟨k, _⟩ | ⟨k, _⟩ | ⟨k, _⟩
    · rw [show b.drive = _ from k]; simp
    · cases k
    · cases k
    · cases k
  | pending =>
    dsimp only
    rcases hsp with ⟨k, _⟩ | ⟨_, _, k⟩ | ⟨k, _⟩ | ⟨k, _⟩
    · cases k
    · have k : b.drive = { d with cur := { d.cur with pending := true } } := k
      refine ⟨fun hv => absurd (h.var.symm.trans hv) (by simp), fun _ => h.sess, fun _ =>
        ⟨fun hh => absurd (hp.symm.trans hh) (by simp), fun _ => ⟨hdir, b.drive, ?_, .inr
        ⟨rfl, ?_, ?_⟩⟩⟩, by simpa [State.putBay, State.modifyDrive] using h.len, ?_⟩
      · show _[s.atc.drive.toNat]? = _
        rw [hu]; exact putBay_getElem (s := { s with atc := { s.atc with status := 0x80#8 } }) hd
      · rw [k]
      · rw [k]; exact ha
      · show EveryDrive _ (s.fixed.modify u _)
        refine h.drv.modify (P := fun _ d => d.disk ≠ none ∧ d.cur.pending = false)
          (fun e he => ⟨?_, fun _ => .inr ⟨h.var, hp, hu⟩⟩) fun v e _ he =>
          ⟨he.1, fun hh => by rw [he.2] at hh; cases hh⟩
        rw [hk]; exact (h.drv _ _ hd).1
    · cases k
    · cases k
  | done =>
    have h1 := h0.put (b := b) hd hk (hn (by simp))
    exact h1.primed hu (putBay_getElem hd) hp hdir (by intro h; cases h)
  | failed =>
    have h1 := h0.put (b := b) hd hk (hn (by simp))
    exact h1.primed hu (putBay_getElem hd) hp hdir (by intro h; cases h)

theorem AtcFree.onDrive {s : State} (h : AtcFree s) {f} (hf : ∀ d : Drive, (f d).disk = d.disk)
    (hp : ∀ d : Drive, d.cur.pending = false → (f d).cur.pending = false) : HdcHolds (s.atcOnDrive f) := by
  unfold State.atcOnDrive; split
  · exact h.finish
  · exact (h.modify hf hp).finish

theorem AtcFree.transfer {s : State} (h : AtcFree s) {dir} (hd : dir ≠ .none) : HdcHolds (s.atcTransfer dir) := by
  unfold State.atcTransfer; dsimp only; split
  · exact h.finish
  · rename_i d hdr
    have h1 := h.modify (u := s.atc.drive.toNat) (f := loadAtcTransfer s.atc) (by intro d; rfl) (by intro d hd; rfl)
    have h2 : AtcFree { s.modifyDrive s.atcRef (loadAtcTransfer s.atc) with atc := { (s.modifyDrive s.atcRef (loadAtcTransfer s.atc)).atc with phase := .execution, dir := dir } } := ⟨h1.var, h1.sess, h1.len, h1.drv⟩
    refine h2.prime (u := s.atc.drive.toNat) (d := loadAtcTransfer s.atc d) ?_ ?_ rfl hd rfl
    · exact congrArg BitVec.toNat (show Atc.drive _ = s.atc.drive from rfl)
    · show (s.fixed.modify _ _)[_]? = _
      rw [modify_eq_set _ _ _ d hdr]; exact getElem?_set_present _ _ _ _ hdr

theorem AtcFree.verify {s : State} (h : AtcFree s) {u} : AtcFree (s.verifyGeometry u) := by
  unfold State.verifyGeometry; dsimp only
  repeat' split
  all_goals first | exact h | exact ⟨h.var, h.sess, h.len, h.drv⟩

theorem HdcHolds.acmd {s : State} (h : HdcHolds s) (hv : s.cfg.hdcVariant = .atc) (hp : s.atc.phase = .command) :
    AtcFree s := by
  have hs := h.noXtc (by rw [hv]; simp)
  refine ⟨hv, hs, h.len, h.drv.mono fun u d hd => ⟨hd.1, ?_⟩⟩
  cases hpp : d.cur.pending with
  | false => rfl
  | true =>
    rcases hd.2 hpp with ⟨x, hx, _⟩ | ⟨_, hx, _⟩
    · rw [hs] at hx; cases hx
    · rw [hp] at hx; cases hx

theorem HdcHolds.atcCommand (v : Byte) (s t : State) (h : HdcHolds s) (ht : atcCommandWrite v s = .next t) :
    HdcHolds t := by
  obtain ⟨hv, ht⟩ := onAtc_next ht
  split at ht
  · cases ht
  rename_i hp
  have hp : s.atc.phase = .command := by simpa using hp
  cases ht
  have hc := (h.atc hv).command hp
  have h1 := h.acmd hv hp
  rw [atcExecute_eq]
  have h2 : AtcFree (s.atcStarted v) := by
    refine AtcFree.modify (s := { s with atc := { s.atc with command := v, error := 0x00#8 } })
      ⟨h1.var, h1.sess, h1.len, h1.drv⟩ (by intro d; rfl) (by intro d hd; exact hd)
  unfold State.atcCommand; split
  · exact h2.onDrive (by intro d; rfl) (by intro d hd; exact hd)
  · exact h2.transfer (by simp)
  · exact h2.transfer (by simp)
  · exact h2.onDrive (by intro d; rfl) (by intro d hd; exact hd)
  · unfold State.atcDiagnose; rw [State.raiseIfArmed_atc]
    refine h2.part ⟨fun _ => ⟨hc.1, (atcStatusByte_idle .none).1, (atcStatusByte_idle .none).2⟩, fun hh => absurd
      (hp.symm.trans hh) (by simp)⟩
  · unfold State.atcSetParameters; split
    · exact h2.finish
    · exact ((h2.modify (by intro d; rfl) (by intro d hd; exact hd)).verify).finish
  · unfold State.atcUnknown
    exact (AtcFree.modify (s := (s.atcStarted v).emit (.atcUnsupported v)) ⟨h2.var, h2.sess, h2.len, h2.drv⟩
      (Drive.raise_disk _) (Drive.raise_pending _)).finish

theorem Atc.writeBack_drive (a : Atc) (p) : (a.writeBack p).drive = a.drive := by
  rw [Atc.writeBack_eq]; unfold Atc.drive; dsimp only
  have : ∀ (n : Nat), n < 16 → ∀ x : Byte, (x &&& 0xF0#8 ||| BitVec.ofNat 8 n).extractLsb' 4 1 =
    x.extractLsb' 4 1 := by decide
  exact this _ (Nat.mod_lt _ (by decide)) _

theorem AtcFree.sectorDone {s : State} (h : AtcFree s) {u d} (hu : s.atc.drive.toNat = u)
    (hd : s.fixed[u]? = some d) (hp : s.atc.phase = .execution) (hdir : s.atc.dir ≠ .none)
    (ha : d.cur.activeSector = none) : HdcHolds (s.atcSectorDone (.fixed u) d) := by
  unfold State.atcSectorDone; dsimp only
  have h1 : AtcFree { s with atc := { s.atc with secCount := s.atc.secCount - 1#8 }.writeBack d.pos } :=
    ⟨h.var, h.sess, h.len, h.drv⟩
  have hdr : (({ s.atc with secCount := s.atc.secCount - 1#8 } : Atc).writeBack d.pos).drive.toNat =
    u := by rw [Atc.writeBack_drive]; exact hu
  have hph : (({ s.atc with secCount := s.atc.secCount - 1#8 } : Atc).writeBack d.pos).phase = .execution := hp
  have hdi : (({ s.atc with secCount := s.atc.secCount - 1#8 } : Atc).writeBack d.pos).dir ≠ .none := hdir
  split
  · split
    · exact h1.finish
    · exact h1.part ⟨fun _ => ⟨rfl, (atcStatusByte_idle .none).1, (atcStatusByte_idle .none).2⟩,
        (by intro h; cases h)⟩
  · split
    · rw [State.raiseIfArmed_atc]
      have key : ∀ i, HdcHolds
        (State.atcPrime
        { s with atc := { (({ s.atc with secCount := s.atc.secCount - 1#8 } : Atc).writeBack d.pos) with irq := i } } (.fixed u)) := fun i =>
        AtcFree.prime (s := { s with atc := { (({ s.atc with secCount := s.atc.secCount - 1#8 } : Atc).writeBack d.pos) with irq := i } }) ⟨h.var, h.sess, h.len, h.drv⟩ hdr hd hph hdi ha
      exact key _
    · exact h1.prime hdr hd hph hdi ha

theorem AtcFree.byteDone {s : State} (h : AtcFree s) {u d} (hu : s.atc.drive.toNat = u) (hd : s.fixed[u]? = some d)
    (hp : s.atc.phase = .execution) (hdir : s.atc.dir ≠ .none) (hst : s.atc.status = 0x58#8) : HdcHolds
    (s.atcByteDone (.fixed u)) := by
  unfold State.atcByteDone
  rw [State.drive?_fixed, hd]; dsimp only
  split
  · exact h.sectorDone hu hd hp hdir ‹_›
  · refine h.part ⟨fun hh => absurd (hp.symm.trans hh) (by simp), fun _ =>
      ⟨hdir, d, by rw [hu]; exact hd, .inl ⟨hst, (h.drv _ _ hd).2, ‹_›⟩⟩⟩

theorem HdcHolds.data {s : State} (h : HdcHolds s) (hv : s.cfg.hdcVariant = .atc) {dir}
    (hr : s.atc.dataReady dir = true) : AtcFree s ∧ s.atc.phase = .execution ∧ s.atc.dir = dir ∧ s.atc.dir ≠ .none ∧
    s.atc.status = 0x58#8 ∧ ∃ d k, s.fixed[s.atc.drive.toNat]? = some d ∧ d.cur.activeSector = some k ∧
    d.cur.pending = false := by
  simp [Atc.dataReady, Atc.dataReq] at hr
  obtain ⟨⟨hp, hdir⟩, hst⟩ := hr
  obtain ⟨hne, d, hd, ⟨h1, h2, h3⟩ | ⟨h1, _⟩⟩ := (h.atc hv).execution hp
  · obtain ⟨k, hk⟩ := Option.ne_none_iff_exists'.mp h3
    have hs := h.noXtc (by rw [hv]; simp)
    refine ⟨⟨hv, hs, h.len, fun u e he => ⟨(h.drv u e he).1, ?_⟩⟩, hp, hdir, hne, h1, d, k, hd, hk, h2⟩
    cases hpp : e.cur.pending with
    | false => rfl
    | true =>
      rcases (h.drv u e he).2 hpp with ⟨x, hx, _⟩ | ⟨_, _, hx⟩
      · rw [hs] at hx; cases hx
      · subst hx; rw [hd] at he; cases he; rw [h2] at hpp; cases hpp
  · rw [h1] at hst; exact absurd hst (by decide)

theorem Drive.byteMoved_pending (d : Drive) (h : d.cur.pending = false) : (d.byteMoved 1).cur.pending =
    false := by rw [Drive.byteMoved_eq]; split <;> exact h

theorem HdcHolds.atcRead (s : State) (h : HdcHolds s) (hv : s.cfg.hdcVariant = .atc)
    (hr : s.atc.dataReady .read = true) : HdcHolds s.atcDataRead := by
  obtain ⟨hc, hp, _, hne, hst, d, k, hd, hk, hpd⟩ := h.data hv hr
  unfold State.atcDataRead; dsimp only
  rw [State.runBay_present _ _ _ _ d (by exact hd)]
  have hok := (readByte_keeps 1 ⟨d, s.store⟩).1
  have hpp : (readByte 1 ⟨d, s.store⟩).2.drive.cur.pending = false := by
    rcases readByte_cases 1 ⟨d, s.store⟩ with ⟨_, e⟩ | ⟨_, k', hk', e⟩ | ⟨_, hx, _⟩
    · rw [e]; exact hpd
    · rw [e]; obtain ⟨_, _, ⟨_, e⟩ | ⟨_, e⟩⟩ := readActive_spec 1 k' ⟨d, s.store⟩ <;> rw [e]
      · exact Drive.raise_pending _ _ hpd
      · exact Drive.byteMoved_pending _ hpd
    · rw [show d.cur.activeSector = none from hx] at hk; cases hk
  generalize readByte 1 ⟨d, s.store⟩ = r at *
  obtain ⟨x, b⟩ := r
  have h1 := hc.put (b := b) hd hok hpp
  cases x with
  | byte v => exact (h1.byteDone rfl (putBay_getElem hd) hp hne hst : HdcHolds _)
  | eof => exact (h1.finish : HdcHolds _)
  | pending => exact (h1.finish : HdcHolds _)

theorem HdcHolds.atcWrite (s : State) (v) (h : HdcHolds s) (hv : s.cfg.hdcVariant = .atc)
    (hr : s.atc.dataReady .write = true) : HdcHolds (s.atcDataWrite v) := by
  obtain ⟨hc, hp, _, hne, hst, d, k, hd, hk, hpd⟩ := h.data hv hr
  unfold State.atcDataWrite; dsimp only
  rw [State.runBay_present _ _ _ _ d (by exact hd)]
  have hok := (writeByte_keepsMedia 1 v ⟨d, s.store⟩).1
  have hpp : (writeByte 1 v ⟨d, s.store⟩).2.drive.cur.pending = false := by
    rcases writeByte_cases 1 v ⟨d, s.store⟩ with ⟨_, e⟩ | ⟨_, _, e⟩ | ⟨_, _, k', hk', e⟩ | ⟨_, _, hx, _⟩
    · rw [e]; exact hpd
    · rw [e]; exact Drive.raise_pending _ _ hpd
    · rw [e]; obtain ⟨_, ⟨_, e, _⟩ | ⟨_, e, _⟩⟩ := writeActive_spec 1 k' v ⟨d, s.store⟩ <;> rw [e]
      · exact Drive.raise_pending _ _ hpd
      · exact Drive.byteMoved_pending _ hpd
    · rw [show d.cur.activeSector = none from hx] at hk; cases hk
  generalize writeByte 1 v ⟨d, s.store⟩ = r at *
  obtain ⟨x, b⟩ := r
  have h1 := hc.put (b := b) hd hok hpp
  cases x with
  | accepted => exact (h1.byteDone rfl (putBay_getElem hd) hp hne hst : HdcHolds _)
  | error => exact (h1.finish : HdcHolds _)
  | pending => exact (h1.finish : HdcHolds _)

theorem HdcHolds.atcOther (s : State) (a : Atc) (h : HdcHolds s) (h1 : a.phase = s.atc.phase)
    (h2 : a.dir = s.atc.dir) (h3 : a.status = s.atc.status) (h4 : s.atc.phase = .execution → a.drive =
    s.atc.drive) : HdcSide s.cfg s.xtc s.dma.xtc a s.fixed := by
  refine ⟨h.xtc, h.noXtc, fun hv => ⟨by rw [h1, h2, h3]; exact (h.atc hv).command, fun hp => ?_⟩, h.len,
    h.drv.mono fun u d hd => ⟨hd.1, fun hp => ?_⟩⟩
  · rw [h1] at hp; rw [h2, h3, h4 hp]; exact (h.atc hv).execution hp
  · rcases hd.2 hp with hx | ⟨h5, h6, h7⟩
    · exact .inl hx
    · exact .inr ⟨h5, by rw [h1]; exact h6, by rw [h4 h6]; exact h7⟩

theorem HdcHolds.atcReset (s : State) (h : HdcHolds s) (hv : s.cfg.hdcVariant = .atc) :
    HdcHolds s.atcControllerReset := by
  have hs := h.noXtc (by rw [hv]; simp)
  have hl : s.atcControllerReset.fixed.length = s.cfg.hdcDrives := by simp [State.atcControllerReset, h.len]
  have hst : s.atcControllerReset.atc.status.getLsbD 7 = false ∧ s.atcControllerReset.atc.status.getLsbD 3 =
    false := by
    have : s.atcControllerReset.atc.status = if 1 ≤ s.cfg.hdcDrives then 0x50#8 else 0x00#8 := rfl
    rw [this]; split <;> decide
  have hm : EveryDrive (fun u d => d.disk ≠ none ∧ d.cur.pending = false) s.atcControllerReset.fixed :=
    h.drv.map fun u d hd => ⟨hd.1, rfl⟩
  refine AtcFree.part (s := s.atcControllerReset) ⟨hv, hs, hl, hm⟩ ⟨fun _ => ⟨rfl, hst⟩, (by intro h; cases h)⟩

theorem HdcHolds.atcFdr (s : State) (v) (h : HdcHolds s) (hv : s.cfg.hdcVariant = .atc) : HdcHolds
    (s.atcFdrWrite v) := by
  unfold State.atcFdrWrite; dsimp only
  split
  · exact HdcHolds.atcOther s.atcControllerReset { s.atcControllerReset.atc with fdr := v }
      (HdcHolds.atcReset s h hv) rfl rfl rfl (fun _ => rfl)
  · exact HdcHolds.atcOther s { s.atc with fdr := v } h rfl rfl rfl (fun _ => rfl)

theorem HdcHolds.delivery (s t : State) (u) (h : HdcHolds s) (ht : resolve (.fixed u) s = .next t) :
    HdcHolds t := by
  unfold resolve at ht
  split at ht
  · cases ht
  rename_i d hd
  have hd : s.fixed[u]? = some d := hd
  split at ht
  · cases ht
  rename_i hpd
  have hpd : d.cur.pending = true := by simpa using hpd
  dsimp only at ht
  cases ht
  generalize ho : s.resolution (.fixed u) d = o
  split
  · rename_i hv
    rcases (h.drv _ _ hd).2 hpd with ⟨x, hx, _⟩ | ⟨_, hp, hu⟩
    · rw [h.noXtc (by rw [hv]; simp)] at hx; cases hx
    · have hs := h.noXtc (by rw [hv]; simp)
      have hc : AtcFree (s.modifyDrive (.fixed u) (Drive.resolved o)) := by
        refine ⟨hv, hs, by simp [h.len], h.drv.modify (fun e he =>
          ⟨by rw [Drive.resolved_disk]; exact he.1, (Drive.resolved_fmt _ _).2⟩) fun v e hvu he => ⟨he.1, ?_⟩⟩
        cases hpp : e.cur.pending with
        | false => rfl
        | true =>
          rcases he.2 hpp with ⟨x, hx, _⟩ | ⟨_, _, hx⟩
          · rw [hs] at hx; cases hx
          · exact absurd (hx.symm.trans hu) hvu
      obtain ⟨hne, _⟩ := (h.atc hv).execution hp
      refine hc.primed (d := d.resolved o) hu ?_ hp hne ?_
      · show (s.fixed.modify _ _)[_]? = _
        rw [modify_eq_set _ _ _ d hd]; exact getElem?_set_present _ _ _ _ hd
      · intro hh; cases o with
        | none => cases hh
        | some k => simp [Drive.resolved]
  · rename_i hv
    refine ⟨h.xtc, h.noXtc, fun h => absurd h hv, by simpa using h.len, h.drv.modify
      (fun e he => ⟨by rw [Drive.resolved_disk]; exact he.1,
      fun hp => by rw [(Drive.resolved_fmt _ _).2] at hp; cases hp⟩) fun v e _ he => he⟩

theorem powerUp_hdc (s : State) : (s.cfg.hdcVariant = .xtc → s.powerUp.xtc = Xtc.initial s.cfg ∧ s.powerUp.dma.xtc =
    none) ∧
   (s.cfg.hdcVariant ≠ .xtc → s.powerUp.dma.xtc = s.dma.xtc) ∧ (s.cfg.hdcVariant = .atc → s.powerUp.atc.phase =
     .command ∧ s.powerUp.atc.dir = .none ∧ s.powerUp.atc.status =
     if 1 ≤ s.cfg.hdcDrives then 0x50#8 else 0x00#8) := by
  unfold State.powerUp State.hdcPowerUp; dsimp only
  have hv' : s.fdcControllerReset.cfg.hdcVariant = s.cfg.hdcVariant := rfl
  rw [hv']
  cases s.cfg.hdcVariant with
  | none => exact ⟨fun h => (by cases h), fun _ => rfl, fun h => (by cases h)⟩
  | xtc => exact ⟨fun _ => ⟨rfl, rfl⟩, fun h => absurd rfl h, fun h => (by cases h)⟩
  | atc => exact ⟨fun h => (by cases h), fun _ => rfl, fun _ => ⟨rfl, rfl, rfl⟩⟩

theorem HdcHolds.powerUp (s : State) (h : HdcHolds s) : HdcHolds s.powerUp := by
  have hc := (powerUp_keepsMedia s).1
  obtain ⟨k1, k2, k3⟩ := powerUp_hdc s
  unfold HdcHolds
  rw [hc]
  refine ⟨fun hv => ?_, fun hv => (k2 hv).trans (h.noXtc hv), fun hv => ?_, ?_, ?_⟩
  · rw [(k1 hv).1, (k1 hv).2]
    exact ⟨List.length_replicate, ⟨List.length_replicate, Nat.zero_le _⟩, fun _ => ⟨rfl, .inl ⟨rfl, rfl, rfl⟩⟩,
      (by intro h; cases h), (by intro h; cases h)⟩
  · obtain ⟨a, b, c⟩ := k3 hv
    refine ⟨fun _ => ⟨b, ?_, ?_⟩, fun hh => absurd (a.symm.trans hh) (by simp)⟩ <;> rw [c] <;> split <;> decide
  · rw [← h.len, ← List.length_map (f := Drive.disk), (powerUp_keepsMedia s).2.2.2, List.length_map]
  · intro u d hd
    rw [powerUp_fixed] at hd
    cases hx : s.fixed[u]? with
    | none => simp [hx] at hd
    | some e => simp [hx] at hd; subst hd; exact ⟨(h.drv _ _ hx).1, by intro h; cases h⟩

end Sys2Proof.Machine
end

