-- ==== Sys2Proof/Laws/PerInstr.lean ====
section
/-! SUPPORT. The statements made per instruction, one lemma per constructor. -/

/-- The lengths of spec/30_encoding.md: a well-formed request of the FDC or the XTC has exactly the number of bytes the
sequencer reads off its first byte (R122, R123, R136), a command of the ATC one byte (R145), a port write three bytes
and a port read two. -/
def Sys2Proof.Laws.Bytes.Statement (i : Sys2Proof.Instr) : Prop :=
  i.wf = true → i.bytes.length = match i.space with
    | .fdc => Sys2Proof.fdcReqLen (i.bytes.headD 0x00#8)
    | .xtc => Sys2Proof.xtcReqLen (i.bytes.headD 0x00#8)
    | .atc => 1
    | .portOut => 3
    | .portIn => 2
    | .portWide => 0

namespace Sys2Proof.Laws.Bytes

open Sys2Proof

/-- R130: an opcode outside the table has a one-byte request. -/
theorem unknown_reqLen (m : BitVec 3) (op : BitVec 5) (h : (Instr.fdcUnknown m op).wf = true) :
    fdcReqLen (encodeFdcFirst m op) = 1 := by
  revert h; revert m op; decide

/-- R123: the length looks at the low five bits only. -/
theorem reqLen_first : ∀ (m : BitVec 3),
    fdcReqLen (encodeFdcFirst m 0x03#5) = 3 ∧ fdcReqLen (encodeFdcFirst m 0x05#5) = 9 ∧
      fdcReqLen (encodeFdcFirst m 0x06#5) = 9 ∧ fdcReqLen (encodeFdcFirst m 0x07#5) = 2 ∧
      fdcReqLen (encodeFdcFirst m 0x08#5) = 1 ∧ fdcReqLen (encodeFdcFirst m 0x0D#5) = 6 ∧
      fdcReqLen (encodeFdcFirst m 0x0F#5) = 3 := by
  decide

/-- R140: an opcode outside the table has a six-byte block. -/
theorem unknown_blockLen (c0 : Byte) (b : XtcBlock) (h : (Instr.xtcUnknown c0 b).wf = true) : xtcReqLen c0 = 6 := by
  unfold xtcReqLen
  split
  · subst c0; cases h
  · rfl

theorem fdcSpecify (m : BitVec 3) (t1 t2 : Byte) : Statement (.fdcSpecify m t1 t2) :=
    fun _ => ((reqLen_first m).1).symm
theorem fdcWriteData (m : BitVec 3) (us : UnitSelect) (c h r n eot gpl dtl : Byte)
    : Statement (.fdcWriteData m us c h r n eot gpl dtl) :=
    fun _ => ((reqLen_first m).2.1).symm
theorem fdcReadData (m : BitVec 3) (us : UnitSelect) (c h r n eot gpl dtl : Byte)
    : Statement (.fdcReadData m us c h r n eot gpl dtl) :=
    fun _ => ((reqLen_first m).2.2.1).symm
theorem fdcRecalibrate (m : BitVec 3) (us : UnitSelect) : Statement (.fdcRecalibrate m us) :=
    fun _ => ((reqLen_first m).2.2.2.1).symm
theorem fdcSenseInterruptStatus (m : BitVec 3) : Statement (.fdcSenseInterruptStatus m) :=
    fun _ => ((reqLen_first m).2.2.2.2.1).symm
theorem fdcFormatTrack (m : BitVec 3) (us : UnitSelect) (n sc gpl d : Byte)
    : Statement (.fdcFormatTrack m us n sc gpl d) :=
    fun _ => ((reqLen_first m).2.2.2.2.2.1).symm
theorem fdcSeek (m : BitVec 3) (us : UnitSelect) (ncn : Byte) : Statement (.fdcSeek m us ncn) :=
    fun _ => ((reqLen_first m).2.2.2.2.2.2).symm
theorem fdcUnknown (m : BitVec 3) (op : BitVec 5) : Statement (.fdcUnknown m op) :=
    fun h => (unknown_reqLen m op h).symm
theorem xtcTestReady (b : XtcBlock) : Statement (.xtcTestReady b) := fun _ => rfl
theorem xtcRecalibrate (b : XtcBlock) : Statement (.xtcRecalibrate b) := fun _ => rfl
theorem xtcRequestSense (b : XtcBlock) : Statement (.xtcRequestSense b) := fun _ => rfl
theorem xtcReadData (b : XtcBlock) : Statement (.xtcReadData b) := fun _ => rfl
theorem xtcWriteData (b : XtcBlock) : Statement (.xtcWriteData b) := fun _ => rfl
theorem xtcSeek (b : XtcBlock) : Statement (.xtcSeek b) := fun _ => rfl
theorem xtcInitDrive (b : XtcBlock) (p : InitParams) : Statement (.xtcInitDrive b p) := fun _ => rfl
theorem xtcReadBuffer (b : XtcBlock) : Statement (.xtcReadBuffer b) := fun _ => rfl
theorem xtcWriteBuffer (b : XtcBlock) : Statement (.xtcWriteBuffer b) := fun _ => rfl
theorem xtcRamDiagnostic (b : XtcBlock) : Statement (.xtcRamDiagnostic b) := fun _ => rfl
theorem xtcDriveDiagnostic (b : XtcBlock) : Statement (.xtcDriveDiagnostic b) := fun _ => rfl
theorem xtcControllerDiagnostic (b : XtcBlock) : Statement (.xtcControllerDiagnostic b) := fun _ => rfl
theorem xtcUnknown (c0 : Byte) (b : XtcBlock) : Statement (.xtcUnknown c0 b) :=
    fun h => (unknown_blockLen c0 b h).symm
theorem atcRestore (stepRate : BitVec 4) : Statement (.atcRestore stepRate) := fun _ => rfl
theorem atcReadData (retry : BitVec 1) : Statement (.atcReadData retry) := fun _ => rfl
theorem atcWriteData (retry : BitVec 1) : Statement (.atcWriteData retry) := fun _ => rfl
theorem atcSeek (stepRate : BitVec 4) : Statement (.atcSeek stepRate) := fun _ => rfl
theorem atcDiagnose : Statement .atcDiagnose := fun _ => rfl
theorem atcSetParameters : Statement .atcSetParameters := fun _ => rfl
theorem atcUnknown (v : Byte) : Statement (.atcUnknown v) := fun _ => rfl
theorem fdcOutOutput (v : Byte) : Statement (.fdcOutOutput v) := fun _ => rfl
theorem fdcInMainStatus : Statement .fdcInMainStatus := fun _ => rfl
theorem fdcOutData (v : Byte) : Statement (.fdcOutData v) := fun _ => rfl
theorem fdcInData : Statement .fdcInData := fun _ => rfl
theorem fdcInInput : Statement .fdcInInput := fun _ => rfl
theorem fdcOutControl (v : Byte) : Statement (.fdcOutControl v) := fun _ => rfl
theorem xtcOutData (v : Byte) : Statement (.xtcOutData v) := fun _ => rfl
theorem xtcInData : Statement .xtcInData := fun _ => rfl
theorem xtcInStatus : Statement .xtcInStatus := fun _ => rfl
theorem xtcOutReset (v : Byte) : Statement (.xtcOutReset v) := fun _ => rfl
theorem xtcInConfig : Statement .xtcInConfig := fun _ => rfl
theorem xtcOutSelect (v : Byte) : Statement (.xtcOutSelect v) := fun _ => rfl
theorem xtcOutPattern (v : Byte) : Statement (.xtcOutPattern v) := fun _ => rfl
theorem xtcOutNoise (p : NoisePort) (v : Byte) : Statement (.xtcOutNoise p v) := fun _ => rfl
theorem atcInData : Statement .atcInData := fun _ => rfl
theorem atcOutData (v : Byte) : Statement (.atcOutData v) := fun _ => rfl
theorem atcTaskfile (reg : TaskReg) (w : Option Byte) : Statement (.atcTaskfile reg w) := fun _ => by cases w <;> rfl
theorem atcInStatus : Statement .atcInStatus := fun _ => rfl
theorem atcOutCommand (v : Byte) : Statement (.atcOutCommand v) := fun _ => rfl
theorem atcInAltStatus : Statement .atcInAltStatus := fun _ => rfl
theorem atcOutFdr (v : Byte) : Statement (.atcOutFdr v) := fun _ => rfl

end Sys2Proof.Laws.Bytes
end

