-- ==== Sys2Proof/Tests/Slice0.lean ====
section
/-! SUPPORT. Tests. Every expected value is read off spec/, most of them the vectors of spec/95_test_vectors.md (named
E, F, X, A, B, Z or I with their number), never off the model. First the smoke test of well-formedness, then one word of every
constructor written out from its encoding, then single steps, then for every statement with hypotheses a state and operands
that meet them. -/

namespace Sys2Proof.Tests

open Sys2Proof Sys2Proof.Machine

/-! ### Well-formedness: each check refuses an ill-formed term -/

/-- R130: a known opcode is no unknown command. -/
theorem test_wf_refuses_fdc : (Instr.fdcUnknown 2#3 0x06#5).wf = false := by decide

/-- R140. -/
theorem test_wf_refuses_xtc : (Instr.xtcUnknown 0xE4#8 ⟨0#2, 0#1, 0#5, 0#2, 0#6, 0#8, 0#8, 0#8⟩).wf = false := by decide

/-- R150: 0x1F is a RESTORE, 0x31 a WRITE_DATA, 0x91 a SET_PARAMETERS. -/
theorem test_wf_refuses_atc : (Instr.atcUnknown 0x1F#8).wf = false ∧ (Instr.atcUnknown 0x31#8).wf = false ∧
    (Instr.atcUnknown 0x91#8).wf = false := by decide

/-- The codes next to them are unknown commands. -/
theorem test_wf_accepts : (Instr.fdcUnknown 2#3 0x09#5).wf = true ∧
    (Instr.xtcUnknown 0xE5#8 ⟨0#2, 0#1, 0#5, 0#2, 0#6, 0#8, 0#8, 0#8⟩).wf = true ∧
    (Instr.atcUnknown 0x22#8).wf = true ∧ (Instr.atcUnknown 0x92#8).wf = true := by decide

/-! ### Decoding: words written out from the encodings -/

/-- R122: 03, two timing bytes. -/
theorem test_decode_fdcSpecify : decode .fdc [0x03#8, 0xDF#8, 0x02#8] = .ok (.fdcSpecify 0#3 0xDF#8 0x02#8, []) := by
  decide

/-- R124: 010_00101, US = 00000_1_11, C H R N EOT GPL DTL. -/
theorem test_decode_fdcWriteData :
    decode .fdc [0x45#8, 0x07#8, 1#8, 2#8, 3#8, 4#8, 5#8, 6#8, 7#8] =
      .ok (.fdcWriteData 2#3 ⟨0#5, 1#1, 3#2⟩ 1#8 2#8 3#8 4#8 5#8 6#8 7#8, []) := by decide

/-- 111_00110, US = 11111_0_10. -/
theorem test_decode_fdcReadData :
    decode .fdc [0xE6#8, 0xFA#8, 1#8, 2#8, 3#8, 4#8, 5#8, 6#8, 7#8, 0x55#8] =
      .ok (.fdcReadData 7#3 ⟨31#5, 0#1, 2#2⟩ 1#8 2#8 3#8 4#8 5#8 6#8 7#8, [0x55#8]) := by decide

/-- 000_00111, US = 00000_0_01. -/
theorem test_decode_fdcRecalibrate :
    decode .fdc [0x07#8, 0x01#8] = .ok (.fdcRecalibrate 0#3 ⟨0#5, 0#1, 1#2⟩, []) := by decide

/-- 001_01000: one byte. -/
theorem test_decode_fdcSense : decode .fdc [0x28#8, 0x08#8] = .ok (.fdcSenseInterruptStatus 1#3, [0x08#8]) := by decide

/-- 010_01101, US = 00000_1_00, N SC GPL D. -/
theorem test_decode_fdcFormatTrack :
    decode .fdc [0x4D#8, 0x04#8, 2#8, 9#8, 0x50#8, 0xF6#8] =
      .ok (.fdcFormatTrack 2#3 ⟨0#5, 1#1, 0#2⟩ 2#8 9#8 0x50#8 0xF6#8, []) := by decide

/-- 000_01111, US, NCN. -/
theorem test_decode_fdcSeek : decode .fdc [0x0F#8, 0x04#8, 0x27#8] = .ok (.fdcSeek 0#3 ⟨0#5, 1#1, 0#2⟩ 0x27#8, []) := by
  decide

/-- R130: 101_10000 is in no row and stands alone. -/
theorem test_decode_fdcUnknown : decode .fdc [0xB0#8, 0x00#8] = .ok (.fdcUnknown 5#3 0x10#5, [0x00#8]) := by decide

/-- R135, the block `25 C5 31 00 07` of spec/95 2.3: drive 1, head 5, cylinder 0x331, sector 5. -/
theorem test_decode_xtcReadData : decode .xtc [0x08#8, 0x25#8, 0xC5#8, 0x31#8, 0x00#8, 0x07#8] =
    .ok (.xtcReadData ⟨0#2, 1#1, 5#5, 3#2, 5#6, 0x31#8, 0x00#8, 0x07#8⟩, []) := by decide

/-- The block `03 50 FF 11 00`: drive 0, head 3, cylinder 0x1FF, sector 0x10. -/
theorem test_decode_xtcWriteData : decode .xtc [0x0A#8, 0x03#8, 0x50#8, 0xFF#8, 0x11#8, 0x00#8] =
    .ok (.xtcWriteData ⟨0#2, 0#1, 3#5, 1#2, 0x10#6, 0xFF#8, 0x11#8, 0x00#8⟩, []) := by decide

/-- The block `1F FF FF 00 00`: head 0x1F, cylinder 0x3FF, sector 0x3F. -/
theorem test_decode_xtcSeek : decode .xtc [0x0B#8, 0x1F#8, 0xFF#8, 0xFF#8, 0x00#8, 0x00#8] =
    .ok (.xtcSeek ⟨0#2, 0#1, 0x1F#5, 3#2, 0x3F#6, 0xFF#8, 0#8, 0#8⟩, []) := by decide

/-- Bits 7:6 of `c1` are carried. -/
theorem test_decode_xtcTestReady : decode .xtc [0x00#8, 0xE0#8, 0#8, 0#8, 0#8, 0#8] =
    .ok (.xtcTestReady ⟨3#2, 1#1, 0#5, 0#2, 0#6, 0#8, 0#8, 0#8⟩, []) := by decide

theorem test_decode_xtcRecalibrate : decode .xtc [0x01#8, 0x20#8, 0#8, 0#8, 0#8, 0x05#8] =
    .ok (.xtcRecalibrate ⟨0#2, 1#1, 0#5, 0#2, 0#6, 0#8, 0#8, 5#8⟩, []) := by decide

theorem test_decode_xtcRequestSense : decode .xtc [0x03#8, 0x20#8, 0#8, 0#8, 0#8, 0#8] =
    .ok (.xtcRequestSense ⟨0#2, 1#1, 0#5, 0#2, 0#6, 0#8, 0#8, 0#8⟩, []) := by decide

/-- R137, the parameters of E6: 306 cylinders, 4 heads, reduced write 306, precompensation 0, ECC 11. -/
theorem test_decode_xtcInitDrive : decode .xtc [0x0C#8, 0x20#8, 0#8, 0#8, 0#8, 0#8,
      0x01#8, 0x32#8, 0x04#8, 0x01#8, 0x32#8, 0x00#8, 0x00#8, 0x0B#8] =
    .ok (.xtcInitDrive ⟨0#2, 1#1, 0#5, 0#2, 0#6, 0#8, 0#8, 0#8⟩ ⟨306#16, 4#8, 306#16, 0#16, 11#8⟩, []) := by decide

theorem test_decode_xtcReadBuffer : decode .xtc [0x0E#8, 0#8, 0#8, 0#8, 1#8, 2#8] =
    .ok (.xtcReadBuffer ⟨0#2, 0#1, 0#5, 0#2, 0#6, 0#8, 1#8, 2#8⟩, []) := by decide

theorem test_decode_xtcWriteBuffer : decode .xtc [0x0F#8, 0#8, 0#8, 0#8, 1#8, 2#8] =
    .ok (.xtcWriteBuffer ⟨0#2, 0#1, 0#5, 0#2, 0#6, 0#8, 1#8, 2#8⟩, []) := by decide

theorem test_decode_xtcRamDiagnostic : decode .xtc [0xE0#8, 0x20#8, 0#8, 0#8, 0#8, 0#8] =
    .ok (.xtcRamDiagnostic ⟨0#2, 1#1, 0#5, 0#2, 0#6, 0#8, 0#8, 0#8⟩, []) := by decide

theorem test_decode_xtcDriveDiagnostic : decode .xtc [0xE3#8, 0#8, 0#8, 0#8, 0#8, 0#8] =
    .ok (.xtcDriveDiagnostic ⟨0#2, 0#1, 0#5, 0#2, 0#6, 0#8, 0#8, 0#8⟩, []) := by decide

theorem test_decode_xtcControllerDiagnostic : decode .xtc [0xE4#8, 0#8, 0#8, 0#8, 0#8, 0#8] =
    .ok (.xtcControllerDiagnostic ⟨0#2, 0#1, 0#5, 0#2, 0#6, 0#8, 0#8, 0#8⟩, []) := by decide

/-- R140: an unknown opcode takes a six-byte block. -/
theorem test_decode_xtcUnknown : decode .xtc [0x05#8, 0x20#8, 0#8, 0#8, 0#8, 0#8, 0xAA#8] =
    .ok (.xtcUnknown 0x05#8 ⟨0#2, 1#1, 0#5, 0#2, 0#6, 0#8, 0#8, 0#8⟩, [0xAA#8]) := by decide

/-- R146: 0001_rrrr, 0010000_r, 0011000_r, 0111_rrrr, 10010000, 10010001, and a byte in no row. -/
theorem test_decode_atc :
    decode .atc [0x1F#8] = .ok (.atcRestore 0xF#4, []) ∧ decode .atc [0x20#8] = .ok (.atcReadData 0#1, []) ∧
    decode .atc [0x31#8] = .ok (.atcWriteData 1#1, []) ∧ decode .atc [0x73#8] = .ok (.atcSeek 3#4, []) ∧
    decode .atc [0x90#8] = .ok (.atcDiagnose, []) ∧ decode .atc [0x91#8] = .ok (.atcSetParameters, []) ∧
    decode .atc [0xEC#8] = .ok (.atcUnknown 0xEC#8, []) := by decide

/-- R81: the FDC's ports, the number low byte first. -/
theorem test_decode_fdc_ports :
    decode .portOut [0xF2#8, 0x03#8, 0x0C#8] = .ok (.fdcOutOutput 0x0C#8, []) ∧
    decode .portIn [0xF4#8, 0x03#8] = .ok (.fdcInMainStatus, []) ∧
    decode .portOut [0xF5#8, 0x03#8, 0x08#8] = .ok (.fdcOutData 0x08#8, []) ∧
    decode .portIn [0xF5#8, 0x03#8] = .ok (.fdcInData, []) ∧
    decode .portIn [0xF7#8, 0x03#8] = .ok (.fdcInInput, []) ∧
    decode .portOut [0xF7#8, 0x03#8, 0x02#8] = .ok (.fdcOutControl 0x02#8, []) := by decide

/-- R82: the XTC's ports. -/
theorem test_decode_xtc_ports :
    decode .portOut [0x20#8, 0x03#8, 0x08#8] = .ok (.xtcOutData 0x08#8, []) ∧
    decode .portIn [0x20#8, 0x03#8] = .ok (.xtcInData, []) ∧
    decode .portIn [0x21#8, 0x03#8] = .ok (.xtcInStatus, []) ∧
    decode .portOut [0x21#8, 0x03#8, 0x00#8] = .ok (.xtcOutReset 0x00#8, []) ∧
    decode .portIn [0x22#8, 0x03#8] = .ok (.xtcInConfig, []) ∧
    decode .portOut [0x22#8, 0x03#8, 0x00#8] = .ok (.xtcOutSelect 0x00#8, []) ∧
    decode .portOut [0x23#8, 0x03#8, 0x03#8] = .ok (.xtcOutPattern 0x03#8, []) ∧
    decode .portOut [0x27#8, 0x03#8, 0x01#8] = .ok (.xtcOutNoise .p327 0x01#8, []) ∧
    decode .portOut [0x2B#8, 0x03#8, 0x01#8] = .ok (.xtcOutNoise .p32B 0x01#8, []) ∧
    decode .portOut [0x2F#8, 0x03#8, 0x01#8] = .ok (.xtcOutNoise .p32F 0x01#8, []) := by decide

/-- R83: the ATC's ports. -/
theorem test_decode_atc_ports :
    decode .portIn [0xF0#8, 0x01#8] = .ok (.atcInData, []) ∧
    decode .portOut [0xF0#8, 0x01#8, 0x5A#8] = .ok (.atcOutData 0x5A#8, []) ∧
    decode .portIn [0xF1#8, 0x01#8] = .ok (.atcTaskfile .errorWprecomp none, []) ∧
    decode .portOut [0xF6#8, 0x01#8, 0xA0#8] = .ok (.atcTaskfile .driveHead (some 0xA0#8), []) ∧
    decode .portIn [0xF7#8, 0x01#8] = .ok (.atcInStatus, []) ∧
    decode .portOut [0xF7#8, 0x01#8, 0x20#8] = .ok (.atcOutCommand 0x20#8, []) ∧
    decode .portIn [0xF6#8, 0x03#8] = .ok (.atcInAltStatus, []) ∧
    decode .portOut [0xF6#8, 0x03#8, 0x04#8] = .ok (.atcOutFdr 0x04#8, []) := by decide

/-- U10, U13, R152: what is no instruction is refused by name. -/
theorem test_decode_rejects :
    decode .portIn [0xF2#8, 0x03#8] = .error (.unclaimed false 0x3F2#16) ∧
    decode .portOut [0xF4#8, 0x03#8, 0x00#8] = .error (.unclaimed true 0x3F4#16) ∧
    decode .portWide [0xF5#8, 0x03#8, 0x00#8, 0x00#8] = .error .wide ∧
    decode .fdc [0x06#8, 0x00#8] = .error .truncated ∧ decode .xtc [0x0C#8, 0#8, 0#8, 0#8, 0#8, 0#8] = .error .truncated :=
  by decide

/-! ### Fixtures: small sectors, so that a state stays small -/

/-- The images: a diskette with 128-byte sectors, a fixed disk with 4-byte sectors. -/
def images : List Image :=
  [⟨⟨40, 2, 9, 128⟩, true, true, []⟩, ⟨⟨306, 4, 17, 4⟩, true, true, []⟩]

/-- An instance with that HDC. -/
def testCfg (v : HdcVariant) : Cfg :=
  { Cfg.default with
    hdcVariant := v, driveTypeTable := [(0, ⟨306, 4, 17, 4⟩)], floppyGeometry := [⟨40, 2, 9, 128⟩] }

/-- After construction, the FDC enabled with its interrupt enable set and nothing pending. -/
def up (v : HdcVariant) : State :=
  let s := State.initial (testCfg v) images [(⟨40, 2, 9, 128⟩, some 0)] [(⟨306, 4, 17, 4⟩, 1)]
  { s with fdc := { s.fdc with out := 0x0C#8 } }

/-- The XTC with its interrupt and DMA enables set. -/
def xtcUp : State := { up .xtc with xtc := { (up .xtc).xtc with pattern := 0x03#8 } }

/-- A command block for drive `u`, one sector. -/
def blk (u : BitVec 1) : XtcBlock := ⟨0#2, u, 0#5, 0#2, 0#6, 0#8, 1#8, 0#8⟩

/-- Unit `u`, head-select 0. -/
def unit (u : BitVec 2) : UnitSelect := ⟨0#5, 0#1, u⟩

/-- The fixed disk's sector (0, 0, 1). -/
def sector1 : Handle := ⟨1, ⟨0, 0, 1⟩⟩

/-- A fixed drive inside that sector. -/
def inside (off left : Nat) : Drive :=
  { Drive.fresh 1 ⟨306, 4, 17, 4⟩ (some 1) with cur := ⟨some sector1, off, left, false⟩ }

/-- The ATC with `DATA_REQ` set. -/
def atcMoving (dir : AtcDir) (d : Drive) : State :=
  { up .atc with
    atc := { (up .atc).atc with
      status := 0x58#8, phase := .execution, dir := dir, secCount := 0x02#8, secNum := 0x01#8, driveHead := 0xA0#8 }
    fixed := [d] }

/-- Fields of the next state; nothing when the step stops. -/
def after {α : Type} (o : Out) (f : State → α) : Option α :=
  match o with
  | .next t => some (f t)
  | .fault _ => none
  | .refused _ => none

/-! ### Single steps -/

/-- F1: no result, no interrupt. -/
theorem test_specify : after (exec (.fdcSpecify 0#3 0xDF#8 0x02#8) (up .none))
    (fun t => (t.fdc.mainStatus, t.fdc.irq, t.fdc.endStatus)) = some (0x80#8, false, 0xC0#8) := by decide

/-- F2. -/
theorem test_recalibrate : after (exec (.fdcRecalibrate 0#3 (unit 0#2)) (up .none))
    (fun t => (t.fdc.mainStatus, t.fdc.irq, t.fdc.endStatus)) = some (0x80#8, true, 0x20#8) := by decide

/-- F3: unit 1 is absent. -/
theorem test_recalibrate_absent : after (exec (.fdcRecalibrate 0#3 (unit 1#2)) (up .none))
    (fun t => (t.fdc.lastUnit, t.fdc.irq, t.fdc.endStatus)) = some (1#2, false, 0x49#8) := by decide

/-- F4: the head-select bit shows in `endStatus`, the head stays. -/
theorem test_seek : after (exec (.fdcSeek 0#3 ⟨0#5, 1#1, 0#2⟩ 0x27#8) (up .none))
    (fun t => (t.fdc.endStatus, t.fdc.irq, t.floppy.map Drive.pos)) = some (0x24#8, true, [⟨39, 0, 1⟩]) := by decide

/-- F8: the two result bytes. -/
theorem test_sense : after (exec (.fdcSenseInterruptStatus 0#3) (up .none))
    (fun t => (t.fdc.mainStatus, t.fdc.fifo.buffer.take 2, t.fdc.irq)) = some (0xD0#8, [0xC0#8, 0x00#8], false) := by
  decide

/-- F13: unit 1 is absent, a result of full length, no interrupt. -/
theorem test_readData_absent :
    after (exec (.fdcReadData 0#3 (unit 1#2) 0#8 0#8 1#8 2#8 9#8 0x2A#8 0xFF#8) (up .none))
      (fun t => (t.fdc.fifo.buffer.take 7, t.fdc.fifo.totalExpected, t.fdc.irq)) =
    some ([0x49#8, 0#8, 0#8, 0#8, 0#8, 1#8, 2#8], 7, false) := by decide

/-- E5, with 128-byte sectors: nine sectors outstanding, Execution Phase, a Read session towards memory. -/
theorem test_readData : after (exec (.fdcReadData 0#3 (unit 0#2) 0#8 0#8 1#8 0#8 9#8 0x2A#8 0xFF#8) (up .none))
    (fun t => (t.fdc.mainStatus, t.floppy.map (·.cur.bytesRemaining), t.dma.fdc)) =
    some (0x10#8, [1152], some ⟨some 0, .read, true, false⟩) := by decide

/-- F15 for a write: EOT below R bounds the transfer at 0. -/
theorem test_writeData : after (exec (.fdcWriteData 0#3 (unit 0#2) 0#8 0#8 5#8 2#8 4#8 0x2A#8 0xFF#8) (up .none))
    (fun t => (t.fdc.mainStatus, t.floppy.map (·.cur.bytesRemaining), t.dma.fdc)) =
    some (0x10#8, [0], some ⟨some 0, .write, false, false⟩) := by decide

/-- R203, the request of P2: filler and bound are loaded, the position's cylinder and sector stay. -/
theorem test_formatTrack : after (exec (.fdcFormatTrack 0#3 (unit 0#2) 0#8 9#8 0x50#8 0xF6#8) (up .none))
    (fun t => (t.floppy.map (·.fmt.filler), t.floppy.map (·.sectorEnd), t.dma.fdc)) =
    some ([0xF6#8], [9#8], some ⟨some 0, .format, false, false⟩) := by decide

/-- F10. -/
theorem test_fdcUnknown : after (exec (.fdcUnknown 0#3 0x04#5) (up .none))
    (fun t => (t.fdc.mainStatus, t.fdc.irq, t.diag)) = some (0x80#8, false, [.fdcUnsupported 0x04#8]) := by decide

/-- Spec/95 2.1: leaving reset raises the interrupt exactly when the byte enables it. -/
theorem test_outOutput : after (exec (.fdcOutOutput 0x0C#8) { up .none with fdc := .initial Cfg.default })
      (fun t => (t.fdc.irq, t.fdc.endStatus)) = some (true, 0xC0#8) ∧
    after (exec (.fdcOutOutput 0x04#8) { up .none with fdc := .initial Cfg.default }) (fun t => t.fdc.irq) = some false :=
  by decide

/-- The disabled FDC answers 80. -/
theorem test_inMainStatus :
    after (exec .fdcInMainStatus { up .none with fdc := .initial Cfg.default }) State.answer = some (.byte 0x80#8) := by
  decide

/-- Spec/95 2.1: the first byte of a SEEK. -/
theorem test_outData : after (exec (.fdcOutData 0x0F#8) (up .none))
    (fun t => (t.fdc.mainStatus, t.fdc.fifo.writeIndex, t.fdc.fifo.totalExpected)) = some (0x90#8, 1, 3) := by decide

/-- R168: the last result byte. -/
theorem test_inData :
    after (exec .fdcInData { up .none with fdc := { (up .none).fdc with
      phase := .result, irq := true, fifo := ⟨[0xC0#8, 0x27#8, 0#8], 2, 1, 2⟩ } })
      (fun t => (t.answer, t.fdc.phase, t.fdc.irq, t.fdc.fifo)) =
    some (.byte 0x27#8, .command, false, ⟨[0xC0#8, 0x27#8, 0#8], 0, 0, 0⟩) := by decide

/-- U1, U2. -/
theorem test_fdc_faults : exec .fdcInData (up .none) = .fault (.protocolViolation .dataReadPhase) ∧
    exec (.fdcOutData 0x08#8) { up .none with fdc := { (up .none).fdc with phase := .execution } } =
      .fault (.protocolViolation .dataWritePhase) := ⟨rfl, rfl⟩

/-- Bit 7 of the Input byte. -/
theorem inputByte_changed (c : Bool) (f : BitVec 7) : (inputByte c f).getLsbD 7 = c := by
  unfold inputByte
  rw [BitVec.getLsbD_append]
  cases c <;> rfl

/-- Z3, Z4: bit 7 is the disk-change flag, whatever the other bits are. -/
theorem test_inInput (v : Byte) (h : v = inputByte true (Config.freeInputBits 0)) :
    after (exec .fdcInInput { up .none with floppy := [{ Drive.fresh 1 ⟨40, 2, 9, 128⟩ none with diskChanged := true }] })
      State.answer = some (.byte v) ∧ v.getLsbD 7 = true := by
  subst h
  exact ⟨rfl, inputByte_changed true _⟩

/-- Z6. -/
theorem test_outControl : after (exec (.fdcOutControl 0x02#8) (up .none)) (fun t => t.fdc.rate) = some 0x02#8 := by decide

/-- X1, X2. -/
theorem test_xtcTestReady :
    after (exec (.xtcTestReady (blk 0#1)) (up .xtc)) (fun t => (t.xtc.status, t.xtc.fifo.buffer.head?)) =
      some (0x0F#8, some 0x00#8) ∧
    after (exec (.xtcTestReady (blk 1#1)) xtcUp) (fun t => (t.xtc.irq, t.xtc.fifo.buffer.head?)) =
      some (false, some 0x22#8) := by decide

/-- X3: cylinder 0x131, head 2, the sector stays. -/
theorem test_xtcSeek : after (exec (.xtcSeek ⟨0#2, 0#1, 2#5, 1#2, 0#6, 0x31#8, 0#8, 0#8⟩) (up .xtc))
    (fun t => t.fixed.map Drive.pos) = some [⟨305, 2, 0⟩] := by decide

/-- X3: the head and the sector stay. -/
theorem test_xtcRecalibrate :
    after (exec (.xtcRecalibrate (blk 0#1)) { up .xtc with fixed := [{ inside 0 4 with pos := ⟨305, 2, 0⟩ }] })
      (fun t => t.fixed.map Drive.pos) = some [⟨0, 2, 0⟩] := by decide

/-- E3: the latched code survives; an absent drive. -/
theorem test_xtcRequestSense :
    after (exec (.xtcRequestSense (blk 0#1)) { up .xtc with
        fixed := [{ inside 0 4 with pos := ⟨0x3FF, 0, 0⟩, senseCode := .noSectorFound }] })
      (fun t => (t.xtc.fifo.buffer.take 5, t.fixed.map Drive.senseCode)) =
      some ([0x14#8, 0x00#8, 0xC0#8, 0xFF#8, 0x00#8], [.noSectorFound]) ∧
    after (exec (.xtcRequestSense (blk 1#1)) (up .xtc)) (fun t => (t.xtc.fifo.buffer.take 5, t.xtc.fifo.totalExpected)) =
      some ([0x04#8, 0x20#8, 0x00#8, 0x00#8, 0x20#8], 5) := by decide

/-- R243: count 0 is 256 sectors; X4: DMA disabled. -/
theorem test_xtcReadData :
    after (exec (.xtcReadData { blk 0#1 with count := 0#8 }) xtcUp)
      (fun t => (t.fixed.map (·.cur.bytesRemaining), t.xtc.phaseStatus)) = some ([1024], 0x18#8) ∧
    after (exec (.xtcReadData (blk 0#1)) (up .xtc)) (fun t => (t.xtc.fifo.buffer.head?, t.fixed.map Drive.senseCode)) =
      some (some 0x02#8, [.notReady]) := by decide

/-- R244: the position of the block, sectors numbered from 0. -/
theorem test_xtcWriteData : after (exec (.xtcWriteData ⟨0#2, 0#1, 3#5, 1#2, 0x10#6, 0xFF#8, 0x11#8, 0#8⟩) xtcUp)
    (fun t => (t.fixed.map Drive.pos, t.dma.xtc)) =
    some ([⟨511, 3, 16⟩], some ⟨some 0, .write, false, false⟩) := by decide

/-- X11: one warning, the sectors per track stay. -/
theorem test_xtcInitDrive :
    after (exec (.xtcInitDrive (blk 0#1) ⟨512#16, 6#8, 128#16, 128#16, 11#8⟩) (up .xtc))
      (fun t => (t.fixed.map (·.geo), t.diag)) = some ([⟨512, 6, 17, 4⟩], [.geometryMismatch 0]) := by decide

/-- E6: the flag is consumed, the parameters of drive 1 are stored. -/
theorem test_xtcInitDrive_armed :
    after (exec (.xtcInitDrive (blk 1#1) ⟨306#16, 4#8, 306#16, 0#16, 11#8⟩)
        { up .xtc with xtc := { (up .xtc).xtc with allowInitFail := true } })
      (fun t => (t.xtc.fifo.buffer.head?, t.xtc.allowInitFail, t.xtc.initParams1)) =
    some (some 0x22#8, false, ⟨306#16, 4#8, 306#16, 0#16, 11#8⟩) := by decide

/-- X8. -/
theorem test_xtcBuffers :
    after (exec (.xtcReadBuffer (blk 0#1)) xtcUp) (fun t => (t.xtc.bufIndex, t.dma.xtc)) =
      some (0, some ⟨none, .buffer, true, false⟩) ∧
    after (exec (.xtcWriteBuffer (blk 0#1)) xtcUp) (fun t => t.dma.xtc) = some (some ⟨none, .buffer, false, false⟩) := by
  decide

/-- X9: success, for an absent drive too. -/
theorem test_xtcDiagnostics :
    after (exec (.xtcRamDiagnostic (blk 1#1)) xtcUp) (fun t => (t.xtc.fifo.buffer.head?, t.xtc.irq)) =
      some (some 0x20#8, true) ∧
    after (exec (.xtcDriveDiagnostic (blk 0#1)) xtcUp) (fun t => t.xtc.fifo.buffer.head?) = some (some 0x00#8) ∧
    after (exec (.xtcControllerDiagnostic (blk 1#1)) xtcUp) (fun t => t.xtc.fifo.buffer.head?) = some (some 0x20#8) := by
  decide

/-- X10. -/
theorem test_xtcUnknown : after (exec (.xtcUnknown 0x05#8 (blk 0#1)) xtcUp)
    (fun t => (t.xtc.status, t.xtc.fifo.buffer.head?, t.diag)) =
    some (0x2F#8, some 0x02#8, [.xtcUnsupported 0x05#8]) := by decide

/-- Spec/95 2.3: the Status values, the pattern and the select. -/
theorem test_xtc_registers :
    after (exec .xtcInStatus (up .xtc)) State.answer = some (.byte 0x00#8) ∧
    after (exec (.xtcOutSelect 0x00#8) (up .xtc)) (fun t => t.xtc.status) = some 0x0D#8 ∧
    after (exec (.xtcOutData 0x00#8) (up .xtc)) (fun t => t.xtc.status) = some 0x0D#8 ∧
    after (exec (.xtcOutPattern 0x02#8) (up .xtc)) (fun t => t.xtc.pattern) = some 0x02#8 ∧
    after (exec .xtcInConfig (up .xtc)) State.answer = some (.byte 0x00#8) ∧
    exec (.xtcOutNoise .p32B 0xFF#8) (up .xtc) = .next (up .xtc) := ⟨by decide, by decide, by decide, by decide, by decide, rfl⟩

/-- R234: the last result byte clears the interrupt and the select. -/
theorem test_xtcInData :
    after (exec .xtcInData { up .xtc with xtc := { (up .xtc).xtc with
        phase := .result, irq := true, selected := true, fifo := ⟨[0x22#8], 1, 0, 1⟩ } })
      (fun t => (t.answer, t.xtc.status, t.xtc.selected)) = some (.byte 0x22#8, 0x00#8, false) := by decide

/-- X13: a reset drops the session. -/
theorem test_xtcOutReset :
    after (exec (.xtcOutReset 0x00#8) { xtcUp with
        xtc := { xtcUp.xtc with phase := .execution }, dma := ⟨none, some ⟨none, .buffer, true, true⟩, true, true⟩ })
      (fun t => (t.xtc.status, t.xtc.pattern, t.dma.xtc)) = some (0x00#8, 0x00#8, none) := by decide

/-- A2, A3: RESTORE of an existing and of an absent drive. -/
theorem test_atcRestore :
    after (exec (.atcRestore 0#4) (up .atc)) (fun t => (t.atc.status, t.atc.irq)) = some (0x50#8, true) ∧
    after (exec (.atcRestore 0#4) { up .atc with atc := { (up .atc).atc with driveHead := 0xB0#8 } })
      (fun t => (t.atc.status, t.atc.error, t.atc.irq)) = some (0x01#8, 0x04#8, false) := by decide

/-- A4: the sector stays. -/
theorem test_atcSeek :
    after (exec (.atcSeek 0#4) { up .atc with
        atc := { (up .atc).atc with cylLo := 0x31#8, cylHi := 0x01#8, driveHead := 0xA2#8, secNum := 0x05#8 } })
      (fun t => (t.fixed.map Drive.pos, t.atc.status)) = some ([⟨305, 2, 1⟩], 0x50#8) := by decide

/-- A10: cylinder 1023 is not in the image. -/
theorem test_atcReadData :
    after (exec (.atcReadData 0#1) { up .atc with
        atc := { (up .atc).atc with cylLo := 0xFF#8, cylHi := 0x03#8, secNum := 0x01#8, secCount := 0x01#8 } })
      (fun t => (t.atc.status, t.atc.error, t.atc.phase, t.atc.irq)) = some (0x51#8, 0x10#8, .command, true) := by decide

/-- A11: no interrupt at the first data request. -/
theorem test_atcWriteData :
    after (exec (.atcWriteData 0#1) { up .atc with atc := { (up .atc).atc with secNum := 0x01#8, secCount := 0x01#8 } })
      (fun t => (t.atc.status, t.atc.irq, t.atc.dir)) = some (0x58#8, false, .write) := by decide

/-- A6: one warning, the programmed values win. -/
theorem test_atcSetParameters :
    after (exec .atcSetParameters { up .atc with
        atc := { (up .atc).atc with secCount := 0x1A#8, driveHead := 0xA7#8 } })
      (fun t => (t.fixed.map (·.geo), t.diag, t.atc.status)) =
    some ([⟨306, 8, 26, 4⟩], [.geometryMismatch 0], 0x50#8) := by decide

/-- A7, A8. -/
theorem test_atcDiagnose_unknown :
    after (exec .atcDiagnose (up .atc)) (fun t => (t.atc.error, t.atc.status, t.atc.irq)) =
      some (0x01#8, 0x50#8, true) ∧
    after (exec (.atcUnknown 0x40#8) (up .atc)) (fun t => (t.atc.error, t.atc.status, t.diag)) =
      some (0x04#8, 0x51#8, [.atcUnsupported 0x40#8]) := by decide

/-- A2: 0x1F7 acknowledges, 0x3F6 does not. -/
theorem test_atc_status :
    after (exec .atcInStatus { up .atc with atc := { (up .atc).atc with irq := true } })
      (fun t => (t.answer, t.atc.irq)) = some (.byte 0x50#8, false) ∧
    after (exec .atcInAltStatus { up .atc with atc := { (up .atc).atc with irq := true } })
      (fun t => (t.answer, t.atc.irq)) = some (.byte 0x50#8, true) := by decide

/-- R281: 0x1F1 is written as the precompensation and read as the error. -/
theorem test_atcTaskfile :
    after (exec (.atcTaskfile .errorWprecomp (some 0x7F#8)) (up .atc)) (fun t => (t.atc.wprecomp, t.atc.error)) =
      some (0x7F#8, 0x00#8) ∧
    after (exec (.atcTaskfile .errorWprecomp none)
      { up .atc with atc := { (up .atc).atc with error := 0x10#8, wprecomp := 0x7F#8 } }) State.answer =
      some (.byte 0x10#8) := by decide

/-- R283, A15. -/
theorem test_atcOutCommand :
    after (exec (.atcOutCommand 0x90#8) (up .atc)) (fun t => t.atc.error) = some 0x01#8 ∧
    exec (.atcOutCommand 0x20#8) (atcMoving .read (inside 0 4)) = .fault (.protocolViolation .atcAccess) :=
  ⟨by decide, rfl⟩

/-- A14: the reset of the ATC. -/
theorem test_atcOutFdr : after (exec (.atcOutFdr 0x04#8) (atcMoving .write (inside 2 8)))
    (fun t => (t.atc.phase, t.atc.status, t.atc.secCount, t.atc.fdr)) = some (.command, 0x50#8, 0x00#8, 0x04#8) := by
  decide

/-- R288, A12 for a read: the first sector's last byte shows the next sector, with an interrupt. -/
theorem test_atcInData : after (exec .atcInData (atcMoving .read (inside 3 8)))
    (fun t => (t.answer, t.atc.status, t.atc.secCount, t.atc.secNum, t.atc.irq)) =
    some (.byte 0x00#8, 0x58#8, 0x01#8, 0x02#8, true) := by decide

/-- A11: the last byte of the last sector; the byte stands in the image. -/
theorem test_atcOutData : after (exec (.atcOutData 0x5A#8) (atcMoving .write (inside 3 4)))
    (fun t => (t.atc.status, t.atc.phase, t.atc.irq, t.store.cells.read (diskAddress sector1 3))) =
    some (0x50#8, .command, true, 0x5A#8) := by decide

/-- B8, X7: a session closed short. -/
theorem test_close_short :
    after (runAgent (.dmaClose .xtc false) { xtcUp with
        xtc := { xtcUp.xtc with phase := .execution, fifo := ⟨[8#8, 0#8, 0#8, 0#8, 2#8, 0#8], 6, 6, 6⟩ }
        fixed := [{ inside 0 4 with cur := ⟨none, 0, 4, false⟩ }]
        dma := ⟨none, some ⟨some 0, .read, true, true⟩, true, true⟩ })
      (fun t => (t.xtc.fifo.buffer.head?, t.xtc.irq, t.fixed.map Drive.senseCode, t.dma.xtc)) =
    some (some 0x02#8, false, [.notReady], none) := by decide

/-- R454: the end of a buffer transfer replaces the latched code of the drive its block addresses. -/
theorem test_buffer_close_latches :
    after (runAgent (.dmaClose .xtc true) { xtcUp with
        xtc := { xtcUp.xtc with phase := .execution, fifo := ⟨[0x0F#8, 0#8, 0#8, 0#8, 0#8, 0#8], 6, 6, 6⟩ }
        fixed := [{ inside 0 4 with senseCode := .noSectorFound }]
        dma := ⟨none, some ⟨none, .buffer, false, true⟩, true, true⟩ })
      (fun t => (t.xtc.fifo.buffer.head?, t.fixed.map Drive.senseCode)) = some (some 0x00#8, [.none]) := by decide

/-- R440, R351, R45, R103, R7: an instance, and descriptors that give none: no peer, a zero in a row, an image that is not
there, one image on two Drives, five floppy units. -/
theorem test_construct :
    (construct (testCfg .atc) images [some 0] [1] true).isSome = true ∧
    construct (testCfg .atc) images [some 0] [1] false = none ∧
    construct { testCfg .atc with driveTypeTable := [(0, ⟨306, 4, 17, 0⟩)] } images [some 0] [1] true = none ∧
    construct (testCfg .atc) images [some 0] [2] true = none ∧
    construct (testCfg .atc) images [some 0] [0] true = none ∧
    construct { testCfg .atc with fdcDrives := 5, floppyGeometry := List.replicate 5 ⟨40, 2, 9, 128⟩ } images
      [some 0, none, none, none, none] [1] true = none := by decide

/-- R364: an image with an entry numbered 0 still has no sector 0. -/
theorem test_no_sector_zero :
    (Image.sectorLen ⟨⟨40, 2, 9, 128⟩, true, true, [⟨⟨0, 0, 0⟩, some 128⟩]⟩ ⟨0, 0, 0⟩) = none := by decide

/-- Spec/95 2.8. -/
theorem test_notify :
    after (runAgent (.notify 0x13#8 0x00#8 0x81#8) (up .xtc)) (fun t => t.xtc.allowInitFail) = some true ∧
    after (runAgent (.notify 0x13#8 0x00#8 0x80#8) (up .xtc)) (fun t => t.xtc.allowInitFail) = some false ∧
    after (runAgent (.notify 0x40#8 0x00#8 0x00#8) { up .xtc with masked := [6] }) State.answer = some .skip := by decide

/-- The words of the opcode table (R120): where a write and a read share a port the word stands for the write. -/
theorem test_tableWords : decodeTableWord 8 0x91 = some .atcSetParameters ∧
    decodeTableWord 8 0x0F = some (.fdcSeek 0#3 (unit 0#2) 0#8) ∧
    decodeTableWord 16 0x3F4 = some .fdcInMainStatus ∧ decodeTableWord 16 0x3F5 = some (.fdcOutData 0#8) := by decide

/-- A table word placed is the next step's instruction. -/
theorem test_withFetchWord :
    after (step ((up .xtc).withFetchWord 8 0x91)) (fun t => t.atc.command) = some 0x91#8 := by decide

/-- Spec/95 2.6: `AdvanceSector`. -/
theorem test_advance :
    (⟨0, 0, 9⟩ : Pos).advance ⟨40, 2, 9, 512⟩ 1 = ⟨0, 1, 1⟩ ∧ (⟨39, 1, 9⟩ : Pos).advance ⟨40, 2, 9, 512⟩ 1 = ⟨40, 0, 1⟩ ∧
    (⟨0, 0, 16⟩ : Pos).advance ⟨306, 4, 17, 512⟩ 0 = ⟨0, 1, 0⟩ ∧
    (⟨0, 0, 16⟩ : Pos).advance ⟨306, 4, 17, 512⟩ 1 = ⟨0, 0, 17⟩ ∧
    (⟨0, 0, 1⟩ : Pos).advance ⟨0, 0, 0, 512⟩ 1 = ⟨1, 0, 1⟩ := by decide

/-! ### Witnesses: the hypotheses of each statement can be met, clause by clause -/

/-- FdcSpecify, FdcRecalibrateSeek, FdcSenseInterruptStatus, FdcUnknownOpcode, FdcReadWriteData, FdcFormatTrack. -/
theorem fdcIdle_up (v : HdcVariant) : FdcIdle (up v) := by
  cases v <;> exact ⟨by decide, rfl, rfl, by decide⟩

/-- XtcDriveCommands to XtcUnknownOpcode. -/
theorem xtcIdle_up : XtcIdle (up .xtc) := ⟨rfl, rfl, rfl, by decide⟩

/-- The same with both enables set. -/
theorem xtcIdle_xtcUp : XtcIdle xtcUp := ⟨rfl, rfl, rfl, by decide⟩

/-- AtcCommandWrite to AtcDiagnoseAndUnknown. -/
theorem atcIdle_up : AtcIdle (up .atc) := ⟨rfl, rfl⟩

/-- A floppy unit with no image. -/
def bare : Drive := Drive.fresh 1 ⟨40, 2, 9, 128⟩ none

theorem witness_DecodeOfEncode : (Instr.fdcUnknown 7#3 0x1F#5).wf = true ∧ (Instr.xtcUnknown 0xFF#8 (blk 1#1)).wf = true ∧
    (Instr.atcUnknown 0xFF#8).wf = true ∧ Instr.fdcInInput.wf = true := by decide

theorem witness_EncodeOfDecode : decode .portOut [0xF7#8, 0x03#8, 0xFF#8, 0x00#8] = .ok (.fdcOutControl 0xFF#8, [0x00#8]) := by
  decide

theorem witness_StepRunsTheInstruction :
    ∃ (s : State) (sp : Space) (bs left : List Byte) (rest : List Event) (i : Instr),
      s.input = .host sp bs :: rest ∧ decode sp bs = .ok (i, left) ∧ i.wf = true ∧ left ≠ [] :=
  ⟨{ up .atc with input := [.host .atc [0x90#8, 0x91#8]] }, .atc, [0x90#8, 0x91#8], [0x91#8], [], .atcDiagnose,
    rfl, by decide, rfl, by decide⟩

theorem witness_StepOfTheOtherAgents : (up .none).input = [] ∧
    ({ up .none with input := [.agent .save] } : State).input = .agent .save :: [] ∧
    decode .fdc [0x06#8] = .error .truncated := ⟨rfl, rfl, by decide⟩

/-- A unit that exists and one that does not; for the transfer commands also one that is not ready, by its image or by
the select bits. -/
theorem witness_fdc_units :
    (∃ d, (up .none).floppy[0]? = some d ∧ d.disk ≠ none ∧ (up .none).fdc.out.extractLsb' 0 2 = 0#2) ∧
    (∃ d, ({ up .none with floppy := [bare] } : State).floppy[0]? = some d ∧ d.disk = none) ∧
    ({ up .none with fdc := { (up .none).fdc with out := 0x0D#8 } } : State).fdc.out.extractLsb' 0 2 ≠ 0#2 ∧
    (up .none).floppy[3]? = none ∧ (Instr.fdcUnknown 0#3 0x1F#5).wf = true :=
  ⟨⟨_, rfl, by decide, by decide⟩, ⟨_, rfl, rfl⟩, by decide, rfl, by decide⟩

/-- ReadsWithoutSideEffect, InputRead, AcknowledgingReads, PlainRegisterWrites, HdcResets. -/
theorem witness_ports : (up .xtc).cfg.hdcVariant = .xtc ∧ (up .atc).cfg.hdcVariant = .atc ∧
    (up .none).cfg.hasRatePort = true ∧ (up .none).fdc.enabled = true ∧
    ({ up .none with fdc := { (up .none).fdc with phase := .result } } : State).fdc.phase = .result ∧
    ({ up .xtc with xtc := { (up .xtc).xtc with phase := .result } } : State).xtc.phase = .result := by decide

/-- A first byte that leaves the request open, one that completes it, and a sixth byte of a block. -/
theorem witness_DataPortCollects : (up .xtc).fdc.phase = .command ∧ (up .xtc).xtc.phase = .command ∧
    (up .xtc).fdc.fifo.writeIndex + 1 ≠ fdcReqLen 0x0F#8 ∧ (up .xtc).fdc.fifo.writeIndex + 1 = fdcReqLen 0x08#8 ∧
    (up .xtc).xtc.fifo.writeIndex + 1 ≠ 6 ∧
    ({ up .xtc with xtc := { (up .xtc).xtc with fifo := ⟨[0#8], 5, 0, 6⟩ } } : State).xtc.fifo.writeIndex + 1 =
      ({ up .xtc with xtc := { (up .xtc).xtc with fifo := ⟨[0#8], 5, 0, 6⟩ } } : State).xtc.fifo.totalExpected := by decide

/-- FdcOutputWrite, HdcResets: both values of the bit that decides. -/
theorem witness_resetBits : (0xFB#8).getLsbD 2 = false ∧ (0x04#8).getLsbD 2 = true := by decide

theorem witness_UndefinedPortAccesses :
    ({ up .xtc with fdc := { (up .xtc).fdc with phase := .execution } } : State).fdc.phase ≠ .command ∧
    (up .xtc).fdc.phase ≠ .result ∧ ({ up .xtc with fdc := .initial Cfg.default } : State).fdc.enabled = false ∧
    ({ up .xtc with xtc := { (up .xtc).xtc with phase := .result } } : State).xtc.phase ≠ .command ∧
    (atcMoving .read (inside 0 4)).atc.phase = .execution ∧ (up .atc).atc.phase ≠ .execution ∧
    (Instr.fdcSenseInterruptStatus 0#3).space = .fdc ∧ (Instr.xtcTestReady (blk 0#1)).space = .xtc ∧
    Instr.atcDiagnose.space = .atc := by decide

theorem witness_UnclaimedPortsAreRefused :
    ({ up .none with cfg := { testCfg .none with hasRatePort := false } } : State).cfg.hasRatePort = false ∧
    (up .atc).cfg.hdcVariant ≠ .xtc ∧ (Cfg.withPort (up .atc).cfg .xtcInData).hdcVariant = .xtc ∧
    (up .xtc).cfg.hdcVariant ≠ .atc ∧ (Cfg.withPort (up .xtc).cfg .atcInData).hdcVariant = .atc := by decide

/-- Drive 0 exists, drive 1 does not; the DMA enable set and clear; the flag armed and not. -/
theorem witness_xtc_drives : (∃ d, (up .xtc).fixed[(0#1).toNat]? = some d) ∧ (up .xtc).fixed[(1#1).toNat]? = none ∧
    xtcUp.xtc.pattern.getLsbD 0 = true ∧ (up .xtc).xtc.pattern.getLsbD 0 = false ∧
    (up .xtc).xtc.allowInitFail = false ∧
    ({ up .xtc with xtc := { (up .xtc).xtc with allowInitFail := true } } : State).xtc.allowInitFail = true ∧
    (Instr.xtcUnknown 0xFF#8 (blk 0#1)).wf = true := ⟨⟨_, rfl⟩, rfl, by decide, by decide, rfl, rfl, by decide⟩

/-- A store whose fixed disk answers the next lookup `pending` and fails the next read or write. -/
def balky : Store := ⟨[⟨⟨40, 2, 9, 128⟩, true, true, []⟩, ⟨⟨306, 4, 17, 4⟩, true, false, []⟩], [], ⟨[true], [true]⟩⟩

/-- A store whose fixed disk is read-only. -/
def readOnly : Store := ⟨[⟨⟨40, 2, 9, 128⟩, true, true, []⟩, ⟨⟨306, 4, 17, 4⟩, false, true, []⟩], [], ⟨[], []⟩⟩

/-- AtcRestoreSeek, AtcReadWriteData, AtcSetParameters: drive 0 exists, drive 1 does not; the three answers of a
lookup. -/
theorem witness_AtcReadWriteData :
    (∃ d, (up .atc).fixed[((up .atc).atc.driveHead.extractLsb' 4 1).toNat]? = some d ∧ d.disk = some 1 ∧
      1 ≤ d.geo.bytesPerSector) ∧
    (up .atc).fixed[((0xB0#8).extractLsb' 4 1).toNat]? = none ∧
    ((up .atc).store.diskSeek 1 ⟨0, 0, 17⟩ 4).1 = .found ⟨1, ⟨0, 0, 17⟩⟩ ∧
    ((up .atc).store.diskSeek 1 ⟨0, 0, 18⟩ 4).1 = .missing ∧ ((up .atc).store.diskSeek 1 ⟨0, 0, 0⟩ 4).1 = .missing ∧
    (balky.diskSeek 1 ⟨0, 0, 1⟩ 4).1 = .pending ∧ (Instr.atcUnknown 0x00#8).wf = true :=
  ⟨⟨_, rfl, rfl, by decide⟩, by decide, by decide, by decide, by decide, by decide, by decide⟩

/-- The first byte and the last byte of the last sector; an error recorded; a failed read. -/
theorem witness_AtcDataRead :
    (∃ d, (atcMoving .read (inside 0 4)).fixed[((0xA0#8).extractLsb' 4 1).toNat]? = some d ∧
      d.cur.activeSector = some sector1 ∧ d.errorCode = .none ∧
      d.cur.byteOffset + 1 ≠ d.geo.bytesPerSector) ∧
    (atcMoving .read (inside 0 4)).cfg.hdcVariant = .atc ∧ (atcMoving .read (inside 0 4)).atc.phase = .execution ∧
    (atcMoving .read (inside 0 4)).atc.dir = .read ∧ (atcMoving .read (inside 0 4)).atc.status.getLsbD 3 = true ∧
    (inside 3 4).cur.byteOffset + 1 = (inside 3 4).geo.bytesPerSector ∧
    (inside 3 4).cur.bytesRemaining = (inside 3 4).geo.bytesPerSector ∧
    ((up .atc).store.diskRead sector1 3).1 = some 0x00#8 ∧ (balky.diskRead sector1 0).1 = none ∧
    ({ inside 0 4 with errorCode := .crcError } : Drive).errorCode ≠ .none := 
  ⟨⟨_, rfl, rfl, rfl, by decide⟩, by decide, by decide, by decide, by decide, by decide, by decide, by decide,
    by decide, by decide⟩

theorem witness_AtcDataWrite :
    (atcMoving .write (inside 3 4)).atc.dir = .write ∧ (inside 3 4).disk = some 1 ∧
    (up .atc).store.writable 1 = true ∧ readOnly.writable 1 = false ∧
    ((up .atc).store.diskWrite sector1 3 0xFF#8).1 = true ∧ (balky.diskWrite sector1 0 0xFF#8).1 = false ∧
    Memory.wf (up .atc).store.cells = true := by decide

/-- The boundary of a sector that is not the last: found, missing (sector 18 of the track), pending. -/
theorem witness_AtcSectorBoundary :
    (inside 3 8).cur.byteOffset + 1 = (inside 3 8).geo.bytesPerSector ∧
    (inside 3 8).geo.bytesPerSector < (inside 3 8).cur.bytesRemaining ∧ (inside 3 8).errorCode = .none ∧
    (up .atc).store.diskRead sector1 3 = (some 0x00#8, (up .atc).store) ∧
    ((up .atc).store.diskWrite sector1 3 0x01#8).1 = true ∧
    ((up .atc).store.diskSeek 1 ⟨0, 0, 2⟩ 4).1 = .found ⟨1, ⟨0, 0, 2⟩⟩ ∧
    ((up .atc).store.diskSeek 1 ⟨306, 0, 1⟩ 4).1 = .missing ∧ (balky.diskSeek 1 ⟨0, 0, 2⟩ 4).1 = .pending := by decide

/-- The statements with a lookup: a geometry without a 0, and one with. -/
theorem witness_lookup_geometries :
    ¬ ((inside 0 4).geo.cylinders = 0 ∨ (inside 0 4).geo.heads = 0 ∨ (inside 0 4).geo.sectorsPerTrack = 0) ∧
    ({ inside 0 4 with geo := ⟨306, 4, 0, 4⟩ } : Drive).geo.sectorsPerTrack = 0 := by decide

/-- spec/93 U8: sector 1 of the image is there, and a READ_DATA of it ends `NoSectorFound` while the drive's number of
sectors per track is 0. -/
theorem test_zero_geometry_finds_no_sector :
    (after (exec (.atcReadData 0#1) { up .atc with atc := { (up .atc).atc with secNum := 1#8, secCount := 1#8 } })
      fun t => (t.atc.status, t.atc.error)) = some (0x58#8, 0x00#8) ∧
    (after (exec (.atcReadData 0#1) { up .atc with
      atc := { (up .atc).atc with secNum := 1#8, secCount := 1#8 }
      fixed := (up .atc).fixed.map fun d => { d with geo := ⟨306, 4, 0, 4⟩ } })
      fun t => (t.atc.status, t.atc.error)) = some (0x51#8, 0x10#8) := by decide

/-- A state with an open session of that controller, on unit 0. -/
def inSession (c : Chan) (dir : Direction) (toMemory engaged : Bool) (d : Drive) : State :=
  match c with
  | .fdc => { up .none with
      fdc := { (up .none).fdc with phase := .execution }, floppy := [d],
      dma := ⟨some ⟨some 0, dir, toMemory, engaged⟩, none, true, true⟩ }
  | .xtc => { xtcUp with
      xtc := { xtcUp.xtc with phase := .execution }, fixed := [d],
      dma := ⟨none, some ⟨some 0, dir, toMemory, engaged⟩, true, true⟩ }

theorem witness_DmaStepsEnabled :
    (inSession .fdc .read true false (inside 0 4)).dma.fdc = some ⟨some 0, .read, true, false⟩ ∧
    (inSession .xtc .write false true (inside 0 4)).dma.xtc = some ⟨some 0, .write, false, true⟩ ∧
    (up .none).dma.fdc = none ∧
    (∃ d, (inSession .fdc .read true true { bare with cur := ⟨none, 0, 4, true⟩ }).drive? (.floppy 0) = some d ∧
      d.cur.pending = true) := ⟨rfl, rfl, rfl, ⟨_, rfl, rfl⟩⟩

/-- An error recorded; no image; nothing left; a lookup that finds, misses and waits (a fixed drive of the XTC numbers its
sectors from 0, a floppy from 1); a byte inside a sector and its last byte. -/
theorem witness_DmaPullMovesOneByte :
    (inSession .fdc .read true true bare).session .fdc = some ⟨some 0, .read, true, true⟩ ∧
    (inSession .fdc .read true true bare).drive? (Chan.fdc.drive 0) = some bare ∧
    bare.cur.pending = false ∧ bare.errorCode = .none ∧ bare.cur.activeSector = none ∧ bare.disk = none ∧
    ({ bare with disk := some 0 } : Drive).cur.bytesRemaining = 0 ∧
    0 < ({ bare with cur := ⟨none, 0, 128, false⟩ } : Drive).cur.bytesRemaining ∧
    (inSession .xtc .read true true (inside 0 4)).session .xtc = some ⟨some 0, .read, true, true⟩ ∧
    (inSession .xtc .read true true (inside 0 4)).drive? (Chan.xtc.drive 0) = some (inside 0 4) ∧
    (up .xtc).store.diskSeek 1 ⟨0, 0, 16 + 1 - 0⟩ 4 = (.found ⟨1, ⟨0, 0, 17⟩⟩, (up .xtc).store) ∧
    (up .xtc).store.diskSeek 0 ⟨0, 0, 0 + 1 - 1⟩ 128 = (.missing, (up .xtc).store) ∧
    (balky.diskSeek 1 ⟨0, 0, 1⟩ 4).1 = .pending ∧
    ((up .xtc).store.diskRead sector1 0).1 = some 0x00#8 ∧ (balky.diskRead sector1 0).1 = none ∧
    (inside 0 4).cur.byteOffset + 1 ≠ (inside 0 4).geo.bytesPerSector ∧
    (inside 3 4).cur.byteOffset + 1 = (inside 3 4).geo.bytesPerSector := by decide

theorem witness_DmaPushMovesOneByte :
    (inSession .fdc .write false true bare).session .fdc = some ⟨some 0, .write, false, true⟩ ∧
    (inSession .xtc .write false true (inside 3 4)).session .xtc = some ⟨some 0, .write, false, true⟩ ∧
    readOnly.writable 1 = false ∧ (up .xtc).store.writable 1 = true ∧
    ((up .xtc).store.diskWrite sector1 0 0x01#8).1 = true ∧ (balky.diskWrite sector1 0 0x01#8).1 = false := by decide

/-- The buffer's first, last and no cell left. -/
theorem witness_DmaBufferMovesOneByte :
    ({ xtcUp with dma := ⟨none, some ⟨none, .buffer, true, true⟩, true, true⟩ } : State).session .xtc =
      some ⟨none, .buffer, true, true⟩ ∧
    xtcUp.xtc.bufIndex < 512 ∧ (∃ x, xtcUp.xtc.sectorBuffer[0]? = some x) ∧
    ({ xtcUp.xtc with bufIndex := 511 } : Xtc).bufIndex < 512 ∧
    ({ xtcUp.xtc with bufIndex := 512 } : Xtc).bufIndex = 512 :=
  ⟨rfl, by decide, ⟨_, rfl⟩, by decide, rfl⟩

/-- A store with a two-byte sector on an image whose second write fails. -/
def failing : Store := ⟨[⟨⟨1, 1, 1, 2⟩, true, false, []⟩], [], ⟨[], [false, true]⟩⟩

/-- A unit with that image, about to format its sector. -/
def small : Drive := { Drive.fresh 1 ⟨1, 1, 1, 2⟩ (some 0) with fmt := ⟨[0#8, 0#8, 0#8, 0#8], 0, 0xF6#8, 0⟩, sectorEnd := 1#8 }

/-- R210, R366: the second byte's write fails, so the fill stops after one filler byte, in the sector. -/
theorem test_formatFill_stops :
    let r := formatFill ⟨{ small with cur := ⟨some ⟨0, ⟨0, 0, 1⟩⟩, 0, 2, false⟩ }, failing⟩
    (r.1, r.2.drive.errorCode, r.2.drive.cur.byteOffset, r.2.drive.fmt.sectorsFormatted) = (.error, .crcError, 1, 0) ∧
    r.2.store.cells.read (diskAddress ⟨0, ⟨0, 0, 1⟩⟩ 0) = 0xF6#8 := by decide

/-- The three cases of a fill, each met: a read-only image, no failing write, the second write failing. -/
theorem witness_SectorFill : readOnly.writable 1 = false ∧ failing.writable 0 = true ∧
    (∀ k, k < small.geo.bytesPerSector → ((up .none).store.failures 0)[k]? ≠ some true) ∧
    1 < small.geo.bytesPerSector ∧ (failing.failures 0)[1]? = some true ∧
    (∀ j, j < 1 → (failing.failures 0)[j]? ≠ some true) := by decide

/-- A Format session: the first ID byte; the fourth one, with no image, nothing outstanding, and a sector the image has
(track 39, head 1, sector 9), has not (sector 0) or waits for; all sectors done. -/
theorem witness_FdcFormatPush :
    (inSession .fdc .format false true bare).dma.fdc = some ⟨some 0, .format, false, true⟩ ∧
    bare.fmt.idCount < 3 ∧ bare.errorCode = .none ∧
    bare.fmt.sectorsFormatted < ({ bare with sectorEnd := 0xFF#8 } : Drive).sectorEnd.toNat ∧
    bare.sectorEnd.toNat ≤ bare.fmt.sectorsFormatted ∧
    ({ bare with fmt := ⟨[39#8, 1#8, 9#8, 0#8], 3, 0xF6#8, 0⟩ } : Drive).fmt.idCount = 3 ∧
    bare.disk = none ∧ ({ bare with disk := some 0 } : Drive).disk = some 0 ∧ bare.cur.bytesRemaining = 0 ∧
    bare.cur.pending = false ∧ 1 ≤ bare.geo.bytesPerSector ∧
    0 < ({ bare with cur := ⟨none, 0, 128, false⟩ } : Drive).cur.bytesRemaining ∧
    ((up .none).store.diskSeek 0 ⟨39, 1, 9⟩ 128).1 = .found ⟨0, ⟨39, 1, 9⟩⟩ ∧
    ((up .none).store.diskSeek 0 ⟨39, 1, 0⟩ 128).1 = .missing ∧ (balky.diskSeek 1 ⟨0, 0, 1⟩ 4).1 = .pending ∧
    Memory.wf (up .none).store.cells = true := by decide

/-- An engaged session to close and one that is refused, with a Drive. -/
theorem witness_FdcTransferEnds :
    (inSession .fdc .read true true bare).dma.fdc = some ⟨some 0, .read, true, true⟩ ∧
    (inSession .fdc .read true false bare).dma.fdc = some ⟨some 0, .read, true, false⟩ ∧
    (inSession .fdc .read true true bare).floppy[0]? = some bare ∧
    7 ≤ (inSession .fdc .read true true bare).fdc.fifo.buffer.length := by decide

theorem witness_XtcTransferEnds :
    (inSession .xtc .write false true (inside 0 4)).dma.xtc = some ⟨some 0, .write, false, true⟩ ∧
    (inSession .xtc .write false true (inside 0 4)).fixed[0]? = some (inside 0 4) ∧
    ({ xtcUp with dma := ⟨none, some ⟨none, .buffer, true, false⟩, true, true⟩ } : State).dma.xtc =
      some ⟨none, .buffer, true, false⟩ ∧
    1 ≤ xtcUp.xtc.fifo.buffer.length := by decide

/-- A sector inside the track, the last one of a head that is not the last, the last one of the last head. -/
theorem witness_AdvanceSectorPeriod : 8 + 1 < 9 + 1 ∧ (9 + 1 ≤ 9 + 1 ∧ 0 + 1 < 2) ∧ (9 + 1 ≤ 9 + 1 ∧ 2 ≤ 1 + 1) ∧
    1 ≤ 9 ∧ 9 < 9 + 1 ∧ 1 < 2 := by decide

theorem witness_StoreLaws : Memory.wf (up .atc).store.cells = true ∧ (up .atc).store.preloaded 1 = true ∧
    ((up .atc).store.diskWrite sector1 0 0x01#8).1 = true ∧ (balky.diskWrite sector1 0 0x01#8).1 = false ∧
    (balky.diskSeek 1 ⟨0, 0, 1⟩ 4).1 = .pending ∧ ((up .atc).store.diskSeek 1 ⟨0, 4, 1⟩ 4).1 = .missing ∧
    (⟨0, 0, 0⟩ : SectorId).sec = 0 := by decide

/-- A Drive that waits for its lookup, of each kind, its sector there and not; one being formatted. -/
theorem witness_ResolveDelivers :
    (atcMoving .read { inside 0 4 with cur := ⟨none, 0, 4, true⟩ }).drive? (.fixed 0) =
      some { inside 0 4 with cur := ⟨none, 0, 4, true⟩ } ∧
    (inside 0 4).disk = some 1 ∧ (inside 0 4).errorCode = .none ∧ (inside 0 4).cur.pending = false ∧
    (up .atc).cfg.hdcVariant = .atc ∧ xtcUp.cfg.hdcVariant ≠ .atc ∧
    (up .atc).store.hasSector 1 ⟨0, 0, 1 + 1 - 1⟩ 4 = true ∧ (up .atc).store.hasSector 1 ⟨306, 0, 1⟩ 4 = false ∧
    (inSession .fdc .read true true { bare with cur := ⟨none, 0, 4, true⟩ }).drive? (.floppy 0) =
      some { bare with cur := ⟨none, 0, 4, true⟩ } ∧
    (inSession .fdc .read true true bare).dma.fdc.map (fun ss => (ss.drive, ss.direction)) ≠ some (some 0, .format) ∧
    (inSession .fdc .format false true { small with cur := ⟨none, 0, 2, true⟩ }).dma.fdc.map
      (fun ss => (ss.drive, ss.direction)) = some (some 0, .format) ∧
    failing.hasSector 0 ⟨0, 0, 0 + 1 + 1 - 1⟩ 2 = true ∧ small.errorCode = .none ∧ 1 ≤ small.geo.bytesPerSector := by
  decide

/-- The same media, and another one, of each kind of Drive; a copy without an entry for a Drive. -/
theorem witness_SaveRestoreRoundTrip : (up .atc).floppy.map Drive.disk = (up .xtc).floppy.map Drive.disk ∧
    (up .atc).fixed.map Drive.disk = (up .xtc).fixed.map Drive.disk ∧
    (up .atc).floppy[0]? = some (Drive.fresh 1 ⟨40, 2, 9, 128⟩ (some 0)) ∧
    ((up .xtc).toSaved).floppy[0]? = some (Drive.fresh 1 ⟨40, 2, 9, 128⟩ (some 0)) ∧
    bare.disk ≠ (Drive.fresh 1 ⟨40, 2, 9, 128⟩ (some 0)).disk ∧ (up .atc).fixed[0]?.map Drive.disk = some (some 1) ∧
    ({ (up .atc).toSaved with fixed := [Drive.fresh 1 ⟨306, 4, 17, 4⟩ (some 0)] } : Saved).fixed[0]?.map Drive.disk =
      some (some 0) ∧
    ({ (up .atc).toSaved with fixed := [] } : Saved).fixed[0]? = none := by decide

theorem witness_MountAndUnmount : ({ up .none with floppy := [bare] } : State).floppy[0]? = some bare ∧
    (up .none).store.imageGeometry 0 = some ⟨40, 2, 9, 128⟩ ∧ bare.disk = none ∧
    0 ∉ ({ up .none with floppy := [bare] } : State).attachedImages ∧ 1 ∈ (up .none).attachedImages ∧
    (up .none).dma.fdc = none ∧ (∃ d, (up .none).floppy[0]? = some d ∧ d.disk ≠ none) ∧
    (∃ ss, (inSession .fdc .read true true bare).dma.fdc = some ss ∧ ss.drive = some 0) ∧
    (up .none).floppy[3]? = none ∧ (up .none).store.imageGeometry 2 = none :=
  ⟨rfl, rfl, rfl, by decide, by decide, rfl, ⟨_, rfl, by decide⟩, ⟨_, rfl, rfl⟩, rfl, rfl⟩

/-- A machine with a command waiting: the invariant of the sequencers holds of it. -/
def waiting (e : Event) : State := { up .atc with input := [e] }

theorem witness_Sequenced : Sequenced (waiting (.host .fdc [0x08#8])) := by
  refine ⟨by decide, ⟨?_, ?_, ?_, ?_, ⟨rfl, rfl⟩, rfl, rfl, ?_, ?_, ?_, ?_⟩, ?_⟩
  · refine ⟨by decide, fun _ => ⟨rfl, .inl ⟨rfl, rfl, rfl⟩⟩, fun h => (by cases h),
      fun h => (by cases h), fun h => ?_⟩
    exact absurd (show (up .atc).fdc.enabled = false from h) (by decide)
  · intro h; cases h
  · intro _; rfl
  · intro _; exact ⟨fun _ => ⟨rfl, by decide, by decide⟩, fun h => by cases h⟩
  · intro d hd
    rw [List.mem_singleton.mp (show d ∈ [Drive.fresh 1 ⟨40, 2, 9, 128⟩ (some 0)] from hd)]
    exact ⟨rfl, by decide⟩
  · intro d hd
    rw [List.mem_singleton.mp (show d ∈ [Drive.fresh 1 ⟨306, 4, 17, 4⟩ (some 1)] from hd)]
    decide
  · intro u d hu hp
    have hm : d ∈ [Drive.fresh 1 ⟨40, 2, 9, 128⟩ (some 0)] := List.mem_of_getElem? hu
    rw [List.mem_singleton.mp hm] at hp; cases hp
  · intro u d hu hp
    have hm : d ∈ [Drive.fresh 1 ⟨306, 4, 17, 4⟩ (some 1)] := List.mem_of_getElem? hu
    rw [List.mem_singleton.mp hm] at hp; cases hp
  · intro v hv; cases List.mem_singleton.mp hv

/-- EveryStepKeepsMemoryCanonical, EveryStepKeepsTheSequencers, ConfigurationAndMediaStay, ImageBytesChangeOnlyByTransfers,
FdcPhaseTransitions: a step that is taken, here one that changes the FDC's phase. -/
theorem witness_steps : MemoryCanonical (waiting (.host .fdc [0x08#8])) ∧
    ∃ t, step (waiting (.host .fdc [0x08#8])) = .next t ∧ t.fdc.phase ≠ (waiting (.host .fdc [0x08#8])).fdc.phase :=
  ⟨rfl, _, rfl, by decide⟩

/-- OnlyTheListedStepsClearAnInterrupt: a step that does. -/
theorem witness_OnlyTheListedStepsClearAnInterrupt :
    ∃ (s t : State) (bs : List Byte), s.input = [.host .portIn bs] ∧ step s = .next t ∧ s.atc.irq = true ∧ t.atc.irq = false :=
  ⟨{ waiting (.host .portIn [0xF7#8, 0x01#8]) with atc := { (up .atc).atc with irq := true } }, _, _, rfl, rfl, rfl, rfl⟩

/-- ControllersAreIndependent: an instruction of either side; an FDC session that is no Buffer session. -/
theorem witness_ControllersAreIndependent : (Instr.fdcSenseInterruptStatus 0#3).space = .fdc ∧
    Instr.atcDiagnose.space ≠ .fdc ∧ Instr.atcDiagnose ≠ .fdcInData ∧
    (∀ ss, (inSession .fdc .read true true bare).dma.fdc = some ss → ss.direction ≠ .buffer) :=
  ⟨by decide, by decide, by decide, fun ss h => by cases h; decide⟩

/-- ImageBytesChangeOnlyByTransfers: a delivery to a floppy unit that no Format session has. -/
theorem witness_ImageBytesChangeOnlyByTransfers :
    ∃ s t ss, s.input = [.agent (.resolve (.floppy 0))] ∧ step s = .next t ∧ s.dma.fdc = some ss ∧
      ¬ (ss.drive = some 0 ∧ ss.direction = .format) :=
  ⟨{ inSession .fdc .read true true { small with cur := ⟨none, 0, 2, true⟩ } with
      input := [.agent (.resolve (.floppy 0))] }, _, _, rfl, rfl, rfl, by decide⟩

/-- ConstructionChecksDescriptors: an instance that is constructed. -/
theorem witness_ConstructionChecksDescriptors :
    ∃ s, construct (testCfg .xtc) images [some 0] [1] true = some s := ⟨_, rfl⟩

end Sys2Proof.Tests
end

