-- ==== Sys2Proof/Proofs/Scope.lean ====
section
/-! PROOFS of the statements of spec/00_scope.md: a step that is no instruction, and the configuration and the media
under every step. -/

namespace Sys2Proof.Machine

/-! ### The head of the trace -/

/-- R11: with an empty trace nothing is fetched. -/
theorem fetch_of_empty (s : State) (h : s.input = []) : s.fetch = .idle := by
  unfold State.fetch; rw [h]

/-- R100: an agent's event is fetched with the state that has it consumed. -/
theorem fetch_of_agent (s : State) (a : AgentStep) (rest : List Event) (h : s.input = .agent a :: rest) :
    s.fetch = .agent a (s.taken rest) := by
  unfold State.fetch; rw [h]

/-- U10, U13: bytes that do not decode are fetched as the decoder's reason. -/
theorem fetch_of_undecoded (s : State) (sp : Space) (bs : List Byte) (rest : List Event) (r : Reject)
    (h : s.input = .host sp bs :: rest) (hd : decode sp bs = .error r) : s.fetch = .rejected r := by
  unfold State.fetch; rw [h]; dsimp only; rw [hd]

/-- Settles O5: each head of the trace is fetched as what it is, and `step` runs what was fetched. -/
theorem stepOfTheOtherAgents : Obligations.StepOfTheOtherAgents := by
  refine ⟨fun s hin => ?_, fun s a rest hin => ?_, fun s sp bs rest r hin hd => ?_⟩
  · unfold step; rw [fetch_of_empty s hin]
  · unfold step; rw [fetch_of_agent s a rest hin]; rfl
  · unfold step; rw [fetch_of_undecoded s sp bs rest r hin hd]

/-! ### Media change (R446) -/

/-- R45: the images `State.attached` finds are those the Drives use. -/
theorem State.attached_iff (s : State) (img : Nat) : s.attached img = true ↔ img ∈ s.attachedImages := by
  simp [State.attached, State.attachedImages]

/-- R446: a mount that is taken puts an image no Drive uses into an existing empty floppy unit. -/
theorem mount_cases (r : DriveRef) (img : Nat) (s t : State) (h : mount r img s = .next t) :
    ∃ u d g, s.floppy[u]? = some d ∧ d.disk = none ∧ s.attached img = false ∧
      t = s.modifyDrive (.floppy u) fun d => { d with disk := some img, geo := g, diskChanged := true } := by
  cases r with
  | fixed u => cases h
  | floppy u =>
    unfold mount at h
    dsimp only at h
    split at h
    next d g hd hg =>
      split at h
      next hok =>
        obtain ⟨hnone, hfree, -⟩ := hok
        cases h
        exact ⟨u, d, g, hd, hnone, hfree, rfl⟩
      next => cases h
    next => cases h

/-- R446: an unmount that is taken empties one floppy unit. -/
theorem unmount_cases (r : DriveRef) (s t : State) (h : unmount r s = .next t) :
    ∃ u, t = s.modifyDrive (.floppy u) fun d => { d with disk := none, diskChanged := true } := by
  cases r with
  | fixed u => cases h
  | floppy u =>
    unfold unmount at h
    dsimp only at h
    split at h
    next d hd =>
      split at h
      next => cases h; exact ⟨u, rfl⟩
      next => cases h
    next => cases h

/-- R45: a mount adds exactly its image to the images in use, which was not among them. -/
theorem mount_nodup (r : DriveRef) (img : Nat) (s t : State) (h : mount r img s = .next t)
    (hs : s.attachedImages.Nodup) : t.attachedImages.Nodup := by
  obtain ⟨u, d, g, hu, hnone, hfree, rfl⟩ := mount_cases r img s t h
  have hnew : img ∉ s.attachedImages := by simp [← State.attached_iff, hfree]
  have hperm := perm_set_some s.floppy u img d (fun d => { d with disk := some img, geo := g, diskChanged := true })
    hu hnone fun _ => rfl
  unfold State.attachedImages at hs hnew ⊢
  rw [List.filterMap_append] at hs hnew ⊢
  exact (hperm.append_right _).nodup_iff.mpr (List.nodup_cons.mpr ⟨hnew, hs⟩)

/-- R45: an unmount only takes an image away. -/
theorem unmount_nodup (r : DriveRef) (s t : State) (h : unmount r s = .next t) (hs : s.attachedImages.Nodup) :
    t.attachedImages.Nodup := by
  obtain ⟨u, rfl⟩ := unmount_cases r s t h
  unfold State.attachedImages at hs ⊢
  rw [List.filterMap_append] at hs ⊢
  exact nodup_set_none s.floppy _ u _ (fun _ => rfl) hs

/-! ### Every step -/

/-- R45: no agent attaches an image to a second Drive; only a mount and an unmount change which are attached. -/
theorem runAgent_nodup (a : AgentStep) (s t : State) (h : runAgent a s = .next t) (hs : s.attachedImages.Nodup) :
    t.attachedImages.Nodup := by
  obtain ⟨-, -, hfixed, -, hfloppy, -⟩ := runAgent_keepsMedia a s t h
  by_cases hmedia : ∀ r img, a ≠ .mount r img ∧ a ≠ .unmount r
  · rwa [attachedImages_eq s t (hfloppy hmedia) hfixed]
  · cases a with
    | mount r img => exact mount_nodup r img s t h hs
    | unmount r => exact unmount_nodup r s t h hs
    | _ => exact absurd (fun r img => ⟨nofun, nofun⟩) hmedia

/-- Settles O55, by the three ways a step comes to a next state: an idle step changes nothing, an instruction keeps
every medium, and an agent's step does unless it is a mount or an unmount. -/
theorem configurationAndMediaStay : Obligations.ConfigurationAndMediaStay := by
  intro s t hstep
  rcases step_cases s t hstep with ⟨-, rfl⟩ | ⟨sp, bs, rest, i, left, -, -, hexec⟩ | ⟨a, rest, hin, hrun⟩
  · exact ⟨rfl, rfl, rfl, fun _ => rfl, id⟩
  · obtain ⟨hparts, himages, hfloppy, hfixed, -⟩ := exec_keepsMedia i _ t hexec
    refine ⟨(fixedParts_cfg hparts).trans (s.fetched_cfg i sp left rest), himages, hfixed, fun _ => hfloppy, fun hs => ?_⟩
    rwa [attachedImages_eq s t hfloppy hfixed]
  · obtain ⟨hcfg, himages, hfixed, -, hfloppy, -⟩ := runAgent_keepsMedia a _ t hrun
    refine ⟨hcfg, himages, hfixed, fun hother => hfloppy fun r img => ?_, runAgent_nodup a (s.taken rest) t hrun⟩
    obtain ⟨hmount, hunmount⟩ := hother r img rest
    exact ⟨fun ha => hmount (ha ▸ hin), fun ha => hunmount (ha ▸ hin)⟩

end Sys2Proof.Machine
end

/-! PROOFS of the statements of spec/10_state.md: every step keeps the sequencers consistent, the request lines and the
policy that raises them, and the machine after reset.

The sequencer invariant has two halves, the FDC's (`FdcHolds`) and the hard-disk controllers' (`HdcHolds`). A step of
one side keeps its own half by the laws of that side, and the other half because it changes nothing that half speaks
of. -/

namespace Sys2Proof.Machine

/-! ### The two halves of the state -/

/-- What the FDC's half of the invariant speaks of. -/
def State.fdcHalf (s : State) : Cfg × Fdc × Option Session × List Drive := (s.cfg, s.fdc, s.dma.fdc, s.floppy)

/-- What the hard-disk half of the invariant speaks of. -/
def State.hdcHalf (s : State) : Cfg × Xtc × Option Session × Atc × List Drive :=
  (s.cfg, s.xtc, s.dma.xtc, s.atc, s.fixed)

theorem FdcHolds.of_half {s t : State} (h : FdcHolds s) (e : t.fdcHalf = s.fdcHalf) : FdcHolds t := by
  simp only [State.fdcHalf, Prod.mk.injEq] at e
  obtain ⟨hcfg, hfdc, hsession, hfloppy⟩ := e
  unfold FdcHolds
  rwa [hcfg, hfdc, hsession, hfloppy]

theorem HdcHolds.of_half {s t : State} (h : HdcHolds s) (e : t.hdcHalf = s.hdcHalf) : HdcHolds t := by
  simp only [State.hdcHalf, Prod.mk.injEq] at e
  obtain ⟨hcfg, hxtc, hsession, hatc, hfixed⟩ := e
  unfold HdcHolds
  rwa [hcfg, hxtc, hsession, hatc, hfixed]

/-- The capacities that hold every request (R127), off the configuration's ranges. -/
theorem Cfg.wf_capacities {c : Cfg} (h : c.wf = true) : 9 ≤ c.fifoCapFdc ∧ 14 ≤ c.fifoCapXtc := by
  simp only [Cfg.wf, Bool.and_eq_true, decide_eq_true_eq] at h
  obtain ⟨⟨⟨⟨⟨-, hfdc⟩, hxtc⟩, -⟩, -⟩, -⟩ := h
  exact ⟨hfdc, hxtc⟩

/-- Both halves of the sequencer invariant, in a configuration within its ranges. -/
structure HalvesHold (s : State) : Prop where
  cfg : s.cfg.wf = true
  fdc : FdcHolds s
  hdc : HdcHolds s

/-- A step of the FDC's side. -/
theorem HalvesHold.of_fdc {s t : State} (h : HalvesHold s) (hfdc : FdcHolds t) (hother : t.hdcHalf = s.hdcHalf) :
    HalvesHold t :=
  ⟨by rw [show t.cfg = s.cfg from congrArg Prod.fst hother]; exact h.cfg, hfdc, h.hdc.of_half hother⟩

/-- A step of the hard-disk side. -/
theorem HalvesHold.of_hdc {s t : State} (h : HalvesHold s) (hhdc : HdcHolds t) (hother : t.fdcHalf = s.fdcHalf) :
    HalvesHold t :=
  ⟨by rw [show t.cfg = s.cfg from congrArg Prod.fst hother]; exact h.cfg, h.fdc.of_half hother, hhdc⟩

/-- A step that touches neither half. -/
theorem HalvesHold.of_halves {s t : State} (h : HalvesHold s) (hfdc : t.fdcHalf = s.fdcHalf)
    (hhdc : t.hdcHalf = s.hdcHalf) : HalvesHold t :=
  h.of_fdc (h.fdc.of_half hfdc) hhdc

/-- A saved state is consistent when its two halves are and the bridge is connected. -/
theorem consistent_iff (c : Cfg) (v : Saved) :
    Consistent c v ↔ FdcSide c v.fdc v.dma.fdc v.floppy ∧ HdcSide c v.xtc v.dma.xtc v.atc v.fixed ∧
      v.dma.fdcConnected = true ∧ v.dma.xtcConnected = true := by
  constructor
  · intro h
    refine ⟨⟨h.fdc, h.floppies, fun u d hd => ?_⟩, ⟨h.xtc, h.noXtc, h.atc, h.fixeds, fun u d hd => ?_⟩, h.connected⟩
    · exact ⟨h.idBytes d (List.mem_of_getElem? hd), h.floppyPending u d hd⟩
    · exact ⟨h.images d (List.mem_of_getElem? hd), h.fixedPending u d hd⟩
  · rintro ⟨hfdc, hhdc, hconnected⟩
    refine ⟨hfdc.con, hhdc.xtc, hhdc.noXtc, hhdc.atc, hconnected, hfdc.len, hhdc.len, fun d hd => ?_, fun d hd => ?_,
      fun u d hd => ?_, fun u d hd => ?_⟩
    · obtain ⟨u, hu⟩ := List.getElem?_of_mem hd
      exact (hfdc.drv u d hu).1
    · obtain ⟨u, hu⟩ := List.getElem?_of_mem hd
      exact (hhdc.drv u d hu).1
    · exact (hfdc.drv u d hd).2
    · exact (hhdc.drv u d hd).2

theorem Sequenced.halves {s : State} (h : Sequenced s) : HalvesHold s :=
  have ⟨hfdc, hhdc, _⟩ := (consistent_iff _ _).mp h.now
  ⟨h.cfg, hfdc, hhdc⟩

/-- What is left to show of a state after a step, once its halves hold: the bridge, the trace and the fixed images. -/
theorem HalvesHold.sequenced {s t : State} (h : HalvesHold t) (hs : Sequenced s) (hparts : t.fixedParts = s.fixedParts)
    (hfixed : t.fixed.map Drive.disk = s.fixed.map Drive.disk) : Sequenced t where
  cfg := h.cfg
  now := (consistent_iff _ _).mpr ⟨h.fdc, h.hdc, (fixedParts_fdcConnected hparts).trans hs.now.connected.1,
    (fixedParts_xtcConnected hparts).trans hs.now.connected.2⟩
  queued v hv := by
    rw [fixedParts_cfg hparts, hfixed]
    exact hs.queued v (fixedParts_input hparts ▸ hv)

/-! ### The FDC's operations leave the hard-disk half alone (R102) -/

theorem fdcFinish_hdcHalf (s : State) (res : List Byte) (eligible : Bool) (st0 : Byte) (e : Err) :
    (s.fdcFinish res eligible st0 e).hdcHalf = s.hdcHalf := by
  simp [State.hdcHalf]

theorem fdcOpenOrNotReady_hdcHalf (s : State) (req : List Byte) (prepare : Drive → Drive) (dir : Direction) :
    (s.fdcOpenOrNotReady req prepare dir).hdcHalf = s.hdcHalf := by
  unfold State.fdcOpenOrNotReady
  dsimp only
  split
  · exact fdcFinish_hdcHalf ..
  · split
    · rfl
    · exact fdcFinish_hdcHalf ..

theorem fdcExecute_hdcHalf (s : State) : s.fdcExecute.hdcHalf = s.hdcHalf := by
  unfold State.fdcExecute
  dsimp only
  split
  case h_1 | h_5 | h_8 => exact fdcFinish_hdcHalf ..
  case h_2 | h_3 | h_6 => exact fdcOpenOrNotReady_hdcHalf ..
  case h_4 =>
    unfold State.fdcRecalibrate
    dsimp only
    split <;> exact fdcFinish_hdcHalf ..
  case h_7 =>
    unfold State.fdcSeek
    dsimp only
    split <;> exact fdcFinish_hdcHalf ..

theorem fdcDataWrite_hdcHalf {v : Byte} {s t : State} (h : fdcDataWrite v s = .next t) : t.hdcHalf = s.hdcHalf := by
  unfold fdcDataWrite at h
  split at h
  · cases h; rfl
  · split at h
    · cases h
    · cases h
      dsimp only
      split
      · exact fdcExecute_hdcHalf _
      · rfl

theorem fdcDataRead_hdcHalf {s t : State} (h : fdcDataRead s = .next t) : t.hdcHalf = s.hdcHalf := by
  unfold fdcDataRead at h
  split at h
  · cases h
  · split at h
    · cases h
    · cases h; rfl

theorem fdcOutputWrite_hdcHalf (s : State) (v : Byte) : (s.fdcOutputWrite v).hdcHalf = s.hdcHalf := by
  unfold State.fdcOutputWrite
  dsimp only
  split
  · rfl
  · split <;> rfl

theorem runBay_floppy_hdcHalf {α : Type} (s : State) (u : Nat) (x : α) (f : Bay → α × Bay) :
    (s.runBay (.floppy u) x f).2.hdcHalf = s.hdcHalf := by
  unfold State.runBay
  split <;> rfl

theorem runSession_fdc_hdcHalf {α : Type} (s : State) (ss : Session) (x : α) (f : Bay → α × Bay) :
    (s.runSession .fdc ss x f).2.hdcHalf = s.hdcHalf := by
  unfold State.runSession
  split
  · exact runBay_floppy_hdcHalf ..
  · rfl

theorem closeSession_fdc_hdcHalf (s : State) (ss : Session) (completed : Bool) :
    (s.closeSession .fdc ss completed).hdcHalf = s.hdcHalf := by
  refine (fdcFinish_hdcHalf ..).trans ?_
  unfold State.modifySessionDrive
  split <;> rfl

/-! ### The hard-disk operations leave the FDC's half alone (R102) -/

theorem xtcFinish_fdcHalf (s : State) (u : BitVec 1) (d : Option Nat) (e : Err) (pre : List Byte) (latch : Bool) :
    (s.xtcFinish u d e pre latch).fdcHalf = s.fdcHalf := by
  simp [State.fdcHalf]

theorem verifyGeometry_fdcHalf (s : State) (u : Nat) : (s.verifyGeometry u).fdcHalf = s.fdcHalf := by
  simp [State.fdcHalf]

theorem xtcOnDrive_fdcHalf (s : State) (req : List Byte) (f : Drive → Drive) :
    (s.xtcOnDrive req f).fdcHalf = s.fdcHalf := by
  unfold State.xtcOnDrive
  dsimp only
  split <;> exact xtcFinish_fdcHalf ..

theorem xtcTransfer_fdcHalf (s : State) (req : List Byte) (dir : Direction) :
    (s.xtcTransfer req dir).fdcHalf = s.fdcHalf := by
  unfold State.xtcTransfer
  dsimp only
  split
  · exact xtcFinish_fdcHalf ..
  · split
    · rfl
    · exact xtcFinish_fdcHalf ..

theorem xtcInitDrive_fdcHalf (s : State) (req : List Byte) : (s.xtcInitDrive req).fdcHalf = s.fdcHalf := by
  unfold State.xtcInitDrive
  dsimp only
  split
  · exact (xtcFinish_fdcHalf ..).trans (verifyGeometry_fdcHalf ..)
  · split <;> exact xtcFinish_fdcHalf ..

theorem xtcBuffer_fdcHalf (s : State) (req : List Byte) (toMemory : Bool) :
    (s.xtcBuffer req toMemory).fdcHalf = s.fdcHalf := by
  unfold State.xtcBuffer
  dsimp only
  split
  · rfl
  · exact xtcFinish_fdcHalf ..

theorem xtcCommand_fdcHalf (s : State) (op : XtcOp) (req : List Byte) :
    (s.xtcCommand op req).fdcHalf = s.fdcHalf := by
  cases op with
  | testReady | recalibrate | seek => exact xtcOnDrive_fdcHalf ..
  | readData | writeData => exact xtcTransfer_fdcHalf ..
  | initDrive => exact xtcInitDrive_fdcHalf ..
  | readBuffer | writeBuffer => exact xtcBuffer_fdcHalf ..
  | requestSense | ramDiagnostic | driveDiagnostic | controllerDiagnostic | unknown => exact xtcFinish_fdcHalf ..

theorem xtcDataWrite_fdcHalf {v : Byte} {s t : State} (h : xtcDataWrite v s = .next t) : t.fdcHalf = s.fdcHalf := by
  obtain ⟨-, h⟩ := onXtc_next h
  split at h
  · cases h
  · cases h
    dsimp only
    split
    · rw [xtcExecute_eq]; exact xtcCommand_fdcHalf ..
    · rfl

theorem xtcDataRead_fdcHalf {s t : State} (h : xtcDataRead s = .next t) : t.fdcHalf = s.fdcHalf := by
  obtain ⟨-, h⟩ := onXtc_next h
  split at h
  · cases h
  · cases h; rfl

theorem runBay_fixed_fdcHalf {α : Type} (s : State) (u : Nat) (x : α) (f : Bay → α × Bay) :
    (s.runBay (.fixed u) x f).2.fdcHalf = s.fdcHalf := by
  unfold State.runBay
  split <;> rfl

theorem fdcHalf_of_runBay_fixed {α : Type} {s t : State} {u : Nat} {x a : α} {f : Bay → α × Bay}
    (h : s.runBay (.fixed u) x f = (a, t)) : t.fdcHalf = s.fdcHalf := by
  rw [← runBay_fixed_fdcHalf s u x f, h]

theorem runSession_xtc_fdcHalf {α : Type} (s : State) (ss : Session) (x : α) (f : Bay → α × Bay) :
    (s.runSession .xtc ss x f).2.fdcHalf = s.fdcHalf := by
  unfold State.runSession
  split
  · exact runBay_fixed_fdcHalf ..
  · rfl

theorem closeSession_xtc_fdcHalf (s : State) (ss : Session) (completed : Bool) :
    (s.closeSession .xtc ss completed).fdcHalf = s.fdcHalf := by
  refine (xtcFinish_fdcHalf ..).trans ?_
  unfold State.modifySessionDrive
  split <;> rfl

theorem bufferPull_fdcHalf (s : State) : s.bufferPull.fdcHalf = s.fdcHalf := by
  unfold State.bufferPull
  split <;> rfl

theorem bufferPush_fdcHalf (s : State) (b : Byte) : (s.bufferPush b).fdcHalf = s.fdcHalf := by
  unfold State.bufferPush
  split <;> rfl

theorem atcFinish_fdcHalf (s : State) (e : Err) : (s.atcFinish e).fdcHalf = s.fdcHalf := by
  simp [State.fdcHalf]

theorem raiseIfArmed_atc_fdcHalf (s : State) : (s.raiseIfArmed .atc).fdcHalf = s.fdcHalf := by
  simp [State.fdcHalf]

theorem atcPrimed_fdcHalf (s : State) (r : DriveRef) (found : Bool) : (s.atcPrimed r found).fdcHalf = s.fdcHalf := by
  unfold State.atcPrimed
  dsimp only
  split
  · split
    · exact raiseIfArmed_atc_fdcHalf _
    · rfl
  · exact atcFinish_fdcHalf ..

theorem atcPrime_fdcHalf (s : State) (u : Nat) : (s.atcPrime (.fixed u)).fdcHalf = s.fdcHalf := by
  unfold State.atcPrime
  dsimp only
  split
  case h_1 t h => exact (fdcHalf_of_runBay_fixed h :)
  case h_2 t h | h_3 t h | h_4 t h => exact (atcPrimed_fdcHalf ..).trans (fdcHalf_of_runBay_fixed h :)

theorem atcSectorDone_fdcHalf (s : State) (u : Nat) (d : Drive) :
    (s.atcSectorDone (.fixed u) d).fdcHalf = s.fdcHalf := by
  unfold State.atcSectorDone
  dsimp only
  split
  · split
    · exact atcFinish_fdcHalf ..
    · rfl
  · refine (atcPrime_fdcHalf ..).trans ?_
    split
    · exact raiseIfArmed_atc_fdcHalf _
    · rfl

theorem atcByteDone_fdcHalf (s : State) (u : Nat) : (s.atcByteDone (.fixed u)).fdcHalf = s.fdcHalf := by
  unfold State.atcByteDone
  split
  · split
    · exact atcSectorDone_fdcHalf ..
    · rfl
  · rfl

theorem atcDataRead_fdcHalf (s : State) : s.atcDataRead.fdcHalf = s.fdcHalf := by
  unfold State.atcDataRead
  dsimp only
  split
  case h_1 v t h => exact (atcByteDone_fdcHalf ..).trans (fdcHalf_of_runBay_fixed h)
  case h_2 t h | h_3 t h => exact (atcFinish_fdcHalf ..).trans (fdcHalf_of_runBay_fixed h)

theorem atcDataWrite_fdcHalf (s : State) (v : Byte) : (s.atcDataWrite v).fdcHalf = s.fdcHalf := by
  unfold State.atcDataWrite
  dsimp only
  split
  case h_1 t h => exact (atcByteDone_fdcHalf ..).trans (fdcHalf_of_runBay_fixed h)
  case h_2 t h | h_3 t h => exact (atcFinish_fdcHalf ..).trans (fdcHalf_of_runBay_fixed h)

theorem atcOnDrive_fdcHalf (s : State) (f : Drive → Drive) : (s.atcOnDrive f).fdcHalf = s.fdcHalf := by
  unfold State.atcOnDrive
  split <;> exact atcFinish_fdcHalf ..

theorem atcTransfer_fdcHalf (s : State) (dir : AtcDir) : (s.atcTransfer dir).fdcHalf = s.fdcHalf := by
  unfold State.atcTransfer
  split
  · exact atcFinish_fdcHalf ..
  · exact atcPrime_fdcHalf ..

theorem atcCommand_fdcHalf (s : State) (op : AtcOp) (v : Byte) : (s.atcCommand op v).fdcHalf = s.fdcHalf := by
  cases op with
  | restore | seek => exact atcOnDrive_fdcHalf ..
  | readData | writeData => exact atcTransfer_fdcHalf ..
  | diagnose => exact raiseIfArmed_atc_fdcHalf _
  | setParameters =>
    show s.atcSetParameters.fdcHalf = _
    unfold State.atcSetParameters
    split
    · exact atcFinish_fdcHalf ..
    · exact (atcFinish_fdcHalf ..).trans (verifyGeometry_fdcHalf ..)
  | unknown => exact atcFinish_fdcHalf ..

theorem atcCommandWrite_fdcHalf {v : Byte} {s t : State} (h : atcCommandWrite v s = .next t) :
    t.fdcHalf = s.fdcHalf := by
  obtain ⟨-, h⟩ := onAtc_next h
  split at h
  · cases h
  · cases h
    rw [atcExecute_eq]
    exact atcCommand_fdcHalf ..

theorem atcFdrWrite_fdcHalf (s : State) (v : Byte) : (s.atcFdrWrite v).fdcHalf = s.fdcHalf := by
  unfold State.atcFdrWrite
  dsimp only
  split <;> rfl

/-! ### Every instruction keeps both halves -/

/-- R163, R165: a write of 0x3F5. -/
theorem HalvesHold.fdcDataWrite {v : Byte} {s t : State} (h : HalvesHold s) (ht : Machine.fdcDataWrite v s = .next t) :
    HalvesHold t :=
  h.of_fdc (FdcHolds.dataWrite v s t (Cfg.wf_capacities h.cfg).1 h.fdc ht) (fdcDataWrite_hdcHalf ht)

/-- R231, R232: a write of 0x320. -/
theorem HalvesHold.xtcDataWrite {v : Byte} {s t : State} (h : HalvesHold s) (ht : Machine.xtcDataWrite v s = .next t) :
    HalvesHold t :=
  h.of_hdc (HdcHolds.xtcWrite v s t (Cfg.wf_capacities h.cfg).2 h.hdc ht) (xtcDataWrite_fdcHalf ht)

/-- R283: a write of 0x1F7. -/
theorem HalvesHold.atcCommandWrite {v : Byte} {s t : State} (h : HalvesHold s)
    (ht : Machine.atcCommandWrite v s = .next t) : HalvesHold t :=
  h.of_hdc (HdcHolds.atcCommand v s t h.hdc ht) (atcCommandWrite_fdcHalf ht)

/-- R281: outside a transfer a task-file register holds any byte, the drive bit included. -/
theorem HalvesHold.taskfile {reg : TaskReg} {w : Option Byte} {s t : State} (h : HalvesHold s)
    (ht : execAtcTaskfile reg w s = .next t) : HalvesHold t := by
  obtain ⟨-, ht⟩ := onAtc_next ht
  cases w with
  | none => cases ht; exact h.of_halves rfl rfl
  | some v =>
    dsimp only at ht
    split at ht
    · rename_i hphase
      cases ht
      have hkeeps : (s.atc.writeReg reg v).phase = s.atc.phase ∧ (s.atc.writeReg reg v).dir = s.atc.dir ∧
          (s.atc.writeReg reg v).status = s.atc.status := by cases reg <;> exact ⟨rfl, rfl, rfl⟩
      obtain ⟨hph, hdir, hstatus⟩ := hkeeps
      exact h.of_hdc (HdcHolds.atcOther s _ h.hdc hph hdir hstatus fun hx => by rw [hphase] at hx; cases hx) rfl
    · cases ht

/-- Whatever instruction runs, both halves hold after it. -/
theorem HalvesHold.exec {i : Instr} {s t : State} (h : HalvesHold s) (ht : Machine.exec i s = .next t) :
    HalvesHold t := by
  by_cases hf : i.space = .fdc
  · rw [exec_fdcRow i s hf] at ht
    exact deliver_keeps _ _ (fun _ _ _ => HalvesHold.fdcDataWrite) _ _ _ h ht
  by_cases hx : i.space = .xtc
  · rw [exec_xtcRow i s hx] at ht
    exact deliver_keeps _ _ (fun _ _ _ => HalvesHold.xtcDataWrite) _ _ _ h ht
  by_cases ha : i.space = .atc
  · rw [exec_atcRow i s ha] at ht
    exact deliver_keeps _ _ (fun _ _ _ => HalvesHold.atcCommandWrite) _ _ _ h ht
  cases i with
  | fdcOutOutput v => cases ht; exact h.of_fdc (h.fdc.outputWrite s v) (fdcOutputWrite_hdcHalf s v)
  | fdcInMainStatus => cases ht; exact h.of_halves rfl rfl
  | fdcOutData v => exact h.fdcDataWrite ht
  | fdcInData => exact h.of_fdc (h.fdc.dataRead s t ht) (fdcDataRead_hdcHalf ht)
  | fdcInInput => cases onRatePort_next ht; exact h.of_halves rfl rfl
  | fdcOutControl v => cases onRatePort_next ht; exact h.of_fdc (h.fdc.rate s v) rfl
  | xtcOutData v => exact h.xtcDataWrite ht
  | xtcInData => exact h.of_hdc (h.hdc.xtcRead s t ht) (xtcDataRead_fdcHalf ht)
  | xtcInStatus => obtain ⟨-, ht⟩ := onXtc_next ht; cases ht; exact h.of_halves rfl rfl
  | xtcOutReset v => obtain ⟨hv, ht⟩ := onXtc_next ht; cases ht; exact h.of_hdc (h.hdc.xtcReset s hv) rfl
  | xtcInConfig => obtain ⟨-, ht⟩ := onXtc_next ht; cases ht; exact h.of_halves rfl rfl
  | xtcOutSelect v | xtcOutPattern v =>
    obtain ⟨-, ht⟩ := onXtc_next ht
    cases ht
    exact h.of_hdc (h.hdc.xtcOther s _ rfl rfl rfl (.inr rfl)) rfl
  | xtcOutNoise p v => obtain ⟨-, ht⟩ := onXtc_next ht; cases ht; exact h
  | atcInData =>
    obtain ⟨hv, ht⟩ := onAtc_next ht
    split at ht
    · cases ht; exact h.of_hdc (h.hdc.atcRead s hv ‹_›) (atcDataRead_fdcHalf s)
    · cases ht
  | atcOutData v =>
    obtain ⟨hv, ht⟩ := onAtc_next ht
    split at ht
    · cases ht; exact h.of_hdc (h.hdc.atcWrite s v hv ‹_›) (atcDataWrite_fdcHalf s v)
    · cases ht
  | atcTaskfile reg w => exact h.taskfile ht
  | atcInStatus =>
    obtain ⟨-, ht⟩ := onAtc_next ht
    cases ht
    exact h.of_hdc (h.hdc.atcOther s { s.atc with irq := false } rfl rfl rfl fun _ => rfl) rfl
  | atcOutCommand v => exact h.atcCommandWrite ht
  | atcInAltStatus => obtain ⟨-, ht⟩ := onAtc_next ht; cases ht; exact h.of_halves rfl rfl
  | atcOutFdr v =>
    obtain ⟨hv, ht⟩ := onAtc_next ht
    cases ht
    exact h.of_hdc (h.hdc.atcFdr s v hv) (atcFdrWrite_fdcHalf s v)
  | _ => exact absurd rfl (by assumption)

/-! ### The steps of the DMA peer -/

/-- R321, R323: an engage that is taken engages the session or refuses it, which closes it. -/
theorem dmaEngage_cases {c : Chan} {yes : Bool} {s t : State} (h : dmaEngage c yes s = .next t) :
    ∃ ss, s.session c = some ss ∧
      (t = s.setSession c (some { ss with engaged := true }) ∨ t = s.closeSession c ss false) := by
  unfold dmaEngage at h
  split at h
  · cases h
  · rename_i ss hss
    split at h
    · cases h
    · split at h
      · cases h; exact ⟨ss, hss, .inl rfl⟩
      · cases h; exact ⟨ss, hss, .inr rfl⟩

/-- R321, R327: a close that is taken closes the open session. -/
theorem dmaClose_cases {c : Chan} {completed : Bool} {s t : State} (h : dmaClose c completed s = .next t) :
    ∃ ss, s.session c = some ss ∧ t = s.closeSession c ss completed := by
  unfold dmaClose at h
  split at h
  · cases h
  · rename_i ss hss
    split at h
    · cases h; exact ⟨ss, hss, rfl⟩
    · cases h

/-- R324: a pull that is taken reads a byte on the session's Drive, or one of the sector buffer. -/
theorem dmaPull_cases {c : Chan} {s t : State} (h : dmaPull c s = .next t) :
    ∃ ss, s.session c = some ss ∧
      ((∃ a, t = (s.runSession c ss .eof (readByte c.bias)).2.reply a) ∨
        (ss.direction = .buffer ∧ t = s.bufferPull)) := by
  unfold dmaPull at h
  split at h
  · cases h
  · rename_i ss hss
    split at h
    · cases h
    · split at h
      · cases h; exact ⟨ss, hss, .inl ⟨_, rfl⟩⟩
      · cases h; exact ⟨ss, hss, .inr ⟨‹_›, rfl⟩⟩
      · cases h
      · cases h

/-- R325: a push that is taken runs a cursor operation on the session's Drive, or writes to the sector buffer. -/
theorem dmaPush_cases {c : Chan} {b : Byte} {s t : State} (h : dmaPush c b s = .next t) :
    ∃ ss, s.session c = some ss ∧
      ((∃ f a, t = (s.runSession c ss WriteAnswer.error f).2.reply a) ∨
        (ss.direction = .buffer ∧ t = s.bufferPush b)) := by
  unfold dmaPush at h
  split at h
  · cases h
  · rename_i ss hss
    split at h
    · cases h
    · split at h
      · cases h; exact ⟨ss, hss, .inl ⟨_, _, rfl⟩⟩
      · cases h; exact ⟨ss, hss, .inl ⟨_, _, rfl⟩⟩
      · cases h; exact ⟨ss, hss, .inr ⟨‹_›, rfl⟩⟩
      · cases h

/-- R201 to R203: no FDC command opens a Buffer session. -/
theorem FdcHolds.session_ne_buffer {s : State} (h : FdcHolds s) {ss : Session} (hs : s.dma.fdc = some ss) :
    ss.direction ≠ .buffer := by
  obtain ⟨-, dir, engaged, hdir, hss, -⟩ := h.con.execution (h.exec_of hs)
  rw [hs] at hss
  cases hss
  rintro rfl
  cases hop : fdcOp (fdcMaskedOp (reqByte s.fdc.fifo.buffer 0)) <;> simp [hop, fdcDirection] at hdir

/-- R323: both ways an engage ends, on either channel. -/
theorem HalvesHold.engage {c : Chan} {yes : Bool} {s t : State} (h : HalvesHold s)
    (ht : dmaEngage c yes s = .next t) : HalvesHold t := by
  obtain ⟨ss, -, hcases⟩ := dmaEngage_cases ht
  cases c with
  | fdc =>
    refine h.of_fdc (FdcHolds.engage s t yes (Cfg.wf_capacities h.cfg).1 h.fdc ht) ?_
    rcases hcases with rfl | rfl
    · rfl
    · exact closeSession_fdc_hdcHalf ..
  | xtc =>
    refine h.of_hdc (HdcHolds.engage s t yes (Cfg.wf_capacities h.cfg).2 h.hdc ht) ?_
    rcases hcases with rfl | rfl
    · rfl
    · exact closeSession_xtc_fdcHalf ..

/-- R327: the close of a session, on either channel. -/
theorem HalvesHold.close {c : Chan} {completed : Bool} {s t : State} (h : HalvesHold s)
    (ht : dmaClose c completed s = .next t) : HalvesHold t := by
  obtain ⟨ss, -, hclosed⟩ := dmaClose_cases ht
  cases c with
  | fdc =>
    refine h.of_fdc (FdcHolds.close s t completed (Cfg.wf_capacities h.cfg).1 h.fdc ht) ?_
    rw [hclosed]
    exact closeSession_fdc_hdcHalf ..
  | xtc =>
    refine h.of_hdc (HdcHolds.close s t completed (Cfg.wf_capacities h.cfg).2 h.hdc ht) ?_
    rw [hclosed]
    exact closeSession_xtc_fdcHalf ..

/-- R324: a pull; only the XTC's channel reaches the sector buffer. -/
theorem HalvesHold.pull {c : Chan} {s t : State} (h : HalvesHold s) (ht : dmaPull c s = .next t) : HalvesHold t := by
  obtain ⟨ss, hss, hcases⟩ := dmaPull_cases ht
  cases c with
  | fdc =>
    refine h.of_fdc (FdcHolds.pull s t h.fdc ht) ?_
    rcases hcases with ⟨a, rfl⟩ | ⟨hbuffer, -⟩
    · exact runSession_fdc_hdcHalf ..
    · exact absurd hbuffer (h.fdc.session_ne_buffer hss)
  | xtc =>
    refine h.of_hdc (HdcHolds.pull s t h.hdc ht) ?_
    rcases hcases with ⟨a, rfl⟩ | ⟨-, rfl⟩
    · exact runSession_xtc_fdcHalf ..
    · exact bufferPull_fdcHalf s

/-- R325: a push; only the XTC's channel reaches the sector buffer. -/
theorem HalvesHold.push {c : Chan} {b : Byte} {s t : State} (h : HalvesHold s) (ht : dmaPush c b s = .next t) :
    HalvesHold t := by
  obtain ⟨ss, hss, hcases⟩ := dmaPush_cases ht
  cases c with
  | fdc =>
    refine h.of_fdc (FdcHolds.push s t b h.fdc ht) ?_
    rcases hcases with ⟨f, a, rfl⟩ | ⟨hbuffer, -⟩
    · exact runSession_fdc_hdcHalf ..
    · exact absurd hbuffer (h.fdc.session_ne_buffer hss)
  | xtc =>
    refine h.of_hdc (HdcHolds.push s t b h.hdc ht) ?_
    rcases hcases with ⟨f, a, rfl⟩ | ⟨-, rfl⟩
    · exact runSession_xtc_fdcHalf ..
    · exact bufferPush_fdcHalf s b

/-! ### The other agents -/

/-- R364: the delivery to a fixed Drive is the ATC's, the one to a floppy Drive the FDC's. -/
theorem HalvesHold.resolve {r : DriveRef} {s t : State} (h : HalvesHold s) (ht : Machine.resolve r s = .next t) :
    HalvesHold t := by
  cases r with
  | floppy u =>
    refine h.of_fdc (FdcHolds.delivery s t u h.fdc ht) ?_
    unfold Machine.resolve at ht
    split at ht
    · cases ht
    · split at ht
      · cases ht
      · cases ht
        split
        · exact runBay_floppy_hdcHalf ..
        · rfl
  | fixed u =>
    refine h.of_hdc (HdcHolds.delivery s t u h.hdc ht) ?_
    unfold Machine.resolve at ht
    split at ht
    · cases ht
    · split at ht
      · cases ht
      · cases ht
        split
        · exact atcPrimed_fdcHalf ..
        · rfl

/-- R411: at most the XTC's `allowInitFail` is set. -/
theorem HalvesHold.notify {vec a l : Byte} {s t : State} (h : HalvesHold s)
    (ht : Machine.notify vec a l s = .next t) : HalvesHold t := by
  unfold Machine.notify at ht
  split at ht
  · cases ht
    unfold State.hackInitFail
    split
    · exact h.of_hdc (HdcHolds.xtcOther s { s.xtc with allowInitFail := true } h.hdc rfl rfl rfl (.inr rfl)) rfl
    · exact h.of_halves rfl rfl
  · split at ht
    · cases ht; exact h.of_halves rfl rfl
    · cases ht

theorem HalvesHold.mount {r : DriveRef} {img : Nat} {s t : State} (h : HalvesHold s)
    (ht : Machine.mount r img s = .next t) : HalvesHold t := by
  obtain ⟨u, d, g, -, -, -, rfl⟩ := mount_cases r img s t ht
  exact h.of_fdc (FdcHolds.mounted s _ r img h.fdc ht) rfl

theorem HalvesHold.unmount {r : DriveRef} {s t : State} (h : HalvesHold s) (ht : Machine.unmount r s = .next t) :
    HalvesHold t := by
  obtain ⟨u, rfl⟩ := unmount_cases r s t ht
  exact h.of_fdc (FdcHolds.unmounted s _ r h.fdc ht) rfl

theorem HalvesHold.powerUp {s : State} (h : HalvesHold s) : HalvesHold s.powerUp :=
  ⟨by rw [State.powerUp_cfg]; exact h.cfg, h.fdc.powerUp s, h.hdc.powerUp s⟩

/-- Whatever an agent does but a restoration, both halves hold after it. -/
theorem HalvesHold.runAgent {a : AgentStep} {s t : State} (h : HalvesHold s) (hr : ∀ v, a ≠ .restore v)
    (ht : Machine.runAgent a s = .next t) : HalvesHold t := by
  cases a with
  | dmaEngage c yes => exact h.engage ht
  | dmaPull c => exact h.pull ht
  | dmaPush c b => exact h.push ht
  | dmaClose c completed => exact h.close ht
  | resolve r => exact h.resolve ht
  | notify vec a l => exact h.notify ht
  | mask n => cases ht; split <;> exact h.of_halves rfl rfl
  | unmask n => cases ht; exact h.of_halves rfl rfl
  | mount r img => exact h.mount ht
  | unmount r => exact h.unmount ht
  | powerUp => cases ht; exact h.powerUp
  | mreset => cases ht; exact h.powerUp
  | save => cases ht; exact h.of_halves rfl rfl
  | restore v => exact absurd rfl (hr v)

/-! ### Restoration (R445) -/

/-- R445: a restored Drive is the copy's, or as power-up leaves it. -/
theorem restoreDrive_cases (s : State) (r : DriveRef) (now : Drive) (copy : Option Drive) :
    copy = some (s.restoreDrive r now copy) ∨ s.restoreDrive r now copy = s.powerUpDrive r now := by
  unfold State.restoreDrive
  split
  · split
    · exact .inl rfl
    · exact .inr rfl
  · exact .inr rfl

/-- R445: a copy that names the images the fixed Drives have puts all of them back. -/
theorem restoreFrom_fixed {s : State} {v : Saved} (h : v.fixed.map Drive.disk = s.fixed.map Drive.disk) :
    (s.restoreFrom v).fixed = v.fixed := by
  apply List.ext_getElem?
  intro u
  have hu : (v.fixed[u]?).map Drive.disk = (s.fixed[u]?).map Drive.disk := by
    rw [← List.getElem?_map, ← List.getElem?_map, h]
  show (s.fixed.mapIdx fun u d => s.restoreDrive (.fixed u) d v.fixed[u]?)[u]? = _
  rw [List.getElem?_mapIdx]
  cases hnow : s.fixed[u]? with
  | none => simpa [hnow] using hu.symm
  | some now =>
    cases hcopy : v.fixed[u]? with
    | none => simp [hnow, hcopy] at hu
    | some d =>
      have hdisk : d.disk = now.disk := by simpa [hnow, hcopy] using hu
      simp [State.restoreDrive, hdisk]

/-- R445: the floppy Drives after a restoration fit the copy's FDC. -/
theorem restoreFrom_fdcSide {s : State} {v : Saved} (hs : FdcHolds s) (hv : FdcSide s.cfg v.fdc v.dma.fdc v.floppy) :
    FdcHolds (s.restoreFrom v) := by
  refine ⟨hv.con, ?_, fun u d hd => ?_⟩
  · show (s.floppy.mapIdx _).length = _
    rw [List.length_mapIdx]
    exact hs.len
  · change (s.floppy.mapIdx fun u d => s.restoreDrive (.floppy u) d v.floppy[u]?)[u]? = some d at hd
    rw [List.getElem?_mapIdx] at hd
    obtain ⟨now, -, rfl⟩ := Option.map_eq_some_iff.mp hd
    rcases restoreDrive_cases s (.floppy u) now v.floppy[u]? with hcopy | hfresh
    · exact hv.drv u _ hcopy
    · rw [hfresh]
      exact ⟨⟨rfl, Nat.zero_lt_succ 3⟩, fun hp => by cases hp⟩

theorem HalvesHold.restoreFrom {s : State} {v : Saved} (h : HalvesHold s) (hv : Consistent s.cfg v)
    (hdisks : v.fixed.map Drive.disk = s.fixed.map Drive.disk) : HalvesHold (s.restoreFrom v) := by
  obtain ⟨hfdc, hhdc, -⟩ := (consistent_iff _ _).mp hv
  refine ⟨h.cfg, restoreFrom_fdcSide h.fdc hfdc, ?_⟩
  unfold HdcHolds
  rw [restoreFrom_fixed hdisks]
  exact hhdc

/-- R445: a consistent copy that names the images this machine has, put back. -/
theorem Sequenced.restoreFrom {s : State} {v : Saved} (hs : Sequenced s) (hv : Consistent s.cfg v)
    (hdisks : v.fixed.map Drive.disk = s.fixed.map Drive.disk) : Sequenced (s.restoreFrom v) where
  cfg := hs.cfg
  now :=
    have h := hs.halves.restoreFrom hv hdisks
    (consistent_iff _ _).mpr ⟨h.fdc, h.hdc, hv.connected⟩
  queued w hw := by
    rw [(restore_keepsMedia s v).2]
    exact hs.queued w hw

/-! ### Every step -/

/-- Taking the head of the trace brings in no copy that was not in it. -/
theorem Sequenced.of_taken {s t : State} (hs : Sequenced s) (hcfg : t.cfg = s.cfg) (hsaved : t.toSaved = s.toSaved)
    (hinput : ∀ v, Event.agent (.restore v) ∈ t.input → Event.agent (.restore v) ∈ s.input) : Sequenced t where
  cfg := by rw [hcfg]; exact hs.cfg
  now := by rw [hcfg, hsaved]; exact hs.now
  queued v hv := by
    rw [hcfg, show t.fixed = s.fixed from congrArg Saved.fixed hsaved]
    exact hs.queued v (hinput v hv)

theorem Sequenced.fetched {s : State} (hs : Sequenced s) {sp : Space} {bs : List Byte} {rest : List Event}
    (hin : s.input = .host sp bs :: rest) (i : Instr) (left : List Byte) : Sequenced (s.fetched i sp left rest) := by
  refine hs.of_taken rfl rfl fun v hv => ?_
  rw [hin]
  unfold State.fetched at hv
  dsimp only at hv
  split at hv
  · exact List.mem_cons_of_mem _ hv
  · cases hv with
    | tail _ hv => exact List.mem_cons_of_mem _ hv

theorem Sequenced.taken {s : State} (hs : Sequenced s) {e : Event} {rest : List Event} (hin : s.input = e :: rest) :
    Sequenced (s.taken rest) :=
  hs.of_taken rfl rfl fun v hv => by rw [hin]; exact List.mem_cons_of_mem _ hv

theorem Sequenced.exec {i : Instr} {s t : State} (hs : Sequenced s) (ht : Machine.exec i s = .next t) :
    Sequenced t := by
  obtain ⟨hparts, -, -, hfixed, -⟩ := exec_keepsMedia i s t ht
  exact (hs.halves.exec ht).sequenced hs hparts hfixed

theorem Sequenced.runAgent {a : AgentStep} {s t : State} (hs : Sequenced s)
    (hrestore : ∀ v, a = .restore v → Consistent s.cfg v ∧ v.fixed.map Drive.disk = s.fixed.map Drive.disk)
    (ht : Machine.runAgent a s = .next t) : Sequenced t := by
  by_cases hr : ∃ v, a = .restore v
  · obtain ⟨v, rfl⟩ := hr
    obtain ⟨hv, hdisks⟩ := hrestore v rfl
    cases ht
    exact hs.restoreFrom hv hdisks
  · have hother : ∀ v, a ≠ .restore v := fun v hv => hr ⟨v, hv⟩
    obtain ⟨-, -, hfixed, -⟩ := runAgent_keepsMedia a s t ht
    exact (hs.halves.runAgent hother ht).sequenced hs (runAgent_fixedParts a s t ht hother) hfixed

/-- Settles O53, by the three ways a step comes to a next state: an idle step changes nothing, an instruction and an
agent's step keep both halves of the invariant, a restoration because the copy it puts back is consistent. -/
theorem everyStepKeepsTheSequencers : Obligations.EveryStepKeepsTheSequencers := by
  intro s t hs hstep
  rcases step_cases s t hstep with ⟨-, rfl⟩ | ⟨sp, bs, rest, i, left, hin, -, hexec⟩ | ⟨a, rest, hin, hrun⟩
  · exact hs
  · exact (hs.fetched hin i left).exec hexec
  · refine (hs.taken hin).runAgent (fun v hv => ?_) hrun
    exact hs.queued v (by rw [hin, hv]; exact List.mem_cons_self)

/-! ### Request lines (R74, R391, R393) -/

/-- R74, R390: a line shows the latches of the controllers that have it. -/
theorem irqLine_iff (s : State) (n : Nat) :
    s.irqLine n = true ↔ ∃ k, s.hasLine k = true ∧ s.line k = n ∧ s.latch k = true := by
  unfold State.irqLine
  rw [List.any_eq_true]
  constructor
  · rintro ⟨k, -, h⟩
    exact ⟨k, by simpa [and_assoc] using h⟩
  · rintro ⟨k, h⟩
    exact ⟨k, by cases k <;> simp, by simpa [and_assoc] using h⟩

/-- Settles O22, by the controllers a line can show and the case equations of the end of a command. -/
theorem requestLinesAndPolicy : Obligations.RequestLinesAndPolicy := by
  intro s n e
  refine ⟨?_, rfl, rfl, rfl, s.endOfCommandIrq_fdc e, s.endOfCommandIrq_xtc e, s.endOfCommandIrq_atc e⟩
  rw [irqLine_iff]
  constructor
  · rintro ⟨k, hhas, hline, hlatch⟩
    cases k with
    | fdc => exact .inl ⟨hline.symm, hlatch⟩
    | xtc => exact .inr (.inl ⟨eq_of_beq hhas, hline.symm, hlatch⟩)
    | atc => exact .inr (.inr ⟨eq_of_beq hhas, hline.symm, hlatch⟩)
  · rintro (⟨hline, hlatch⟩ | ⟨hvariant, hline, hlatch⟩ | ⟨hvariant, hline, hlatch⟩)
    · exact ⟨.fdc, rfl, hline.symm, hlatch⟩
    · exact ⟨.xtc, beq_of_eq hvariant, hline.symm, hlatch⟩
    · exact ⟨.atc, beq_of_eq hvariant, hline.symm, hlatch⟩

/-! ### The state after construction (R78, R440) -/

/-- R78: the FDC's half of a constructed machine is in its controller-reset state. -/
theorem initial_fdcHolds (c : Cfg) (images : List Image) (floppies : List (Geometry × Option Nat))
    (disks : List (Geometry × Nat)) (hlen : floppies.length = c.fdcDrives) :
    FdcHolds (State.initial c images floppies disks) := by
  have hfloppies : (State.initial c images floppies disks).floppy.length = c.fdcDrives := by
    simp [State.initial, hlen]
  refine ⟨(FdcSide.ofReset _ hfloppies 0x00#8 0x00#8).con, hfloppies, fun u d hd => ?_⟩
  change (floppies.map _)[u]? = some d at hd
  rw [List.getElem?_map] at hd
  obtain ⟨f, -, rfl⟩ := Option.map_eq_some_iff.mp hd
  exact ⟨⟨rfl, Nat.zero_lt_succ 3⟩, nofun⟩

/-- R78: so is the hard-disk half, whichever variant there is. -/
theorem initial_hdcHolds (c : Cfg) (images : List Image) (floppies : List (Geometry × Option Nat))
    (disks : List (Geometry × Nat)) (hlen : disks.length = c.hdcDrives) :
    HdcHolds (State.initial c images floppies disks) := by
  refine ⟨fun _ => ?_, fun _ => rfl, fun _ => ⟨fun _ => ⟨rfl, ?_⟩, nofun⟩, ?_, fun u d hd => ?_⟩
  · exact ⟨List.length_replicate, ⟨List.length_replicate, Nat.zero_le _⟩, fun _ => ⟨rfl, .inl ⟨rfl, rfl, rfl⟩⟩, nofun,
      nofun⟩
  · show (if 1 ≤ c.hdcDrives then 0x50#8 else 0x00#8).getLsbD 7 = false ∧
      (if 1 ≤ c.hdcDrives then 0x50#8 else 0x00#8).getLsbD 3 = false
    split <;> decide
  · simp [State.initial, hlen]
  · change (disks.map _)[u]? = some d at hd
    rw [List.getElem?_map] at hd
    obtain ⟨f, -, rfl⟩ := Option.map_eq_some_iff.mp hd
    exact ⟨nofun, nofun⟩

/-- R440: a well-formed configuration with one descriptor for each Drive gives a machine that meets the invariant. -/
theorem initial_sequenced (c : Cfg) (images : List Image) (floppies : List (Geometry × Option Nat))
    (disks : List (Geometry × Nat)) (hwf : c.wf = true) (hfloppies : floppies.length = c.fdcDrives)
    (hdisks : disks.length = c.hdcDrives) : Sequenced (State.initial c images floppies disks) where
  cfg := hwf
  now := (consistent_iff _ _).mpr ⟨initial_fdcHolds c images floppies disks hfloppies,
    initial_hdcHolds c images floppies disks hdisks, rfl, rfl⟩
  queued v hv := by cases hv

/-- Settles O54: the invariants hold of whatever construction gives, and the construction and the power-up of this
machine are evaluated. -/
theorem resetMeetsTheInvariants : Obligations.ResetMeetsTheInvariants :=
  ⟨rfl, initial_sequenced _ _ _ _ rfl rfl rfl, by decide, rfl, rfl⟩

end Sys2Proof.Machine

/-! PROOFS of the statements of spec/20_memory.md: the bytes of the disk images under every step, the
step of an instruction, the ports that are not claimed, and the controllers side by side.

That two controllers share nothing is shown by replacement: a function that replaces everything one side has commutes
with every operation of the other side (`fdcFinish_withHdc`, `xtcFinish_besideXtc`, `atcFinish_withFdc` and so on up to
`exec_withHdc` and `exec_withFdc`). -/

namespace Sys2Proof.Machine

/-! ### The bytes of the images under a step (R86) -/

/-- Settles O52, by the three ways a step comes to a next state: taking the head of the trace stores nothing, and what
it runs, instruction or agent, keeps the canonical form. -/
theorem everyStepKeepsMemoryCanonical : Obligations.EveryStepKeepsMemoryCanonical := by
  intro s t hs hstep
  rcases step_cases s t hstep with ⟨-, rfl⟩ | ⟨sp, bs, rest, i, left, -, -, hexec⟩ | ⟨a, rest, -, hrun⟩
  · exact hs
  · obtain ⟨-, -, -, -, hwf, -⟩ := exec_keepsMedia i _ t hexec
    exact hwf hs
  · obtain ⟨-, -, -, hwf, -⟩ := runAgent_keepsMedia a _ t hrun
    exact hwf hs

/-- R364: a delivery of a lookup stores nothing unless the FDC's open session formats that Drive. -/
theorem resolve_cells {r : DriveRef} {s t : State} (h : resolve r s = .next t) (hr : s.formatting r = false) :
    t.store.cells = s.store.cells := by
  unfold resolve at h
  split at h
  · cases h
  next d hd =>
    split at h
    · cases h
    · have hdelivered : Steady s (s.modifyDrive r (Drive.resolved (s.resolution r d))) :=
        (Steady.refl s).drive (Drive.resolved_disk _)
      cases r with
      | fixed u =>
        cases h
        split
        · exact hdelivered.atcPrimed.cells
        · rfl
      | floppy u =>
        cases h
        rw [if_neg (by simp [hr])]
        rfl

/-- R364: which Drive the FDC's open session formats. -/
theorem formatting_iff (s : State) (r : DriveRef) :
    s.formatting r = true ↔
      ∃ u ss, r = .floppy u ∧ s.dma.fdc = some ss ∧ ss.drive = some u ∧ ss.direction = .format := by
  unfold State.formatting
  cases hss : s.dma.fdc with
  | none => simp
  | some ss => cases r <;> simp

/-- Settles O56, by the three ways a step comes to a next state: an instruction stores only as a write of 0x1F0, an
agent only by a push or a delivery, and a delivery only to a unit being formatted. -/
theorem imageBytesChangeOnlyByTransfers : Obligations.ImageBytesChangeOnlyByTransfers := by
  intro s t hstep hwrite hpush hformat
  rcases step_cases s t hstep with ⟨-, rfl⟩ | ⟨sp, bs, rest, i, left, hin, hdecode, hexec⟩ | ⟨a, rest, hin, hrun⟩
  · rfl
  · obtain ⟨-, -, -, -, -, hcells⟩ := exec_keepsMedia i _ t hexec
    exact hcells fun v hv => hwrite sp bs left v rest hin (hv ▸ hdecode)
  · by_cases hresolve : ∃ r, a = .resolve r
    · obtain ⟨r, rfl⟩ := hresolve
      refine resolve_cells (s := s.taken rest) hrun (Bool.eq_false_iff.mpr fun hf => ?_)
      obtain ⟨u, ss, rfl, hss, hdrive, hdir⟩ := (formatting_iff _ r).mp hf
      exact hformat u ss rest hin hss ⟨hdrive, hdir⟩
    · obtain ⟨-, -, -, -, -, hcells⟩ := runAgent_keepsMedia a _ t hrun
      exact hcells (fun c v ha => hpush c v rest (ha ▸ hin)) fun r ha => hresolve ⟨r, ha⟩

/-! ### The step of an instruction (R100) -/

/-- R100: bytes that decode are fetched as their instruction, with the state that has them consumed. -/
theorem fetch_of_decoded (s : State) (sp : Space) (bs left : List Byte) (rest : List Event) (i : Instr)
    (h : s.input = .host sp bs :: rest) (hd : decode sp bs = .ok (i, left)) :
    s.fetch = .instr i (s.fetched i sp left rest) := by
  unfold State.fetch; rw [h]; dsimp only; rw [hd]

/-- Settles O4: `step` runs what was fetched. -/
theorem stepRunsTheInstruction : Obligations.StepRunsTheInstruction := by
  intro s sp bs left rest i hin hdecode _
  unfold step
  rw [fetch_of_decoded s sp bs left rest i hin hdecode]
  rfl

/-! ### The ports that are not claimed (R80 to R83) -/

theorem onXtc_absent {s : State} (h : s.cfg.hdcVariant ≠ .xtc) (o : Out) : onXtc s o = .refused .portNotClaimed :=
  if_neg h

theorem onAtc_absent {s : State} (h : s.cfg.hdcVariant ≠ .atc) (o : Out) : onAtc s o = .refused .portNotClaimed :=
  if_neg h

theorem onRatePort_absent {s : State} (h : s.cfg.hasRatePort = false) (t : State) :
    onRatePort s t = .refused .portNotClaimed :=
  if_neg (by simp [h])

/-- R156: a command row is refused as its first byte is. -/
theorem deliver_refused {handler : Byte → State → Out} {s : State} {r : Refusal} (h : ∀ b, handler b s = .refused r)
    {bs : List Byte} (hbs : bs ≠ []) : deliver handler bs s = .refused r := by
  cases bs with
  | nil => exact absurd rfl hbs
  | cons b bs => rw [deliver, h b]

/-- R82: an XTC row is a command block for 0x320 or an access that asks for the XTC first. -/
theorem exec_of_xtcPort {i : Instr} {s : State} (hs : s.cfg.hdcVariant ≠ .xtc)
    (hi : (Cfg.withPort s.cfg i).hdcVariant = .xtc) : i.space = .xtc ∨ ∃ o, exec i s = onXtc s o := by
  cases i with
  | xtcOutData | xtcInData | xtcInStatus | xtcOutReset | xtcInConfig | xtcOutSelect | xtcOutPattern | xtcOutNoise =>
    exact .inr ⟨_, rfl⟩
  | xtcTestReady | xtcRecalibrate | xtcRequestSense | xtcReadData | xtcWriteData | xtcSeek | xtcInitDrive
  | xtcReadBuffer | xtcWriteBuffer | xtcRamDiagnostic | xtcDriveDiagnostic | xtcControllerDiagnostic | xtcUnknown =>
    exact .inl rfl
  | atcRestore | atcReadData | atcWriteData | atcSeek | atcDiagnose | atcSetParameters | atcUnknown | atcInData
  | atcOutData | atcTaskfile | atcInStatus | atcOutCommand | atcInAltStatus | atcOutFdr => cases hi
  | _ => exact absurd hi hs

/-- R83: an ATC row is a command byte for 0x1F7 or an access that asks for the ATC first. -/
theorem exec_of_atcPort {i : Instr} {s : State} (hs : s.cfg.hdcVariant ≠ .atc)
    (hi : (Cfg.withPort s.cfg i).hdcVariant = .atc) : i.space = .atc ∨ ∃ o, exec i s = onAtc s o := by
  cases i with
  | atcInData | atcOutData | atcTaskfile | atcInStatus | atcOutCommand | atcInAltStatus | atcOutFdr =>
    exact .inr ⟨_, rfl⟩
  | atcRestore | atcReadData | atcWriteData | atcSeek | atcDiagnose | atcSetParameters | atcUnknown => exact .inl rfl
  | xtcOutData | xtcInData | xtcInStatus | xtcOutReset | xtcInConfig | xtcOutSelect | xtcOutPattern | xtcOutNoise
  | xtcTestReady | xtcRecalibrate | xtcRequestSense | xtcReadData | xtcWriteData | xtcSeek | xtcInitDrive
  | xtcReadBuffer | xtcWriteBuffer | xtcRamDiagnostic | xtcDriveDiagnostic | xtcControllerDiagnostic | xtcUnknown =>
    cases hi
  | _ => exact absurd hi hs

/-- Settles O20: every row of a port asks for the port first, a command row with its first byte. -/
theorem unclaimedPortsAreRefused : Obligations.UnclaimedPortsAreRefused := by
  refine fun i s => ⟨fun hrate hi => ?_, fun hs hi => ?_, fun hs hi => ?_⟩
  · obtain rfl | ⟨v, rfl⟩ := hi
    · exact onRatePort_absent hrate _
    · exact onRatePort_absent hrate _
  · obtain hrow | ⟨o, ho⟩ := exec_of_xtcPort hs hi
    · rw [exec_xtcRow i s hrow]
      exact deliver_refused (fun _ => onXtc_absent hs _) (bytes_ne_nil i)
    · rw [ho]
      exact onXtc_absent hs o
  · obtain hrow | ⟨o, ho⟩ := exec_of_atcPort hs hi
    · rw [exec_atcRow i s hrow]
      exact deliver_refused (fun _ => onAtc_absent hs _) (bytes_ne_nil i)
    · rw [ho]
      exact onAtc_absent hs o

/-! ### The controllers side by side (R102, R330, R435) -/

/-- Changes the next state, where there is one. -/
def Out.mapNext (g : State → State) : Out → Out
  | .next t => .next (g t)
  | .fault f => .fault f
  | .refused r => .refused r

/-- Everything the hard-disk controllers have: the register sets, the Drives, the session. -/
structure HdcParts where
  xtc : Xtc
  atc : Atc
  fixed : List Drive
  session : Option Session

/-- The machine with other hard-disk controllers beside its FDC. -/
def State.withHdc (p : HdcParts) (s : State) : State :=
  { s with xtc := p.xtc, atc := p.atc, fixed := p.fixed, dma := { s.dma with xtc := p.session } }

/-- Everything the FDC has: the register set, the Drives, the session. -/
structure FdcParts where
  fdc : Fdc
  floppy : List Drive
  session : Option Session

/-- The machine with another FDC beside its hard-disk controllers. -/
def State.withFdc (p : FdcParts) (s : State) : State :=
  { s with fdc := p.fdc, floppy := p.floppy, dma := { s.dma with fdc := p.session } }

/-- The machine with everything beside its XTC replaced: another FDC, and the ATC's registers changed by `k`. -/
def State.besideXtc (p : FdcParts) (k : Atc → Atc) (s : State) : State :=
  { s.withFdc p with atc := k s.atc }

/-! #### What a replacement commutes with -/

theorem ite_commutes {α β : Type} {g : α → β} {c : Prop} [Decidable c] {a b : α} {a' b' : β} (ha : g a = a')
    (hb : g b = b') : g (if c then a else b) = if c then a' else b' := by
  rw [← ha, ← hb, apply_ite g]

/-- A delivery commutes with a replacement that its handler commutes with. -/
theorem deliver_commutes {handler : Byte → State → Out} {g : State → State}
    (h : ∀ b s, Out.mapNext g (handler b s) = handler b (g s)) (bs : List Byte) (s : State) :
    Out.mapNext g (deliver handler bs s) = deliver handler bs (g s) := by
  induction bs generalizing s with
  | nil => rfl
  | cons b bs ih =>
    rw [deliver, deliver, ← h]
    cases handler b s with
    | next t => exact ih t
    | fault f => rfl
    | refused r => rfl

/-! #### The FDC's operations beside other hard-disk controllers -/

section Fdc

variable (p : HdcParts) (s : State)

theorem drive?_floppy_withHdc (u : Nat) : (s.withHdc p).drive? (.floppy u) = s.drive? (.floppy u) := rfl

theorem fdcNameUnit_withHdc (u : BitVec 2) : (s.fdcNameUnit u).withHdc p = (s.withHdc p).fdcNameUnit u := rfl

theorem fdcFinish_withHdc (res : List Byte) (eligible : Bool) (st0 : Byte) (e : Err) :
    (s.fdcFinish res eligible st0 e).withHdc p = (s.withHdc p).fdcFinish res eligible st0 e :=
  ite_commutes (ite_commutes rfl rfl) rfl

theorem fdcOpenOrNotReady_withHdc (req : List Byte) (prepare : Drive → Drive) (dir : Direction) :
    (s.fdcOpenOrNotReady req prepare dir).withHdc p = (s.withHdc p).fdcOpenOrNotReady req prepare dir := by
  unfold State.fdcOpenOrNotReady
  dsimp only
  rw [drive?_floppy_withHdc]
  cases s.drive? (.floppy (fdcReqUnit req).toNat) with
  | none => exact fdcFinish_withHdc ..
  | some d => exact ite_commutes rfl (fdcFinish_withHdc ..)

theorem fdcRecalibrate_withHdc (req : List Byte) :
    (s.fdcRecalibrate req).withHdc p = (s.withHdc p).fdcRecalibrate req := by
  unfold State.fdcRecalibrate
  dsimp only
  rw [← fdcNameUnit_withHdc, drive?_floppy_withHdc]
  cases (s.fdcNameUnit (fdcReqUnit req)).drive? (.floppy (fdcReqUnit req).toNat) with
  | none => exact fdcFinish_withHdc ..
  | some d => exact fdcFinish_withHdc ..

theorem fdcSeek_withHdc (req : List Byte) : (s.fdcSeek req).withHdc p = (s.withHdc p).fdcSeek req := by
  unfold State.fdcSeek
  dsimp only
  rw [← fdcNameUnit_withHdc, drive?_floppy_withHdc]
  cases (s.fdcNameUnit (fdcReqUnit req)).drive? (.floppy (fdcReqUnit req).toNat) with
  | none => exact fdcFinish_withHdc ..
  | some d => exact fdcFinish_withHdc ..

theorem fdcCommand_withHdc (op : FdcOp) (req : List Byte) :
    (s.fdcCommand op req).withHdc p = (s.withHdc p).fdcCommand op req := by
  cases op with
  | specify | senseInterruptStatus | unknown => exact fdcFinish_withHdc ..
  | writeData | readData | formatTrack => exact fdcOpenOrNotReady_withHdc ..
  | recalibrate => exact fdcRecalibrate_withHdc ..
  | seek => exact fdcSeek_withHdc ..

/-- R165: the run of the collected request is its command's. -/
theorem fdcExecute_eq (s : State) :
    s.fdcExecute = { s with fdc := { s.fdc with phase := .execution, fifo := s.fdc.fifo.replayed } }.fdcCommand
      (fdcOp (fdcMaskedOp (reqByte s.fdc.fifo.request 0))) s.fdc.fifo.request :=
  rfl

theorem fdcExecute_withHdc : s.fdcExecute.withHdc p = (s.withHdc p).fdcExecute := by
  rw [fdcExecute_eq, fdcExecute_eq]
  exact fdcCommand_withHdc ..

theorem fdcDataWrite_withHdc (v : Byte) :
    Out.mapNext (State.withHdc p) (fdcDataWrite v s) = fdcDataWrite v (s.withHdc p) :=
  ite_commutes rfl (ite_commutes rfl (congrArg Host.Outcome.next (ite_commutes (fdcExecute_withHdc ..) rfl)))

theorem fdcDataRead_withHdc : Out.mapNext (State.withHdc p) (fdcDataRead s) = fdcDataRead (s.withHdc p) :=
  ite_commutes rfl (ite_commutes rfl rfl)

theorem fdcOutputWrite_withHdc (v : Byte) : (s.fdcOutputWrite v).withHdc p = (s.withHdc p).fdcOutputWrite v :=
  ite_commutes rfl (ite_commutes rfl rfl)

end Fdc

section Fixed

variable (p : FdcParts) (k : Atc → Atc) (s : State)

theorem drive?_fixed_besideXtc (u : Nat) : (s.besideXtc p k).drive? (.fixed u) = s.drive? (.fixed u) := rfl

theorem xtcUnit_besideXtc (req : List Byte) : (s.besideXtc p k).xtcUnit req = s.xtcUnit req := rfl

theorem verifyGeometry_besideXtc (u : Nat) :
    (s.verifyGeometry u).besideXtc p k = (s.besideXtc p k).verifyGeometry u := by
  unfold State.verifyGeometry
  rw [show (s.besideXtc p k).cfg = s.cfg from rfl, show (s.besideXtc p k).fixed = s.fixed from rfl]
  cases s.cfg.tableGeometry u with
  | none => rfl
  | some t =>
    cases s.fixed[u]? with
    | none => rfl
    | some d => exact ite_commutes rfl rfl

theorem xtcFinish_besideXtc (u : BitVec 1) (d : Option Nat) (e : Err) (pre : List Byte) (latch : Bool) :
    (s.xtcFinish u d e pre latch).besideXtc p k = (s.besideXtc p k).xtcFinish u d e pre latch := by
  cases latch with
  | false => exact ite_commutes rfl rfl
  | true => cases d <;> exact ite_commutes rfl rfl

theorem xtcOnDrive_besideXtc (req : List Byte) (f : Drive → Drive) :
    (s.xtcOnDrive req f).besideXtc p k = (s.besideXtc p k).xtcOnDrive req f := by
  unfold State.xtcOnDrive
  dsimp only
  rw [xtcUnit_besideXtc]
  cases s.xtcUnit req <;> exact xtcFinish_besideXtc ..

theorem xtcTransfer_besideXtc (req : List Byte) (dir : Direction) :
    (s.xtcTransfer req dir).besideXtc p k = (s.besideXtc p k).xtcTransfer req dir := by
  unfold State.xtcTransfer
  dsimp only
  rw [xtcUnit_besideXtc]
  cases s.xtcUnit req with
  | none => exact xtcFinish_besideXtc ..
  | some u => exact ite_commutes rfl (xtcFinish_besideXtc ..)

theorem xtcInitDrive_besideXtc (req : List Byte) :
    (s.xtcInitDrive req).besideXtc p k = (s.besideXtc p k).xtcInitDrive req := by
  unfold State.xtcInitDrive
  dsimp only
  rw [xtcUnit_besideXtc]
  cases s.xtcUnit req with
  | none => exact ite_commutes (xtcFinish_besideXtc ..) (xtcFinish_besideXtc ..)
  | some u => 
    dsimp only
    rw [xtcFinish_besideXtc, verifyGeometry_besideXtc]
    rfl

theorem xtcBuffer_besideXtc (req : List Byte) (toMemory : Bool) :
    (s.xtcBuffer req toMemory).besideXtc p k = (s.besideXtc p k).xtcBuffer req toMemory :=
  ite_commutes rfl (xtcFinish_besideXtc ..)

theorem xtcRequestSense_besideXtc (req : List Byte) :
    (s.xtcRequestSense req).besideXtc p k = (s.besideXtc p k).xtcRequestSense req := by
  unfold State.xtcRequestSense
  dsimp only
  rw [drive?_fixed_besideXtc, xtcUnit_besideXtc]
  exact xtcFinish_besideXtc ..

theorem xtcCommand_besideXtc (op : XtcOp) (req : List Byte) :
    (s.xtcCommand op req).besideXtc p k = (s.besideXtc p k).xtcCommand op req := by
  cases op with
  | testReady | recalibrate | seek => exact xtcOnDrive_besideXtc ..
  | readData | writeData => exact xtcTransfer_besideXtc ..
  | initDrive => exact xtcInitDrive_besideXtc ..
  | readBuffer | writeBuffer => exact xtcBuffer_besideXtc ..
  | requestSense => exact xtcRequestSense_besideXtc ..
  | ramDiagnostic | driveDiagnostic | controllerDiagnostic | unknown => exact xtcFinish_besideXtc ..

theorem xtcExecute_besideXtc : s.xtcExecute.besideXtc p k = (s.besideXtc p k).xtcExecute := by
  rw [xtcExecute_eq, xtcExecute_eq]
  exact xtcCommand_besideXtc ..

/-- An access that asks for the XTC first commutes with what the access itself commutes with. -/
theorem onXtc_besideXtc {o o' : Out} (ho : Out.mapNext (State.besideXtc p k) o = o') :
    Out.mapNext (State.besideXtc p k) (onXtc s o) = onXtc (s.besideXtc p k) o' :=
  ite_commutes ho rfl

theorem xtcDataWrite_besideXtc (v : Byte) :
    Out.mapNext (State.besideXtc p k) (xtcDataWrite v s) = xtcDataWrite v (s.besideXtc p k) :=
  onXtc_besideXtc _ _ _
    (ite_commutes rfl (congrArg Host.Outcome.next (ite_commutes (xtcExecute_besideXtc ..) rfl)))

theorem xtcDataRead_besideXtc :
    Out.mapNext (State.besideXtc p k) (xtcDataRead s) = xtcDataRead (s.besideXtc p k) :=
  onXtc_besideXtc _ _ _ (ite_commutes rfl rfl)

theorem runBay_fixed_besideXtc {α : Type} (u : Nat) (x : α) (f : Bay → α × Bay) :
    (s.besideXtc p k).runBay (.fixed u) x f =
      ((s.runBay (.fixed u) x f).1, (s.runBay (.fixed u) x f).2.besideXtc p k) := by
  unfold State.runBay
  rw [drive?_fixed_besideXtc]
  cases s.drive? (.fixed u) <;> rfl

end Fixed

section Atc

variable (p : FdcParts) (s : State)

theorem runBay_fixed_withFdc {α : Type} (u : Nat) (x : α) (f : Bay → α × Bay) :
    (s.withFdc p).runBay (.fixed u) x f =
      ((s.runBay (.fixed u) x f).1, (s.runBay (.fixed u) x f).2.withFdc p) :=
  runBay_fixed_besideXtc p id s u x f

theorem verifyGeometry_withFdc (u : Nat) : (s.verifyGeometry u).withFdc p = (s.withFdc p).verifyGeometry u :=
  verifyGeometry_besideXtc p id s u

theorem drive?_fixed_withFdc (u : Nat) : (s.withFdc p).drive? (.fixed u) = s.drive? (.fixed u) := rfl

theorem atcFinish_withFdc (e : Err) : (s.atcFinish e).withFdc p = (s.withFdc p).atcFinish e :=
  ite_commutes rfl rfl

theorem raiseIfArmed_atc_withFdc : (s.raiseIfArmed .atc).withFdc p = (s.withFdc p).raiseIfArmed .atc :=
  ite_commutes rfl rfl

theorem atcPrimed_withFdc (u : Nat) (found : Bool) :
    (s.atcPrimed (.fixed u) found).withFdc p = (s.withFdc p).atcPrimed (.fixed u) found :=
  ite_commutes (ite_commutes (raiseIfArmed_atc_withFdc ..) rfl) (atcFinish_withFdc ..)

/-- What the answer of the lookup makes of the state (R287). -/
def State.atcLooked (r : DriveRef) : NextAnswer × State → State
  | (.pending, t) => t
  | (.found, t) => t.atcPrimed r true
  | (.done, t) => t.atcPrimed r false
  | (.failed, t) => t.atcPrimed r false

theorem atcPrime_eq (r : DriveRef) :
    s.atcPrime r =
      State.atcLooked r ({ s with atc := { s.atc with status := 0x80#8 } }.runBay r .failed (nextSector 1)) :=
  rfl

theorem atcLooked_withFdc (u : Nat) (looked : NextAnswer × State) :
    (State.atcLooked (.fixed u) looked).withFdc p = State.atcLooked (.fixed u) (looked.1, looked.2.withFdc p) := by
  obtain ⟨answer, t⟩ := looked
  cases answer with
  | pending => rfl
  | found | done | failed => exact atcPrimed_withFdc ..

theorem atcPrime_withFdc (u : Nat) : (s.atcPrime (.fixed u)).withFdc p = (s.withFdc p).atcPrime (.fixed u) := by
  rw [atcPrime_eq, atcPrime_eq, atcLooked_withFdc]
  exact congrArg _ (runBay_fixed_withFdc ..).symm

theorem atcSectorDone_withFdc (u : Nat) (d : Drive) :
    (s.atcSectorDone (.fixed u) d).withFdc p = (s.withFdc p).atcSectorDone (.fixed u) d := by
  refine ite_commutes (ite_commutes (atcFinish_withFdc ..) rfl) ((atcPrime_withFdc ..).trans ?_)
  exact congrArg (State.atcPrime · (.fixed u)) (ite_commutes (raiseIfArmed_atc_withFdc ..) rfl)

theorem atcByteDone_withFdc (u : Nat) :
    (s.atcByteDone (.fixed u)).withFdc p = (s.withFdc p).atcByteDone (.fixed u) := by
  unfold State.atcByteDone
  rw [drive?_fixed_withFdc]
  cases s.drive? (.fixed u) with
  | none => rfl
  | some d => exact ite_commutes (atcSectorDone_withFdc ..) rfl

theorem atcRef_withFdc : (s.withFdc p).atcRef = s.atcRef := rfl

theorem atcDataRead_withFdc : s.atcDataRead.withFdc p = (s.withFdc p).atcDataRead := by
  unfold State.atcDataRead
  dsimp only
  rw [atcRef_withFdc, State.atcRef, runBay_fixed_withFdc]
  rcases s.runBay _ _ _ with ⟨answer, t⟩
  cases answer with
  | byte v => exact congrArg (State.reply · (.byte v)) (atcByteDone_withFdc p t _)
  | eof | pending => exact congrArg (State.reply · (.byte 0x00#8)) (atcFinish_withFdc p t _)

theorem atcDataWrite_withFdc (v : Byte) : (s.atcDataWrite v).withFdc p = (s.withFdc p).atcDataWrite v := by
  unfold State.atcDataWrite
  dsimp only
  rw [atcRef_withFdc, State.atcRef, runBay_fixed_withFdc]
  rcases s.runBay _ _ _ with ⟨answer, t⟩
  cases answer with
  | accepted => exact atcByteDone_withFdc ..
  | error | pending => exact atcFinish_withFdc ..

theorem drive?_atcRef_withFdc : (s.withFdc p).drive? (s.withFdc p).atcRef = s.drive? s.atcRef := rfl

theorem atcOnDrive_withFdc (f : Drive → Drive) : (s.atcOnDrive f).withFdc p = (s.withFdc p).atcOnDrive f := by
  unfold State.atcOnDrive
  rw [drive?_atcRef_withFdc]
  cases s.drive? s.atcRef with
  | none => exact atcFinish_withFdc ..
  | some d => exact atcFinish_withFdc ..

theorem atcTransfer_withFdc (dir : AtcDir) : (s.atcTransfer dir).withFdc p = (s.withFdc p).atcTransfer dir := by
  unfold State.atcTransfer
  rw [drive?_atcRef_withFdc]
  cases s.drive? s.atcRef with
  | none => exact atcFinish_withFdc ..
  | some d => exact atcPrime_withFdc ..

theorem atcSetParameters_withFdc : s.atcSetParameters.withFdc p = (s.withFdc p).atcSetParameters := by
  unfold State.atcSetParameters
  rw [drive?_atcRef_withFdc]
  cases s.drive? s.atcRef with
  | none => exact atcFinish_withFdc ..
  | some d =>
    dsimp only
    rw [atcFinish_withFdc, verifyGeometry_withFdc]
    rfl

theorem atcCommand_withFdc (op : AtcOp) (v : Byte) :
    (s.atcCommand op v).withFdc p = (s.withFdc p).atcCommand op v := by
  cases op with
  | restore | seek => exact atcOnDrive_withFdc ..
  | readData | writeData => exact atcTransfer_withFdc ..
  | diagnose => exact raiseIfArmed_atc_withFdc ..
  | setParameters => exact atcSetParameters_withFdc ..
  | unknown => exact atcFinish_withFdc ..

theorem atcExecute_withFdc (v : Byte) : (s.atcExecute v).withFdc p = (s.withFdc p).atcExecute v := by
  rw [atcExecute_eq, atcExecute_eq]
  exact atcCommand_withFdc ..

/-- An access that asks for the ATC first commutes with what the access itself commutes with. -/
theorem onAtc_withFdc {o o' : Out} (ho : Out.mapNext (State.withFdc p) o = o') :
    Out.mapNext (State.withFdc p) (onAtc s o) = onAtc (s.withFdc p) o' :=
  ite_commutes ho rfl

theorem atcCommandWrite_withFdc (v : Byte) :
    Out.mapNext (State.withFdc p) (atcCommandWrite v s) = atcCommandWrite v (s.withFdc p) :=
  onAtc_withFdc _ _ (ite_commutes rfl (congrArg Host.Outcome.next (atcExecute_withFdc ..)))

theorem atcFdrWrite_withFdc (v : Byte) : (s.atcFdrWrite v).withFdc p = (s.withFdc p).atcFdrWrite v := by
  unfold State.atcFdrWrite
  dsimp only
  split <;> rfl

end Atc
/-! #### The steps of the DMA peer on one channel -/

/-- A replacement that touches nothing the steps of the peer on channel `c` read or change. -/
structure OffChannel (c : Chan) (g : State → State) : Prop where
  session : ∀ s, (g s).session c = s.session c
  pending : ∀ s ss, (g s).sessionPending c ss = s.sessionPending c ss
  setSession : ∀ s ss, g (s.setSession c ss) = (g s).setSession c ss
  closeSession : ∀ s ss completed, g (s.closeSession c ss completed) = (g s).closeSession c ss completed
  runSession : ∀ {α : Type} s ss (x : α) (f : Bay → α × Bay),
    (g s).runSession c ss x f = ((s.runSession c ss x f).1, g (s.runSession c ss x f).2)
  reply : ∀ s a, g (s.reply a) = (g s).reply a

section Peer

variable {c : Chan} {g : State → State} (hg : OffChannel c g) (s : State)

include hg

theorem OffChannel.engage (yes : Bool) : Out.mapNext g (dmaEngage c yes s) = dmaEngage c yes (g s) := by
  unfold dmaEngage
  rw [hg.session]
  cases s.session c with
  | none => rfl
  | some ss =>
    exact ite_commutes rfl (ite_commutes (congrArg Host.Outcome.next (hg.setSession ..))
      (congrArg Host.Outcome.next (hg.closeSession ..)))

theorem OffChannel.close (completed : Bool) : Out.mapNext g (dmaClose c completed s) = dmaClose c completed (g s) := by
  unfold dmaClose
  rw [hg.session]
  cases s.session c with
  | none => rfl
  | some ss => exact ite_commutes (congrArg Host.Outcome.next (hg.closeSession ..)) rfl

/-- A byte moved on the session's Drive, and the answer to the peer. -/
theorem OffChannel.moved {α : Type} (ss : Session) (x : α) (f : Bay → α × Bay) (answer : α → Answer) :
    g ((s.runSession c ss x f).2.reply (answer (s.runSession c ss x f).1)) =
      ((g s).runSession c ss x f).2.reply (answer ((g s).runSession c ss x f).1) := by
  rw [hg.runSession, hg.reply]

theorem OffChannel.pull
    (hbuffer : ∀ ss, s.session c = some ss → ss.direction = .buffer → g s.bufferPull = (g s).bufferPull) :
    Out.mapNext g (dmaPull c s) = dmaPull c (g s) := by
  unfold dmaPull
  rw [hg.session]
  cases hss : s.session c with
  | none => rfl
  | some ss =>
    dsimp only
    rw [hg.pending]
    refine ite_commutes rfl ?_
    cases hdir : ss.direction with
    | read => exact congrArg Host.Outcome.next (hg.moved ..)
    | buffer => exact congrArg Host.Outcome.next (hbuffer ss hss hdir)
    | write | format => rfl

theorem OffChannel.push (b : Byte)
    (hbuffer : ∀ ss, s.session c = some ss → ss.direction = .buffer → g (s.bufferPush b) = (g s).bufferPush b) :
    Out.mapNext g (dmaPush c b s) = dmaPush c b (g s) := by
  unfold dmaPush
  rw [hg.session]
  cases hss : s.session c with
  | none => rfl
  | some ss =>
    dsimp only
    rw [hg.pending]
    refine ite_commutes rfl ?_
    cases hdir : ss.direction with
    | write | format => exact congrArg Host.Outcome.next (hg.moved ..)
    | buffer => exact congrArg Host.Outcome.next (hbuffer ss hss hdir)
    | read => rfl

end Peer

/-- The hard-disk controllers are off the FDC's channel. -/
theorem offChannel_withHdc (p : HdcParts) : OffChannel .fdc (State.withHdc p) where
  session _ := rfl
  pending _ _ := rfl
  setSession _ _ := rfl
  closeSession s ss completed := by
    unfold State.closeSession State.modifySessionDrive
    cases ss.drive <;> exact fdcFinish_withHdc ..
  runSession s ss x f := by
    unfold State.runSession
    cases ss.drive with
    | none => rfl
    | some u =>
      show (s.withHdc p).runBay (.floppy u) x f = ((s.runBay (.floppy u) x f).1, (s.runBay (.floppy u) x f).2.withHdc p)
      unfold State.runBay
      rw [drive?_floppy_withHdc]
      cases s.drive? (.floppy u) <;> rfl
  reply _ _ := rfl

/-- Everything beside the XTC is off the XTC's channel. -/
theorem offChannel_besideXtc (p : FdcParts) (k : Atc → Atc) : OffChannel .xtc (State.besideXtc p k) where
  session _ := rfl
  pending _ _ := rfl
  setSession _ _ := rfl
  closeSession s ss completed := by
    unfold State.closeSession State.modifySessionDrive
    cases ss.drive <;> exact xtcFinish_besideXtc ..
  runSession s ss x f := by
    unfold State.runSession
    cases ss.drive with
    | none => rfl
    | some u => exact runBay_fixed_besideXtc p k s u x f
  reply _ _ := rfl

theorem bufferPull_besideXtc (p : FdcParts) (k : Atc → Atc) (s : State) :
    s.bufferPull.besideXtc p k = (s.besideXtc p k).bufferPull :=
  ite_commutes rfl rfl

theorem bufferPush_besideXtc (p : FdcParts) (k : Atc → Atc) (s : State) (b : Byte) :
    (s.bufferPush b).besideXtc p k = (s.besideXtc p k).bufferPush b :=
  ite_commutes rfl rfl

/-! #### Every instruction -/

/-- The rows of the FDC: its requests and its ports (R81). -/
def Instr.OfFdc (i : Instr) : Prop :=
  i.space = .fdc ∨ i = .fdcInMainStatus ∨ i = .fdcInData ∨ i = .fdcInInput ∨
    ∃ v, i = .fdcOutOutput v ∨ i = .fdcOutData v ∨ i = .fdcOutControl v

/-- R102: an instruction of the FDC beside other hard-disk controllers. -/
theorem exec_withHdc {i : Instr} (hi : Instr.OfFdc i) (p : HdcParts) (s : State) :
    Out.mapNext (State.withHdc p) (exec i s) = exec i (s.withHdc p) := by
  obtain hrow | rfl | rfl | rfl | ⟨v, rfl | rfl | rfl⟩ := hi
  · rw [exec_fdcRow i s hrow, exec_fdcRow i _ hrow]
    exact deliver_commutes (fun b t => fdcDataWrite_withHdc p t b) _ _
  · rfl
  · exact fdcDataRead_withHdc p s
  · exact ite_commutes rfl rfl
  · exact congrArg Host.Outcome.next (fdcOutputWrite_withHdc p s v)
  · exact fdcDataWrite_withHdc p s v
  · exact ite_commutes rfl rfl

/-- R102: an instruction of the hard-disk controllers beside another FDC. -/
theorem exec_withFdc {i : Instr} (hi : ¬ Instr.OfFdc i) (p : FdcParts) (s : State) :
    Out.mapNext (State.withFdc p) (exec i s) = exec i (s.withFdc p) := by
  by_cases hx : i.space = .xtc
  · rw [exec_xtcRow i s hx, exec_xtcRow i _ hx]
    exact deliver_commutes (fun b t => xtcDataWrite_besideXtc p id t b) _ _
  by_cases ha : i.space = .atc
  · rw [exec_atcRow i s ha, exec_atcRow i _ ha]
    exact deliver_commutes (fun b t => atcCommandWrite_withFdc p t b) _ _
  cases i with
  | xtcOutData v => exact xtcDataWrite_besideXtc p id s v
  | xtcInData => exact xtcDataRead_besideXtc p id s
  | xtcInStatus | xtcOutReset | xtcInConfig | xtcOutSelect | xtcOutPattern | xtcOutNoise =>
    exact onXtc_besideXtc p id s rfl
  | atcInData => exact onAtc_withFdc p s (ite_commutes (congrArg Host.Outcome.next (atcDataRead_withFdc ..)) rfl)
  | atcOutData v => exact onAtc_withFdc p s (ite_commutes (congrArg Host.Outcome.next (atcDataWrite_withFdc ..)) rfl)
  | atcTaskfile reg w =>
    cases w with
    | none => exact onAtc_withFdc p s rfl
    | some v => exact onAtc_withFdc p s (ite_commutes rfl rfl)
  | atcOutCommand v => exact atcCommandWrite_withFdc p s v
  | atcInStatus | atcInAltStatus => exact onAtc_withFdc p s rfl
  | atcOutFdr v => exact onAtc_withFdc p s (congrArg Host.Outcome.next (atcFdrWrite_withFdc ..))
  | fdcOutOutput | fdcInMainStatus | fdcOutData | fdcInData | fdcInInput | fdcOutControl =>
    exact absurd (by simp [Instr.OfFdc]) hi
  | fdcSpecify | fdcWriteData | fdcReadData | fdcRecalibrate | fdcSenseInterruptStatus | fdcFormatTrack | fdcSeek
  | fdcUnknown => exact absurd (.inl rfl) hi
  | atcRestore | atcReadData | atcWriteData | atcSeek | atcDiagnose | atcSetParameters | atcUnknown =>
    exact absurd rfl ha
  | _ => exact absurd rfl hx

/-! #### Every step of the DMA peer -/

/-- R330: a step of the peer on the FDC's channel beside other hard-disk controllers. -/
theorem runAgent_withHdc {a : AgentStep}
    (ha : a = .dmaPull .fdc ∨ ∃ yes b, a = .dmaEngage .fdc yes ∨ a = .dmaPush .fdc b ∨ a = .dmaClose .fdc yes)
    (p : HdcParts) (s : State) (hs : ∀ ss, s.dma.fdc = some ss → ss.direction ≠ .buffer) :
    Out.mapNext (State.withHdc p) (runAgent a s) = runAgent a (s.withHdc p) := by
  have hoff := offChannel_withHdc p
  obtain rfl | ⟨yes, b, rfl | rfl | rfl⟩ := ha
  · exact hoff.pull s fun ss hss hdir => absurd hdir (hs ss hss)
  · exact hoff.engage s yes
  · exact hoff.push s b fun ss hss hdir => absurd hdir (hs ss hss)
  · exact hoff.close s yes

/-- R330: a step of the peer on the XTC's channel beside anything else. -/
theorem runAgent_besideXtc {a : AgentStep}
    (ha : a = .dmaPull .xtc ∨ ∃ yes b, a = .dmaEngage .xtc yes ∨ a = .dmaPush .xtc b ∨ a = .dmaClose .xtc yes)
    (p : FdcParts) (k : Atc → Atc) (s : State) :
    Out.mapNext (State.besideXtc p k) (runAgent a s) = runAgent a (s.besideXtc p k) := by
  have hoff := offChannel_besideXtc p k
  obtain rfl | ⟨yes, b, rfl | rfl | rfl⟩ := ha
  · exact hoff.pull s fun _ _ _ => bufferPull_besideXtc p k s
  · exact hoff.engage s yes
  · exact hoff.push s b fun _ _ _ => bufferPush_besideXtc p k s b
  · exact hoff.close s yes

/-- Settles O59: each replacement is `withHdc`, `withFdc` or `besideXtc`, and every operation of the steps concerned
commutes with it. -/
theorem controllersAreIndependent : Obligations.ControllersAreIndependent := by
  intro i s
  refine ⟨fun hi x a fixed ss => ?_, fun hi f floppy ss => ?_, fun a => ⟨fun ha hs x c fixed ss => ?_,
    fun ha f c floppy ss => ?_⟩⟩
  · refine (exec_withHdc hi ⟨x, a, fixed, ss⟩ s).symm.trans ?_
    cases exec i s <;> rfl
  · refine (exec_withFdc hi ⟨f, floppy, ss⟩ s).symm.trans ?_
    cases exec i s <;> rfl
  · refine (runAgent_withHdc ha ⟨x, c, fixed, ss⟩ s hs).symm.trans ?_
    cases runAgent a s <;> rfl
  · refine (runAgent_besideXtc ha ⟨f, floppy, ss⟩ (fun _ => c) s).symm.trans ?_
    cases runAgent a s <;> rfl

end Sys2Proof.Machine

/-! PROOFS of the statements of spec/30_encoding.md: decoding the bytes of an instruction, and the bytes of what
decodes.

Both directions rest on the same facts: the fields of a byte put together again are the byte (and the fields of a byte
put together are the fields), and an opcode is the code its table row carries (`FdcOp.code`, `XtcOp.code`, `AtcOp.word`)
or, in the unknown row, itself. -/

namespace Sys2Proof

open Machine

/-! ### Fields of the bytes (R121, R124, R135, R137) -/

@[simp] theorem encodeFdcFirst_modifiers (m : BitVec 3) (op : BitVec 5) :
    (encodeFdcFirst m op).extractLsb' 5 3 = m :=
  BitVec.extractLsb'_append_eq_left

theorem encodeFdcFirst_of_fields (b : Byte) : encodeFdcFirst (b.extractLsb' 5 3) (fdcMaskedOp b) = b :=
  BitVec.extractLsb'_append_extractLsb'

@[simp] theorem decodeUnitSelect_encode (us : UnitSelect) : decodeUnitSelect (encodeUnitSelect us) = us := by
  have hignored : (encodeUnitSelect us).extractLsb' 3 5 = us.ignored := by
    obtain ⟨i, h, u⟩ := us; revert i h u; decide
  simp only [decodeUnitSelect, hignored, unitSelect_head, unitSelect_unit]

@[simp] theorem encodeUnitSelect_decode (b : Byte) : encodeUnitSelect (decodeUnitSelect b) = b := by
  have hhigh : b.extractLsb' 3 5 ++ b.extractLsb' 2 1 = b.extractLsb' 2 6 :=
    BitVec.extractLsb'_append_extractLsb'_eq_extractLsb' rfl
  simp only [encodeUnitSelect, decodeUnitSelect, hhigh]
  exact BitVec.extractLsb'_append_extractLsb'

/-- R135: the bytes after the first of an encoded block decode to the block. -/
@[simp] theorem decodeXtcBlock_encode (b : XtcBlock) :
    decodeXtcBlock (b.ignored ++ b.drive ++ b.head) (b.cylHigh ++ b.sector) b.cylLow b.count b.control = b := by
  have hignored : (b.ignored ++ b.drive ++ b.head : Byte).extractLsb' 6 2 = b.ignored := by
    rw [BitVec.extractLsb'_append_eq_of_le (by decide)]
    exact BitVec.extractLsb'_append_eq_left
  simp only [decodeXtcBlock, hignored, xtcByte1_drive, xtcByte1_head, xtcByte2_cylHigh, xtcByte2_sector]

@[simp] theorem encodeXtcBlock_decode (c0 c1 c2 c3 c4 c5 : Byte) :
    encodeXtcBlock c0 (decodeXtcBlock c1 c2 c3 c4 c5) = [c0, c1, c2, c3, c4, c5] := by
  have hhigh : c1.extractLsb' 6 2 ++ c1.extractLsb' 5 1 = c1.extractLsb' 5 3 :=
    BitVec.extractLsb'_append_extractLsb'_eq_extractLsb' rfl
  have h1 : c1.extractLsb' 5 3 ++ c1.extractLsb' 0 5 = c1 := BitVec.extractLsb'_append_extractLsb'
  have h2 : c2.extractLsb' 6 2 ++ c2.extractLsb' 0 6 = c2 := BitVec.extractLsb'_append_extractLsb'
  simp only [encodeXtcBlock, decodeXtcBlock, hhigh, h1, h2]

/-- R146: the operand of RESTORE and SEEK. -/
@[simp] theorem lowNibble_append (hi lo : BitVec 4) : (hi ++ lo : Byte).extractLsb' 0 4 = lo :=
  BitVec.extractLsb'_append_eq_right

/-- R146: the retry bit of READ_DATA and WRITE_DATA. -/
@[simp] theorem lowBit_append (hi : BitVec 7) (lo : BitVec 1) : (hi ++ lo : Byte).extractLsb' 0 1 = lo :=
  BitVec.extractLsb'_append_eq_right

@[simp] theorem highByte_append (hi lo : Byte) : highByte (hi ++ lo) = hi := BitVec.extractLsb'_append_eq_left

@[simp] theorem lowByte_append (hi lo : Byte) : lowByte (hi ++ lo) = lo := BitVec.extractLsb'_append_eq_right

@[simp] theorem encodeInitParams_decode (p0 p1 p2 p3 p4 p5 p6 p7 : Byte) :
    encodeInitParams (decodeInitParams p0 p1 p2 p3 p4 p5 p6 p7) = [p0, p1, p2, p3, p4, p5, p6, p7] := by
  simp [encodeInitParams, decodeInitParams]

/-! ### The opcode tables (R122, R136, R146) -/

/-- The opcode of a row of R122; the unknown row has whatever opcode it was given. -/
def FdcOp.code (op : BitVec 5) : FdcOp → BitVec 5
  | .specify => 0x03#5
  | .writeData => 0x05#5
  | .readData => 0x06#5
  | .recalibrate => 0x07#5
  | .senseInterruptStatus => 0x08#5
  | .formatTrack => 0x0D#5
  | .seek => 0x0F#5
  | .unknown => op

theorem code_fdcOp (op : BitVec 5) : (fdcOp op).code op = op := by
  revert op; decide

/-- R121: the first byte of a request is its row's opcode under the modifier bits. -/
theorem encodeFdcFirst_code {b : Byte} {k : FdcOp} (h : fdcOp (fdcMaskedOp b) = k) :
    encodeFdcFirst (b.extractLsb' 5 3) (k.code (fdcMaskedOp b)) = b := by
  rw [← h, code_fdcOp, encodeFdcFirst_of_fields]

/-- R130. -/
theorem fdcOp_eq_unknown_iff (m : BitVec 3) (op : BitVec 5) :
    fdcOp op = .unknown ↔ (Instr.fdcUnknown m op).wf = true := by
  have h : ∀ op, fdcOp op = .unknown ↔ (!fdcKnownOps.contains op) = true := by decide
  exact h op

/-- The opcode of a row of R136; the unknown row has whatever opcode it was given. -/
def XtcOp.code (c0 : Byte) : XtcOp → Byte
  | .testReady => 0x00#8
  | .recalibrate => 0x01#8
  | .requestSense => 0x03#8
  | .readData => 0x08#8
  | .writeData => 0x0A#8
  | .seek => 0x0B#8
  | .initDrive => 0x0C#8
  | .readBuffer => 0x0E#8
  | .writeBuffer => 0x0F#8
  | .ramDiagnostic => 0xE0#8
  | .driveDiagnostic => 0xE3#8
  | .controllerDiagnostic => 0xE4#8
  | .unknown => c0

theorem code_xtcOp (c0 : Byte) : (xtcOp c0).code c0 = c0 := by
  revert c0; decide

/-- R140. -/
theorem xtcOp_eq_unknown_iff (c0 : Byte) (b : XtcBlock) :
    xtcOp c0 = .unknown ↔ (Instr.xtcUnknown c0 b).wf = true := by
  have h : ∀ c : Byte, xtcOp c = .unknown ↔ (!xtcKnownOps.contains c) = true := by decide
  exact h c0

/-- The command byte of a row of R146 with the operand bits of `v`; the unknown row has `v` itself. -/
def AtcOp.word (v : Byte) : AtcOp → Byte
  | .restore => 0x1#4 ++ v.extractLsb' 0 4
  | .readData => 0x10#7 ++ v.extractLsb' 0 1
  | .writeData => 0x18#7 ++ v.extractLsb' 0 1
  | .seek => 0x7#4 ++ v.extractLsb' 0 4
  | .diagnose => 0x90#8
  | .setParameters => 0x91#8
  | .unknown => v

theorem word_atcOp (v : Byte) : (atcOp v).word v = v := by
  revert v; decide

@[simp] theorem atcOp_restore (rate : BitVec 4) : atcOp (0x1#4 ++ rate) = .restore := by
  revert rate; decide

@[simp] theorem atcOp_readData (retry : BitVec 1) : atcOp (0x10#7 ++ retry) = .readData := by
  revert retry; decide

@[simp] theorem atcOp_writeData (retry : BitVec 1) : atcOp (0x18#7 ++ retry) = .writeData := by
  revert retry; decide

@[simp] theorem atcOp_seek (rate : BitVec 4) : atcOp (0x7#4 ++ rate) = .seek := by
  revert rate; decide

/-- R150. -/
theorem atcOp_eq_unknown_iff (v : Byte) : atcOp v = .unknown ↔ (Instr.atcUnknown v).wf = true := by
  revert v; decide

/-! ### Decoding the bytes of an instruction -/

/-- The bytes of a port write decode to what the handler of that port makes of the datum. -/
theorem decode_encodeOut {p : PortNo} {v : Byte} {i : Instr} (h : decodeOutPort p v = .ok i) (rest : List Byte) :
    decode .portOut (encodeOut p v ++ rest) = .ok (i, rest) := by
  simp [decode, encodeOut, decodePortOut, high_low, h]

/-- The bytes of a port read decode to what the handler of that port answers. -/
theorem decode_encodeIn {p : PortNo} {i : Instr} (h : decodeInPort p = .ok i) (rest : List Byte) :
    decode .portIn (encodeIn p ++ rest) = .ok (i, rest) := by
  simp [decode, encodeIn, decodePortIn, high_low, h]

/-- Settles O1, by the rows of the instruction set: the opcode selects the row it was encoded from, and the decoder
takes each field from where the encoder put it. -/
theorem decodeOfEncode : Obligations.DecodeOfEncode := by
  intro i hw rest
  cases i with
  | fdcSpecify | fdcWriteData | fdcReadData | fdcRecalibrate | fdcSenseInterruptStatus | fdcFormatTrack | fdcSeek =>
    simp [Instr.space, Instr.bytes, decode, decodeFdc, fdcOp]
  | fdcUnknown m op =>
    have hop := (fdcOp_eq_unknown_iff m op).mpr hw
    simp [Instr.space, Instr.bytes, decode, decodeFdc, hop]
  | xtcTestReady | xtcRecalibrate | xtcRequestSense | xtcReadData | xtcWriteData | xtcSeek | xtcReadBuffer
  | xtcWriteBuffer | xtcRamDiagnostic | xtcDriveDiagnostic | xtcControllerDiagnostic =>
    simp [Instr.space, Instr.bytes, decode, decodeXtc, encodeXtcBlock, xtcOp]
  | xtcInitDrive b p =>
    simp [Instr.space, Instr.bytes, decode, decodeXtc, encodeXtcBlock, encodeInitParams, xtcOp, decodeInitParams,
      high_low]
  | xtcUnknown c0 b =>
    have hop := (xtcOp_eq_unknown_iff c0 b).mpr hw
    simp [Instr.space, Instr.bytes, decode, decodeXtc, encodeXtcBlock, hop]
  | atcRestore | atcReadData | atcWriteData | atcSeek =>
    simp [Instr.space, Instr.bytes, decode, decodeAtc]
  | atcDiagnose | atcSetParameters => rfl
  | atcUnknown v =>
    have hop := (atcOp_eq_unknown_iff v).mpr hw
    simp [Instr.space, Instr.bytes, decode, decodeAtc, hop]
  | fdcOutOutput | fdcOutData | fdcOutControl | xtcOutData | xtcOutReset | xtcOutSelect | xtcOutPattern | atcOutData
  | atcOutCommand | atcOutFdr => exact decode_encodeOut rfl rest
  | xtcOutNoise p v => cases p <;> exact decode_encodeOut rfl rest
  | fdcInMainStatus | fdcInData | fdcInInput | xtcInData | xtcInStatus | xtcInConfig | atcInData | atcInStatus
  | atcInAltStatus => exact decode_encodeIn rfl rest
  | atcTaskfile reg w =>
    cases w with
    | none => cases reg <;> exact decode_encodeIn rfl rest
    | some v => cases reg <;> exact decode_encodeOut rfl rest

/-! ### The bytes of what decodes -/

/-- The bytes are those of a well-formed instruction of the space, and then the rest. -/
def Encodes (sp : Space) (bs : List Byte) (i : Instr) (rest : List Byte) : Prop :=
  i.wf = true ∧ i.space = sp ∧ bs = i.bytes ++ rest

theorem Encodes.append {sp : Space} {bs : List Byte} {i : Instr} (h : Encodes sp bs i []) (rest : List Byte) :
    Encodes sp (bs ++ rest) i rest := by
  obtain ⟨hwf, hspace, hbytes⟩ := h
  exact ⟨hwf, hspace, by rw [hbytes, List.append_nil]⟩

/-- R121 to R130. -/
theorem encodes_of_decodeFdc {bs rest : List Byte} {i : Instr} (h : decodeFdc bs = .ok (i, rest)) :
    Encodes .fdc bs i rest := by
  cases bs with
  | nil => cases h
  | cons b0 bs =>
    simp only [decodeFdc] at h
    split at h <;> cases h
    -- The unknown row is the eighth; in the others the opcode is the row's.
    case h_8 hop => exact ⟨(fdcOp_eq_unknown_iff _ _).mp hop, rfl, by simp [Instr.bytes, encodeFdcFirst_of_fields]⟩
    all_goals
      next hop =>
        have hb0 := encodeFdcFirst_code hop
        simp only [FdcOp.code] at hb0
        exact ⟨rfl, rfl, by simp [Instr.bytes, hb0]⟩

/-- R135 to R140. -/
theorem encodes_of_decodeXtc {bs rest : List Byte} {i : Instr} (h : decodeXtc bs = .ok (i, rest)) :
    Encodes .xtc bs i rest := by
  unfold decodeXtc at h
  split at h
  next c0 c1 c2 c3 c4 c5 tail =>
    have hc0 := code_xtcOp c0
    cases hop : xtcOp c0 with
    | unknown =>
      simp only [hop] at h
      cases h
      exact ⟨(xtcOp_eq_unknown_iff _ _).mp hop, rfl, by simp [Instr.bytes]⟩
    | initDrive =>
      rw [hop, XtcOp.code] at hc0
      simp only [hop] at h
      split at h <;> cases h
      exact ⟨rfl, rfl, by simp [Instr.bytes, hc0]⟩
    | _ =>
      rw [hop, XtcOp.code] at hc0
      simp only [hop] at h
      cases h
      exact ⟨rfl, rfl, by simp [Instr.bytes, hc0]⟩
  next => cases h

/-- R145 to R150. -/
theorem encodes_of_decodeAtc {bs rest : List Byte} {i : Instr} (h : decodeAtc bs = .ok (i, rest)) :
    Encodes .atc bs i rest := by
  cases bs with
  | nil => cases h
  | cons v bs =>
    have hv := word_atcOp v
    cases hop : atcOp v with
    | unknown =>
      simp only [decodeAtc, hop] at h
      cases h
      exact ⟨(atcOp_eq_unknown_iff v).mp hop, rfl, rfl⟩
    | _ =>
      rw [hop, AtcOp.word] at hv
      simp only [decodeAtc, hop] at h
      cases h
      exact ⟨rfl, rfl, by simp [Instr.bytes, hv]⟩

/-- One row of a port table: the handler of that port, or a row further down. -/
theorem encodes_of_handler {sp : Space} {bs : List Byte} {i j : Instr} {c : Prop} [Decidable c]
    {others : Except Reject Instr} (hhere : c → Encodes sp bs j []) (hthere : others = .ok i → Encodes sp bs i [])
    (h : (if c then .ok j else others) = .ok i) : Encodes sp bs i [] := by
  split at h
  next hc => cases h; exact hhere hc
  next => exact hthere h

/-- R81 to R83: a write handler stands at the port its instruction is written to. -/
theorem encodes_of_decodeOutPort {p : PortNo} {v : Byte} {i : Instr} :
    decodeOutPort p v = .ok i → Encodes .portOut (encodeOut p v) i [] := by
  unfold decodeOutPort
  repeat refine encodes_of_handler (fun hp => hp ▸ ⟨rfl, rfl, rfl⟩) ?_
  exact nofun

/-- R81 to R83: a read handler stands at the port its instruction reads. -/
theorem encodes_of_decodeInPort {p : PortNo} {i : Instr} :
    decodeInPort p = .ok i → Encodes .portIn (encodeIn p) i [] := by
  unfold decodeInPort
  repeat refine encodes_of_handler (fun hp => hp ▸ ⟨rfl, rfl, rfl⟩) ?_
  exact nofun

theorem encodes_of_decodePortOut {bs rest : List Byte} {i : Instr} (h : decodePortOut bs = .ok (i, rest)) :
    Encodes .portOut bs i rest := by
  unfold decodePortOut at h
  split at h
  next lo hi v tail =>
    split at h
    next hport =>
      cases h
      simpa [encodeOut] using (encodes_of_decodeOutPort hport).append rest
    next => cases h
  next => cases h

theorem encodes_of_decodePortIn {bs rest : List Byte} {i : Instr} (h : decodePortIn bs = .ok (i, rest)) :
    Encodes .portIn bs i rest := by
  unfold decodePortIn at h
  split at h
  next lo hi tail =>
    split at h
    next hport =>
      cases h
      simpa [encodeIn] using (encodes_of_decodeInPort hport).append rest
    next => cases h
  next => cases h

/-- Settles O2, space by space. -/
theorem encodeOfDecode : Obligations.EncodeOfDecode := by
  intro sp bs i rest h
  cases sp with
  | portOut => exact encodes_of_decodePortOut h
  | portIn => exact encodes_of_decodePortIn h
  | portWide => cases h
  | fdc => exact encodes_of_decodeFdc h
  | xtc => exact encodes_of_decodeXtc h
  | atc => exact encodes_of_decodeAtc h

/-! ### Words of the tables -/

/-- Settles O3: each word is the bytes of its instruction, so it decodes to it by O1. -/
theorem decodeWords : Obligations.DecodeWords :=
  ⟨decodeOfEncode (.fdcSeek 0#3 ⟨0#5, 1#1, 1#2⟩ 0x27#8) rfl [],
    decodeOfEncode (.fdcReadData 7#3 ⟨0#5, 1#1, 0#2⟩ 1#8 2#8 3#8 2#8 9#8 0x2A#8 0xFF#8) rfl [],
    decodeOfEncode (.xtcSeek ⟨0#2, 1#1, 2#5, 1#2, 5#6, 0x31#8, 0#8, 7#8⟩) rfl [],
    decodeOfEncode (.atcSeek 3#4) rfl [], decodeOfEncode (.atcReadData 1#1) rfl [],
    decodeOfEncode (.fdcOutOutput 0x0C#8) rfl [], decodeOfEncode .atcInStatus rfl []⟩

end Sys2Proof

/-! PROOFS of the statements of spec/40_fdc_sequencer.md, and of the accesses of the other two register sets that go
with them: the port accesses, each handler by an equation for every case it has, and the phase transitions of the
FDC. -/

namespace Sys2Proof.Machine

/-! ### The ports the machine claims (R80 to R83) -/

theorem onXtc_present {s : State} (h : s.cfg.hdcVariant = .xtc) (o : Out) : onXtc s o = o := if_pos h

theorem onAtc_present {s : State} (h : s.cfg.hdcVariant = .atc) (o : Out) : onAtc s o = o := if_pos h

theorem onRatePort_present {s : State} (h : s.cfg.hasRatePort = true) (t : State) : onRatePort s t = .next t :=
  if_pos h

/-! ### The Data port of the FDC (R162 to R164, R168, R169) -/

/-- R162: a disabled FDC ignores the byte. -/
theorem fdcDataWrite_disabled {s : State} (h : s.fdc.enabled = false) (v : Byte) : fdcDataWrite v s = .next s :=
  if_pos h

/-- R164, U1. -/
theorem fdcDataWrite_busy {s : State} (hen : s.fdc.enabled = true) (hphase : s.fdc.phase ≠ .command) (v : Byte) :
    fdcDataWrite v s = .fault (.protocolViolation .dataWritePhase) := by
  unfold fdcDataWrite
  rw [if_neg (by simp [hen]), if_pos hphase]

/-- R163: a byte that leaves the request open. -/
theorem fdcDataWrite_open {s : State} (hen : s.fdc.enabled = true) (hphase : s.fdc.phase = .command) {v : Byte}
    (hopen : (s.fdc.fifo.accept fdcReqLen v).writeIndex ≠ (s.fdc.fifo.accept fdcReqLen v).totalExpected) :
    fdcDataWrite v s = .next { s with fdc := { s.fdc with fifo := s.fdc.fifo.accept fdcReqLen v } } := by
  rw [fdcDataWrite_collects.takes v s ⟨hen, hphase⟩, if_neg (by simpa [Fifo.full] using hopen)]

/-- R163, R165: the byte that completes the request. -/
theorem fdcDataWrite_complete {s : State} (hen : s.fdc.enabled = true) (hphase : s.fdc.phase = .command) {v : Byte}
    (hfull : (s.fdc.fifo.accept fdcReqLen v).writeIndex = (s.fdc.fifo.accept fdcReqLen v).totalExpected) :
    fdcDataWrite v s =
      .next (State.fdcExecute { s with fdc := { s.fdc with fifo := s.fdc.fifo.accept fdcReqLen v } }) := by
  rw [fdcDataWrite_collects.takes v s ⟨hen, hphase⟩, if_pos (by simpa [Fifo.full] using hfull)]

/-- R162, U3. -/
theorem fdcDataRead_disabled {s : State} (h : s.fdc.enabled = false) :
    fdcDataRead s = .fault (.protocolViolation .dataReadDisabled) :=
  if_pos h

/-- R169, U2. -/
theorem fdcDataRead_wrongPhase {s : State} (hen : s.fdc.enabled = true) (hphase : s.fdc.phase ≠ .result) :
    fdcDataRead s = .fault (.protocolViolation .dataReadPhase) := by
  unfold fdcDataRead
  rw [if_neg (by simp [hen]), if_pos hphase]

/-- R168: what a read in Result Phase leaves of the register set. -/
def Fdc.acknowledged (f : Fdc) : Fdc :=
  { f with
    irq := false
    phase := if f.fifo.readIndex + 1 = f.fifo.totalExpected then .command else .result
    fifo := f.fifo.next }

theorem fdcDataRead_result {s : State} (hen : s.fdc.enabled = true) (hphase : s.fdc.phase = .result) :
    fdcDataRead s = .next { s with answer := .byte s.fdc.fifo.head, fdc := s.fdc.acknowledged } := by
  unfold fdcDataRead
  rw [if_neg (by simp [hen]), if_neg (by simp [hphase])]
  simp [State.reply, Fdc.acknowledged, Fifo.atLast]

/-! ### The Data port of the XTC (R231, R234, R254) -/

/-- R254, U1. -/
theorem xtcDataWrite_busy {s : State} (hv : s.cfg.hdcVariant = .xtc) (hphase : s.xtc.phase ≠ .command) (v : Byte) :
    xtcDataWrite v s = .fault (.protocolViolation .dataWritePhase) :=
  (onXtc_present hv _).trans (if_pos hphase)

/-- R231: a byte that leaves the block open. -/
theorem xtcDataWrite_open {s : State} (hv : s.cfg.hdcVariant = .xtc) (hphase : s.xtc.phase = .command) {v : Byte}
    (hopen : (s.xtc.fifo.accept xtcReqLen v).writeIndex ≠ (s.xtc.fifo.accept xtcReqLen v).totalExpected) :
    xtcDataWrite v s = .next { s with xtc := { s.xtc with fifo := s.xtc.fifo.accept xtcReqLen v } } := by
  rw [xtcDataWrite_collects.takes v s ⟨hv, hphase⟩, if_neg (by simpa [Fifo.full] using hopen)]

/-- R231, R232: the byte that completes the block. -/
theorem xtcDataWrite_complete {s : State} (hv : s.cfg.hdcVariant = .xtc) (hphase : s.xtc.phase = .command) {v : Byte}
    (hfull : (s.xtc.fifo.accept xtcReqLen v).writeIndex = (s.xtc.fifo.accept xtcReqLen v).totalExpected) :
    xtcDataWrite v s =
      .next (State.xtcExecute { s with xtc := { s.xtc with fifo := s.xtc.fifo.accept xtcReqLen v } }) := by
  rw [xtcDataWrite_collects.takes v s ⟨hv, hphase⟩, if_pos (by simpa [Fifo.full] using hfull)]

/-- R254, U2. -/
theorem xtcDataRead_wrongPhase {s : State} (hv : s.cfg.hdcVariant = .xtc) (hphase : s.xtc.phase ≠ .result) :
    xtcDataRead s = .fault (.protocolViolation .dataReadPhase) :=
  (onXtc_present hv _).trans (if_pos hphase)

/-- R234: what a read in Result Phase leaves of the register set. -/
def Xtc.acknowledged (x : Xtc) : Xtc :=
  { x with
    irq := false
    phase := if x.fifo.readIndex + 1 = x.fifo.totalExpected then .command else .result
    selected := if x.fifo.readIndex + 1 = x.fifo.totalExpected then false else x.selected
    fifo := x.fifo.next }

theorem xtcDataRead_result {s : State} (hv : s.cfg.hdcVariant = .xtc) (hphase : s.xtc.phase = .result) :
    xtcDataRead s = .next { s with answer := .byte s.xtc.fifo.head, xtc := s.xtc.acknowledged } := by
  unfold xtcDataRead
  rw [onXtc_present hv, if_neg (by simp [hphase])]
  simp [State.reply, Xtc.acknowledged, Fifo.atLast]

/-! ### The ports of the ATC during a transfer (R298) -/

theorem atcCommandWrite_busy {s : State} (hv : s.cfg.hdcVariant = .atc) (hphase : s.atc.phase ≠ .command) (v : Byte) :
    atcCommandWrite v s = .fault (.protocolViolation .atcAccess) :=
  (onAtc_present hv _).trans (if_pos hphase)

theorem execAtcTaskfile_busy {s : State} (hv : s.cfg.hdcVariant = .atc) (hphase : s.atc.phase ≠ .command)
    (reg : TaskReg) (v : Byte) : execAtcTaskfile reg (some v) s = .fault (.protocolViolation .atcAccess) :=
  (onAtc_present hv _).trans (if_neg hphase)

/-- R281: outside a transfer. -/
theorem execAtcTaskfile_write {s : State} (h : AtcIdle s) (reg : TaskReg) (v : Byte) :
    execAtcTaskfile reg (some v) s = .next { s with atc := s.atc.writeReg reg v } :=
  (onAtc_present h.variant _).trans (if_pos h.phase)

theorem execAtcTaskfile_read {s : State} (hv : s.cfg.hdcVariant = .atc) (reg : TaskReg) :
    execAtcTaskfile reg none s = .next { s with answer := .byte (s.atc.readReg reg) } :=
  onAtc_present hv _

/-- R298: a transfer in progress, of that direction, with `DATA_REQ`. -/
theorem Atc.dataReady_iff (a : Atc) (dir : AtcDir) :
    a.dataReady dir = true ↔ a.phase = .execution ∧ a.dir = dir ∧ a.status.getLsbD 3 = true := by
  simp [Atc.dataReady, Atc.dataReq, and_assoc]

theorem execAtcInData_notReady {s : State} (hv : s.cfg.hdcVariant = .atc) (h : ¬ s.atc.dataReady .read = true) :
    execAtcInData s = .fault (.protocolViolation .atcAccess) :=
  (onAtc_present hv _).trans (if_neg h)

theorem execAtcOutData_notReady {s : State} (hv : s.cfg.hdcVariant = .atc) (h : ¬ s.atc.dataReady .write = true)
    (v : Byte) : execAtcOutData v s = .fault (.protocolViolation .atcAccess) :=
  (onAtc_present hv _).trans (if_neg h)

/-! ### Deliveries that do not get past their first byte (R156) -/

theorem deliver_fault {handler : Byte → State → Out} {s : State} {f : Fault} (h : ∀ b, handler b s = .fault f)
    {bs : List Byte} (hbs : bs ≠ []) : deliver handler bs s = .fault f := by
  cases bs with
  | nil => exact absurd rfl hbs
  | cons b bs => rw [deliver, h b]

theorem deliver_ignored {handler : Byte → State → Out} {s : State} (h : ∀ b, handler b s = .next s)
    (bs : List Byte) : deliver handler bs s = .next s := by
  induction bs with
  | nil => rfl
  | cons b bs ih => rw [deliver, h b]; exact ih

/-- R164: an FDC row outside Command Phase stops as its first byte does. -/
theorem exec_fdcRow_busy {i : Instr} {s : State} (hi : i.space = .fdc) (hen : s.fdc.enabled = true)
    (hphase : s.fdc.phase ≠ .command) : exec i s = .fault (.protocolViolation .dataWritePhase) := by
  rw [exec_fdcRow i s hi]
  exact deliver_fault (fdcDataWrite_busy hen hphase) (bytes_ne_nil i)

/-- R162: a disabled FDC ignores a whole row. -/
theorem exec_fdcRow_disabled {i : Instr} {s : State} (hi : i.space = .fdc) (h : s.fdc.enabled = false) :
    exec i s = .next s := by
  rw [exec_fdcRow i s hi]
  exact deliver_ignored (fdcDataWrite_disabled h) i.bytes

/-- Settles O19: every access by the case equation of its port handler, a whole row by its first byte. -/
theorem undefinedPortAccesses : Obligations.UndefinedPortAccesses := by
  intro s v
  refine ⟨fun hen hphase => fdcDataWrite_busy hen hphase v, fdcDataRead_wrongPhase,
    fun h => ⟨fdcDataWrite_disabled h v, fdcDataRead_disabled h⟩,
    fun hv => ⟨fun hphase => xtcDataWrite_busy hv hphase v, xtcDataRead_wrongPhase hv⟩,
    fun hv => ⟨fun hphase => ?_, fun h => ?_, fun h => ?_⟩, fun i => ⟨exec_fdcRow_busy, exec_fdcRow_disabled, ?_, ?_⟩⟩
  · have hbusy : s.atc.phase ≠ .command := by simp [hphase]
    exact ⟨atcCommandWrite_busy hv hbusy v, fun reg => execAtcTaskfile_busy hv hbusy reg v⟩
  · exact execAtcInData_notReady hv (mt (Atc.dataReady_iff s.atc .read).mp h)
  · exact execAtcOutData_notReady hv (mt (Atc.dataReady_iff s.atc .write).mp h) v
  · intro hi hv hphase
    rw [exec_xtcRow i s hi]
    exact deliver_fault (xtcDataWrite_busy hv hphase) (bytes_ne_nil i)
  · intro hi hv hphase
    rw [exec_atcRow i s hi]
    exact deliver_fault (atcCommandWrite_busy hv hphase) (bytes_ne_nil i)

/-! ### Ports that read (R172, R174, R235, R237, R281, R286) -/

/-- R52: no phase shows bit 5, which is `INTERRUPT`. -/
theorem Xtc.phaseStatus_interrupt (x : Xtc) : x.phaseStatus &&& 0x20#8 = 0#8 := by
  unfold Xtc.phaseStatus
  cases x.phase with
  | command => dsimp only; split <;> rfl
  | execution => dsimp only; split <;> rfl
  | result => dsimp only; rfl

/-- R52: `INTERRUPT` is added to the phase's status. -/
theorem Xtc.status_eq_add (x : Xtc) : x.status = x.phaseStatus + (if x.irq then 0x20#8 else 0x00#8) := by
  unfold Xtc.status
  cases x.irq with
  | true => exact (BitVec.add_eq_or_of_and_eq_zero _ _ x.phaseStatus_interrupt).symm
  | false => simp

/-- R52: Command Phase, by what would select the controller. -/
theorem Xtc.phaseStatus_command {x : Xtc} (h : x.phase = .command) :
    x.phaseStatus = if x.selected = false ∧ x.fifo.writeIndex = 0 then 0x00#8 else 0x0D#8 := by
  unfold Xtc.phaseStatus
  rw [h]
  cases x.selected <;> cases x.fifo.writeIndex <;> simp

/-- R52: Execution Phase, by the DMA request enable. -/
theorem Xtc.phaseStatus_execution {x : Xtc} (h : x.phase = .execution) :
    x.phaseStatus = 0x08#8 + (if x.pattern.getLsbD 0 then 0x10#8 else 0x00#8) := by
  unfold Xtc.phaseStatus Xtc.dmaEnabled
  rw [h]
  cases x.pattern.getLsbD 0 <;> rfl

/-- Settles O12: each access answers its register, and the status bytes are computed phase by phase. -/
theorem readsWithoutSideEffect : Obligations.ReadsWithoutSideEffect := by
  refine fun s => ⟨rfl, fun hv => ⟨?_, onXtc_present hv _⟩, fun hv => ⟨onAtc_present hv _, ?_⟩⟩
  · refine (onXtc_present hv _).trans ?_
    rw [Xtc.status_eq_add]
    cases hphase : s.xtc.phase with
    | command => rw [Xtc.phaseStatus_command hphase]; rfl
    | execution => rw [Xtc.phaseStatus_execution hphase]; rfl
    | result => rw [Xtc.phaseStatus, hphase]; rfl
  · have hread := execAtcTaskfile_read hv
    exact ⟨hread .errorWprecomp, hread .secCount, hread .secNum, hread .cylLo, hread .cylHi, hread .driveHead⟩

/-- R23: bit 7 of the Input byte, whatever the free bits are. -/
theorem inputByte_bit7 (changed : Bool) (free : BitVec 7) : (inputByte changed free).getLsbD 7 = changed := by
  rw [inputByte, BitVec.getLsbD_append]
  cases changed <;> rfl

/-- R23: the disk-change flag of the selected unit, 0 where there is none. -/
theorem State.selectedChanged_eq (s : State) :
    s.selectedChanged = ((s.floppy[s.fdc.select.toNat]?).map Drive.diskChanged).getD false := by
  unfold State.selectedChanged
  rw [State.drive?_floppy]
  cases s.floppy[s.fdc.select.toNat]? <;> rfl

/-- Settles O13: the byte is bit 7 and the free value. -/
theorem inputRead : Obligations.InputRead := fun s hport =>
  ⟨inputByte s.selectedChanged (Config.freeInputBits s.drawn),
    (inputByte_bit7 _ _).trans s.selectedChanged_eq, onRatePort_present hport _⟩

/-- Settles O14: the reads of the two Data ports in Result Phase, and the read of the ATC's Status. -/
theorem acknowledgingReads : Obligations.AcknowledgingReads := fun _ =>
  ⟨fdcDataRead_result, xtcDataRead_result, fun hv => onAtc_present hv _⟩

/-! ### Ports that write (R163, R170, R171, R175, R231, R238, R239, R281) -/

/-- Settles O15: the port is claimed, and its handler stores the byte. -/
theorem plainRegisterWrites : Obligations.PlainRegisterWrites := by
  refine fun s v => ⟨fun hport => onRatePort_present hport _,
    fun hv => ⟨onXtc_present hv _, onXtc_present hv _, fun _ => onXtc_present hv _⟩, fun hidle => ?_⟩
  have hwrite := fun reg => execAtcTaskfile_write hidle reg v
  exact ⟨hwrite .errorWprecomp, hwrite .secCount, hwrite .secNum, hwrite .cylLo, hwrite .cylHi, hwrite .driveHead⟩

/-- Settles O16: the FIFO of the statement is `Fifo.accept` of the controller's request length. -/
theorem dataPortCollects : Obligations.DataPortCollects := fun _ _ =>
  ⟨fun hen hphase => ⟨fdcDataWrite_open hen hphase, fdcDataWrite_complete hen hphase⟩,
    fun hv hphase => ⟨xtcDataWrite_open hv hphase, xtcDataWrite_complete hv hphase⟩⟩

/-- R170, R431: with the enable bit clear. -/
theorem State.fdcOutputWrite_reset (s : State) {v : Byte} (h : v.getLsbD 2 = false) :
    s.fdcOutputWrite v = { s.fdcControllerReset with fdc := { s.fdcControllerReset.fdc with out := v } } :=
  if_pos h

/-- R170, R171: with the enable bit set. -/
theorem State.fdcOutputWrite_enable (s : State) {v : Byte} (h : v.getLsbD 2 = true) :
    s.fdcOutputWrite v = { s with fdc := { s.fdc with
      out := v
      irq := s.fdc.irq || (!s.fdc.out.getLsbD 2 && v.getLsbD 3) } } := by
  unfold State.fdcOutputWrite Fdc.enabled
  rw [if_neg (by simp [h])]
  cases s.fdc.out.getLsbD 2 <;> cases v.getLsbD 3 <;> simp [State.raiseIrq]

/-- Settles O17, by the enable bit of the byte. -/
theorem fdcOutputWrite : Obligations.FdcOutputWrite := fun s _ =>
  ⟨fun h => congrArg Host.Outcome.next (s.fdcOutputWrite_reset h),
    fun h => congrArg Host.Outcome.next (s.fdcOutputWrite_enable h)⟩

/-! ### The phase transitions of the FDC (R161): instructions -/

/-- R102: an instruction of the hard-disk controllers leaves the FDC's registers as they are, since it commutes with
putting them in again. -/
theorem exec_keeps_fdc {i : Instr} {s t : State} (hi : ¬ Instr.OfFdc i) (h : exec i s = .next t) : t.fdc = s.fdc := by
  have hsame : Out.mapNext (State.withFdc ⟨s.fdc, s.floppy, s.dma.fdc⟩) (exec i s) = exec i s := exec_withFdc hi _ s
  rw [h] at hsame
  have hfdc : t.withFdc ⟨s.fdc, s.floppy, s.dma.fdc⟩ = t := Host.Outcome.next.inj hsame
  exact (congrArg State.fdc hfdc).symm

/-- R162, R164: what a disabled FDC ignores and a busy one stops, and that changes anything, finds the FDC in Command
Phase. -/
theorem command_of_collected {o : Out} {s t : State} (hdisabled : s.fdc.enabled = false → o = .next s)
    (hbusy : s.fdc.enabled = true → s.fdc.phase ≠ .command → o = .fault (.protocolViolation .dataWritePhase))
    (h : o = .next t) (hne : t ≠ s) : s.fdc.phase = .command := by
  by_contra hphase
  cases hen : s.fdc.enabled with
  | false => rw [hdisabled hen] at h; cases h; exact hne rfl
  | true => rw [hbusy hen hphase] at h; cases h

/-- R168, R169: a read of 0x3F5 that is taken finds the FDC in Result Phase. -/
theorem fdcDataRead_cases {s t : State} (h : fdcDataRead s = .next t) :
    s.fdc.phase = .result ∧ t.fdc = s.fdc.acknowledged := by
  cases hen : s.fdc.enabled with
  | false => rw [fdcDataRead_disabled hen] at h; cases h
  | true =>
    by_cases hphase : s.fdc.phase = .result
    · rw [fdcDataRead_result hen hphase] at h; cases h; exact ⟨hphase, rfl⟩
    · rw [fdcDataRead_wrongPhase hen hphase] at h; cases h

/-- R168: a read in Result Phase leaves Result or enters Command Phase. -/
theorem Fdc.acknowledged_phase (f : Fdc) : f.acknowledged.phase = .result ∨ f.acknowledged.phase = .command := by
  unfold Fdc.acknowledged
  dsimp only
  split
  · exact .inr rfl
  · exact .inl rfl

/-- The FDC's phase transitions an instruction makes. -/
theorem exec_fdcPhase_cases {i : Instr} {s t : State} (h : exec i s = .next t) (hne : t.fdc.phase ≠ s.fdc.phase) :
    (s.fdc.phase = .command ∧ (i.space = .fdc ∨ ∃ v, i = .fdcOutData v)) ∨
      (s.fdc.phase = .result ∧ t.fdc.phase = .command ∧ i = .fdcInData) ∨
      (t.fdc.phase = .command ∧ ∃ v, i = .fdcOutOutput v ∧ v.getLsbD 2 = false) := by
  have hmoved : t ≠ s := fun hts => hne (hts ▸ rfl)
  by_cases hi : Instr.OfFdc i
  · obtain hrow | rfl | rfl | rfl | ⟨v, rfl | rfl | rfl⟩ := hi
    · have hphase := command_of_collected (exec_fdcRow_disabled hrow) (exec_fdcRow_busy hrow) h hmoved
      exact .inl ⟨hphase, .inl hrow⟩
    · cases h; exact absurd rfl hne
    · obtain ⟨hresult, hfdc⟩ := fdcDataRead_cases h
      rw [hfdc, hresult] at hne
      exact .inr (.inl ⟨hresult, hfdc ▸ s.fdc.acknowledged_phase.resolve_left hne, rfl⟩)
    · cases onRatePort_next h; exact absurd rfl hne
    · cases h
      cases hbit : v.getLsbD 2 with
      | false => exact .inr (.inr ⟨by rw [s.fdcOutputWrite_reset hbit]; rfl, v, rfl, hbit⟩)
      | true => exact absurd (by rw [s.fdcOutputWrite_enable hbit]) hne
    · have hphase := command_of_collected (fdcDataWrite_disabled · v) (fdcDataWrite_busy · · v) h hmoved
      exact .inl ⟨hphase, .inr ⟨v, rfl⟩⟩
    · cases onRatePort_next h; exact absurd rfl hne
  · exact absurd (congrArg Fdc.phase (exec_keeps_fdc hi h)) hne

/-! ### The phase transitions of the FDC (R161): the other agents -/

theorem State.fdc_of_fdcHalf {s t : State} (h : t.fdcHalf = s.fdcHalf) : t.fdc = s.fdc :=
  congrArg (fun half => half.2.1) h

theorem State.runBay_fdc {α : Type} (s : State) (r : DriveRef) (x : α) (f : Bay → α × Bay) :
    (s.runBay r x f).2.fdc = s.fdc := by
  unfold State.runBay
  split
  · rfl
  · exact State.putBay_fdc ..

theorem State.runSession_fdc {α : Type} (s : State) (c : Chan) (ss : Session) (x : α) (f : Bay → α × Bay) :
    (s.runSession c ss x f).2.fdc = s.fdc := by
  unfold State.runSession
  split
  · exact State.runBay_fdc ..
  · rfl

/-- R324, R325: the bytes of a transfer move no register of the FDC. -/
theorem dmaPull_fdc {c : Chan} {s t : State} (h : dmaPull c s = .next t) : t.fdc = s.fdc := by
  obtain ⟨ss, -, ⟨a, rfl⟩ | ⟨-, rfl⟩⟩ := dmaPull_cases h
  · exact State.runSession_fdc ..
  · exact State.fdc_of_fdcHalf (bufferPull_fdcHalf s)

theorem dmaPush_fdc {c : Chan} {b : Byte} {s t : State} (h : dmaPush c b s = .next t) : t.fdc = s.fdc := by
  obtain ⟨ss, -, ⟨f, a, rfl⟩ | ⟨-, rfl⟩⟩ := dmaPush_cases h
  · exact State.runSession_fdc ..
  · exact State.fdc_of_fdcHalf (bufferPush_fdcHalf s b)

/-- R364: neither does the delivery of a lookup. -/
theorem resolve_fdc {r : DriveRef} {s t : State} (h : resolve r s = .next t) : t.fdc = s.fdc := by
  unfold resolve at h
  split at h
  · cases h
  next d hd =>
    split at h
    · cases h
    · cases r with
      | fixed u =>
        cases h
        split
        · exact State.fdc_of_fdcHalf (atcPrimed_fdcHalf ..)
        · rfl
      | floppy u =>
        cases h
        split
        · exact State.runBay_fdc ..
        · rfl

theorem notify_fdc {vec a l : Byte} {s t : State} (h : notify vec a l s = .next t) : t.fdc = s.fdc := by
  unfold notify at h
  split at h
  · cases h
    unfold State.hackInitFail
    split <;> rfl
  · split at h
    · cases h; rfl
    · cases h

/-- R323: an accepted engage only marks the session. -/
theorem dmaEngage_accepted_fdc {c : Chan} {s t : State} (h : dmaEngage c true s = .next t) : t.fdc = s.fdc := by
  unfold dmaEngage at h
  split at h
  · cases h
  · split at h
    · cases h
    · cases h; exact State.setSession_fdc ..

/-- The end of an open session of the FDC, and nothing else of the agents' steps but power-up, machine reset and a
restoration, changes a register of the FDC. -/
theorem runAgent_fdc_cases {a : AgentStep} {s t : State} (h : runAgent a s = .next t) :
    t.fdc = s.fdc ∨
      (∃ ss completed, s.dma.fdc = some ss ∧ t = s.closeSession .fdc ss completed ∧
        (a = .dmaEngage .fdc false ∨ ∃ c, a = .dmaClose .fdc c)) ∨
      (a = .powerUp ∨ a = .mreset ∨ ∃ v, a = .restore v) := by
  cases a with
  | dmaEngage c yes =>
    cases yes with
    | true => exact .inl (dmaEngage_accepted_fdc h)
    | false =>
      obtain ⟨ss, hss, rfl | rfl⟩ := dmaEngage_cases h
      · exact .inl (State.setSession_fdc ..)
      · cases c with
        | fdc => exact .inr (.inl ⟨ss, false, hss, rfl, .inl rfl⟩)
        | xtc => exact .inl (State.fdc_of_fdcHalf (closeSession_xtc_fdcHalf ..))
  | dmaClose c completed =>
    obtain ⟨ss, hss, rfl⟩ := dmaClose_cases h
    cases c with
    | fdc => exact .inr (.inl ⟨ss, completed, hss, rfl, .inr ⟨completed, rfl⟩⟩)
    | xtc => exact .inl (State.fdc_of_fdcHalf (closeSession_xtc_fdcHalf ..))
  | dmaPull c => exact .inl (dmaPull_fdc h)
  | dmaPush c b => exact .inl (dmaPush_fdc h)
  | resolve r => exact .inl (resolve_fdc h)
  | notify vec a l => exact .inl (notify_fdc h)
  | mask n => cases h; split <;> exact .inl rfl
  | unmask n => cases h; exact .inl rfl
  | mount r img => obtain ⟨u, d, g, -, -, -, rfl⟩ := mount_cases r img s t h; exact .inl rfl
  | unmount r => obtain ⟨u, rfl⟩ := unmount_cases r s t h; exact .inl rfl
  | save => cases h; exact .inl rfl
  | powerUp => exact .inr (.inr (.inl rfl))
  | mreset => exact .inr (.inr (.inr (.inl rfl)))
  | restore v => exact .inr (.inr (.inr (.inr ⟨v, rfl⟩)))

/-- R177: the end of a session loads the result of its transfer command. -/
theorem closeSession_fdc_phase (s : State) (ss : Session) (completed : Bool) :
    (s.closeSession .fdc ss completed).fdc.phase = .result := by
  unfold State.closeSession State.continuation State.fdcTransferDone
  dsimp only
  rw [fdcFinish_cons]

/-- Settles O58, by the three ways a step comes to a next state: an idle step changes nothing, an instruction makes the
transitions of its port, and an agent's step ends the FDC's session, which is open in Execution Phase only. -/
theorem fdcPhaseTransitions : Obligations.FdcPhaseTransitions := by
  intro s t hs hstep hne
  rcases step_cases s t hstep with ⟨-, rfl⟩ | ⟨sp, bs, rest, i, left, hin, hdecode, hexec⟩ | ⟨a, rest, hin, hrun⟩
  · exact absurd rfl hne
  · exact .inl ⟨sp, bs, left, rest, i, hin, hdecode, exec_fdcPhase_cases (s := s.fetched i sp left rest) hexec hne⟩
  · rcases runAgent_fdc_cases hrun with hfdc | ⟨ss, completed, hss, rfl, hclose⟩ | hreset
    · exact absurd (congrArg Fdc.phase hfdc) hne
    · refine .inr (.inl ⟨rest, hs.halves.fdc.exec_of hss, closeSession_fdc_phase .., ?_⟩)
      obtain rfl | ⟨c, rfl⟩ := hclose
      · exact .inl hin
      · exact .inr ⟨c, hin⟩
    · refine .inr (.inr ⟨rest, ?_⟩)
      obtain rfl | rfl | ⟨v, rfl⟩ := hreset
      · exact .inl hin
      · exact .inr (.inl hin)
      · exact .inr (.inr ⟨v, hin⟩)

end Sys2Proof.Machine

/-! PROOFS of the statements of spec/41_fdc_commands.md: each command of the FDC from an idle controller, and a byte
pushed into a Format session.

Every command goes the same way: its row runs its rule in the Execution state (`exec_fdcRow_idle`), the rule is one
equation for a unit that exists and one for a unit that does not, and what the FIFO holds at the end is one of the three
laws `Fifo.loaded_drained`, `Fifo.loaded_executing`, `Fifo.loaded_result`. -/

namespace Sys2Proof.Machine

/-! ### A command row on an idle FDC (R163, R165) -/

/-- R163, R165: a row of the FDC runs the command of its opcode, on its bytes, in Execution Phase. -/
theorem exec_fdcRow_idle {i : Instr} {s : State} (h : FdcIdle s) (hi : i.space = .fdc) {m : BitVec 3} {op : BitVec 5}
    {rest : List Byte} (hbytes : i.bytes = encodeFdcFirst m op :: rest) {k : FdcOp} (hop : fdcOp op = k)
    (hlen : rest.length + 1 = k.reqLen) :
    exec i s = .next ((s.fdcExecuting i.bytes).fdcCommand k i.bytes) := by
  subst hop
  have hmax : (fdcOp op).reqLen ≤ 9 := by cases fdcOp op <;> decide
  rw [exec_fdcRow i s hi, hbytes, fdc_command s h m op rest hlen (hlen ▸ hmax)]

/-- R122: the longest request has nine bytes. -/
theorem fdcRow_length_le {i : Instr} (hi : i.space = .fdc) : i.bytes.length ≤ 9 := by
  cases i with
  | atcTaskfile reg w => cases w <;> cases hi
  | _ => first | exact Nat.le_of_ble_eq_true rfl | cases hi

/-- R26: a request fits the FIFO of an idle FDC. -/
theorem FdcIdle.fits {s : State} (h : FdcIdle s) {i : Instr} (hi : i.space = .fdc) :
    i.bytes.length ≤ s.fdc.fifo.buffer.length :=
  Nat.le_trans (fdcRow_length_le hi) h.room

/-- The unit that a row names (R124, R126). -/
theorem fdcReqUnit_of_row {i : Instr} {b0 : Byte} {us : UnitSelect} {rest : List Byte}
    (hbytes : i.bytes = b0 :: encodeUnitSelect us :: rest) : fdcReqUnit i.bytes = us.unit := by
  rw [hbytes, fdcReqUnit_cons]

/-- The head that a row selects (R124, R126). -/
theorem fdcReqHead_of_row {i : Instr} {b0 : Byte} {us : UnitSelect} {rest : List Byte}
    (hbytes : i.bytes = b0 :: encodeUnitSelect us :: rest) : fdcReqHead i.bytes = us.headSelect := by
  rw [hbytes, fdcReqHead_cons]

/-- The opcode in the bytes of a row (R165). -/
theorem fdcOp_of_row {i : Instr} {m : BitVec 3} {op : BitVec 5} {rest : List Byte}
    (hbytes : i.bytes = encodeFdcFirst m op :: rest) {k : FdcOp} (hop : fdcOp op = k) :
    fdcOp (fdcMaskedOp (reqByte i.bytes 0)) = k := by
  rw [hbytes, reqByte_cons_zero, fdcMaskedOp_first, hop]

/-- R166: a command that ends with neither a result nor a status leaves only the FIFO changed. -/
theorem fdcFinish_silent {s : State} (h : FdcIdle s) (bs : List Byte) :
    (s.fdcExecuting bs).fdcFinish [] false 0x00#8 .none =
      { s with fdc := { s.fdc with fifo := (s.fdc.fifo.executing bs).drained } } := by
  rw [fdcFinish_nil]
  simp [State.fdcExecuting, ← h.phase]

/-- Settles O6: the rule of SPECIFY is the silent end of a command. -/
theorem fdcSpecify : Obligations.FdcSpecify := by
  intro s m t1 t2 h
  obtain ⟨b, hb, hdrained⟩ := s.fdc.fifo.loaded_drained (Instr.fdcSpecify m t1 t2).bytes (h.fits rfl)
  refine ⟨b, hb, ?_⟩
  rw [exec_fdcRow_idle h rfl rfl (k := .specify) rfl rfl, ← hdrained]
  exact congrArg Host.Outcome.next (fdcFinish_silent h _)

/-- Settles O9: the rule is the silent end of a command, after one diagnostic event. -/
theorem fdcUnknownOpcode : Obligations.FdcUnknownOpcode := by
  intro s m op h hwf
  have hop : fdcOp op = .unknown := (fdcOp_eq_unknown_iff m op).mpr hwf
  obtain ⟨b, hb, hdrained⟩ := s.fdc.fifo.loaded_drained (Instr.fdcUnknown m op).bytes (h.fits rfl)
  refine ⟨b, hb, ?_⟩
  have hidle : FdcIdle (s.emit (.fdcUnsupported (m ++ op))) := ⟨h.enabled, h.phase, h.fresh, h.room⟩
  rw [exec_fdcRow_idle h rfl rfl hop rfl, ← hdrained]
  exact congrArg Host.Outcome.next (fdcFinish_silent hidle _)

/-! ### SENSE_INTERRUPT_STATUS (R206) -/

theorem State.presentCylinder_eq (s : State) : s.presentCylinder =
    ((s.floppy[s.fdc.lastUnit.toNat]?).map fun d => BitVec.ofNat 8 d.pos.cylinder).getD 0x00#8 := by
  unfold State.presentCylinder
  rw [State.drive?_floppy]
  cases s.floppy[s.fdc.lastUnit.toNat]? <;> rfl

/-- Settles O8: two result bytes are loaded over the request, and nothing else is written. -/
theorem fdcSenseInterruptStatus : Obligations.FdcSenseInterruptStatus := by
  intro s m h
  obtain ⟨b, hb, htake, hresult⟩ := s.fdc.fifo.loaded_result (Instr.fdcSenseInterruptStatus m).bytes
    [s.fdc.endStatus, s.presentCylinder] (h.fits rfl) (Nat.le_trans (by decide : 2 ≤ 9) h.room)
  refine ⟨b, hb, by rw [← State.presentCylinder_eq]; exact htake, ?_⟩
  rw [exec_fdcRow_idle h rfl rfl (k := .senseInterruptStatus) rfl rfl]
  refine congrArg Host.Outcome.next ((fdcFinish_cons _ s.fdc.endStatus [s.presentCylinder] false 0x00#8 .none).trans ?_)
  rw [show (s.fdcExecuting _).fdc.fifo.loadResult [_, _] = _ from hresult]
  simp [State.fdcExecuting]

/-! ### RECALIBRATE and SEEK (R204, R205) -/

/-- What both commands do: unit `u` steps to cylinder `c`, the head select of the status is `hd`. -/
def State.fdcStep (s : State) (u : BitVec 2) (hd : BitVec 1) (c : Nat) : State :=
  match (s.fdcNameUnit u).drive? (.floppy u.toNat) with
  | none => (s.fdcNameUnit u).fdcFinish [] true (fdcStatus .notReady u hd false).1 .notReady
  | some _ =>
    ((s.fdcNameUnit u).modifyDrive (.floppy u.toNat) (Drive.stepTo c)).fdcFinish [] true
      (fdcStatus .none u hd true).1 .none

theorem State.fdcRecalibrate_eq_step (s : State) {req : List Byte} {u : BitVec 2} (hu : fdcReqUnit req = u) :
    s.fdcRecalibrate req = s.fdcStep u 0#1 0 := by
  subst hu
  unfold State.fdcRecalibrate State.fdcStep
  rfl

theorem State.fdcSeek_eq_step (s : State) {req : List Byte} {u : BitVec 2} {hd : BitVec 1} (hu : fdcReqUnit req = u)
    (hhd : fdcReqHead req = hd) : s.fdcSeek req = s.fdcStep u hd (reqByte req 2).toNat := by
  subst hu hhd
  unfold State.fdcSeek State.fdcStep
  rfl

/-- R165: the Drive a command names, changed by what the command loads into it. -/
theorem State.fdcNameUnit_modify {s : State} {u : BitVec 2} {d : Drive} (hd : s.floppy[u.toNat]? = some d)
    (f : Drive → Drive) : (s.fdcNameUnit u).modifyDrive (.floppy u.toNat) f = { s with
      fdc := { s.fdc with lastUnit := u }
      floppy := s.floppy.set u.toNat (f d.clearError) } := by
  unfold State.fdcNameUnit
  rw [State.modifyDrive_modifyDrive, State.modifyDrive_floppy _ _ _ d (by exact hd)]
  rfl

/-- ST0 of a seek that ended (R383). -/
theorem st0_seekEnd (u : BitVec 2) (hd : BitVec 1) :
    (fdcStatus .none u hd true).1 = 0x20#8 + (4#8 * hd.setWidth 8 + u.setWidth 8) := by
  simp only [fdcStatus, st0Base, if_true]
  ac_rfl

theorem State.fdcStep_present {s : State} {u : BitVec 2} {d : Drive} (hd : s.floppy[u.toNat]? = some d)
    (hsel : BitVec 1) (c : Nat) : s.fdcStep u hsel c = { s with
      fdc := { s.fdc with
        phase := .command
        fifo := s.fdc.fifo.drained
        lastUnit := u
        endStatus := 0x20#8 + (4#8 * hsel.setWidth 8 + u.setWidth 8)
        irq := s.fdc.irq || s.fdc.out.getLsbD 3 }
      floppy := s.floppy.set u.toNat { d with
        errorCode := .none
        pos := { d.pos with cylinder := c }
        diskChanged := if d.disk = none then d.diskChanged else false } } := by
  have hnamed : (s.fdcNameUnit u).drive? (.floppy u.toNat) = some d.clearError := by
    rw [State.fdcNameUnit_present s u d hd]
    exact getElem?_set_present _ _ _ d hd
  unfold State.fdcStep
  rw [hnamed]
  dsimp only
  rw [fdcFinish_nil, State.fdcNameUnit_modify hd, Drive.stepTo_clearError, st0_seekEnd]
  simp

theorem State.fdcStep_absent {s : State} {u : BitVec 2} (hd : s.floppy[u.toNat]? = none) (hsel : BitVec 1) (c : Nat) :
    s.fdcStep u hsel c = { s with fdc := { s.fdc with
        phase := .command
        fifo := s.fdc.fifo.drained
        lastUnit := u
        endStatus := 0x48#8 + (4#8 * hsel.setWidth 8 + u.setWidth 8) } } := by
  unfold State.fdcStep
  rw [State.fdcNameUnit_absent s u hd, State.drive?_floppy, hd]
  dsimp only
  rw [fdcFinish_nil, st0_notReady, BitVec.add_assoc]
  simp

/-- A command row that steps a unit, from idle: the statement of O7 for either command. -/
theorem exec_fdcStep {i : Instr} {s : State} {u : BitVec 2} {hsel : BitVec 1} {c : Nat} (h : FdcIdle s)
    (hi : i.space = .fdc) (hexec : exec i s = .next ((s.fdcExecuting i.bytes).fdcStep u hsel c)) :
    ∃ b, b.length = s.fdc.fifo.buffer.length ∧
      (∀ d, s.floppy[u.toNat]? = some d → exec i s = .next { s with
        fdc := { s.fdc with
          fifo := ⟨b, 0, 0, 0⟩
          lastUnit := u
          endStatus := 0x20#8 + (4#8 * hsel.setWidth 8 + u.setWidth 8)
          irq := s.fdc.irq || s.fdc.out.getLsbD 3 }
        floppy := s.floppy.set u.toNat { d with
          errorCode := .none
          pos := { d.pos with cylinder := c }
          diskChanged := if d.disk = none then d.diskChanged else false } }) ∧
      (s.floppy[u.toNat]? = none → exec i s = .next { s with
        fdc := { s.fdc with
          fifo := ⟨b, 0, 0, 0⟩
          lastUnit := u
          endStatus := 0x48#8 + (4#8 * hsel.setWidth 8 + u.setWidth 8) } }) := by
  obtain ⟨b, hb, hdrained⟩ := s.fdc.fifo.loaded_drained i.bytes (h.fits hi)
  refine ⟨b, hb, fun d hd => ?_, fun hd => ?_⟩
  · rw [hexec, State.fdcStep_present (s := s.fdcExecuting i.bytes) hd, ← hdrained]
    simp [State.fdcExecuting, ← h.phase]
  · rw [hexec, State.fdcStep_absent (s := s.fdcExecuting i.bytes) hd, ← hdrained]
    simp [State.fdcExecuting, ← h.phase]

/-- Settles O7: both commands step their unit, RECALIBRATE to cylinder 0 and with no head select. -/
theorem fdcRecalibrateSeek : Obligations.FdcRecalibrateSeek := by
  rintro s m us ncn i cyl base h (⟨rfl, rfl, rfl⟩ | ⟨rfl, rfl, rfl⟩)
  · have hexec := exec_fdcRow_idle (i := .fdcRecalibrate m us) (k := .recalibrate) h rfl rfl rfl rfl
    have hunit := fdcReqUnit_of_row (i := .fdcRecalibrate m us) rfl
    have hstep := (s.fdcExecuting (Instr.fdcRecalibrate m us).bytes).fdcRecalibrate_eq_step hunit
    simpa using exec_fdcStep h rfl (hexec.trans (congrArg _ hstep))
  · have hexec := exec_fdcRow_idle (i := .fdcSeek m us ncn) (k := .seek) h rfl rfl rfl rfl
    have hunit := fdcReqUnit_of_row (i := .fdcSeek m us ncn) rfl
    have hhead := fdcReqHead_of_row (i := .fdcSeek m us ncn) rfl
    have hstep := (s.fdcExecuting (Instr.fdcSeek m us ncn).bytes).fdcSeek_eq_step hunit hhead
    exact exec_fdcStep h rfl (hexec.trans (congrArg _ hstep))

/-! ### The transfer commands (R201 to R203, R208, R209) -/

/-- What the three transfer commands do: the unit is named, `before` is loaded into a Drive that exists, and one that is
ready is prepared and its session opened. -/
def State.fdcStart (s : State) (req : List Byte) (before prepare : Drive → Drive) (dir : Direction) : State :=
  ((s.fdcNameUnit (fdcReqUnit req)).modifyDrive (.floppy (fdcReqUnit req).toNat) before).fdcOpenOrNotReady req prepare
    dir

theorem State.fdcReadData_eq_start (s : State) (req : List Byte) :
    s.fdcReadData req = s.fdcStart req (loadFdcTransfer req) id .read := rfl

theorem State.fdcWriteData_eq_start (s : State) (req : List Byte) :
    s.fdcWriteData req = s.fdcStart req (loadFdcTransfer req) id .write := rfl

theorem State.fdcFormatTrack_eq_start (s : State) (req : List Byte) :
    s.fdcFormatTrack req = s.fdcStart req id (loadFormat req) .format := by
  unfold State.fdcStart State.fdcFormatTrack
  congr 1
  simp [State.modifyDrive]

section Start

variable {s : State} {req : List Byte} {d : Drive} (before prepare : Drive → Drive) (dir : Direction)

/-- R201 to R203: a unit that is ready. -/
theorem State.fdcStart_ready (hbefore : ∀ d, (before d).disk = d.disk)
    (hd : s.floppy[(fdcReqUnit req).toNat]? = some d) (hdisk : d.disk ≠ none)
    (hsel : s.fdc.out.extractLsb' 0 2 = fdcReqUnit req) :
    s.fdcStart req before prepare dir = { s with
      fdc := { s.fdc with lastUnit := fdcReqUnit req }
      floppy := s.floppy.set (fdcReqUnit req).toNat (prepare (before d.clearError))
      dma := { s.dma with fdc := some ⟨some (fdcReqUnit req).toNat, dir, dir.toMemory false, false⟩ } } := by
  unfold State.fdcStart
  rw [State.fdcNameUnit_modify hd,
    State.fdcOpen_ready _ req prepare dir (before d.clearError) (by exact getElem?_set_present _ _ _ d hd)
    (by rw [hbefore]; exact hdisk) (by exact hsel)]
  simp

/-- R209: a unit that is there and not ready. -/
theorem State.fdcStart_notReady (hbefore : ∀ d, (before d).disk = d.disk ∧ (before d).errorCode = d.errorCode)
    (hd : s.floppy[(fdcReqUnit req).toNat]? = some d)
    (hn : d.disk = none ∨ s.fdc.out.extractLsb' 0 2 ≠ fdcReqUnit req) :
    s.fdcStart req before prepare dir = State.fdcNotReady { s with
      fdc := { s.fdc with lastUnit := fdcReqUnit req }
      floppy := s.floppy.set (fdcReqUnit req).toNat { before d.clearError with errorCode := .notReady } } req := by
  obtain ⟨hdisk, herr⟩ := hbefore d.clearError
  unfold State.fdcStart
  rw [State.fdcNameUnit_modify hd,
    State.fdcOpen_notReady _ req prepare dir (before d.clearError) (by exact getElem?_set_present _ _ _ d hd)
    (by rw [hdisk]; exact hn), Drive.raise_eq, herr]
  simp [Drive.clearError]

/-- R209: a unit that does not exist. -/
theorem State.fdcStart_absent (hd : s.floppy[(fdcReqUnit req).toNat]? = none) :
    s.fdcStart req before prepare dir =
      State.fdcNotReady { s with fdc := { s.fdc with lastUnit := fdcReqUnit req } } req := by
  unfold State.fdcStart
  rw [State.fdcNameUnit_absent s _ hd, State.modifyDrive_absent _ _ _ (by exact hd),
    State.fdcOpen_absent _ req prepare dir (by exact hd)]

end Start

/-- R209: what the result of a Drive that is not ready says of the Drive is its position. -/
theorem notReadyChrn_congr (req : List Byte) {o o' : Option Drive} (h : o.map Drive.pos = o'.map Drive.pos) :
    notReadyChrn req o = notReadyChrn req o' := by
  unfold notReadyChrn
  rw [h]

/-- R209: the seven result bytes of a transfer command whose Drive is not ready. -/
def fdcNotReadyBytes (req : List Byte) (d : Option Drive) : List Byte :=
  [0x48#8 + 4#8 * (fdcReqHead req).setWidth 8 + (fdcReqUnit req).setWidth 8, 0x00#8, 0x00#8] ++ notReadyChrn req d

theorem fdcNotReadyBytes_length (req : List Byte) (d : Option Drive) : (fdcNotReadyBytes req d).length = 7 := by
  unfold fdcNotReadyBytes notReadyChrn
  split <;> rfl

theorem State.fdcNotReady_bytes (s : State) (req : List Byte) :
    s.fdcNotReady req = { s with fdc := { s.fdc with
      endStatus := 0x48#8 + 4#8 * (fdcReqHead req).setWidth 8 + (fdcReqUnit req).setWidth 8
      fifo := s.fdc.fifo.loadResult (fdcNotReadyBytes req (s.floppy[(fdcReqUnit req).toNat]?))
      phase := .result } } := by
  rw [State.fdcNotReady_eq, st0_notReady]
  rfl

/-- A transfer command row, from idle: the three clauses of O10 and O11, for what each of the commands loads. -/
theorem exec_fdcStart (i : Instr) {s : State} {b0 : Byte} {us : UnitSelect} {rest : List Byte}
    {before prepare : Drive → Drive} {dir : Direction} {chrn : List Byte} (h : FdcIdle s) (hi : i.space = .fdc)
    (hbytes : i.bytes = b0 :: encodeUnitSelect us :: rest)
    (hbefore : ∀ d, (before d).disk = d.disk ∧ (before d).errorCode = d.errorCode)
    (hchrn : notReadyChrn i.bytes ((s.floppy[us.unit.toNat]?).map fun d => before d.clearError) = chrn)
    (hexec : exec i s = .next ((s.fdcExecuting i.bytes).fdcStart i.bytes before prepare dir)) :
    ∃ b b', b.length = s.fdc.fifo.buffer.length ∧ b'.length = s.fdc.fifo.buffer.length ∧
      b.take i.bytes.length = i.bytes ∧
      b'.take 7 = [0x48#8 + 4#8 * us.headSelect.setWidth 8 + us.unit.setWidth 8, 0x00#8, 0x00#8] ++ chrn ∧
      (∀ d, s.floppy[us.unit.toNat]? = some d → d.disk ≠ none → s.fdc.out.extractLsb' 0 2 = us.unit →
        exec i s = .next { s with
          fdc := { s.fdc with
            phase := .execution
            fifo := ⟨b, i.bytes.length, i.bytes.length, i.bytes.length⟩
            lastUnit := us.unit }
          floppy := s.floppy.set us.unit.toNat (prepare (before d.clearError))
          dma := { s.dma with fdc := some ⟨some us.unit.toNat, dir, dir.toMemory false, false⟩ } }) ∧
      (∀ d, s.floppy[us.unit.toNat]? = some d → (d.disk = none ∨ s.fdc.out.extractLsb' 0 2 ≠ us.unit) →
        exec i s = .next { s with
          fdc := { s.fdc with
            phase := .result
            fifo := ⟨b', 7, 0, 7⟩
            lastUnit := us.unit
            endStatus := 0x48#8 + 4#8 * us.headSelect.setWidth 8 + us.unit.setWidth 8 }
          floppy := s.floppy.set us.unit.toNat { before d.clearError with errorCode := .notReady } }) ∧
      (s.floppy[us.unit.toNat]? = none → exec i s = .next { s with
        fdc := { s.fdc with
          phase := .result
          fifo := ⟨b', 7, 0, 7⟩
          lastUnit := us.unit
          endStatus := 0x48#8 + 4#8 * us.headSelect.setWidth 8 + us.unit.setWidth 8 } }) := by
  subst hchrn
  rw [← fdcReqUnit_of_row hbytes, ← fdcReqHead_of_row hbytes]
  obtain ⟨b, hb, htake, hexecuting⟩ := s.fdc.fifo.loaded_executing i.bytes (h.fits hi)
  have hlen := fdcNotReadyBytes_length i.bytes
    ((s.floppy[(fdcReqUnit i.bytes).toNat]?).map fun d => before d.clearError)
  obtain ⟨b', hb', htake', hresult⟩ := s.fdc.fifo.loaded_result i.bytes
    (fdcNotReadyBytes i.bytes ((s.floppy[(fdcReqUnit i.bytes).toNat]?).map fun d => before d.clearError))
    (h.fits hi) (hlen ▸ Nat.le_trans (by decide) h.room)
  rw [hlen] at htake' hresult
  refine ⟨b, b', hb, hb', htake, htake', fun d hd hdisk hsel => ?_, fun d hd hn => ?_, fun hd => ?_⟩
  · rw [hexec, State.fdcStart_ready (s := s.fdcExecuting i.bytes) before prepare dir (fun d => (hbefore d).1) hd hdisk
      hsel, ← hexecuting]
    rfl
  · rw [hexec, State.fdcStart_notReady (s := s.fdcExecuting i.bytes) before prepare dir hbefore hd hn,
      State.fdcNotReady_bytes, ← hresult]
    have hpos : notReadyChrn i.bytes ((s.floppy.set (fdcReqUnit i.bytes).toNat
        { before d.clearError with errorCode := .notReady })[(fdcReqUnit i.bytes).toNat]?) =
          notReadyChrn i.bytes ((s.floppy[(fdcReqUnit i.bytes).toNat]?).map fun d => before d.clearError) := by
      apply notReadyChrn_congr
      rw [getElem?_set_present _ _ _ d hd, hd]
      rfl
    simp [State.fdcExecuting, fdcNotReadyBytes, hpos]
  · rw [hexec, State.fdcStart_absent (s := s.fdcExecuting i.bytes) before prepare dir hd,
      State.fdcNotReady_bytes, ← hresult]
    simp [State.fdcExecuting, hd]

/-- R208: what READ_DATA and WRITE_DATA load leaves the image and the error alone. -/
theorem loadFdcTransfer_keeps (req : List Byte) (d : Drive) :
    (loadFdcTransfer req d).disk = d.disk ∧ (loadFdcTransfer req d).errorCode = d.errorCode := ⟨rfl, rfl⟩

/-- R209: READ_DATA and WRITE_DATA report the request's own C, H, R and N. -/
theorem notReadyChrn_readWrite {req : List Byte} (h : fdcOp (fdcMaskedOp (reqByte req 0)) ≠ .formatTrack)
    (o : Option Drive) : notReadyChrn req o = [reqByte req 2, reqByte req 3, reqByte req 4, reqByte req 5] :=
  if_neg h

/-- R209: FORMAT_TRACK reports the Drive's position, and the request's N. -/
theorem notReadyChrn_format {req : List Byte} (h : fdcOp (fdcMaskedOp (reqByte req 0)) = .formatTrack)
    (o : Option Drive) : notReadyChrn req o =
      (let p := (o.map Drive.pos).getD ⟨0, 0, 0⟩
       [BitVec.ofNat 8 p.cylinder, BitVec.ofNat 8 p.head, BitVec.ofNat 8 p.sector, reqByte req 2]) :=
  if_pos h

/-- Settles O10: both commands load the request's position before they look whether the Drive is ready. -/
theorem fdcReadWriteData : Obligations.FdcReadWriteData := by
  rintro s m us c h r n eot gpl dtl i dir tm hidle (⟨rfl, rfl, rfl⟩ | ⟨rfl, rfl, rfl⟩)
  · have hop : fdcOp (fdcMaskedOp (reqByte (Instr.fdcReadData m us c h r n eot gpl dtl).bytes 0)) = .readData :=
      fdcOp_of_row rfl rfl
    exact exec_fdcStart (.fdcReadData m us c h r n eot gpl dtl) hidle rfl rfl (loadFdcTransfer_keeps _)
      (notReadyChrn_readWrite (by simp [hop]) _) (exec_fdcRow_idle (k := .readData) hidle rfl rfl rfl rfl)
  · have hop : fdcOp (fdcMaskedOp (reqByte (Instr.fdcWriteData m us c h r n eot gpl dtl).bytes 0)) = .writeData :=
      fdcOp_of_row rfl rfl
    exact exec_fdcStart (.fdcWriteData m us c h r n eot gpl dtl) hidle rfl rfl (loadFdcTransfer_keeps _)
      (notReadyChrn_readWrite (by simp [hop]) _) (exec_fdcRow_idle (k := .writeData) hidle rfl rfl rfl rfl)

/-- R203: what FORMAT_TRACK loads, by the fields of its row. -/
theorem loadFormat_row (m : BitVec 3) (us : UnitSelect) (n sc gpl fill : Byte) (d : Drive) :
    loadFormat (Instr.fdcFormatTrack m us n sc gpl fill).bytes d = { d with
      pos := { d.pos with head := us.headSelect.toNat }
      geo := { d.geo with bytesPerSector := 128 <<< n.toNat }
      sectorEnd := sc
      fmt := ⟨[0#8, 0#8, 0#8, 0#8], 0, fill, 0⟩
      cur := ⟨none, 0, sc.toNat * (128 <<< n.toNat), false⟩ } := by
  unfold loadFormat
  rw [fdcReqHead_of_row (i := .fdcFormatTrack m us n sc gpl fill) rfl]
  rfl

/-- Settles O11: FORMAT_TRACK loads nothing into a Drive that is not ready. -/
theorem fdcFormatTrack : Obligations.FdcFormatTrack := by
  intro s m us n sc gpl fill hidle
  have hop : fdcOp (fdcMaskedOp (reqByte (Instr.fdcFormatTrack m us n sc gpl fill).bytes 0)) = .formatTrack :=
    fdcOp_of_row rfl rfl
  have hexec := exec_fdcRow_idle (i := .fdcFormatTrack m us n sc gpl fill) (k := .formatTrack) hidle rfl rfl rfl rfl
  have hchrn := notReadyChrn_congr (Instr.fdcFormatTrack m us n sc gpl fill).bytes
    (o := (s.floppy[us.unit.toNat]?).map fun d => id d.clearError) (o' := s.floppy[us.unit.toNat]?)
    (by rw [Option.map_map]; rfl)
  obtain ⟨b, b', hb, hb', htake, htake', hready, hnotReady, habsent⟩ :=
    exec_fdcStart (.fdcFormatTrack m us n sc gpl fill) (before := id) hidle rfl rfl (fun _ => ⟨rfl, rfl⟩)
      (hchrn.trans (notReadyChrn_format hop _)) (hexec.trans (congrArg _ (State.fdcFormatTrack_eq_start ..)))
  refine ⟨b, b', hb, hb', htake, htake', fun d hd hdisk hsel => ?_, hnotReady, habsent⟩
  rw [hready d hd hdisk hsel, loadFormat_row]
  rfl

/-! ### A byte pushed into a Format session (R210) -/

/-- R325: what a push answers and leaves is what `FdcFormatPush` does. -/
theorem dmaPush_of_formatPush {s : State} {u : Nat} {d : Drive} {v : Byte}
    (hs : s.dma.fdc = some ⟨some u, .format, false, true⟩) (hd : s.floppy[u]? = some d) (hp : d.cur.pending = false)
    {a : WriteAnswer} {d' : Drive} {st' : Store} (h : formatPush v ⟨d, s.store⟩ = (a, ⟨d', st'⟩)) :
    runAgent (.dmaPush .fdc v) s =
      .next { s with floppy := s.floppy.set u d', store := st', answer := a.answer } := by
  refine (dmaPush_format s u d v hs hd hp).trans ?_
  rw [h, State.modifyDrive_floppy s u _ d hd]

section Push

variable {d : Drive} {st : Store} {v : Byte}

/-- R210: an error recorded, or every sector done. -/
theorem formatPush_closed (h : d.errorCode ≠ .none ∨ d.sectorEnd.toNat ≤ d.fmt.sectorsFormatted) :
    formatPush v ⟨d, st⟩ = (.error, ⟨d, st⟩) := by
  unfold formatPush
  by_cases he : d.errorCode ≠ .none
  · rw [if_pos he]
  · rw [if_neg he, if_pos (h.resolve_left he)]

/-- R210: one of the first three ID bytes. -/
theorem formatPush_collects (he : d.errorCode = .none) (hn : d.fmt.sectorsFormatted < d.sectorEnd.toNat)
    (hid : d.fmt.idCount < 3) : formatPush v ⟨d, st⟩ = (.accepted, ⟨d.takeIdByte v, st⟩) := by
  unfold formatPush
  rw [if_neg (by simp [he]), if_neg (by simp only; omega), if_pos (by simp only; omega)]

/-- R210: what a push makes of the lookup of the sector its ID names. -/
def formatLooked : NextAnswer × Bay → WriteAnswer × Bay
  | (.pending, b) => (.accepted, b)
  | (.found, b) => formatFill b
  | (.done, b) => (.error, b)
  | (.failed, b) => (.error, b)

/-- R210: the Drive with the ID `x`, `y`, `z`, `v` collected and its position taken from it. -/
def Drive.atId (d : Drive) (x y z v : Byte) : Drive :=
  { d with
    pos := ⟨x.toNat, y.toNat, z.toNat⟩
    fmt := { d.fmt with idBuf := [x, y, z, v], idCount := 0 } }

/-- R210: the fourth ID byte loads the ID and looks its sector up. -/
theorem formatPush_looks (he : d.errorCode = .none) (hn : d.fmt.sectorsFormatted < d.sectorEnd.toNat)
    (hid : d.fmt.idCount = 3) {x y z w : Byte} (hbuf : d.fmt.idBuf = [x, y, z, w]) :
    formatPush v ⟨d, st⟩ = formatLooked (nextSector 1 ⟨d.atId x y z v, st⟩) := by
  have hload : (d.takeIdByte v).loadId = d.atId x y z v := by
    unfold Drive.takeIdByte Drive.loadId Drive.atId
    rw [hid, hbuf]
    rfl
  unfold formatPush
  rw [if_neg (by simp [he]), if_neg (by simp only; omega), if_neg (by simp only; omega), hload]
  generalize nextSector 1 ⟨d.atId x y z v, st⟩ = looked
  obtain ⟨a, b⟩ := looked
  cases a <;> rfl

/-- The first error is the one recorded (R386). -/
theorem Drive.raise_of_none (e : Err) (he : d.errorCode = .none) : d.raise e = { d with errorCode := e } := if_pos he

variable (d st)

/-- R210, R364: with no image the lookup ends in `NotReady`. -/
theorem formatLooked_noImage (he : d.errorCode = .none) (hdisk : d.disk = none) :
    formatLooked (nextSector 1 ⟨d, st⟩) = (.error, ⟨{ d with errorCode := .notReady }, st⟩) := by
  rw [nextSector_none 1 d st hdisk, Drive.raise_of_none _ he]
  rfl

/-- R210, R364: with the count used up there is no lookup. -/
theorem formatLooked_usedUp {img : Nat} (himg : d.disk = some img) (hrem : d.cur.bytesRemaining = 0) :
    formatLooked (nextSector 1 ⟨d, st⟩) = (.error, ⟨d, st⟩) := by
  rw [nextSector_done 1 d st img himg hrem]
  rfl

/-- R210, R364: a sector the image has not. -/
theorem formatLooked_missing (he : d.errorCode = .none) {img : Nat} (himg : d.disk = some img)
    (hrem : 0 < d.cur.bytesRemaining) (hlook : (st.lookSector img 1 d).1 = .missing) :
    formatLooked (nextSector 1 ⟨d, st⟩) =
      (.error, ⟨{ d with errorCode := .noSectorFound }, (st.lookSector img 1 d).2⟩) := by
  rw [nextSector_look 1 d st img himg hrem, hlook, Drive.raise_of_none _ he]
  rfl

/-- R210, R364: a lookup the image answers later. -/
theorem formatLooked_pending {img : Nat} (himg : d.disk = some img) (hrem : 0 < d.cur.bytesRemaining)
    (hlook : (st.lookSector img 1 d).1 = .pending) :
    formatLooked (nextSector 1 ⟨d, st⟩) =
      (.accepted, ⟨{ d with cur := { d.cur with pending := true } }, (st.lookSector img 1 d).2⟩) := by
  rw [nextSector_look 1 d st img himg hrem, hlook]
  rfl

/-- R210, R364, R366: a sector found is filled. -/
theorem formatLooked_found (he : d.errorCode = .none) {img : Nat} (himg : d.disk = some img)
    (hrem : 0 < d.cur.bytesRemaining) {h : Handle} (hlook : (st.lookSector img 1 d).1 = .found h)
    (hlen : 1 ≤ d.geo.bytesPerSector) :
    ∃ a d' st', formatLooked (nextSector 1 ⟨d, st⟩) = (a, ⟨d', st'⟩) ∧
      SectorFill d (st.lookSector img 1 d).2 h a d' st' := by
  have himage : d.disk = some h.image := by
    obtain ⟨-, -, hfound⟩ := st.lookSector_spec img 1 d
    rw [(hfound h hlook).1, himg]
  rw [nextSector_look 1 d st img himg hrem, hlook]
  exact formatFill_spec d _ h he himage hlen

end Push

/-- R325: the peer sees the two answers a fill has. -/
theorem SectorFill.answer_eq {d : Drive} {st : Store} {h : Handle} {a : WriteAnswer} {d' : Drive} {st' : Store}
    (F : SectorFill d st h a d' st') : a.answer = if a = .accepted then .accepted else .error := by
  obtain rfl | rfl := F.answered <;> rfl

/-- Settles O42, by the length of the ID collected so far; its fourth byte by what the lookup of the sector answers. -/
theorem fdcFormatPush : Obligations.FdcFormatPush := by
  intro s u d v hs hd hp
  refine ⟨fun hclosed => ?_, fun he hn => ⟨fun hid => ?_, fun x y z w hbuf hid => ?_⟩⟩
  · refine (dmaPush_format s u d v hs hd hp).trans ?_
    rw [formatPush_closed hclosed, State.modifyDrive_same s (.floppy u) d hd]
    rfl
  · exact dmaPush_of_formatPush hs hd hp (formatPush_collects he hn hid)
  · have hpush {a d' st'} (hlooked : formatLooked (nextSector 1 ⟨d.atId x y z v, s.store⟩) = (a, ⟨d', st'⟩)) :=
      dmaPush_of_formatPush hs hd hp ((formatPush_looks he hn hid hbuf).trans hlooked)
    refine ⟨fun hdisk => ?_, fun img himg => ⟨fun hrem => ?_, fun hrem => ?_⟩⟩
    · exact hpush (formatLooked_noImage (d.atId x y z v) s.store he hdisk)
    · exact hpush (formatLooked_usedUp (d.atId x y z v) s.store himg hrem)
    · intro look
      have hlookup : s.store.lookSector img 1 (d.atId x y z v) = look := Store.lookSector_eq ..
      clear_value look
      subst hlookup
      refine ⟨fun hlook => ?_, fun hlook => ?_, fun h hlook hlen => ?_⟩
      · exact hpush (formatLooked_missing (d.atId x y z v) s.store he himg hrem hlook)
      · exact hpush (formatLooked_pending (d.atId x y z v) s.store himg hrem hlook)
      · obtain ⟨a, d', st', hfill, hsector⟩ := formatLooked_found (d.atId x y z v) s.store he himg hrem hlook hlen
        refine ⟨a, d', st', hsector, ?_⟩
        rw [hpush hfill, hsector.answer_eq]

end Sys2Proof.Machine

/-! PROOFS of the statements of spec/42_hdc_xtc.md: each command of the XTC from an idle controller, the resets of both
hard-disk controllers, and the sector buffer behind the DMA peer.

Every command goes the same way: its row runs its rule in the Execution state (`exec_xtcRow_idle`), and the rule is either
the end of a command on the Drive the block addresses (`State.xtcCompleted`) or an open session. The FIFO it leaves is one
of `XtcIdle.completion` and `Fifo.loaded_executing`. -/

namespace Sys2Proof.Machine

/-! ### A command row on an idle XTC (R231, R232) -/

/-- R231, R232: a row of the XTC runs the command of its opcode, on its bytes, in Execution Phase. -/
theorem exec_xtcRow_idle {i : Instr} {s : State} (h : XtcIdle s) (hi : i.space = .xtc) {c0 : Byte} {b : XtcBlock}
    {rest : List Byte} (hbytes : i.bytes = encodeXtcBlock c0 b ++ rest) {k : XtcOp} (hop : xtcOp c0 = k)
    (hlen : rest.length + 6 = xtcReqLen c0) :
    exec i s = .next ((s.xtcExecuting i.bytes).xtcCommand k i.bytes) := by
  subst hop
  have hmax : xtcReqLen c0 ≤ 14 := by unfold xtcReqLen; split <;> decide
  rw [exec_xtcRow i s hi, hbytes, xtc_command s h c0 b rest hlen (by omega)]

/-- R231, R232: the same for a row of six bytes, every one but INITIALIZE_DRIVE_CHARACTERISTICS (R136). -/
theorem exec_xtcBlock_idle {i : Instr} {s : State} (h : XtcIdle s) (hi : i.space = .xtc) {c0 : Byte} {b : XtcBlock}
    (hbytes : i.bytes = encodeXtcBlock c0 b) {k : XtcOp} (hop : xtcOp c0 = k) (hlen : xtcReqLen c0 = 6) :
    exec i s = .next ((s.xtcExecuting i.bytes).xtcCommand k i.bytes) :=
  exec_xtcRow_idle (rest := []) h hi hbytes hop hlen.symm

/-- R122, R136, R146: the longest instruction has fourteen bytes. -/
theorem length_bytes_le (i : Instr) : i.bytes.length ≤ 14 := by
  cases i with
  | atcTaskfile reg w => cases w <;> exact Nat.le_of_ble_eq_true rfl
  | _ => exact Nat.le_of_ble_eq_true rfl

/-- R51: a block fits the FIFO of an idle XTC. -/
theorem XtcIdle.fits {s : State} (h : XtcIdle s) (i : Instr) : i.bytes.length ≤ s.xtc.fifo.buffer.length :=
  Nat.le_trans (length_bytes_le i) h.room

/-- The drive that a row addresses (R135). -/
theorem xtcReqDrive_of_row {i : Instr} {c0 : Byte} {b : XtcBlock} {rest : List Byte}
    (hbytes : i.bytes = encodeXtcBlock c0 b ++ rest) : xtcReqDrive i.bytes = b.drive := by
  rw [hbytes, xtcReqDrive_block]

theorem xtcReqDrive_of_block {i : Instr} {c0 : Byte} {b : XtcBlock} (hbytes : i.bytes = encodeXtcBlock c0 b) :
    xtcReqDrive i.bytes = b.drive :=
  xtcReqDrive_of_row (rest := []) hbytes

/-! ### The end of a command on the addressed Drive (R233) -/

theorem xtcCompletion_success (u : BitVec 1) : xtcCompletion .none u = u.setWidth 8 <<< 5 := BitVec.zero_add _

/-- R232, R233: a command that changes the addressed Drive by `f` and ends with class `e` and its completion byte. -/
def State.xtcCompleted (s : State) (bs : List Byte) (f : Drive → Drive) (e : Err) : State :=
  { s with
    xtc := { s.xtc with
      phase := .result
      fifo := (s.xtc.fifo.executing bs).loadResult [xtcCompletion e (xtcReqDrive bs)]
      irq := if e = .notReady then s.xtc.irq else s.xtc.irq || s.xtc.pattern.getLsbD 1 }
    fixed := s.fixed.modify (xtcReqDrive bs).toNat f }

/-- R393: the interrupt policy at the end of a command, by the class. -/
theorem endOfCommand_irq (e : Err) (irq armed : Bool) :
    (irq || (armed && decide (e ≠ .notReady))) = if e = .notReady then irq else irq || armed := by
  split <;> simp [*]

theorem State.xtcExecuting_unit (s : State) (bs : List Byte) : (s.xtcExecuting bs).xtcUnit bs = s.xtcUnit bs := by
  cases hd : s.fixed[(xtcReqDrive bs).toNat]? <;> simp [State.xtcUnit, State.xtcExecuting, hd]

theorem State.modifyDrive_id (s : State) (u : Nat) : s.modifyDrive (.fixed u) id = s := by
  simp [State.modifyDrive]

/-- R233: a command that latches its class on the Drive it addresses, which it has changed by `f`. -/
theorem State.xtcExecuting_finish (s : State) (bs : List Byte) (f : Drive → Drive) (e : Err) :
    ((s.xtcExecuting bs).modifyDrive (.fixed (xtcReqDrive bs).toNat) f).xtcFinish (xtcReqDrive bs) (s.xtcUnit bs) e []
      true = s.xtcCompleted bs (fun d => (f d.clearError).latchSense e) e := by
  cases hd : s.fixed[(xtcReqDrive bs).toNat]? with
  | none =>
    rw [State.xtcUnit_absent s bs hd, State.xtcExecuting_absent s bs hd, State.modifyDrive_absent _ _ _ (by exact hd),
      State.xtcFinish_plain _ _ _ _ _ _ (.inr rfl), endOfCommand_irq, State.xtcCompleted, modify_absent _ _ _ hd]
    rfl
  | some d =>
    have hd' := getElem?_set_present s.fixed _ d.clearError d hd
    rw [State.xtcUnit_present s bs d hd, State.xtcExecuting_present s bs d hd,
      State.modifyDrive_fixed _ _ _ d.clearError (by exact hd'),
      State.xtcFinish_latch _ _ _ (f d.clearError) e (getElem?_set_present _ _ _ _ (by exact hd')), endOfCommand_irq,
      State.xtcCompleted, modify_eq_set _ _ _ d hd]
    simp [Drive.latchSense]

/-- R233: the same, of a command that leaves the Drive to the end of the command. -/
theorem State.xtcExecuting_finish_id (s : State) (bs : List Byte) (e : Err) :
    (s.xtcExecuting bs).xtcFinish (xtcReqDrive bs) (s.xtcUnit bs) e [] true =
      s.xtcCompleted bs (fun d => d.clearError.latchSense e) e := by
  simpa only [State.modifyDrive_id, id_eq] using s.xtcExecuting_finish bs id e

/-- R233: the end of a command whose Drive does not exist. -/
theorem State.xtcExecuting_finish_absent {s : State} {bs : List Byte} (hd : s.fixed[(xtcReqDrive bs).toNat]? = none)
    (e : Err) : (s.xtcExecuting bs).xtcFinish (xtcReqDrive bs) none e [] true = s.xtcCompleted bs id e := by
  have hfinish := s.xtcExecuting_finish_id bs e
  rw [State.xtcUnit_absent s bs hd] at hfinish
  rw [hfinish]
  simp [State.xtcCompleted, modify_absent _ _ _ hd]

/-- R166, R233: the FIFO after an ended command. The state `t` differs from the idle one in what the rule of the command
has written elsewhere. -/
theorem XtcIdle.completion {s : State} (h : XtcIdle s) {i : Instr} {u : BitVec 1}
    (hu : xtcReqDrive i.bytes = u) (e : Err) :
    ∃ b, b.length = s.xtc.fifo.buffer.length ∧ b.take 1 = [xtcCompletion e u] ∧
      ∀ (t : State) (f : Drive → Drive), t.xtc.fifo = s.xtc.fifo → t.xtcCompleted i.bytes f e = { t with
        xtc := { t.xtc with
          phase := .result
          fifo := ⟨b, 1, 0, 1⟩
          irq := if e = .notReady then t.xtc.irq else t.xtc.irq || t.xtc.pattern.getLsbD 1 }
        fixed := t.fixed.modify u.toNat f } := by
  subst hu
  obtain ⟨b, hb, htake, hresult⟩ := s.xtc.fifo.loaded_result i.bytes [xtcCompletion e (xtcReqDrive i.bytes)] (h.fits i)
    (Nat.le_trans (by decide : 1 ≤ 14) h.room)
  refine ⟨b, hb, htake, fun t f ht => ?_⟩
  rw [State.xtcCompleted, ht, hresult]
  rfl

/-! ### TEST_READY, RECALIBRATE and SEEK (R240, R241, R245) -/

theorem State.xtcOnDrive_present {s : State} {bs : List Byte} {d : Drive}
    (hd : s.fixed[(xtcReqDrive bs).toNat]? = some d) (f : Drive → Drive) :
    (s.xtcExecuting bs).xtcOnDrive bs f = s.xtcCompleted bs (fun d => (f d.clearError).latchSense .none) .none := by
  rw [← State.xtcExecuting_finish]
  simp only [State.xtcOnDrive, State.xtcExecuting_unit, State.xtcUnit_present s bs d hd]

theorem State.xtcOnDrive_absent {s : State} {bs : List Byte} (hd : s.fixed[(xtcReqDrive bs).toNat]? = none)
    (f : Drive → Drive) : (s.xtcExecuting bs).xtcOnDrive bs f = s.xtcCompleted bs id .notReady := by
  rw [← State.xtcExecuting_finish_absent hd]
  simp only [State.xtcOnDrive, State.xtcExecuting_unit, State.xtcUnit_absent s bs hd]

/-- R245: what SEEK does to the position, by the fields of its row. -/
theorem seekTo_row (b : XtcBlock) (d : Drive) :
    d.seekTo (xtcReqCylinder (Instr.xtcSeek b).bytes) (xtcReqHead (Instr.xtcSeek b).bytes).toNat = { d with
      pos := { d.pos with
        cylinder := (b.cylHigh.toNat <<< 8) + b.cylLow.toNat
        head := b.head.toNat } } := by
  have hbytes : (Instr.xtcSeek b).bytes = encodeXtcBlock 0x0B#8 b ++ [] := rfl
  rw [hbytes, xtcReqCylinder_block, xtcReqHead_block]
  rfl

/-- Settles O23: the three commands differ in how they move the Drive. -/
theorem xtcDriveCommands : Obligations.XtcDriveCommands := by
  intro s b i move h hi
  have hu : xtcReqDrive i.bytes = b.drive := by
    rcases hi with ⟨rfl, -⟩ | ⟨rfl, -⟩ | ⟨rfl, -⟩ <;> exact xtcReqDrive_of_block rfl
  obtain ⟨f, hf, hexec⟩ : ∃ f : Drive → Drive, (∀ d, f d = { d with pos := move d.pos }) ∧
      exec i s = .next ((s.xtcExecuting i.bytes).xtcOnDrive i.bytes f) := by
    rcases hi with ⟨rfl, rfl⟩ | ⟨rfl, rfl⟩ | ⟨rfl, rfl⟩
    · exact ⟨id, fun _ => rfl, exec_xtcBlock_idle (k := .testReady) h rfl rfl rfl rfl⟩
    · exact ⟨Drive.toCylinderZero, fun _ => rfl, exec_xtcBlock_idle (k := .recalibrate) h rfl rfl rfl rfl⟩
    · exact ⟨_, seekTo_row b, exec_xtcBlock_idle (k := .seek) h rfl rfl rfl rfl⟩
  obtain ⟨ok, hok, htake, hsuccess⟩ := h.completion hu .none
  obtain ⟨bad, hbad, htake', hfailure⟩ := h.completion hu .notReady
  rw [xtcCompletion_success] at htake
  refine ⟨ok, bad, hok, hbad, htake, htake', fun d hd => ?_, fun hd => ?_⟩
  · rw [hexec, State.xtcOnDrive_present (by rw [hu]; exact hd), hsuccess s _ rfl, modify_eq_set _ _ _ d hd, hf]
    rfl
  · rw [hexec, State.xtcOnDrive_absent (by rw [hu]; exact hd), hfailure s _ rfl, modify_absent _ _ _ hd]
    rfl

/-! ### The diagnostics (R250, R252, R253) and the unknown opcode (R251) -/

theorem State.xtcDiagnostic_eq (s : State) (bs : List Byte) :
    (s.xtcExecuting bs).xtcDiagnostic bs = s.xtcCompleted bs (fun d => d.clearError.latchSense .none) .none := by
  rw [← State.xtcExecuting_finish_id, State.xtcDiagnostic, State.xtcExecuting_unit]

/-- Settles O24: the three commands have one rule. -/
theorem xtcDiagnostics : Obligations.XtcDiagnostics := by
  intro s b i h hi
  have hu : xtcReqDrive i.bytes = b.drive := by
    rcases hi with rfl | rfl | rfl <;> exact xtcReqDrive_of_block rfl
  have hexec : exec i s = .next ((s.xtcExecuting i.bytes).xtcDiagnostic i.bytes) := by
    rcases hi with rfl | rfl | rfl
    · exact exec_xtcBlock_idle (k := .ramDiagnostic) h rfl rfl rfl rfl
    · exact exec_xtcBlock_idle (k := .driveDiagnostic) h rfl rfl rfl rfl
    · exact exec_xtcBlock_idle (k := .controllerDiagnostic) h rfl rfl rfl rfl
  obtain ⟨ok, hok, htake, hsuccess⟩ := h.completion hu .none
  rw [xtcCompletion_success] at htake
  rw [State.xtcDiagnostic_eq, hsuccess s _ rfl] at hexec
  refine ⟨ok, hok, htake, fun d hd => ?_, fun hd => ?_⟩
  · rw [hexec, modify_eq_set _ _ _ d hd]
    rfl
  · rw [hexec, modify_absent _ _ _ hd]
    rfl

theorem State.xtcUnknown_eq (s : State) (bs : List Byte) :
    (s.xtcExecuting bs).xtcUnknown bs = (s.emit (.xtcUnsupported (reqByte bs 0))).xtcCompleted bs
      (fun d => (d.clearError.raise .commandAborted).latchSense .commandAborted) .commandAborted := by
  rw [← State.xtcExecuting_finish, State.xtcUnknown, State.xtcExecuting_unit]
  rfl

/-- Settles O29: the rule is the end of a command that has raised `CommandAborted`, after one diagnostic event. -/
theorem xtcUnknownOpcode : Obligations.XtcUnknownOpcode := by
  intro s c0 b h hwf
  have hu : xtcReqDrive (Instr.xtcUnknown c0 b).bytes = b.drive := xtcReqDrive_of_block rfl
  have hexec := exec_xtcBlock_idle (i := .xtcUnknown c0 b) h rfl rfl ((xtcOp_eq_unknown_iff c0 b).mpr hwf)
    (Laws.Bytes.unknown_blockLen c0 b hwf)
  obtain ⟨bad, hbad, htake, hfailure⟩ := h.completion hu .commandAborted
  refine ⟨bad, hbad, htake, hexec.trans (congrArg _ ?_)⟩
  exact (State.xtcUnknown_eq ..).trans (hfailure (s.emit (.xtcUnsupported c0)) _ rfl)

/-! ### REQUEST_SENSE (R242) -/

/-- The drive bit of the second sense byte and of the completion byte (R138, R384). -/
theorem driveBit_eq (u : BitVec 1) : BitVec.ofNat 8 (u.toNat <<< 5) = u.setWidth 8 <<< 5 := by
  revert u; decide

/-- A byte of a number takes the number modulo 256. -/
theorem byte_ofNat_mod (n : Nat) : BitVec.ofNat 8 (n % 256) = BitVec.ofNat 8 n := by
  apply BitVec.eq_of_toNat_eq
  simp

/-- The sense bytes of the Drive a block addresses (R242). -/
def State.xtcSense (s : State) (u : BitVec 1) : List Byte :=
  match s.fixed[u.toNat]? with
  | none => senseBytesAbsent u
  | some d => senseBytes u d

theorem State.xtcSense_length (s : State) (u : BitVec 1) : (s.xtcSense u).length = 4 := by
  unfold State.xtcSense
  split <;> rfl

/-- R242: clearing the error at the start of the command leaves the sense bytes. -/
theorem State.xtcRequestSense_eq (s : State) (bs : List Byte) :
    (s.xtcExecuting bs).xtcRequestSense bs = { s with
      xtc := { s.xtc with
        phase := .result
        fifo := (s.xtc.fifo.executing bs).loadResult
          (s.xtcSense (xtcReqDrive bs) ++ [(xtcReqDrive bs).setWidth 8 <<< 5])
        irq := s.xtc.irq || s.xtc.pattern.getLsbD 1 }
      fixed := s.fixed.modify (xtcReqDrive bs).toNat Drive.clearError } := by
  rw [State.xtcRequestSense, State.xtcFinish_plain _ _ _ _ _ _ (.inl rfl), endOfCommand_irq, xtcCompletion_success]
  cases hd : s.fixed[(xtcReqDrive bs).toNat]? <;>
    simp [State.xtcExecuting, State.xtcSense, senseBytes, Drive.clearError, hd]

/-- Settles O25: the sense bytes are of the Drive as it was, and the sense latch is not written. -/
theorem xtcRequestSense : Obligations.XtcRequestSense := by
  intro s b h
  have hu : xtcReqDrive (Instr.xtcRequestSense b).bytes = b.drive := xtcReqDrive_of_block rfl
  have hexec := exec_xtcBlock_idle (i := .xtcRequestSense b) (k := .requestSense) h rfl rfl rfl rfl
  have hlen : (s.xtcSense b.drive ++ [b.drive.setWidth 8 <<< 5]).length = 5 := by simp [State.xtcSense_length]
  obtain ⟨res, hres, htake, hresult⟩ := s.xtc.fifo.loaded_result (Instr.xtcRequestSense b).bytes
    (s.xtcSense b.drive ++ [b.drive.setWidth 8 <<< 5]) (h.fits _) (by rw [hlen]; exact Nat.le_trans (by decide) h.room)
  rw [hlen] at htake hresult
  have hrun := hexec.trans (congrArg _ (State.xtcRequestSense_eq ..))
  rw [hu, hresult] at hrun
  refine ⟨res, hres, fun d hd => ⟨?_, ?_⟩, fun hd => ⟨?_, ?_⟩⟩
  · rw [htake, State.xtcSense, hd, byte_ofNat_mod]
    rfl
  · rw [hrun, modify_eq_set _ _ _ d hd]
    rfl
  · rw [htake, State.xtcSense, hd, ← driveBit_eq]
    rfl
  · rw [hrun, modify_absent _ _ _ hd]

/-! ### READ_DATA and WRITE_DATA (R243, R244, R246) -/

section Transfer

variable {s : State} {bs : List Byte} {d : Drive} (dir : Direction)

/-- R246: the session of a drive that exists, with DMA enabled. -/
theorem State.xtcTransfer_open (hd : s.fixed[(xtcReqDrive bs).toNat]? = some d)
    (hdma : s.xtc.pattern.getLsbD 0 = true) : (s.xtcExecuting bs).xtcTransfer bs dir = { s with
      xtc := { s.xtc with phase := .execution, fifo := s.xtc.fifo.executing bs }
      fixed := s.fixed.modify (xtcReqDrive bs).toNat fun d => loadXtcTransfer bs d.clearError
      dma := { s.dma with xtc := some ⟨some (xtcReqDrive bs).toNat, dir, dir.toMemory false, false⟩ } } := by
  have henabled : (s.xtcExecuting bs).xtc.dmaEnabled = true := hdma
  simp only [State.xtcTransfer, State.xtcExecuting_unit, State.xtcUnit_present s bs d hd, henabled, if_true]
  simp only [State.xtcExecuting, State.modifyDrive, List.modify_modify_eq]
  rfl

/-- R246: the same with DMA disabled. -/
theorem State.xtcTransfer_disabled (hd : s.fixed[(xtcReqDrive bs).toNat]? = some d)
    (hdma : s.xtc.pattern.getLsbD 0 = false) : (s.xtcExecuting bs).xtcTransfer bs dir =
      s.xtcCompleted bs (fun d => ((loadXtcTransfer bs d.clearError).raise .notReady).latchSense .notReady)
        .notReady := by
  have hdisabled : (s.xtcExecuting bs).xtc.dmaEnabled = false := hdma
  have hfinish := s.xtcExecuting_finish bs (Drive.raise .notReady ∘ loadXtcTransfer bs) .notReady
  rw [← State.modifyDrive_modifyDrive, State.xtcUnit_present s bs d hd] at hfinish
  simp only [State.xtcTransfer, State.xtcExecuting_unit, State.xtcUnit_present s bs d hd, hdisabled]
  exact hfinish

theorem State.xtcTransfer_absent (hd : s.fixed[(xtcReqDrive bs).toNat]? = none) :
    (s.xtcExecuting bs).xtcTransfer bs dir = s.xtcCompleted bs id .notReady := by
  rw [← State.xtcExecuting_finish_absent hd]
  simp only [State.xtcTransfer, State.xtcExecuting_unit, State.xtcUnit_absent s bs hd]

end Transfer

/-- R246: what READ_DATA and WRITE_DATA load, by the fields of their row. -/
theorem loadXtcTransfer_row {i : Instr} {c0 : Byte} {b : XtcBlock} (hbytes : i.bytes = encodeXtcBlock c0 b)
    (d : Drive) : loadXtcTransfer i.bytes d = { d with
      pos := ⟨(b.cylHigh.toNat <<< 8) + b.cylLow.toNat, b.head.toNat, b.sector.toNat⟩
      cur := ⟨none, 0, (if b.count = 0#8 then 256 else b.count.toNat) * d.geo.bytesPerSector, false⟩ } := by
  have hrow : i.bytes = encodeXtcBlock c0 b ++ [] := hbytes.trans (List.append_nil _).symm
  rw [hrow]
  simp only [loadXtcTransfer, xtcReqCylinder_block, xtcReqHead_block, xtcReqSector_block, xtcReqCount_block]
  rfl

/-- Settles O26, by whether the drive exists and DMA is enabled. -/
theorem xtcReadWriteData : Obligations.XtcReadWriteData := by
  intro s b i dir tm h hi
  obtain ⟨c0, hbytes⟩ : ∃ c0, i.bytes = encodeXtcBlock c0 b := by
    rcases hi with ⟨rfl, -⟩ | ⟨rfl, -⟩ <;> exact ⟨_, rfl⟩
  have hexec : exec i s = .next ((s.xtcExecuting i.bytes).xtcTransfer i.bytes dir) := by
    rcases hi with ⟨rfl, rfl, -⟩ | ⟨rfl, rfl, -⟩
    · exact exec_xtcBlock_idle (k := .readData) h rfl rfl rfl rfl
    · exact exec_xtcBlock_idle (k := .writeData) h rfl rfl rfl rfl
  have htm : dir.toMemory false = tm := by rcases hi with ⟨-, rfl, rfl⟩ | ⟨-, rfl, rfl⟩ <;> rfl
  have hu := xtcReqDrive_of_block hbytes
  obtain ⟨run, hrun, htake, hexecuting⟩ := s.xtc.fifo.loaded_executing i.bytes (h.fits i)
  obtain ⟨bad, hbad, htake', hfailure⟩ := h.completion hu .notReady
  have hlen : i.bytes.length = 6 := by rw [hbytes]; rfl
  rw [hlen] at htake hexecuting
  refine ⟨run, bad, hrun, hbad, htake, htake', fun d hd hdma => ?_, fun d hd hdma => ?_, fun hd => ?_⟩
  · rw [hexec, State.xtcTransfer_open dir (by rw [hu]; exact hd) hdma, hexecuting, hu, htm, modify_eq_set _ _ _ d hd,
      loadXtcTransfer_row hbytes]
    rfl
  · rw [hexec, State.xtcTransfer_disabled dir (by rw [hu]; exact hd) hdma, hfailure s _ rfl,
      modify_eq_set _ _ _ d hd, loadXtcTransfer_row hbytes]
    rfl
  · rw [hexec, State.xtcTransfer_absent dir (by rw [hu]; exact hd), hfailure s _ rfl, modify_absent _ _ _ hd]
    rfl

/-! ### READ_BUFFER and WRITE_BUFFER (R248, R249) -/

/-- R248, R249: the buffer rewound. -/
def State.xtcRewound (s : State) : State := { s with xtc := { s.xtc with bufIndex := 0 } }

theorem State.xtcBuffer_open {s : State} {bs : List Byte} (tm : Bool) (hdma : s.xtc.pattern.getLsbD 0 = true) :
    (s.xtcExecuting bs).xtcBuffer bs tm =
      { s.xtcRewound.xtcExecuting bs with dma := { s.dma with xtc := some ⟨none, .buffer, tm, false⟩ } } := by
  have henabled : (s.xtcExecuting bs).xtc.dmaEnabled = true := hdma
  simp only [State.xtcBuffer, henabled, if_true]
  rfl

theorem State.xtcBuffer_disabled {s : State} {bs : List Byte} (tm : Bool) (hdma : s.xtc.pattern.getLsbD 0 = false) :
    (s.xtcExecuting bs).xtcBuffer bs tm =
      s.xtcRewound.xtcCompleted bs (fun d => d.clearError.latchSense .notReady) .notReady := by
  have hdisabled : (s.xtcExecuting bs).xtc.dmaEnabled = false := hdma
  rw [← State.xtcExecuting_finish_id]
  simp only [State.xtcBuffer, State.xtcExecuting_unit, hdisabled]
  rfl

/-- Settles O28, by the DMA enable. -/
theorem xtcBufferCommands : Obligations.XtcBufferCommands := by
  intro s b i tm h hi
  obtain ⟨c0, hbytes⟩ : ∃ c0, i.bytes = encodeXtcBlock c0 b := by
    rcases hi with ⟨rfl, -⟩ | ⟨rfl, -⟩ <;> exact ⟨_, rfl⟩
  have hexec : exec i s = .next ((s.xtcExecuting i.bytes).xtcBuffer i.bytes tm) := by
    rcases hi with ⟨rfl, rfl⟩ | ⟨rfl, rfl⟩
    · exact exec_xtcBlock_idle (k := .readBuffer) h rfl rfl rfl rfl
    · exact exec_xtcBlock_idle (k := .writeBuffer) h rfl rfl rfl rfl
  have hu := xtcReqDrive_of_block hbytes
  obtain ⟨run, hrun, htake, hexecuting⟩ := s.xtc.fifo.loaded_executing i.bytes (h.fits i)
  obtain ⟨bad, hbad, htake', hfailure⟩ := h.completion hu .notReady
  have hlen : i.bytes.length = 6 := by rw [hbytes]; rfl
  rw [hlen] at htake hexecuting
  refine ⟨run, bad, hrun, hbad, htake, htake', fun hdma => ?_, fun hdma => ?_⟩
  · rw [hexec, State.xtcBuffer_open tm hdma, State.xtcExecuting, hu, ← hexecuting]
    rfl
  · rw [hexec, State.xtcBuffer_disabled tm hdma, hfailure s.xtcRewound _ rfl]
    rfl

/-! ### INITIALIZE_DRIVE_CHARACTERISTICS (R247) -/

/-- R58: which drive's parameters are captured. -/
theorem Xtc.setParams_eq (x : Xtc) (u : BitVec 1) (p : InitParams) : x.setParams u p = { x with
    initParams0 := if u = 0#1 then p else x.initParams0
    initParams1 := if u = 1#1 then p else x.initParams1 } := by
  obtain rfl | rfl : u = 0#1 ∨ u = 1#1 := by revert u; decide
  · rfl
  · rfl

/-- R247: the parameters captured. -/
def State.xtcCaptured (s : State) (u : BitVec 1) (p : InitParams) : State :=
  { s with xtc := { s.xtc with
      initParams0 := if u = 0#1 then p else s.xtc.initParams0
      initParams1 := if u = 1#1 then p else s.xtc.initParams1 } }

/-- R358: the diagnostic events after the programmed cylinders and heads of fixed drive `u` were verified. -/
def State.xtcVerified (s : State) (u cylinders heads : Nat) : List Diag :=
  match s.cfg.tableGeometry u with
  | some t =>
    if cylinders = t.cylinders ∧ heads = t.heads then s.diag else s.diag ++ [.geometryMismatch u]
  | none => s.diag

theorem State.verifyGeometry_xtcVerified {s : State} {u : Nat} {d : Drive} (hd : s.fixed[u]? = some d)
    (hv : s.cfg.hdcVariant = .xtc) :
    s.verifyGeometry u = { s with diag := s.xtcVerified u d.geo.cylinders d.geo.heads } := by
  unfold State.verifyGeometry State.xtcVerified
  cases s.cfg.tableGeometry u with
  | none => rfl
  | some t =>
    by_cases hsame : d.geo.cylinders = t.cylinders ∧ d.geo.heads = t.heads
    · simp [hd, hv, hsame]
    · have hdiffers : d.geo.cylinders = t.cylinders → d.geo.heads ≠ t.heads := fun hc hh => hsame ⟨hc, hh⟩
      by_cases hc : d.geo.cylinders = t.cylinders
      · simp [hd, hv, hc, hdiffers hc, State.emit]
      · simp [hd, hv, hc, State.emit]

/-- R247: the parameters captured and the programmed numbers verified, for a drive that exists. -/
def State.xtcProgrammed (s : State) (u : BitVec 1) (p : InitParams) : State :=
  { s.xtcCaptured u p with diag := s.xtcVerified u.toNat p.maxCylinders.toNat p.heads.toNat }

/-- R247: the parameters captured and the flag of R411 consumed. -/
def State.xtcInitFailed (s : State) (u : BitVec 1) (p : InitParams) : State :=
  { s.xtcCaptured u p with xtc := { (s.xtcCaptured u p).xtc with allowInitFail := false } }

section InitDrive

variable {s : State} {bs : List Byte} {d : Drive} {u : BitVec 1} {p : InitParams}

theorem State.xtcExecuting_captured (s : State) (bs : List Byte) (u : BitVec 1) (p : InitParams) :
    { s.xtcExecuting bs with xtc := (s.xtcExecuting bs).xtc.setParams u p } = (s.xtcCaptured u p).xtcExecuting bs := by
  rw [Xtc.setParams_eq]
  rfl

theorem State.xtcInitDrive_present (hv : s.cfg.hdcVariant = .xtc) (hu : xtcReqDrive bs = u) (hp : xtcReqParams bs = p)
    (hd : s.fixed[u.toNat]? = some d) : (s.xtcExecuting bs).xtcInitDrive bs =
      (s.xtcProgrammed u p).xtcCompleted bs (fun d => (d.clearError.program p).latchSense .none) .none := by
  subst hu hp
  have hprogrammed : (((s.xtcCaptured (xtcReqDrive bs) (xtcReqParams bs)).xtcExecuting bs).modifyDrive
      (.fixed (xtcReqDrive bs).toNat) (Drive.program (xtcReqParams bs))).fixed[(xtcReqDrive bs).toNat]? =
        some (d.clearError.program (xtcReqParams bs)) := by
    simp [State.xtcExecuting, State.xtcCaptured, hd]
  have hfinish := (s.xtcProgrammed (xtcReqDrive bs) (xtcReqParams bs)).xtcExecuting_finish bs
    (Drive.program (xtcReqParams bs)) .none
  rw [State.xtcUnit_present _ bs d (by exact hd)] at hfinish
  rw [State.xtcInitDrive, State.xtcExecuting_unit, State.xtcUnit_present s bs d hd]
  dsimp only
  rw [State.xtcExecuting_captured, State.verifyGeometry_xtcVerified hprogrammed hv]
  exact hfinish

theorem State.xtcInitDrive_absent (hu : xtcReqDrive bs = u) (hp : xtcReqParams bs = p)
    (hd : s.fixed[u.toNat]? = none) : (s.xtcExecuting bs).xtcInitDrive bs =
      if s.xtc.allowInitFail then (s.xtcInitFailed u p).xtcCompleted bs id .notReady
      else (s.xtcCaptured u p).xtcCompleted bs id .none := by
  subst hu hp
  rw [← State.xtcExecuting_finish_absent (by exact hd), ← State.xtcExecuting_finish_absent (by exact hd)]
  rw [State.xtcInitDrive, State.xtcExecuting_unit, State.xtcUnit_absent s bs hd]
  dsimp only
  rw [Xtc.setParams_eq]
  rfl

end InitDrive

/-- Settles O27: the parameters are captured before the rule looks whether the drive exists. -/
theorem xtcInitDrive : Obligations.XtcInitDrive := by
  intro s b p h
  have hbytes : (Instr.xtcInitDrive b p).bytes = encodeXtcBlock 0x0C#8 b ++ encodeInitParams p := rfl
  have hu := xtcReqDrive_of_row hbytes
  have hp : xtcReqParams (Instr.xtcInitDrive b p).bytes = p := by rw [hbytes, xtcReqParams_block]
  have hexec : exec (.xtcInitDrive b p) s = .next ((s.xtcExecuting _).xtcInitDrive (Instr.xtcInitDrive b p).bytes) :=
    exec_xtcRow_idle (k := .initDrive) h rfl hbytes rfl rfl
  obtain ⟨ok, hok, htake, hsuccess⟩ := h.completion hu .none
  obtain ⟨bad, hbad, htake', hfailure⟩ := h.completion hu .notReady
  rw [xtcCompletion_success] at htake
  refine ⟨ok, bad, hok, hbad, htake, htake', fun d hd => ?_, fun hd hfail => ?_, fun hd hfail => ?_⟩
  · rw [hexec, State.xtcInitDrive_present h.variant hu hp hd, hsuccess (s.xtcProgrammed b.drive p) _ rfl,
      modify_eq_set _ _ _ d (by exact hd)]
    rfl
  · rw [hexec, State.xtcInitDrive_absent hu hp hd, if_pos hfail, hfailure (s.xtcInitFailed b.drive p) _ rfl,
      modify_absent _ _ _ (by exact hd)]
    rfl
  · rw [hexec, State.xtcInitDrive_absent hu hp hd, if_neg (by simp [hfail]), hsuccess (s.xtcCaptured b.drive p) _ rfl,
      modify_absent _ _ _ (by exact hd)]
    rfl

/-! ### The resets (R236, R432, R433) -/

theorem State.atcFdrWrite_reset (s : State) {v : Byte} (h : v.getLsbD 2 = true) :
    s.atcFdrWrite v = { s.atcControllerReset with atc := { s.atcControllerReset.atc with fdr := v } } := by
  simp only [State.atcFdrWrite, h, if_true]

theorem State.atcFdrWrite_store (s : State) {v : Byte} (h : v.getLsbD 2 = false) :
    s.atcFdrWrite v = { s with atc := { s.atc with fdr := v } } := by
  simp only [State.atcFdrWrite, h, Bool.false_eq_true, if_false]

/-- Settles O18: the ATC's by the reset bit of the byte. -/
theorem hdcResets : Obligations.HdcResets := fun s _ =>
  ⟨fun hv => onXtc_present hv _, fun hv =>
    ⟨fun h => (onAtc_present hv _).trans (congrArg Host.Outcome.next (s.atcFdrWrite_reset h)),
      fun h => (onAtc_present hv _).trans (congrArg Host.Outcome.next (s.atcFdrWrite_store h))⟩⟩

/-! ### The sector buffer behind the DMA peer (R248, R249, R324, R325) -/

/-- R324: a pull on an engaged Buffer session is one from the sector buffer. -/
theorem dmaPull_buffer {s : State} (hs : s.session .xtc = some ⟨none, .buffer, true, true⟩) :
    dmaPull .xtc s = .next s.bufferPull := by
  simp [dmaPull, hs, State.sessionPending, State.sessionDrive]

/-- R325: a push on an engaged Buffer session is one into the sector buffer. -/
theorem dmaPush_buffer {s : State} (hs : s.session .xtc = some ⟨none, .buffer, false, true⟩) (v : Byte) :
    dmaPush .xtc v s = .next (s.bufferPush v) := by
  simp [dmaPush, hs, State.sessionPending, State.sessionDrive]

theorem State.bufferPull_end {s : State} (h : s.xtc.bufIndex = 512) : s.bufferPull = { s with answer := .eof } :=
  if_pos h

theorem State.bufferPull_cell {s : State} {x : Byte} (h : s.xtc.bufIndex ≠ 512)
    (hx : s.xtc.sectorBuffer[s.xtc.bufIndex]? = some x) : s.bufferPull = { s with
      answer := .byte x
      xtc := { s.xtc with bufIndex := s.xtc.bufIndex + 1 } } := by
  rw [State.bufferPull, if_neg h, List.getD_eq_getElem?_getD, hx]
  rfl

theorem State.bufferPush_end {s : State} (h : s.xtc.bufIndex = 512) (v : Byte) :
    s.bufferPush v = { s with answer := .error } :=
  if_pos h

theorem State.bufferPush_cell {s : State} (h : s.xtc.bufIndex ≠ 512) (v : Byte) : s.bufferPush v = { s with
    answer := .accepted
    xtc := { s.xtc with
      sectorBuffer := s.xtc.sectorBuffer.set s.xtc.bufIndex v
      bufIndex := s.xtc.bufIndex + 1 } } :=
  if_neg h

/-- Settles O41, by whether the index is at the end of the buffer. -/
theorem dmaBufferMovesOneByte : Obligations.DmaBufferMovesOneByte := by
  refine fun s v => ⟨fun hs => ?_, fun hs => ?_⟩
  · have hpull := dmaPull_buffer (s := s) hs
    exact ⟨fun h => hpull.trans (congrArg _ (State.bufferPull_end h)),
      fun x h hx => hpull.trans (congrArg _ (State.bufferPull_cell h.ne hx))⟩
  · have hpush := dmaPush_buffer (s := s) hs v
    exact ⟨fun h => hpush.trans (congrArg _ (State.bufferPush_end h v)),
      fun h => hpush.trans (congrArg _ (State.bufferPush_cell h.ne v))⟩

end Sys2Proof.Machine

/-! PROOFS of the statements of spec/43_hdc_atc.md: each command of the ATC from an idle controller, and the
programmed-I/O data path behind 0x1F0.

A command row runs its rule in the state the command byte leaves (`exec_atcRow_idle`); the rule is the end of a command
on the Drive of the task file (`State.atcCompleted`) or the priming of a first sector. A byte of the data path either
ends the command (`State.atcFinish`) or moves; one that moves stays inside its sector, ends the transfer or primes
the next sector. -/

namespace Sys2Proof.Machine

/-! ### A command row on an idle ATC (R283) -/

/-- R283: a row of the ATC runs the command of its byte. -/
theorem exec_atcRow_idle {i : Instr} {s : State} (h : AtcIdle s) (hi : i.space = .atc) {v : Byte}
    (hbytes : i.bytes = [v]) {k : AtcOp} (hop : atcOp v = k) : exec i s = .next ((s.atcStarted v).atcCommand k v) := by
  subst hop
  rw [exec_atcRow i s hi, hbytes, deliver_atc s h v]

/-- R146: no byte is left without a row. -/
theorem decode_atcByte (v : Byte) : ∃ i, decode .atc [v] = .ok (i, []) := by
  cases hop : atcOp v <;> exact ⟨_, by simp only [decode, decodeAtc, hop]; rfl⟩

end Sys2Proof.Machine

namespace Sys2Proof

open Machine

/-- Settles O30: the byte of the decoded row is the byte written. -/
theorem atcCommandWrite : Obligations.AtcCommandWrite := by
  intro s v h
  obtain ⟨i, hdecode⟩ := decode_atcByte v
  obtain ⟨hwf, hspace, hbytes⟩ := encodeOfDecode .atc [v] i [] hdecode
  rw [List.append_nil] at hbytes
  exact ⟨i, _, hdecode, hwf, atc_command s h v, exec_atcRow_idle h hspace hbytes.symm rfl⟩

end Sys2Proof

namespace Sys2Proof.Machine

/-! ### The end of a command (R289, R385, R393) -/

/-- R289: every class but `NotReady` raises the interrupt of an armed controller. -/
theorem State.atcFinish_raises (s : State) {e : Err} (he : e ≠ .notReady) :
    s.atcFinish e = { s with atc := { s.atc with
      error := atcErrorByte e
      status := atcStatusByte e
      phase := .command
      dir := .none
      irq := s.atc.irq || !s.atc.fdr.getLsbD 1 } } := by
  simp [State.atcFinish_eq, he]

/-- R289: `NotReady` raises none. -/
theorem State.atcFinish_notReady (s : State) :
    s.atcFinish .notReady = { s with atc := { s.atc with
      error := 0x04#8
      status := 0x01#8
      phase := .command
      dir := .none } } := by
  simp [State.atcFinish_eq, atcErrorByte, atcStatusByte]

/-- R283, R289: the command `v` has changed the Drive of the task file by `f` and ends with class `e`, which is not
`NotReady`. -/
def State.atcCompleted (s : State) (v : Byte) (f : Drive → Drive) (e : Err) : State :=
  { s with
    atc := { s.atc with
      command := v
      error := atcErrorByte e
      status := atcStatusByte e
      phase := .command
      dir := .none
      irq := s.atc.irq || !s.atc.fdr.getLsbD 1 }
    fixed := s.fixed.modify s.atc.drive.toNat fun d => f d.clearError }

/-- R283: a command changes the Drive that the task file named before it. -/
theorem State.atcStarted_modify (s : State) (v : Byte) (f : Drive → Drive) :
    (s.atcStarted v).modifyDrive s.atcRef f = { s with
      atc := { s.atc with command := v, error := 0x00#8 }
      fixed := s.fixed.modify s.atc.drive.toNat fun d => f d.clearError } := by
  simp only [State.modifyDrive, State.atcRef, State.atcStarted, List.modify_modify_eq]
  rfl

theorem State.atcStarted_finish (s : State) (v : Byte) (f : Drive → Drive) {e : Err} (he : e ≠ .notReady) :
    ((s.atcStarted v).modifyDrive s.atcRef f).atcFinish e = s.atcCompleted v f e := by
  rw [State.atcFinish_raises _ he, State.atcStarted_modify]
  rfl

/-- R283: a command looks for the Drive that the task file named before it. -/
theorem State.atcStarted_absent_drive {s : State} (v : Byte) (hd : s.fixed[s.atc.drive.toNat]? = none) :
    (s.atcStarted v).drive? (s.atcStarted v).atcRef = none := by
  rw [State.atcStarted_absent s v hd]
  exact hd

theorem State.atcStarted_present_drive {s : State} (v : Byte) {d : Drive}
    (hd : s.fixed[s.atc.drive.toNat]? = some d) :
    (s.atcStarted v).drive? (s.atcStarted v).atcRef = some d.clearError := by
  rw [State.atcStarted_present s v d hd]
  exact getElem?_set_present _ _ _ d hd

/-- R289: an idle controller after a command on a Drive that does not exist. -/
theorem AtcIdle.notReady {s : State} (h : AtcIdle s) (v : Byte) (hd : s.fixed[s.atc.drive.toNat]? = none) :
    (s.atcStarted v).atcFinish .notReady = { s with
      atc := { s.atc with command := v, error := 0x04#8, status := 0x01#8, dir := .none } } := by
  rw [State.atcStarted_absent s v hd, State.atcFinish_notReady]
  simp [← h.phase]

/-- R289: an idle controller after a command that succeeded. -/
theorem AtcIdle.success {s : State} (h : AtcIdle s) (v : Byte) {d : Drive}
    (hd : s.fixed[s.atc.drive.toNat]? = some d) (f : Drive → Drive) :
    s.atcCompleted v f .none = { s with
      atc := { s.atc with
        command := v
        error := 0x00#8
        status := 0x50#8
        dir := .none
        irq := s.atc.irq || !s.atc.fdr.getLsbD 1 }
      fixed := s.fixed.set s.atc.drive.toNat (f d.clearError) } := by
  simp [State.atcCompleted, modify_eq_set _ _ _ d hd, atcErrorByte, atcStatusByte, ← h.phase]

/-! ### RESTORE and SEEK (R290, R291) -/

theorem State.atcOnDrive_present {s : State} (v : Byte) {d : Drive} (hd : s.fixed[s.atc.drive.toNat]? = some d)
    (f : Drive → Drive) : (s.atcStarted v).atcOnDrive f = s.atcCompleted v f .none := by
  unfold State.atcOnDrive
  rw [State.atcStarted_present_drive v hd]
  exact s.atcStarted_finish v f (by decide)

theorem State.atcOnDrive_absent {s : State} (v : Byte) (hd : s.fixed[s.atc.drive.toNat]? = none) (f : Drive → Drive) :
    (s.atcStarted v).atcOnDrive f = (s.atcStarted v).atcFinish .notReady := by
  unfold State.atcOnDrive
  rw [State.atcStarted_absent_drive v hd]

/-- R146: the words of RESTORE and SEEK as sums. -/
theorem nibble_append_eq_add (hi lo : BitVec 4) : (hi ++ lo : Byte) = (hi ++ 0#4 : Byte) + lo.setWidth 8 := by
  revert hi lo; decide

/-- R146: the words of READ_DATA and WRITE_DATA as sums. -/
theorem bit_append_eq_add (hi : BitVec 7) (lo : BitVec 1) : (hi ++ lo : Byte) = (hi ++ 0#1 : Byte) + lo.setWidth 8 := by
  revert hi lo; decide

/-- Settles O31: the two commands differ in how they move the Drive. -/
theorem atcRestoreSeek : Obligations.AtcRestoreSeek := by
  intro s rate i v move h hi
  obtain ⟨f, hf, hexec⟩ : ∃ f : Drive → Drive, (∀ d, f d = { d with pos := move d.pos }) ∧
      exec i s = .next ((s.atcStarted v).atcOnDrive f) := by
    rcases hi with ⟨rfl, rfl, rfl⟩ | ⟨rfl, rfl, rfl⟩
    · exact ⟨Drive.toCylinderZero, fun _ => rfl, by
        rw [exec_atcRow_idle h rfl rfl (atcOp_restore rate), nibble_append_eq_add]; rfl⟩
    · exact ⟨Drive.seekTo s.atc.cylinder s.atc.head.toNat, fun _ => rfl, by
        rw [exec_atcRow_idle h rfl rfl (atcOp_seek rate), nibble_append_eq_add]; rfl⟩
  refine ⟨fun d hd => ?_, fun hd => ?_⟩
  · rw [hexec, State.atcOnDrive_present v hd, h.success v hd, hf]
    rfl
  · rw [hexec, State.atcOnDrive_absent v hd, h.notReady v hd]

/-! ### SET_PARAMETERS (R294) -/

/-- R358: the diagnostic events after the programmed heads and sectors per track of fixed drive `u` were verified. -/
def State.atcVerified (s : State) (u heads sectors : Nat) : List Diag :=
  match s.cfg.tableGeometry u with
  | some t =>
    if heads = t.heads ∧ sectors = t.sectorsPerTrack then s.diag else s.diag ++ [.geometryMismatch u]
  | none => s.diag

theorem State.verifyGeometry_atcVerified {s : State} {u : Nat} {d : Drive} (hd : s.fixed[u]? = some d)
    (hv : s.cfg.hdcVariant = .atc) :
    s.verifyGeometry u = { s with diag := s.atcVerified u d.geo.heads d.geo.sectorsPerTrack } := by
  unfold State.verifyGeometry State.atcVerified
  cases s.cfg.tableGeometry u with
  | none => rfl
  | some t =>
    have hdiffers : (d.geo.heads != t.heads || d.geo.sectorsPerTrack != t.sectorsPerTrack) =
        !decide (d.geo.heads = t.heads ∧ d.geo.sectorsPerTrack = t.sectorsPerTrack) := by
      simp [bne, Bool.decide_and, beq_eq_decide]
    by_cases hsame : d.geo.heads = t.heads ∧ d.geo.sectorsPerTrack = t.sectorsPerTrack
    · simp only [hd, hv, hdiffers, decide_eq_true hsame, if_pos hsame]
      rfl
    · simp only [hd, hv, hdiffers, decide_eq_false hsame, if_neg hsame]
      rfl

/-- R294: the command on a Drive that exists is the end of a command, after the warning. -/
theorem State.atcSetParameters_present {s : State} (hv : s.cfg.hdcVariant = .atc) (v : Byte) {d : Drive}
    (hd : s.fixed[s.atc.drive.toNat]? = some d) : (s.atcStarted v).atcSetParameters =
      State.atcCompleted
        { s with diag := s.atcVerified s.atc.drive.toNat (s.atc.head.toNat + 1) s.atc.secCount.toNat } v
        (Drive.setTrack (s.atc.head.toNat + 1) s.atc.secCount.toNat) .none := by
  have hprogrammed : ((s.atcStarted v).modifyDrive s.atcRef
      (Drive.setTrack (s.atc.head.toNat + 1) s.atc.secCount.toNat)).fixed[s.atc.drive.toNat]? =
        some (d.clearError.setTrack (s.atc.head.toNat + 1) s.atc.secCount.toNat) := by
    simp [State.atcRef, State.atcStarted, hd]
  rw [← State.atcStarted_finish _ v _ (by decide), State.atcSetParameters, State.atcStarted_present_drive v hd]
  exact congrArg (State.atcFinish · .none) (State.verifyGeometry_atcVerified hprogrammed hv)

/-- Settles O33: the command verifies the Drive it has programmed. -/
theorem atcSetParameters : Obligations.AtcSetParameters := by
  intro s h
  have hexec : exec .atcSetParameters s = .next (s.atcStarted 0x91#8).atcSetParameters :=
    exec_atcRow_idle (k := .setParameters) h rfl rfl rfl
  refine ⟨fun d hd => ?_, fun hd => ?_⟩
  · have hidle : AtcIdle { s with
        diag := s.atcVerified s.atc.drive.toNat (s.atc.head.toNat + 1) s.atc.secCount.toNat } := ⟨h.variant, h.phase⟩
    rw [hexec, State.atcSetParameters_present h.variant _ hd]
    exact congrArg _ (hidle.success _ hd _)
  · rw [hexec, State.atcSetParameters, State.atcStarted_absent_drive _ hd]
    exact congrArg _ (h.notReady _ hd)

/-! ### DIAGNOSE and the unknown byte (R295, R296) -/

theorem State.atcDiagnose_eq (s : State) (v : Byte) : (s.atcStarted v).atcDiagnose = { s with
    atc := { s.atc with
      command := v
      error := 0x01#8
      status := 0x50#8
      irq := s.atc.irq || !s.atc.fdr.getLsbD 1 }
    fixed := s.fixed.modify s.atc.drive.toNat Drive.clearError } := by
  rw [State.atcDiagnose, State.raiseIfArmed_atc]
  rfl

/-- R296: the end of a command that has raised `CommandAborted`, after one diagnostic event. -/
theorem State.atcUnknown_eq (s : State) (v : Byte) : (s.atcStarted v).atcUnknown v =
    (s.emit (.atcUnsupported v)).atcCompleted v (Drive.raise .commandAborted) .commandAborted :=
  (s.emit (.atcUnsupported v)).atcStarted_finish v (Drive.raise .commandAborted) (by decide)

/-- Settles O34: neither command looks whether the drive exists. -/
theorem atcDiagnoseAndUnknown : Obligations.AtcDiagnoseAndUnknown := by
  intro s h
  refine ⟨?_, fun v hwf => ?_⟩
  · exact (exec_atcRow_idle (k := .diagnose) h rfl rfl rfl).trans (congrArg _ (s.atcDiagnose_eq _))
  · rw [exec_atcRow_idle h rfl rfl ((atcOp_eq_unknown_iff v).mpr hwf)]
    refine (congrArg Host.Outcome.next (s.atcUnknown_eq v)).trans ?_
    rw [State.atcCompleted, State.emit_atc, ← h.phase]
    rfl

/-! ### READ_DATA and WRITE_DATA (R287, R292, R293) -/

/-- R145: a sector count is never 0. -/
theorem countOf_pos (b : Byte) : 0 < countOf b := by
  revert b; decide

/-- R292, R293: the transfer of `dir` loaded into the Drive `d` of the task file. -/
def State.atcLoaded (s : State) (v : Byte) (dir : AtcDir) (d : Drive) : State :=
  { s with
    atc := { s.atc with command := v, error := 0x00#8, phase := .execution, dir := dir }
    fixed := s.fixed.set s.atc.drive.toNat (loadAtcTransfer s.atc d.clearError) }

theorem State.atcTransfer_present {s : State} (v : Byte) (dir : AtcDir) {d : Drive}
    (hd : s.fixed[s.atc.drive.toNat]? = some d) :
    (s.atcStarted v).atcTransfer dir = (s.atcLoaded v dir d).atcPrime (.fixed s.atc.drive.toNat) := by
  rw [State.atcTransfer, State.atcStarted_present_drive v hd, State.atcLoaded, ← modify_eq_set _ _ (fun d =>
    loadAtcTransfer s.atc d.clearError) d hd]
  exact congrArg (fun t : State => { t with atc := { t.atc with phase := .execution, dir := dir } }.atcPrime s.atcRef)
    (s.atcStarted_modify v (loadAtcTransfer s.atc))

/-- Settles O32, by what the lookup of the first sector answers. -/
theorem atcReadWriteData : Obligations.AtcReadWriteData := by
  intro s retry i v dir h hi
  have hexec : exec i s = .next ((s.atcStarted v).atcTransfer dir) := by
    rcases hi with ⟨rfl, rfl, rfl⟩ | ⟨rfl, rfl, rfl⟩
    · rw [exec_atcRow_idle h rfl rfl (atcOp_readData retry), bit_append_eq_add]; rfl
    · rw [exec_atcRow_idle h rfl rfl (atcOp_writeData retry), bit_append_eq_add]; rfl
  refine ⟨fun d img hd himg hlen => ?_, fun hd => ?_⟩
  · intro p n look
    have hlookup : s.store.lookSector img 1 (loadAtcTransfer s.atc d.clearError) = look := Store.lookSector_eq ..
    clear_value look
    subst hlookup
    rw [hexec, State.atcTransfer_present v dir hd]
    have hloaded : (s.atcLoaded v dir d).fixed[s.atc.drive.toNat]? = some (loadAtcTransfer s.atc d.clearError) :=
      getElem?_set_present _ _ _ d hd
    have hcount : 0 < (loadAtcTransfer s.atc d.clearError).cur.bytesRemaining :=
      Nat.mul_pos (countOf_pos s.atc.secCount) hlen
    refine ⟨fun k hlook => ?_, fun hlook => ?_, fun hlook => ?_⟩
    · rw [State.atcPrime_found _ _ _ img k hloaded himg hcount hlook, State.atcLoaded, List.set_set]
      rfl
    · rw [State.atcPrime_missing _ _ _ img hloaded himg hcount rfl hlook, State.atcLoaded, List.set_set,
        ← h.phase]
      rfl
    · rw [State.atcPrime_pending _ _ _ img hloaded himg hcount hlook, State.atcLoaded, List.set_set]
      rfl
  · rw [hexec, State.atcTransfer, State.atcStarted_absent_drive _ hd]
    exact congrArg _ (h.notReady _ hd)

/-! ### A byte of the data path (R284, R285, R298) -/

/-- R298: a transfer of direction `dir` with `DATA_REQ`, whose Drive `d` has the sector `h` active. -/
structure AtcTransferring (s : State) (dir : AtcDir) (d : Drive) (h : Handle) : Prop where
  variant : s.cfg.hdcVariant = .atc
  phase : s.atc.phase = .execution
  dir : s.atc.dir = dir
  request : s.atc.status.getLsbD 3 = true
  drive : s.fixed[s.atc.drive.toNat]? = some d
  active : d.cur.activeSector = some h

theorem AtcTransferring.exec_inData {s : State} {d : Drive} {h : Handle} (T : AtcTransferring s .read d h) :
    exec .atcInData s = .next s.atcDataRead :=
  (onAtc_present T.variant _).trans (if_pos ((Atc.dataReady_iff _ _).mpr ⟨T.phase, T.dir, T.request⟩))

theorem AtcTransferring.exec_outData {s : State} {d : Drive} {h : Handle} (T : AtcTransferring s .write d h)
    (v : Byte) : exec (.atcOutData v) s = .next (s.atcDataWrite v) :=
  (onAtc_present T.variant _).trans (if_pos ((Atc.dataReady_iff _ _).mpr ⟨T.phase, T.dir, T.request⟩))

/-- Writing back the element that is there changes nothing. -/
theorem set_present_same {α : Type} {l : List α} {u : Nat} {d : α} (h : l[u]? = some d) : l.set u d = l := by
  obtain ⟨hl, rfl⟩ := List.getElem?_eq_some_iff.mp h
  exact List.set_getElem_self hl

/-- R362: a write that succeeds stores its byte. -/
theorem Store.diskWrite_ok_cells {st : Store} {h : Handle} {off : Nat} {b : Byte}
    (hr : (st.diskWrite h off b).1 = true) : (st.diskWrite h off b).2.cells = st.cells.write (diskAddress h off) b := by
  obtain ⟨-, ⟨-, hcells⟩ | ⟨hfail, -⟩⟩ := st.diskWrite_spec h off b
  · exact hcells
  · simp [hr] at hfail

/-- R362: one that fails stores none. -/
theorem Store.diskWrite_fail_cells {st : Store} {h : Handle} {off : Nat} {b : Byte}
    (hr : (st.diskWrite h off b).1 = false) : (st.diskWrite h off b).2.cells = st.cells := by
  obtain ⟨-, ⟨hok, -⟩ | ⟨-, hcells⟩⟩ := st.diskWrite_spec h off b
  · simp [hr] at hok
  · exact hcells

section Cursor

variable {d : Drive} {st st' : Store} {h : Handle} {img : Nat} {v : Byte} (bias : Nat)

/-- R365: an error already recorded. -/
theorem readByte_error (he : d.errorCode ≠ .none) : readByte bias ⟨d, st⟩ = (.eof, ⟨d, st⟩) := if_pos he

/-- R365: the image fails the read. -/
theorem readByte_failed (he : d.errorCode = .none) (ha : d.cur.activeSector = some h)
    (hr : st.diskRead h d.cur.byteOffset = (none, st')) :
    readByte bias ⟨d, st⟩ = (.eof, ⟨{ d with errorCode := .crcError }, st'⟩) := by
  rw [readByte_at bias d st st h _ he (.active ha), Drive.at_active d h ha, readActive, hr, Drive.raise_of_none _ he]

/-- R366: an error already recorded. -/
theorem writeByte_error (he : d.errorCode ≠ .none) : writeByte bias v ⟨d, st⟩ = (.error, ⟨d, st⟩) := if_pos he

theorem Bay.readOnly_eq (himg : d.disk = some img) : Bay.readOnly ⟨d, st⟩ = !st.writable img := by
  simp [Bay.readOnly, himg]

/-- R366: a read-only image. -/
theorem writeByte_readOnly (he : d.errorCode = .none) (himg : d.disk = some img) (hw : st.writable img = false) :
    writeByte bias v ⟨d, st⟩ = (.error, ⟨{ d with errorCode := .writeFault }, st⟩) := by
  rw [writeByte, if_neg (by simp [he]), if_pos (by simp [Bay.readOnly_eq himg, hw]), Bay.raise,
    Drive.raise_of_none _ he]

/-- R366: the image fails the write. -/
theorem writeByte_failed (he : d.errorCode = .none) (himg : d.disk = some img) (hw : st.writable img = true)
    (ha : d.cur.activeSector = some h) (hr : st.diskWrite h d.cur.byteOffset v = (false, st')) :
    writeByte bias v ⟨d, st⟩ = (.error, ⟨{ d with errorCode := .crcError }, st'⟩) := by
  rw [writeByte_at bias v d st st h _ he (by rw [Bay.readOnly_eq himg, hw]; rfl) (.active ha), Drive.at_active d h ha,
    writeActive, hr, Drive.raise_of_none _ he]

end Cursor

/-! ### A byte that has moved (R284, R285, R288, R297) -/

/-- R368: the Drive after the last byte of a transfer. -/
theorem Drive.byteMoved_end (d : Drive) (hoff : d.cur.byteOffset + 1 = d.geo.bytesPerSector)
    (hrem : d.cur.bytesRemaining = d.geo.bytesPerSector) :
    d.byteMoved 1 = { d with pos := d.pos.advance d.geo 1, cur := ⟨none, 0, 0, d.cur.pending⟩ } := by
  rw [d.byteMoved_last hoff, hrem, Nat.sub_self]

/-- R365, R366: a byte has moved on the Drive of the task file, and the store is `st`. -/
def State.atcMoved (s : State) (d : Drive) (st : Store) : State :=
  { s with fixed := s.fixed.set s.atc.drive.toNat (d.byteMoved 1), store := st }

/-- R288, R297: the task file counts a sector and shows the position `p`. -/
def Atc.sectorCounted (a : Atc) (p : Pos) : Atc :=
  { a with
    secCount := a.secCount - 1#8
    secNum := BitVec.ofNat 8 p.sector
    cylLo := BitVec.ofNat 8 p.cylinder
    cylHi := BitVec.ofNat 8 (p.cylinder / 256)
    driveHead := a.driveHead &&& 0xF0#8 ||| BitVec.ofNat 8 (p.head % 16) }

@[simp] theorem Atc.sectorCounted_dir (a : Atc) (p : Pos) : (a.sectorCounted p).dir = a.dir := rfl

@[simp] theorem Atc.sectorCounted_fdr (a : Atc) (p : Pos) : (a.sectorCounted p).fdr = a.fdr := rfl

/-- R288: the transfer's last sector, read. -/
theorem State.atcSectorDone_read {s : State} {r : DriveRef} {d : Drive} (hdir : s.atc.dir = .read)
    (hrem : d.cur.bytesRemaining = 0) : s.atcSectorDone r d = { s with
      atc := { s.atc.sectorCounted d.pos with status := 0x50#8, phase := .command, dir := .none } } := by
  rw [State.atcSectorDone, if_pos hrem, if_neg (by simp [hdir]), Atc.writeBack_eq]
  rfl

/-- R288: the transfer's last sector, written. -/
theorem State.atcSectorDone_write {s : State} {r : DriveRef} {d : Drive} (hdir : s.atc.dir = .write)
    (hrem : d.cur.bytesRemaining = 0) : s.atcSectorDone r d =
      State.atcFinish { s with atc := s.atc.sectorCounted d.pos } .none := by
  rw [State.atcSectorDone, if_pos hrem, if_pos hdir, Atc.writeBack_eq]
  rfl

section Moved

variable {s : State} {d : Drive} {h : Handle} {img : Nat} (st : Store)

theorem State.atcMoved_drive (hd : s.fixed[s.atc.drive.toNat]? = some d) :
    (s.atcMoved d st).fixed[s.atc.drive.toNat]? = some (d.byteMoved 1) :=
  getElem?_set_present _ _ _ d hd

/-- R284, R285: inside the sector only the offset moves. -/
theorem State.atcMoved_inside (hd : s.fixed[s.atc.drive.toNat]? = some d) (ha : d.cur.activeSector = some h)
    (hoff : d.cur.byteOffset + 1 ≠ d.geo.bytesPerSector) :
    (s.atcMoved d st).atcByteDone (.fixed s.atc.drive.toNat) = { s with
      fixed := s.fixed.set s.atc.drive.toNat { d with cur := { d.cur with byteOffset := d.cur.byteOffset + 1 } }
      store := st } := by
  have hmoved := d.byteMoved_inside hoff
  rw [State.atcByteDone_inside _ _ _ h (s.atcMoved_drive st hd) (by rw [hmoved]; exact ha), State.atcMoved, hmoved]

/-- R284, R285: the last byte of a sector. -/
theorem State.atcMoved_last (hd : s.fixed[s.atc.drive.toNat]? = some d)
    (hoff : d.cur.byteOffset + 1 = d.geo.bytesPerSector) :
    (s.atcMoved d st).atcByteDone (.fixed s.atc.drive.toNat) =
      (s.atcMoved d st).atcSectorDone (.fixed s.atc.drive.toNat) (d.byteMoved 1) :=
  State.atcByteDone_last _ _ _ (s.atcMoved_drive st hd) (by rw [d.byteMoved_last hoff])

/-- R287, R288: the last byte of a sector before the transfer's last primes the next one, from the task file counted
down; a written sector raises its interrupt before. -/
def State.atcBetween (s : State) (d : Drive) (st : Store) : State :=
  { s with
    atc := { s.atc.sectorCounted (d.pos.advance d.geo 1) with
      irq := if s.atc.dir = .write then s.atc.irq || !s.atc.fdr.getLsbD 1 else s.atc.irq }
    fixed := s.fixed.set s.atc.drive.toNat (d.finishSector 1)
    store := st }

theorem State.atcMoved_more (hd : s.fixed[s.atc.drive.toNat]? = some d)
    (hoff : d.cur.byteOffset + 1 = d.geo.bytesPerSector) (hmore : d.geo.bytesPerSector < d.cur.bytesRemaining) :
    (s.atcMoved d st).atcByteDone (.fixed s.atc.drive.toNat) =
      (s.atcBetween d st).atcPrime (.fixed s.atc.drive.toNat) := by
  have hleft : (d.byteMoved 1).cur.bytesRemaining ≠ 0 := by
    rw [d.byteMoved_last hoff]
    exact Nat.sub_ne_zero_of_lt hmore
  rw [State.atcMoved_last st hd hoff, State.atcSectorDone_more _ _ _ hleft, State.atcMoved, d.byteMoved_last hoff]
  rfl

variable {st}

theorem State.atcBetween_drive (hd : s.fixed[s.atc.drive.toNat]? = some d) :
    (s.atcBetween d st).fixed[s.atc.drive.toNat]? = some (d.finishSector 1) :=
  getElem?_set_present _ _ _ d hd

/-- R287: the next sector is found. -/
theorem State.atcBetween_found (hd : s.fixed[s.atc.drive.toNat]? = some d) (himg : d.disk = some img)
    (hmore : d.geo.bytesPerSector < d.cur.bytesRemaining) (hdir : s.atc.dir = .read ∨ s.atc.dir = .write)
    {k : Handle} (hlook : (st.lookSector img 1 (d.finishSector 1)).1 = .found k) :
    (s.atcBetween d st).atcPrime (.fixed s.atc.drive.toNat) = { s with
      atc := { s.atc.sectorCounted (d.pos.advance d.geo 1) with
        status := 0x58#8
        irq := s.atc.irq || !s.atc.fdr.getLsbD 1 }
      fixed := s.fixed.set s.atc.drive.toNat { d.finishSector 1 with
        cur := { (d.finishSector 1).cur with activeSector := some k, byteOffset := 0 } }
      store := (st.lookSector img 1 (d.finishSector 1)).2 } := by
  rw [State.atcPrime_found _ _ _ img k (State.atcBetween_drive hd) himg (Nat.sub_pos_of_lt hmore) hlook]
  obtain hdir | hdir := hdir <;> simp [State.atcBetween, hdir]

/-- R287: the next sector is missing. -/
theorem State.atcBetween_missing (hd : s.fixed[s.atc.drive.toNat]? = some d) (himg : d.disk = some img)
    (hmore : d.geo.bytesPerSector < d.cur.bytesRemaining) (he : d.errorCode = .none)
    (hlook : (st.lookSector img 1 (d.finishSector 1)).1 = .missing) :
    (s.atcBetween d st).atcPrime (.fixed s.atc.drive.toNat) = { s with
      atc := { s.atc.sectorCounted (d.pos.advance d.geo 1) with
        error := 0x10#8
        status := 0x51#8
        phase := .command
        dir := .none
        irq := s.atc.irq || !s.atc.fdr.getLsbD 1 }
      fixed := s.fixed.set s.atc.drive.toNat { d.finishSector 1 with errorCode := .noSectorFound }
      store := (st.lookSector img 1 (d.finishSector 1)).2 } := by
  rw [State.atcPrime_missing _ _ _ img (State.atcBetween_drive hd) himg (Nat.sub_pos_of_lt hmore) he hlook]
  by_cases hdir : s.atc.dir = .write <;> simp [State.atcBetween, hdir]

/-- R287: the lookup of the next sector is pending. -/
theorem State.atcBetween_pending (hd : s.fixed[s.atc.drive.toNat]? = some d) (himg : d.disk = some img)
    (hmore : d.geo.bytesPerSector < d.cur.bytesRemaining)
    (hlook : (st.lookSector img 1 (d.finishSector 1)).1 = .pending) :
    (s.atcBetween d st).atcPrime (.fixed s.atc.drive.toNat) = { s with
      atc := { s.atc.sectorCounted (d.pos.advance d.geo 1) with
        status := 0x80#8
        irq := if s.atc.dir = .write then s.atc.irq || !s.atc.fdr.getLsbD 1 else s.atc.irq }
      fixed := s.fixed.set s.atc.drive.toNat { d.finishSector 1 with
        cur := { (d.finishSector 1).cur with pending := true } }
      store := (st.lookSector img 1 (d.finishSector 1)).2 } := by
  rw [State.atcPrime_pending _ _ _ img (State.atcBetween_drive hd) himg (Nat.sub_pos_of_lt hmore) hlook]
  simp only [State.atcBetween, List.set_set]

end Moved

/-! ### The data port (R284, R285) -/

/-- R284: a read whose byte moves. -/
theorem AtcTransferring.read_moves {s : State} {d : Drive} {h : Handle} (T : AtcTransferring s .read d h)
    (he : d.errorCode = .none) {v : Byte} {st : Store} (hr : s.store.diskRead h d.cur.byteOffset = (some v, st)) :
    exec .atcInData s =
      .next (((s.atcMoved d st).atcByteDone (.fixed s.atc.drive.toNat)).reply (.byte v)) :=
  T.exec_inData.trans (congrArg _ (s.atcDataRead_byte _ d h v st rfl T.drive he T.active hr))

/-- R285: a write whose byte moves. -/
theorem AtcTransferring.write_moves {s : State} {d : Drive} {h : Handle} (T : AtcTransferring s .write d h)
    (he : d.errorCode = .none) {img : Nat} (himg : d.disk = some img) (hw : s.store.writable img = true) {v : Byte}
    {st : Store} (hr : s.store.diskWrite h d.cur.byteOffset v = (true, st)) :
    exec (.atcOutData v) s = .next ((s.atcMoved d st).atcByteDone (.fixed s.atc.drive.toNat)) :=
  (T.exec_outData v).trans (congrArg _ (s.atcDataWrite_byte _ d h v img st rfl T.drive he himg hw T.active hr))

/-- Settles O35: the read ends the command, or its byte has moved. -/
theorem atcDataRead : Obligations.AtcDataRead := by
  intro s d h hv hphase hdir hreq hd ha u rd p
  have T : AtcTransferring s .read d h := ⟨hv, hphase, hdir, hreq, hd, ha⟩
  obtain ⟨-, -, hbyte⟩ := s.store.diskRead_spec h d.cur.byteOffset
  have hmoves {v : Byte} (he : d.errorCode = .none) (hr : rd.1 = some v) := T.read_moves he (Prod.ext hr rfl)
  refine ⟨fun he => ?_, fun he hr => ?_, fun v he hr hoff => ⟨?_, ?_⟩, fun v he hr hoff hrem => ?_⟩
  · rw [T.exec_inData, s.atcDataRead_stop _ d d s.store rfl hd (readByte_error 1 he), State.atcFinish_eq,
      set_present_same T.drive]
    rfl
  · rw [T.exec_inData, s.atcDataRead_stop _ d _ rd.2 rfl hd (readByte_failed 1 he ha (Prod.ext hr rfl)),
      State.atcFinish_raises _ (by simp)]
    rfl
  · exact hbyte v hr
  · rw [hmoves he hr, State.atcMoved_inside _ hd ha hoff]
    rfl
  · have hend := d.byteMoved_end hoff hrem
    rw [hmoves he hr, State.atcMoved_last _ hd hoff, State.atcSectorDone_read (by exact hdir) (by rw [hend]),
      State.atcMoved, hend]
    rfl

/-- Settles O36: the write ends the command, or its byte has moved. -/
theorem atcDataWrite : Obligations.AtcDataWrite := by
  intro s v d h img hv hphase hdir hreq hd himg ha u wr p
  have T : AtcTransferring s .write d h := ⟨hv, hphase, hdir, hreq, hd, ha⟩
  have hstop {d' : Drive} {st : Store} (hr : writeByte 1 v ⟨d, s.store⟩ = (.error, ⟨d', st⟩)) :=
    (T.exec_outData v).trans (congrArg _ (s.atcDataWrite_stop _ v d d' st rfl hd hr))
  refine ⟨fun he => ?_, fun he hw => ?_, fun he hw hr => ⟨?_, ?_⟩, fun he hw hr => ⟨fun hwf => ?_, fun a hne => ?_, ?_⟩⟩
  · rw [hstop (writeByte_error 1 he), State.atcFinish_eq, set_present_same T.drive]
  · rw [hstop (writeByte_readOnly 1 he himg hw), State.atcFinish_raises _ (by simp)]
    rfl
  · exact Store.diskWrite_fail_cells hr
  · rw [hstop (writeByte_failed 1 he himg hw ha (Prod.ext hr rfl)), State.atcFinish_raises _ (by simp)]
    rfl
  · rw [Store.diskWrite_ok_cells hr, Memory.read_write_same _ _ _ hwf]
  · rw [Store.diskWrite_ok_cells hr, Memory.read_write_other _ _ _ _ hne]
  · have hmoves := T.write_moves he himg hw (Prod.ext hr rfl)
    refine ⟨fun hoff => ?_, fun hoff hrem => ?_⟩
    · rw [hmoves, State.atcMoved_inside _ hd ha hoff]
      rfl
    · have hend := d.byteMoved_end hoff hrem
      rw [hmoves, State.atcMoved_last _ hd hoff, State.atcSectorDone_write (by exact hdir) (by rw [hend]),
        State.atcFinish_raises _ (by simp), State.atcMoved, hend]
      rfl

theorem State.reply_same {t : State} {a : Answer} (h : t.answer = a) : t.reply a = t := by
  subst h
  rfl

/-- Settles O37: in both directions the byte has moved and the next sector is primed, by what its lookup answers. -/
theorem atcSectorBoundary : Obligations.AtcSectorBoundary := by
  intro s i d h img moved a hv hphase hreq hd himg ha he hoff hmore hi u p left look task armed
  have hdir : s.atc.dir = .read ∨ s.atc.dir = .write := by
    obtain ⟨-, hdir, -⟩ | ⟨-, -, hdir, -⟩ := hi
    · exact .inl hdir
    · exact .inr hdir
  have hexec {t : State} (hprime : (s.atcBetween d moved).atcPrime (.fixed s.atc.drive.toNat) = t)
      (hanswer : t.answer = s.answer) : exec i s = .next (t.reply a) := by
    rw [← State.atcMoved_more moved hd hoff hmore] at hprime
    subst hprime
    obtain ⟨rfl, hdir, v, hr, rfl⟩ | ⟨v, rfl, hdir, hw, hr, rfl⟩ := hi
    · exact AtcTransferring.read_moves ⟨hv, hphase, hdir, hreq, hd, ha⟩ he hr
    · rw [State.reply_same hanswer]
      exact AtcTransferring.write_moves ⟨hv, hphase, hdir, hreq, hd, ha⟩ he himg hw hr
  have hlookup : moved.lookSector img 1 (d.finishSector 1) = look := Store.lookSector_eq ..
  clear_value look
  subst hlookup
  exact ⟨fun k hlook => hexec (State.atcBetween_found hd himg hmore hdir hlook) rfl,
    fun hlook => hexec (State.atcBetween_missing hd himg hmore he hlook) rfl,
    fun hlook => hexec (State.atcBetween_pending hd himg hmore hlook) rfl⟩

end Sys2Proof.Machine

/-! PROOFS of the statements of spec/44_dma_bridge.md: which steps of the DMA peer exist, a byte pulled from or pushed
to an image, and the end of a session.

A pull or push on an engaged disk session is `ReadByte` or `WriteByte` on its Drive (`dmaPull_of_readByte`,
`dmaPush_of_writeByte`), and those either stop at the lookup of the next sector or reach a byte of one (`NextByteAt`). A
session ends by the peer's close or by its refusal to engage, which both close it (`runAgent_endsSession`). -/

namespace Sys2Proof.Machine

/-! ### Which steps exist (R321, R323) -/

section Enabled

variable {s : State} {c : Chan} {ss : Session}

/-- R321: with no session there is no request to answer. -/
theorem dmaEngage_noSession (hs : s.session c = none) (yes : Bool) : dmaEngage c yes s = .refused .stepNotEnabled := by
  rw [dmaEngage, hs]

/-- R321, R323: the peer's answer to the request of a session. -/
theorem dmaEngage_session (hs : s.session c = some ss) (yes : Bool) : dmaEngage c yes s =
    if ss.engaged then .refused .stepNotEnabled
    else if yes then .next (s.setSession c (some { ss with engaged := true }))
    else .next (s.closeSession c ss false) := by
  rw [dmaEngage, hs]

/-- R321: with no session there is nothing to close. -/
theorem dmaClose_noSession (hs : s.session c = none) (completed : Bool) :
    dmaClose c completed s = .refused .stepNotEnabled := by
  rw [dmaClose, hs]

/-- R321, R327: only an engaged session is closed. -/
theorem dmaClose_session (hs : s.session c = some ss) (completed : Bool) : dmaClose c completed s =
    if ss.engaged then .next (s.closeSession c ss completed) else .refused .stepNotEnabled := by
  rw [dmaClose, hs]

/-- R323: an accepted request engages the session. -/
theorem dmaEngage_accepts (hs : s.session c = some ss) (he : ss.engaged = false) :
    dmaEngage c true s = .next (s.setSession c (some { ss with engaged := true })) := by
  simp [dmaEngage_session hs, he]

/-- R321: no byte can move on channel `c` against the direction `away` (`true` is towards memory): a session there is
not engaged, or goes that way, or waits for a lookup. -/
def State.NoByteMoves (s : State) (c : Chan) (away : Bool) : Prop :=
  ∀ ss, s.session c = some ss → ss.engaged = false ∨ ss.toMemory = away ∨ s.sessionPending c ss = true

theorem dmaPull_refused (h : s.NoByteMoves c false) : dmaPull c s = .refused .stepNotEnabled := by
  unfold dmaPull
  cases hs : s.session c with
  | none => rfl
  | some ss => exact if_pos (h ss hs)

theorem dmaPush_refused (h : s.NoByteMoves c true) (b : Byte) : dmaPush c b s = .refused .stepNotEnabled := by
  unfold dmaPush
  cases hs : s.session c with
  | none => rfl
  | some ss => exact if_pos (h ss hs)

theorem State.sessionPending_drive {u : Nat} {d : Drive} (hu : ss.drive = some u)
    (hd : s.drive? (c.drive u) = some d) : s.sessionPending c ss = d.cur.pending := by
  simp [State.sessionPending, State.sessionDrive, hu, hd]

theorem State.noByteMoves_of {away : Bool} (h : s.session c = none ∨ (s.session c = some ss ∧
    (ss.engaged = false ∨ ss.toMemory = away ∨
      ∃ u d, ss.drive = some u ∧ s.drive? (c.drive u) = some d ∧ d.cur.pending = true))) :
    s.NoByteMoves c away := by
  intro ss' hs'
  obtain hs | ⟨hs, h⟩ := h
  · rw [hs] at hs'
    cases hs'
  · obtain rfl : ss = ss' := Option.some.inj (hs.symm.trans hs')
    obtain he | ht | ⟨u, d, hu, hd, hp⟩ := h
    · exact .inl he
    · exact .inr (.inl ht)
    · exact .inr (.inr ((State.sessionPending_drive hu hd).trans hp))

end Enabled

/-- Settles O38: each clause by the equation of its step for the session there is. -/
theorem dmaStepsEnabled : Obligations.DmaStepsEnabled := by
  refine fun s ss b yes completed => ⟨fun hs he => dmaEngage_accepts (c := .fdc) hs he,
    fun hs he => dmaEngage_accepts (c := .xtc) hs he, fun c => ?_⟩
  intro open?
  have hopen : open? = s.session c := by cases c <;> rfl
  clear_value open?
  subst hopen
  refine ⟨fun hs => ⟨dmaEngage_noSession hs yes, dmaClose_noSession hs completed⟩, fun hs he => ?_, fun hs he => ?_,
    fun h => dmaPull_refused (State.noByteMoves_of h), fun h => dmaPush_refused (State.noByteMoves_of h) b⟩
  · exact (dmaEngage_session hs yes).trans (if_pos he)
  · exact (dmaClose_session hs completed).trans (if_neg (by simp [he]))

/-! ### The lookup before a byte (R364) -/

section Lookup

variable {d : Drive} {st st' : Store} {img : Nat} {v : Byte} {b : Bay} (bias : Nat)

/-- R364: the image has no sector at the position. -/
theorem nextSector_misses (he : d.errorCode = .none) (himg : d.disk = some img) (hrem : 0 < d.cur.bytesRemaining)
    (hlook : st.lookSector img bias d = (.missing, st')) :
    nextSector bias ⟨d, st⟩ = (.failed, ⟨{ d with errorCode := .noSectorFound }, st'⟩) := by
  rw [nextSector_look bias d st img himg hrem, hlook, Drive.raise_of_none _ he]

/-- R364: the image answers the lookup later. -/
theorem nextSector_waits (himg : d.disk = some img) (hrem : 0 < d.cur.bytesRemaining)
    (hlook : st.lookSector img bias d = (.pending, st')) :
    nextSector bias ⟨d, st⟩ = (.pending, ⟨{ d with cur := { d.cur with pending := true } }, st'⟩) := by
  rw [nextSector_look bias d st img himg hrem, hlook]

/-- R364: with no image. -/
theorem nextSector_noImage (he : d.errorCode = .none) (hdisk : d.disk = none) :
    nextSector bias ⟨d, st⟩ = (.failed, ⟨{ d with errorCode := .notReady }, st⟩) := by
  rw [nextSector_none bias d st hdisk, Drive.raise_of_none _ he]

variable {bias}

/-- R365: a lookup that gives no sector ends the read. -/
theorem readByte_ends (he : d.errorCode = .none) (ha : d.cur.activeSector = none)
    (hnext : nextSector bias ⟨d, st⟩ = (.failed, b) ∨ nextSector bias ⟨d, st⟩ = (.done, b)) :
    readByte bias ⟨d, st⟩ = (.eof, b) := by
  obtain hnext | hnext := hnext <;> simp [readByte, he, ha, hnext]

/-- R365: a lookup that is pending suspends the read. -/
theorem readByte_waits (he : d.errorCode = .none) (ha : d.cur.activeSector = none)
    (hnext : nextSector bias ⟨d, st⟩ = (.pending, b)) : readByte bias ⟨d, st⟩ = (.pending, b) := by
  simp [readByte, he, ha, hnext]

/-- R366: a lookup that gives no sector ends the write. -/
theorem writeByte_ends (he : d.errorCode = .none) (hw : Bay.readOnly ⟨d, st⟩ = false) (ha : d.cur.activeSector = none)
    (hnext : nextSector bias ⟨d, st⟩ = (.failed, b) ∨ nextSector bias ⟨d, st⟩ = (.done, b)) :
    writeByte bias v ⟨d, st⟩ = (.error, b) := by
  obtain hnext | hnext := hnext <;> simp [writeByte, he, hw, ha, hnext]

/-- R366: a lookup that is pending suspends the write. -/
theorem writeByte_waits (he : d.errorCode = .none) (hw : Bay.readOnly ⟨d, st⟩ = false) (ha : d.cur.activeSector = none)
    (hnext : nextSector bias ⟨d, st⟩ = (.pending, b)) : writeByte bias v ⟨d, st⟩ = (.pending, b) := by
  simp [writeByte, he, hw, ha, hnext]

end Lookup

/-! ### A byte of the active sector (R365, R366, R368) -/

section Active

variable {d : Drive} {st st' : Store} {h : Handle} {off : Nat} {v : Byte} {bias : Nat}

/-- R365: the image fails the read. -/
theorem readActive_failed (he : d.errorCode = .none) (hr : (st.diskRead h off).1 = none) :
    readActive bias h ⟨d.at h off, st⟩ =
      (.eof, ⟨{ d.at h off with errorCode := .crcError }, (st.diskRead h off).2⟩) := by
  have hread : st.diskRead h (d.at h off).cur.byteOffset = (none, (st.diskRead h off).2) := Prod.ext hr rfl
  rw [readActive, hread, Drive.raise_of_none (d := d.at h off) _ he]

/-- R365: a byte read. -/
theorem readActive_byte (hr : (st.diskRead h off).1 = some v) :
    readActive bias h ⟨d.at h off, st⟩ = (.byte v, ⟨(d.at h off).byteMoved bias, (st.diskRead h off).2⟩) := by
  have hread : st.diskRead h (d.at h off).cur.byteOffset = (some v, (st.diskRead h off).2) := Prod.ext hr rfl
  rw [readActive, hread]

/-- R366: the image fails the write. -/
theorem writeActive_failed (he : d.errorCode = .none) (hr : (st.diskWrite h off v).1 = false) :
    writeActive bias h v ⟨d.at h off, st⟩ =
      (.error, ⟨{ d.at h off with errorCode := .crcError }, (st.diskWrite h off v).2⟩) := by
  have hwrite : st.diskWrite h (d.at h off).cur.byteOffset v = (false, (st.diskWrite h off v).2) := Prod.ext hr rfl
  rw [writeActive, hwrite, Drive.raise_of_none (d := d.at h off) _ he]

/-- R366: a byte written. -/
theorem writeActive_byte (hr : (st.diskWrite h off v).1 = true) :
    writeActive bias h v ⟨d.at h off, st⟩ =
      (.accepted, ⟨(d.at h off).byteMoved bias, (st.diskWrite h off v).2⟩) := by
  have hwrite : st.diskWrite h (d.at h off).cur.byteOffset v = (true, (st.diskWrite h off v).2) := Prod.ext hr rfl
  rw [writeActive, hwrite]

/-- R365, R366: inside the sector only the offset moves on. -/
theorem Drive.at_byteMoved_inside (hoff : off + 1 ≠ d.geo.bytesPerSector) :
    (d.at h off).byteMoved bias = d.at h (off + 1) := by
  rw [Drive.byteMoved_eq, if_neg (by exact hoff)]
  rfl

/-- R368: the last byte of the sector moves the position and the count on. -/
theorem Drive.at_byteMoved_last (hoff : off + 1 = d.geo.bytesPerSector) :
    (d.at h off).byteMoved bias = { d with
      pos := d.pos.advance d.geo bias
      cur := ⟨none, 0, d.cur.bytesRemaining - d.geo.bytesPerSector, d.cur.pending⟩ } := by
  rw [Drive.byteMoved_eq, if_pos (by exact hoff)]
  rfl

/-- R361: the lookup before a byte leaves the bytes of the images alone. -/
theorem NextByteAt.cells (hnext : NextByteAt bias d st h off st') : st'.cells = st.cells := by
  cases hnext with
  | active ha => rfl
  | boundary _ img ha hrem himg hlook =>
    obtain ⟨-, hcells, -⟩ := st.lookSector_spec img bias d
    rwa [hlook] at hcells

end Active

/-! ### A pull (R324) -/

section Pull

variable {s : State} {c : Chan} {u : Nat} {d : Drive} (hs : s.session c = some ⟨some u, .read, true, true⟩)
  (hd : s.drive? (c.drive u) = some d) (hp : d.cur.pending = false)

include hs hd hp

/-- R324: what a pull answers and leaves is what `ReadByte` does. -/
theorem dmaPull_of_readByte {a : ReadAnswer} {d' : Drive} {st' : Store}
    (h : readByte c.bias ⟨d, s.store⟩ = (a, ⟨d', st'⟩)) :
    runAgent (.dmaPull c) s =
      .next { s.modifyDrive (c.drive u) (fun _ => d') with store := st', answer := a.answer } := by
  refine (dmaPull_read s c u d hs hd hp).trans ?_
  rw [h]

/-- R324: a pull that moves nothing. -/
theorem dmaPull_of_readByte_same {a : ReadAnswer} (h : readByte c.bias ⟨d, s.store⟩ = (a, ⟨d, s.store⟩)) :
    runAgent (.dmaPull c) s = .next { s with answer := a.answer } := by
  rw [dmaPull_of_readByte hs hd hp h, State.modifyDrive_same s _ d hd]

end Pull

/-- Settles O39: an error recorded; between sectors, by the lookup of the next one; otherwise by the byte's read. -/
theorem dmaPullMovesOneByte : Obligations.DmaPullMovesOneByte := by
  intro s c u d hs hd hp bias look put
  have hbias : bias = c.bias := by cases c <;> rfl
  have hlookup (img : Nat) : s.store.lookSector img c.bias d = look img := by
    rw [← hbias]
    exact Store.lookSector_eq ..
  have hpull {a d' st'} := dmaPull_of_readByte hs hd hp (a := a) (d' := d') (st' := st')
  have hsame {a} := dmaPull_of_readByte_same hs hd hp (a := a)
  clear_value bias look
  subst hbias
  refine ⟨fun he => hsame (readByte_error _ he), fun he ha => ⟨fun hdisk => ?_, fun img himg hrem => ?_,
    fun img st himg hrem => ⟨fun hlook => ?_, fun hlook => ?_⟩⟩, fun h off st he hat => ?_⟩
  · exact hpull (readByte_ends he ha (.inl (nextSector_noImage _ he hdisk)))
  · exact hsame (readByte_ends he ha (.inr (nextSector_done _ d _ img himg hrem)))
  · exact hpull (readByte_ends he ha (.inl (nextSector_misses _ he himg hrem ((hlookup img).trans hlook))))
  · exact hpull (readByte_waits he ha (nextSector_waits _ himg hrem ((hlookup img).trans hlook)))
  · have hnext : NextByteAt c.bias d s.store h off st := by
      obtain ⟨ha, rfl, rfl⟩ | ⟨ha, rfl, hrem, img, himg, hlook⟩ := hat
      · exact .active ha
      · exact .boundary st img ha hrem himg ((hlookup img).trans hlook)
    have hread := readByte_at c.bias d s.store st h off he hnext
    obtain ⟨-, -, hbyte⟩ := st.diskRead_spec h off
    refine ⟨fun hr => hpull (hread.trans (readActive_failed he hr)), fun v hr => ?_⟩
    have hmoved := hread.trans (readActive_byte hr)
    refine ⟨(hbyte v hr).trans (by rw [hnext.cells]), fun hoff => ?_, fun hoff => ?_⟩
    · rw [Drive.at_byteMoved_inside hoff] at hmoved
      exact hpull hmoved
    · rw [Drive.at_byteMoved_last hoff, hp] at hmoved
      exact hpull hmoved

/-! ### A push (R325) -/

section Push

variable {s : State} {c : Chan} {u : Nat} {d : Drive} {v : Byte}
  (hs : s.session c = some ⟨some u, .write, false, true⟩) (hd : s.drive? (c.drive u) = some d)
  (hp : d.cur.pending = false)

include hs hd hp

/-- R325: what a push answers and leaves is what `WriteByte` does. -/
theorem dmaPush_of_writeByte {a : WriteAnswer} {d' : Drive} {st' : Store}
    (h : writeByte c.bias v ⟨d, s.store⟩ = (a, ⟨d', st'⟩)) :
    runAgent (.dmaPush c v) s =
      .next { s.modifyDrive (c.drive u) (fun _ => d') with store := st', answer := a.answer } := by
  refine (dmaPush_write s c u d v hs hd hp).trans ?_
  rw [h]

/-- R325: a push that moves nothing. -/
theorem dmaPush_of_writeByte_same {a : WriteAnswer} (h : writeByte c.bias v ⟨d, s.store⟩ = (a, ⟨d, s.store⟩)) :
    runAgent (.dmaPush c v) s = .next { s with answer := a.answer } := by
  rw [dmaPush_of_writeByte hs hd hp h, State.modifyDrive_same s _ d hd]

end Push

/-- Settles O40: an error recorded, a read-only image; between sectors, by the lookup of the next one; otherwise by the
write of the byte. -/
theorem dmaPushMovesOneByte : Obligations.DmaPushMovesOneByte := by
  intro s c u d v hs hd hp bias look put
  have hbias : bias = c.bias := by cases c <;> rfl
  have hlookup (img : Nat) : s.store.lookSector img c.bias d = look img := by
    rw [← hbias]
    exact Store.lookSector_eq ..
  have hpush {a d' st'} := dmaPush_of_writeByte (v := v) hs hd hp (a := a) (d' := d') (st' := st')
  have hsame {a} := dmaPush_of_writeByte_same (v := v) hs hd hp (a := a)
  have hopen {img} (himg : d.disk = some img) (hw : s.store.writable img = true) :
      Bay.readOnly ⟨d, s.store⟩ = false := by
    rw [Bay.readOnly_eq himg, hw, Bool.not_true]
  clear_value bias look
  subst hbias
  refine ⟨fun he => hsame (writeByte_error _ he), fun img he himg hw => hpush (writeByte_readOnly _ he himg hw),
    fun he ha => ⟨fun hdisk => ?_, fun img himg hw hrem => ?_,
      fun img st himg hw hrem => ⟨fun hlook => ?_, fun hlook => ?_⟩⟩, fun img h off st he himg hw hat => ?_⟩
  · exact hpush (writeByte_ends he (by simp [Bay.readOnly, hdisk]) ha (.inl (nextSector_noImage _ he hdisk)))
  · exact hsame (writeByte_ends he (hopen himg hw) ha (.inr (nextSector_done _ d _ img himg hrem)))
  · exact hpush (writeByte_ends he (hopen himg hw) ha
      (.inl (nextSector_misses _ he himg hrem ((hlookup img).trans hlook))))
  · exact hpush (writeByte_waits he (hopen himg hw) ha
      (nextSector_waits _ himg hrem ((hlookup img).trans hlook)))
  · have hnext : NextByteAt c.bias d s.store h off st := by
      obtain ⟨ha, rfl, rfl⟩ | ⟨ha, rfl, hrem, hlook⟩ := hat
      · exact .active ha
      · exact .boundary st img ha hrem himg ((hlookup img).trans hlook)
    have hwrite := writeByte_at c.bias v d s.store st h off he (hopen himg hw) hnext
    refine ⟨fun hr => ⟨(Store.diskWrite_fail_cells hr).trans hnext.cells,
      hpush (hwrite.trans (writeActive_failed he hr))⟩, fun hr => ?_⟩
    have hmoved := hwrite.trans (writeActive_byte hr)
    have hcells := Store.diskWrite_ok_cells hr
    rw [hnext.cells] at hcells
    refine ⟨fun hwf => ?_, fun a hne => ?_, fun hoff => ?_, fun hoff => ?_⟩
    · rw [hcells, Memory.read_write_same _ _ _ hwf]
    · rw [hcells, Memory.read_write_other _ _ _ _ hne]
    · rw [Drive.at_byteMoved_inside hoff] at hmoved
      exact hpush hmoved
    · rw [Drive.at_byteMoved_last hoff, hp] at hmoved
      exact hpush hmoved

/-! ### The end of a session (R327, R328, R323) -/

/-- R323, R327: the peer's close of an engaged session, and its refusal to engage one, which is a close short. -/
theorem runAgent_endsSession {s : State} {c : Chan} {ss : Session} {a : AgentStep} {completed : Bool}
    (hs : s.session c = some ss) (ha : (a = .dmaClose c completed ∧ ss.engaged = true) ∨
      (a = .dmaEngage c false ∧ ss.engaged = false ∧ completed = false)) :
    runAgent a s = .next (s.closeSession c ss completed) := by
  obtain ⟨rfl, he⟩ | ⟨rfl, he, rfl⟩ := ha
  · exact (dmaClose_session hs completed).trans (if_pos he)
  · exact (dmaEngage_session hs false).trans (if_neg (by simp [he]))

/-- R327: the class an FDC session ends with. -/
theorem closeError_fdc (ss : Session) (d : Drive) (completed : Bool) : closeError .fdc ss (some d) completed =
    if d.errorCode ≠ .none then d.errorCode else if completed then .none else .notReady := by
  cases completed <;> rfl

/-- R327: the class an XTC disk transfer ends with. -/
theorem closeError_xtcDisk {ss : Session} (hdir : ss.direction = .read ∨ ss.direction = .write) (d : Drive)
    (completed : Bool) : closeError .xtc ss (some d) completed =
      if d.errorCode ≠ .none then d.errorCode else if completed = false then .notReady
      else if 0 < d.cur.bytesRemaining then .incomplete else .none := by
  obtain hdir | hdir := hdir <;> simp only [closeError, hdir] <;> rfl

/-- R327: the class a session without a Drive ends with. -/
theorem closeError_noDrive (c : Chan) (ss : Session) (completed : Bool) :
    closeError c ss none completed = if completed then .none else .notReady := by
  obtain ⟨drive, dir, tm, engaged⟩ := ss
  cases completed with
  | false => rfl
  | true => cases c <;> cases dir <;> rfl

theorem State.sessionDrive_eq {s : State} {c : Chan} {ss : Session} {u : Nat} (hu : ss.drive = some u) :
    s.sessionDrive c ss = s.drive? (c.drive u) := by
  rw [State.sessionDrive, hu, Option.bind_some]

/-! ### The FDC's session (R177) -/

/-- R124: the opcode of FORMAT_TRACK. -/
theorem fdcOp_eq_formatTrack_iff (op : BitVec 5) : fdcOp op = .formatTrack ↔ op = 0x0D#5 := by
  revert op; decide

/-- R177: the result bytes of the transfer request `req`, ended with the class `e` at the position `p`. -/
def fdcTransferResult (req : List Byte) (p : Pos) (e : Err) : List Byte :=
  let st := fdcStatus e (fdcReqUnit req) (fdcReqHead req) false
  [st.1, st.2.1, st.2.2, BitVec.ofNat 8 p.cylinder, BitVec.ofNat 8 p.head, BitVec.ofNat 8 p.sector,
    if fdcMaskedOp (reqByte req 0) = 0x0D#5 then reqByte req 2 else reqByte req 5]

/-- R177: the completion continuation. -/
theorem State.fdcTransferDone_eq (s : State) (d : Drive) (e : Err) : s.fdcTransferDone (some d) e = { s with
    fdc := { s.fdc with
      endStatus := (fdcStatus e (fdcReqUnit s.fdc.fifo.buffer) (fdcReqHead s.fdc.fifo.buffer) false).1
      fifo := s.fdc.fifo.loadResult (fdcTransferResult s.fdc.fifo.buffer d.pos e)
      phase := .result
      irq := s.fdc.irq || (s.fdc.out.getLsbD 3 && decide (e ≠ .notReady)) } } := by
  unfold State.fdcTransferDone
  simp only [fdcOp_eq_formatTrack_iff]
  exact fdcFinish_cons ..

/-- R327, R328: the close of an FDC session. -/
theorem State.closeSession_fdc {s : State} {ss : Session} {u : Nat} {d : Drive} (hu : ss.drive = some u)
    (hd : s.floppy[u]? = some d) {completed : Bool} {e : Err}
    (he : closeError .fdc ss (some d) completed = e) :
    s.closeSession .fdc ss completed = { s with
      floppy := s.floppy.set u (d.closeWith e)
      dma := { s.dma with fdc := none }
      fdc := { s.fdc with
        endStatus := (fdcStatus e (fdcReqUnit s.fdc.fifo.buffer) (fdcReqHead s.fdc.fifo.buffer) false).1
        fifo := s.fdc.fifo.loadResult (fdcTransferResult s.fdc.fifo.buffer d.pos e)
        phase := .result
        irq := s.fdc.irq || (s.fdc.out.getLsbD 3 && decide (e ≠ .notReady)) } } := by
  have hdrive : s.sessionDrive .fdc ss = some d := (State.sessionDrive_eq hu).trans hd
  have hmodify : s.modifySessionDrive .fdc ss (Drive.closeWith e) = { s with
      floppy := s.floppy.set u (d.closeWith e) } := by
    rw [State.modifySessionDrive, hu]
    exact State.modifyDrive_floppy s u _ d hd
  have hclosed : (s.floppy.set u (d.closeWith e))[u]? = some (d.closeWith e) := getElem?_set_present _ _ _ d hd
  rw [State.closeSession, hdrive, he, hmodify, State.continuation, State.sessionDrive_eq hu]
  exact (congrArg (State.fdcTransferDone _ · e) hclosed).trans (State.fdcTransferDone_eq ..)

/-- Settles O43: both ways close the session, and the result is loaded over the request. -/
theorem fdcTransferEnds : Obligations.FdcTransferEnds := by
  intro s ss u d a completed hs hu hd hroom ha e us st
  have he : closeError .fdc ss (some d) completed = e := closeError_fdc ss d completed
  obtain ⟨b, hb, htake, hload⟩ :=
    s.fdc.fifo.loadResult_spec (fdcTransferResult s.fdc.fifo.buffer d.pos e) (by exact hroom)
  refine ⟨b, hb, htake, ?_⟩
  rw [runAgent_endsSession (c := .fdc) hs ha, State.closeSession_fdc hu hd he, hload]
  rfl

/-! ### The XTC's session (R246, R233) -/

/-- R233: the end of a command that latches its class on the Drive its block addresses, where that exists. -/
theorem State.xtcFinish_addressed (s : State) (bs : List Byte) (u : BitVec 1) (e : Err) :
    s.xtcFinish u (s.xtcUnit bs) e [] true = { s with
      fixed := s.fixed.modify (xtcReqDrive bs).toNat (Drive.latchSense e)
      xtc := { s.xtc with
        fifo := s.xtc.fifo.loadResult [xtcCompletion e u]
        phase := .result
        irq := s.xtc.irq || (s.xtc.pattern.getLsbD 1 && decide (e ≠ .notReady)) } } := by
  cases hd : s.fixed[(xtcReqDrive bs).toNat]? with
  | none => rw [State.xtcUnit_absent s bs hd, State.xtcFinish_plain _ _ _ _ _ _ (.inr rfl), modify_absent _ _ _ hd]; rfl
  | some d =>
    rw [State.xtcUnit_present s bs d hd, State.xtcFinish_latch _ _ _ d e hd, modify_eq_set _ _ _ d hd]
    rfl

/-- R327, R328, R246: the close of an XTC session with a Drive. -/
theorem State.closeSession_xtc_drive {s : State} {ss : Session} {u : Nat} {d : Drive} (hu : ss.drive = some u)
    (hd : s.fixed[u]? = some d) {completed : Bool} {e : Err}
    (he : closeError .xtc ss (some d) completed = e) :
    s.closeSession .xtc ss completed = { s with
      fixed := s.fixed.set u ((d.closeWith e).latchSense e)
      dma := { s.dma with xtc := none }
      xtc := { s.xtc with
        fifo := s.xtc.fifo.loadResult [xtcCompletion e (xtcReqDrive s.xtc.fifo.buffer)]
        phase := .result
        irq := s.xtc.irq || (s.xtc.pattern.getLsbD 1 && decide (e ≠ .notReady)) } } := by
  have hdrive : s.sessionDrive .xtc ss = some d := (State.sessionDrive_eq hu).trans hd
  have hmodify : s.modifySessionDrive .xtc ss (Drive.closeWith e) = { s with
      fixed := s.fixed.set u (d.closeWith e) } := by
    rw [State.modifySessionDrive, hu]
    exact State.modifyDrive_fixed s u _ d hd
  have hclosed : (s.fixed.set u (d.closeWith e))[u]? = some (d.closeWith e) := getElem?_set_present _ _ _ d hd
  rw [State.closeSession, hdrive, he, hmodify, State.continuation, State.latchedUnit, hu, State.xtcTransferDone,
    State.xtcFinish_latch _ _ _ (d.closeWith e) e (by exact hclosed)]
  simp [State.setSession, Drive.latchSense]

/-- R327, R328, R246: the close of an XTC session without a Drive. -/
theorem State.closeSession_xtc_noDrive {s : State} {ss : Session} (hu : ss.drive = none) {completed : Bool} {e : Err}
    (he : closeError .xtc ss none completed = e) :
    s.closeSession .xtc ss completed = { s with
      fixed := s.fixed.modify (xtcReqDrive s.xtc.fifo.buffer).toNat (Drive.latchSense e)
      dma := { s.dma with xtc := none }
      xtc := { s.xtc with
        fifo := s.xtc.fifo.loadResult [xtcCompletion e (xtcReqDrive s.xtc.fifo.buffer)]
        phase := .result
        irq := s.xtc.irq || (s.xtc.pattern.getLsbD 1 && decide (e ≠ .notReady)) } } := by
  have hdrive : s.sessionDrive .xtc ss = none := by rw [State.sessionDrive, hu, Option.bind_none]
  rw [State.closeSession, hdrive, he, State.modifySessionDrive, hu, State.continuation, State.latchedUnit, hu,
    State.xtcTransferDone]
  exact State.xtcFinish_addressed ..

/-- Settles O44: both ways close the session, which has a Drive or none. -/
theorem xtcTransferEnds : Obligations.XtcTransferEnds := by
  intro s ss a completed hs hroom ha drv
  have hends := runAgent_endsSession (c := .xtc) hs ha
  refine ⟨fun u d hu hdir hd => ?_, fun hu => ?_⟩
  · intro e
    have he : closeError .xtc ss (some d) completed = e := closeError_xtcDisk hdir d completed
    obtain ⟨b, hb, htake, hload⟩ :=
      s.xtc.fifo.loadResult_spec [xtcCompletion e (xtcReqDrive s.xtc.fifo.buffer)] (by exact hroom)
    refine ⟨b, hb, htake, ?_⟩
    rw [hends, State.closeSession_xtc_drive hu hd he, hload]
    rfl
  · have he := closeError_noDrive .xtc ss completed
    obtain ⟨b, hb, htake, hload⟩ := s.xtc.fifo.loadResult_spec
      [xtcCompletion (if completed then .none else .notReady) (xtcReqDrive s.xtc.fifo.buffer)] (by exact hroom)
    refine ⟨b, hb, htake.trans ?_, ?_⟩
    · cases completed <;> rfl
    · rw [hends, State.closeSession_xtc_noDrive hu he, hload]
      cases completed <;> rfl

end Sys2Proof.Machine

/-! PROOFS of the statements of spec/45_geometry.md: the successor of a position, the laws of the image store, and the
delivery of a pending lookup.

The positions inside a geometry are counted by `Pos.ordinal`, which `AdvanceSector` raises by one
(`Pos.advance_ordinal`); a cylinder is `sectorsPerTrack * heads` of them. A delivery puts `Drive.resolved` of the
image's answer (`State.resolution`) in the Drive's place, and then the party that waits goes on (`resolve_floppy`,
`resolve_fixed`). -/

namespace Sys2Proof.Machine

/-! ### The successor of a position (R353) -/

section Advance

variable {p q : Pos} {g : Geometry} {bias : Nat}

/-- R353: the next sector of the track. -/
theorem Pos.advance_sector (h : p.sector + 1 < g.sectorsPerTrack + bias) :
    p.advance g bias = { p with sector := p.sector + 1 } :=
  if_neg (Nat.not_le.mpr h)

/-- R353: after the last sector of a track, the first one of the next head. -/
theorem Pos.advance_head (hs : g.sectorsPerTrack + bias ≤ p.sector + 1) (hh : p.head + 1 < g.heads) :
    p.advance g bias = ⟨p.cylinder, p.head + 1, bias⟩ :=
  (if_pos hs).trans (if_neg (Nat.not_le.mpr hh))

/-- R353: after the last sector of the last head, the first one of the next cylinder. -/
theorem Pos.advance_cylinder (hs : g.sectorsPerTrack + bias ≤ p.sector + 1) (hh : g.heads ≤ p.head + 1) :
    p.advance g bias = ⟨p.cylinder + 1, 0, bias⟩ :=
  (if_pos hs).trans (if_pos hh)

/-- R351, R352: within the bounds of the geometry, but for the cylinder, which `AdvanceSector` does not bound. -/
structure Pos.Inside (p : Pos) (g : Geometry) (bias : Nat) : Prop where
  first : bias ≤ p.sector
  sector : p.sector < g.sectorsPerTrack + bias
  head : p.head < g.heads

/-- The number of sectors before a position, in the order `AdvanceSector` visits them. -/
def Pos.ordinal (p : Pos) (g : Geometry) (bias : Nat) : Nat :=
  (p.cylinder * g.heads + p.head) * g.sectorsPerTrack + (p.sector - bias)

/-- R353: `AdvanceSector` stays within the bounds. -/
theorem Pos.Inside.advance (h : p.Inside g bias) : (p.advance g bias).Inside g bias := by
  obtain ⟨hfirst, hsector, hhead⟩ := h
  by_cases hs : p.sector + 1 < g.sectorsPerTrack + bias
  · rw [Pos.advance_sector hs]
    exact ⟨Nat.le_succ_of_le hfirst, hs, hhead⟩
  · have hroom : bias < g.sectorsPerTrack + bias := Nat.lt_of_le_of_lt hfirst hsector
    by_cases hh : p.head + 1 < g.heads
    · rw [Pos.advance_head (Nat.not_lt.mp hs) hh]
      exact ⟨Nat.le_refl bias, hroom, hh⟩
    · rw [Pos.advance_cylinder (Nat.not_lt.mp hs) (Nat.not_lt.mp hh)]
      exact ⟨Nat.le_refl bias, hroom, Nat.zero_lt_of_lt hhead⟩

/-- R353: `AdvanceSector` goes to the next sector in the order. -/
theorem Pos.advance_ordinal (h : p.Inside g bias) : (p.advance g bias).ordinal g bias = p.ordinal g bias + 1 := by
  obtain ⟨hfirst, hsector, hhead⟩ := h
  by_cases hs : p.sector + 1 < g.sectorsPerTrack + bias
  · rw [Pos.advance_sector hs]
    simp only [Pos.ordinal]
    omega
  · have hlast : p.sector - bias + 1 = g.sectorsPerTrack := by omega
    have htrack : p.ordinal g bias + 1 = (p.cylinder * g.heads + (p.head + 1)) * g.sectorsPerTrack := by
      rw [Pos.ordinal, Nat.add_assoc, hlast]
      ring
    by_cases hh : p.head + 1 < g.heads
    · rw [Pos.advance_head (Nat.not_lt.mp hs) hh, htrack]
      simp only [Pos.ordinal, Nat.sub_self, Nat.add_zero]
    · have hlastHead : p.head + 1 = g.heads := by omega
      rw [Pos.advance_cylinder (Nat.not_lt.mp hs) (Nat.not_lt.mp hh), htrack, hlastHead]
      simp only [Pos.ordinal, Nat.sub_self, Nat.add_zero, Nat.succ_mul]

/-- R354: `n` applications go `n` sectors further and stay within the bounds. -/
theorem Pos.iterate_advance (h : p.Inside g bias) (n : Nat) :
    ((fun q : Pos => q.advance g bias)^[n] p).Inside g bias ∧
      ((fun q : Pos => q.advance g bias)^[n] p).ordinal g bias = p.ordinal g bias + n := by
  induction n with
  | zero => exact ⟨h, rfl⟩
  | succ n ih =>
    obtain ⟨hinside, hordinal⟩ := ih
    rw [Function.iterate_succ_apply']
    exact ⟨hinside.advance, by rw [Pos.advance_ordinal hinside, hordinal, Nat.add_assoc]⟩

/-- A number's last digit and the digits before it are unique. -/
theorem digits_unique {base a b x y : Nat} (hx : x < base) (hy : y < base) (h : a * base + x = b * base + y) :
    a = b ∧ x = y := by
  have hbase : 0 < base := Nat.zero_lt_of_lt hx
  have hquot (c z : Nat) (hz : z < base) : (c * base + z) / base = c ∧ (c * base + z) % base = z :=
    (Nat.div_mod_unique hbase).mpr ⟨by ring, hz⟩
  obtain ⟨ha, hmodx⟩ := hquot a x hx
  obtain ⟨hb, hmody⟩ := hquot b y hy
  exact ⟨ha.symm.trans ((congrArg (· / base) h).trans hb), hmodx.symm.trans ((congrArg (· % base) h).trans hmody)⟩

/-- Two positions within the bounds with equally many sectors before them are one. -/
theorem Pos.Inside.eq_of_ordinal (hp : p.Inside g bias) (hq : q.Inside g bias)
    (h : p.ordinal g bias = q.ordinal g bias) : p = q := by
  obtain ⟨pc, ph, ps⟩ := p
  obtain ⟨qc, qh, qs⟩ := q
  obtain ⟨hpfirst, hpsector, hphead⟩ := hp
  obtain ⟨hqfirst, hqsector, hqhead⟩ := hq
  simp only [Pos.ordinal] at *
  obtain ⟨htrack, hsector⟩ := digits_unique (by omega) (by omega) h
  obtain ⟨rfl, rfl⟩ := digits_unique hphead hqhead htrack
  obtain rfl : ps = qs := by omega
  rfl

/-- R354: the same place one cylinder further is `sectorsPerTrack * heads` sectors further. -/
theorem Pos.ordinal_nextCylinder (p : Pos) (g : Geometry) (bias : Nat) :
    ({ p with cylinder := p.cylinder + 1 } : Pos).ordinal g bias =
      p.ordinal g bias + g.sectorsPerTrack * g.heads := by
  simp only [Pos.ordinal]
  ring

end Advance

/-- Settles O45: `sectorsPerTrack * heads` applications and one cylinder more end at positions within the bounds with
equally many sectors before them. -/
theorem advanceSectorPeriod : Obligations.AdvanceSectorPeriod := by
  refine fun p g bias => ⟨Pos.advance_sector, Pos.advance_head, Pos.advance_cylinder, fun hfirst hsector hhead => ?_⟩
  have hinside : p.Inside g bias := ⟨hfirst, hsector, hhead⟩
  refine ⟨⟨hinside.advance.first, hinside.advance.sector, hinside.advance.head⟩, ?_⟩
  obtain ⟨hround, hordinal⟩ := Pos.iterate_advance hinside (g.sectorsPerTrack * g.heads)
  exact hround.eq_of_ordinal ⟨hfirst, hsector, hhead⟩ (hordinal.trans (p.ordinal_nextCylinder g bias).symm)

/-! ### The laws of the image store (R361 to R363) -/

section StoreLaws

variable {st st' : Store} {h : Handle} {off : Nat} {v : Byte} {img : Nat} {id : SectorId} {len : Nat}

/-- R361, R363 (b): what a read answers after a write that succeeded. -/
theorem Store.diskRead_diskWrite (hwf : Memory.wf st.cells = true) (hok : (st.diskWrite h off v).1 = true) {x : Byte}
    (hx : ((st.diskWrite h off v).2.diskRead h off).1 = some x) : x = v := by
  obtain ⟨-, -, hread⟩ := (st.diskWrite h off v).2.diskRead_spec h off
  rw [hread x hx, Store.diskWrite_ok_cells hok, Memory.read_write_same _ _ _ hwf]

/-- R363 (c): a write that succeeded changes no other place. -/
theorem Store.diskWrite_other (hok : (st.diskWrite h off v).1 = true) {k : Handle} {off' : Nat}
    (hne : (h, off) ≠ (k, off')) :
    (st.diskWrite h off v).2.cells.read (diskAddress k off') = st.cells.read (diskAddress k off') := by
  rw [Store.diskWrite_ok_cells hok]
  refine Memory.read_write_other _ _ _ _ fun haddress => hne ?_
  obtain ⟨rfl, rfl⟩ := (diskAddress_inj k h off' off).mp haddress
  rfl

/-- R363 (a): which sectors there are depends on the images alone. -/
theorem Store.hasSector_of_images (himages : st'.images = st.images) (img : Nat) (id : SectorId) (len : Nat) :
    st'.hasSector img id len = st.hasSector img id len := by
  simp only [Store.hasSector, himages]

/-- R364: sectors count from 1. -/
theorem Store.hasSector_zero (hsec : id.sec = 0) : st.hasSector img id len = false := by
  unfold Store.hasSector
  cases st.images[img]? with
  | none => rfl
  | some g => simp [Image.sectorLen, hsec]

/-- R360: a lookup answers later, or what the image has. -/
theorem Store.diskSeek_answer (st : Store) (img : Nat) (id : SectorId) (len : Nat) :
    (st.diskSeek img id len).1 =
      if (st.drawPend img).1 then .pending
      else if st.hasSector img id len then .found ⟨img, id⟩ else .missing := by
  obtain ⟨himages, -⟩ := st.drawPend_spec img
  have hsame := Store.hasSector_of_images himages img id len
  unfold Store.diskSeek
  generalize st.drawPend img = draw at *
  obtain ⟨pends, st'⟩ := draw
  cases pends with
  | true => rfl
  | false => simp only [← hsame]; rfl

/-- R360: only a sector that is there is found. -/
theorem Store.hasSector_of_found {j : Handle} (hfound : (st.diskSeek img id len).1 = .found j) :
    j = ⟨img, id⟩ ∧ st.hasSector img id len = true := by
  rw [Store.diskSeek_answer] at hfound
  split at hfound
  · cases hfound
  · split at hfound
    next hhas =>
      cases hfound
      exact ⟨rfl, hhas⟩
    next => cases hfound

/-- R360: only a sector that is not there is missing. -/
theorem Store.hasSector_of_missing (hmissing : (st.diskSeek img id len).1 = .missing) :
    st.hasSector img id len = false := by
  rw [Store.diskSeek_answer] at hmissing
  split at hmissing
  · cases hmissing
  · split at hmissing
    next => cases hmissing
    next hhas => exact Bool.eq_false_iff.mpr hhas

/-- R362: a preloaded image takes every write. -/
theorem Store.diskWrite_preloaded (hp : st.preloaded h.image = true) : (st.diskWrite h off v).1 = true := by
  rw [Store.diskWrite, Store.drawFail_preloaded _ _ hp]

/-- R361: a preloaded image answers every read. -/
theorem Store.diskRead_preloaded (hp : st.preloaded h.image = true) : (st.diskRead h off).1 ≠ none := by
  rw [Store.diskRead, Store.drawFail_preloaded _ _ hp]
  exact Option.some_ne_none _

/-- R364: a preloaded image answers every lookup at once. -/
theorem Store.diskSeek_preloaded (hp : st.preloaded img = true) : (st.diskSeek img id len).1 ≠ .pending := by
  rw [Store.diskSeek_answer, Store.drawPend_preloaded _ _ hp]
  cases st.hasSector img id len <;> exact fun hpending => nomatch hpending

end StoreLaws

/-- Settles O46: each law by the lemma about its call of the Disk Image Port. -/
theorem storeLaws : Obligations.StoreLaws := by
  intro st h k off off' v hwf
  refine ⟨?_, diskAddress_inj h k off off', fun hp =>
    ⟨Store.diskWrite_preloaded hp, Store.diskRead_preloaded hp, fun id len => Store.diskSeek_preloaded hp⟩⟩
  intro w
  obtain ⟨hwriteImages, -⟩ := st.diskWrite_spec h off v
  obtain ⟨hreadImages, hreadCells, hread⟩ := st.diskRead_spec h off
  refine ⟨fun hok x => Store.diskRead_diskWrite hwf hok, fun hok => Store.diskWrite_other hok,
    Store.diskWrite_fail_cells, st.diskWrite_wf h off v hwf, hread, hreadCells, fun img id len => ?_⟩
  obtain ⟨hseekImages, hseekCells, -⟩ := st.diskSeek_spec img id len
  exact ⟨Store.hasSector_of_images hwriteImages img id len, Store.hasSector_of_images hreadImages img id len,
    Store.hasSector_of_images hseekImages img id len, hseekCells, fun j => Store.hasSector_of_found,
    Store.hasSector_of_missing, Store.hasSector_zero⟩

/-! ### The delivery of a pending lookup (R364) -/

section Delivery

variable {s : State} {r : DriveRef} {u : Nat} {d : Drive}

/-- R364: the answer of a Drive with an image is whether the image has the sector. -/
theorem State.resolution_image {img : Nat} (himg : d.disk = some img) :
    s.resolution r d =
      if s.store.hasSector img (d.imageSector (s.bias r)) d.geo.bytesPerSector then
        some ⟨img, d.imageSector (s.bias r)⟩
      else none := by
  rw [State.resolution, himg]

/-- R364: the Drive after the delivery of a sector that is there, or is not. -/
theorem Drive.resolved_eq (d : Drive) (k : Handle) (there : Bool) :
    d.resolved (if there then some k else none) =
      if there then { d with cur := { d.cur with activeSector := some k, byteOffset := 0, pending := false } }
      else { d with
        errorCode := if d.errorCode = .none then .noSectorFound else d.errorCode
        cur := { d.cur with pending := false } } := by
  cases there with
  | true => rfl
  | false => exact Drive.raise_eq _ _

/-- R364: with no lookup pending there is nothing to deliver. -/
theorem resolve_notPending (hd : s.drive? r = some d) (hp : d.cur.pending = false) :
    resolve r s = .refused .stepNotEnabled := by
  rw [resolve, hd]
  exact if_pos hp

/-- What a cursor operation leaves, run on a floppy Drive that exists. -/
theorem State.runBay_floppy (hd : s.floppy[u]? = some d) {α : Type} {x : α} {f : Bay → α × Bay} :
    (s.runBay (.floppy u) x f).2 = { s with
      floppy := s.floppy.set u (f ⟨d, s.store⟩).2.drive
      store := (f ⟨d, s.store⟩).2.store } := by
  rw [State.runBay_present s (.floppy u) x f d hd, State.putBay, State.modifyDrive_floppy s u _ d hd]

/-- R364: the delivery to a floppy Drive; a sector found on one being formatted is filled. -/
theorem resolve_floppy (hd : s.floppy[u]? = some d) (hp : d.cur.pending = true) :
    resolve (.floppy u) s =
      .next (if s.formatting (.floppy u) = true ∧ (s.resolution (.floppy u) d).isSome = true then
        { s with
          floppy := s.floppy.set u (formatFill ⟨d.resolved (s.resolution (.floppy u) d), s.store⟩).2.drive
          store := (formatFill ⟨d.resolved (s.resolution (.floppy u) d), s.store⟩).2.store }
      else { s with floppy := s.floppy.set u (d.resolved (s.resolution (.floppy u) d)) }) := by
  rw [resolve, State.drive?_floppy, hd]
  refine (if_neg (by simp [hp])).trans ?_
  dsimp only
  rw [State.modifyDrive_floppy s u _ d hd, State.runBay_floppy (by exact getElem?_set_present _ _ _ d hd), List.set_set]

/-- R364: the delivery to a fixed Drive; the ATC's command goes on. -/
theorem resolve_fixed (hd : s.fixed[u]? = some d) (hp : d.cur.pending = true) :
    resolve (.fixed u) s =
      .next (if s.cfg.hdcVariant = .atc then
        State.atcPrimed { s with fixed := s.fixed.set u (d.resolved (s.resolution (.fixed u) d)) } (.fixed u)
          (s.resolution (.fixed u) d).isSome
      else { s with fixed := s.fixed.set u (d.resolved (s.resolution (.fixed u) d)) }) := by
  rw [resolve, State.drive?_fixed, hd]
  refine (if_neg (by simp [hp])).trans ?_
  dsimp only
  rw [State.modifyDrive_fixed s u _ d hd]

/-- R364: the FDC's open session formats unit `u`. -/
theorem State.formatting_floppy (s : State) (u : Nat) :
    s.formatting (.floppy u) = true ↔
      s.dma.fdc.map (fun ss => (ss.drive, ss.direction)) = some (some u, .format) := by
  rw [formatting_iff]
  cases s.dma.fdc <;> simp

/-- R364, R210: nothing is filled on a Drive that is not being formatted, whose sector is not there, or that has an
error. -/
theorem resolve_floppy_unfilled (hd : s.floppy[u]? = some d) (hp : d.cur.pending = true)
    (h : s.formatting (.floppy u) = false ∨ (s.resolution (.floppy u) d).isSome = false ∨
      (d.errorCode ≠ .none ∧ 1 ≤ d.geo.bytesPerSector)) :
    resolve (.floppy u) s = .next { s with floppy := s.floppy.set u (d.resolved (s.resolution (.floppy u) d)) } := by
  rw [resolve_floppy hd hp]
  by_cases hfill : s.formatting (.floppy u) = true ∧ (s.resolution (.floppy u) d).isSome = true
  · rw [if_pos hfill]
    obtain ⟨hformat, hfound⟩ := hfill
    obtain ⟨herr, hlen⟩ : d.errorCode ≠ .none ∧ 1 ≤ d.geo.bytesPerSector := by
      simpa [hformat, hfound] using h
    obtain ⟨k, hk⟩ := Option.isSome_iff_exists.mp hfound
    have hnone : (formatFill ⟨d.resolved (some k), s.store⟩).2 = ⟨d.resolved (some k), s.store⟩ :=
      (formatFill_error (d.resolved (some k)) s.store herr).trans
        (if_neg (show d.geo.bytesPerSector ≠ 0 from Nat.one_le_iff_ne_zero.mp hlen))
    rw [hk, hnone]
  · rw [if_neg hfill]

/-- R364, R210: the sector found on a Drive being formatted is filled. -/
theorem resolve_floppy_filled (hd : s.floppy[u]? = some d) (hp : d.cur.pending = true)
    (hformat : s.formatting (.floppy u) = true) {k : Handle} (hk : s.resolution (.floppy u) d = some k)
    (himg : d.disk = some k.image) (herr : d.errorCode = .none) (hlen : 1 ≤ d.geo.bytesPerSector) :
    ∃ a dd st', SectorFill { d with cur := { d.cur with pending := false } } s.store k a dd st' ∧
      resolve (.floppy u) s = .next { s with floppy := s.floppy.set u dd, store := st' } := by
  obtain ⟨a, dd, st', hfill, hsector⟩ :=
    formatFill_spec { d with cur := { d.cur with pending := false } } s.store k herr himg hlen
  have hresolved : formatFill ⟨d.resolved (some k), s.store⟩ = (a, ⟨dd, st'⟩) := hfill
  refine ⟨a, dd, st', hsector, ?_⟩
  rw [resolve_floppy hd hp, if_pos ⟨hformat, by rw [hk]; rfl⟩, hk, hresolved]

/-- R287: the ATC's command goes on with the sector found. -/
theorem State.atcPrimed_found (s : State) (r : DriveRef) :
    s.atcPrimed r true = { s with atc := { s.atc with
      status := 0x58#8
      irq := s.atc.irq || (decide (s.atc.dir = .read) && !s.atc.fdr.getLsbD 1) } } := by
  rw [State.atcPrimed, if_pos rfl]
  by_cases hread : s.atc.dir = .read <;> simp [hread, State.raiseIfArmed_atc]

/-- R287, R289: the ATC's command ends at a sector that is missing. -/
theorem State.atcPrimed_missing (hd : s.drive? r = some d) (herr : d.errorCode = .noSectorFound) :
    s.atcPrimed r false = { s with atc := { s.atc with
      error := 0x10#8
      status := 0x51#8
      phase := .command
      dir := .none
      irq := s.atc.irq || !s.atc.fdr.getLsbD 1 } } := by
  have herror : s.errorOf r = .noSectorFound := by rw [State.errorOf, hd, ← herr]
  rw [State.atcPrimed, if_neg Bool.false_ne_true, herror, State.atcFinish_raises _ (by decide)]
  rfl

end Delivery

/-- Settles O47, by the kind of Drive: the statement's Drive after the delivery is `Drive.resolved` of the image's
answer. -/
theorem resolveDelivers : Obligations.ResolveDelivers := by
  refine fun s r d hd => ⟨resolve_notPending hd, fun img hp himg => ?_⟩
  intro bias id there d'
  have hbias : bias = s.bias r := by cases r <;> rfl
  have hanswer : s.resolution r d = if there then some ⟨img, id⟩ else none := by
    rw [State.resolution_image himg, ← hbias]
    rfl
  have hresolved : d.resolved (s.resolution r d) = d' := by rw [hanswer, Drive.resolved_eq]
  have hthere : (s.resolution r d).isSome = there := by rw [hanswer]; cases there <;> rfl
  have hmissing : there = false → d.errorCode = .none → d'.errorCode = .noSectorFound := fun hno herr => by
    simp [d', hno, herr]
  clear_value d' there
  refine ⟨fun u hr => ?_, fun u hr hvariant => ?_, fun u hr hvariant herr => ?_⟩ <;> subst hr
  · refine ⟨fun hnot => ?_, fun hformat hyes herr hlen => ?_⟩
    · rw [← hthere] at hnot
      rw [← hresolved]
      exact resolve_floppy_unfilled hd hp
        (hnot.imp_left fun hno => Bool.eq_false_iff.mpr (mt (State.formatting_floppy s u).mp hno))
    · exact resolve_floppy_filled hd hp ((State.formatting_floppy s u).mpr hformat)
        (hanswer.trans (if_pos hyes)) himg herr hlen
  · refine (resolve_fixed hd hp).trans ?_
    rw [if_neg hvariant, hresolved]
  · have hprimed := resolve_fixed hd hp
    rw [if_pos hvariant, hresolved, hthere] at hprimed
    refine ⟨fun hyes => hprimed.trans ?_, fun hno => hprimed.trans ?_⟩
    · rw [hyes, State.atcPrimed_found]
    · rw [hno, State.atcPrimed_missing (by exact getElem?_set_present _ _ _ d hd) (hmissing hno herr)]

end Sys2Proof.Machine

/-! PROOFS of the statements of spec/60_exceptions.md: the steps that clear a pending interrupt, the bytes of the error
classes, and the notification hook.

Nothing clears a latch but what says so: `Steady` and `Writes` hold of every instruction but six, and each of those six
clears the latch of one controller and leaves the two others (`exec_keepsLatch`). -/

namespace Sys2Proof.Machine

/-! ### What clears a pending interrupt (R392) -/

theorem Steady.latch {s t : State} (h : Steady s t) (k : Ctl) : s.latch k = true → t.latch k = true := by
  cases k with
  | fdc => exact h.fi
  | xtc => exact h.xi
  | atc => exact h.ai

theorem Writes.latch {s t : State} (h : Writes s t) (k : Ctl) : s.latch k = true → t.latch k = true := by
  cases k with
  | fdc => exact h.fi
  | xtc => exact h.xi
  | atc => exact h.ai

/-- R102: what leaves the hard-disk half alone leaves the latches of the XTC and of the ATC. -/
theorem latch_of_hdcHalf {s t : State} (h : t.hdcHalf = s.hdcHalf) {k : Ctl} (hk : k ≠ .fdc) :
    t.latch k = s.latch k := by
  simp only [State.hdcHalf, Prod.mk.injEq] at h
  obtain ⟨-, hxtc, -, hatc, -⟩ := h
  cases k with
  | fdc => exact absurd rfl hk
  | xtc => exact congrArg Xtc.irq hxtc
  | atc => exact congrArg Atc.irq hatc

/-- The acknowledging reads and the resets of R392, by the controller whose latch they clear. -/
def Instr.ClearsLatch (i : Instr) : Ctl → Prop
  | .fdc => i = .fdcInData ∨ ∃ v, i = .fdcOutOutput v ∧ v.getLsbD 2 = false
  | .xtc => i = .xtcInData ∨ ∃ v, i = .xtcOutReset v
  | .atc => i = .atcInStatus ∨ ∃ v, i = .atcOutFdr v ∧ v.getLsbD 2 = true

/-- R170, R171: with the enable bit set, a write of 0x3F2 only ever raises the FDC's latch. -/
theorem State.fdcOutputWrite_keepsLatch {s : State} {v : Byte} {k : Ctl} (hk : k = .fdc → v.getLsbD 2 = true)
    (hset : s.latch k = true) : (s.fdcOutputWrite v).latch k = true := by
  cases hbit : v.getLsbD 2 with
  | true =>
    rw [s.fdcOutputWrite_enable hbit]
    cases k with
    | fdc => exact Bool.or_eq_true_iff.mpr (.inl hset)
    | xtc | atc => exact hset
  | false =>
    rw [s.fdcOutputWrite_reset hbit]
    cases k with
    | fdc => exact absurd (hbit.symm.trans (hk rfl)) (by decide)
    | xtc | atc => exact hset

/-- R286: with the reset bit clear, a write of 0x3F6 leaves the ATC's latch. -/
theorem State.atcFdrWrite_keepsLatch {s : State} {v : Byte} {k : Ctl} (hk : k = .atc → v.getLsbD 2 = false)
    (hset : s.latch k = true) : (s.atcFdrWrite v).latch k = true := by
  cases hbit : v.getLsbD 2 with
  | true =>
    rw [s.atcFdrWrite_reset hbit]
    cases k with
    | atc => exact absurd (hbit.symm.trans (hk rfl)) (by decide)
    | fdc | xtc => exact hset
  | false =>
    rw [s.atcFdrWrite_store hbit]
    cases k <;> exact hset

/-- R392: an instruction that is not listed for a controller keeps its pending interrupt. -/
theorem exec_keepsLatch {i : Instr} {s t : State} {k : Ctl} (h : exec i s = .next t) (hi : ¬ Instr.ClearsLatch i k)
    (hset : s.latch k = true) : t.latch k = true := by
  by_cases hsteady : Instr.mayClear i = false
  · exact (Steady.exec i s t hsteady h).latch k hset
  cases i with
  | fdcOutOutput v =>
    cases h
    refine State.fdcOutputWrite_keepsLatch (fun hk => ?_) hset
    subst hk
    exact Bool.of_not_eq_false fun hbit => hi (.inr ⟨v, rfl, hbit⟩)
  | fdcInData =>
    cases k with
    | fdc => exact absurd (.inl rfl) hi
    | xtc | atc => exact (latch_of_hdcHalf (fdcDataRead_hdcHalf h) (by decide)).trans hset
  | xtcInData =>
    obtain ⟨-, h⟩ := onXtc_next h
    split at h
    · cases h
    · cases h
      cases k with
      | xtc => exact absurd (.inl rfl) hi
      | fdc | atc => exact hset
  | xtcOutReset v =>
    obtain ⟨-, h⟩ := onXtc_next h
    cases h
    cases k with
    | xtc => exact absurd (.inr ⟨v, rfl⟩) hi
    | fdc | atc => exact hset
  | atcInStatus =>
    obtain ⟨-, h⟩ := onAtc_next h
    cases h
    cases k with
    | atc => exact absurd (.inl rfl) hi
    | fdc | xtc => exact hset
  | atcOutFdr v =>
    obtain ⟨-, h⟩ := onAtc_next h
    cases h
    refine State.atcFdrWrite_keepsLatch (fun hk => ?_) hset
    subst hk
    exact Bool.of_not_eq_true fun hbit => hi (.inr ⟨v, rfl, hbit⟩)
  | atcOutData v =>
    obtain ⟨-, h⟩ := onAtc_next h
    split at h
    · cases h; exact (Writes.atcDataWrite s v).latch k hset
    · cases h
  | _ => exact absurd rfl hsteady

/-- R392: nor does a step of an agent that replaces no state. -/
theorem runAgent_keepsLatch {a : AgentStep} {s t : State} {k : Ctl} (h : runAgent a s = .next t)
    (hpower : a ≠ .powerUp) (hreset : a ≠ .mreset) (hrestore : ∀ v, a ≠ .restore v) (hset : s.latch k = true) :
    t.latch k = true := by
  obtain ⟨hfdc, hxtc, hatc⟩ := runAgent_keepsIrq a s t h hpower hreset hrestore
  cases k with
  | fdc => exact hfdc hset
  | xtc => exact hxtc hset
  | atc => exact hatc hset

theorem State.fetched_latch (s : State) (i : Instr) (sp : Space) (left : List Byte) (rest : List Event) (k : Ctl) :
    (s.fetched i sp left rest).latch k = s.latch k := by
  cases k <;> rfl

theorem State.taken_latch (s : State) (rest : List Event) (k : Ctl) : (s.taken rest).latch k = s.latch k := by
  cases k <;> rfl

/-- R392, of any one controller: a step that clears its latch runs an instruction listed for it. -/
theorem step_clearsLatch {s t : State} {k : Ctl} (hstep : step s = .next t)
    (hother : ∀ rest, s.input ≠ .agent .powerUp :: rest ∧ s.input ≠ .agent .mreset :: rest ∧
      ∀ v, s.input ≠ .agent (.restore v) :: rest)
    (hset : s.latch k = true) (hclear : t.latch k = false) :
    ∃ sp bs left rest i, s.input = .host sp bs :: rest ∧ decode sp bs = .ok (i, left) ∧ Instr.ClearsLatch i k := by
  have hkept : t.latch k ≠ true := by simp [hclear]
  rcases step_cases s t hstep with ⟨-, rfl⟩ | ⟨sp, bs, rest, i, left, hin, hdecode, hexec⟩ | ⟨a, rest, hin, hrun⟩
  · exact absurd hset hkept
  · refine ⟨sp, bs, left, rest, i, hin, hdecode, ?_⟩
    by_contra hi
    exact hkept (exec_keepsLatch hexec hi ((s.fetched_latch i sp left rest k).trans hset))
  · obtain ⟨hpower, hreset, hrestore⟩ := hother rest
    exact absurd (runAgent_keepsLatch hrun (fun ha => hpower (ha ▸ hin)) (fun ha => hreset (ha ▸ hin))
      (fun v ha => hrestore v (ha ▸ hin)) ((s.taken_latch rest k).trans hset)) hkept

/-- Settles O57, controller by controller. -/
theorem onlyTheListedStepsClearAnInterrupt : Obligations.OnlyTheListedStepsClearAnInterrupt := fun _ _ hstep hother =>
  ⟨step_clearsLatch (k := .fdc) hstep hother, step_clearsLatch (k := .xtc) hstep hother,
    step_clearsLatch (k := .atc) hstep hother⟩

/-! ### The bytes of the error classes (R383 to R385) -/

/-- R384: the error bit of the completion byte is set for every class but `None`. -/
theorem xtcCompletion_eq (e : Err) (u : BitVec 1) :
    xtcCompletion e u = (if e ≠ .none then 0x02#8 else 0x00#8) + (u.setWidth 8 <<< 5) := by
  rw [xtcCompletion, ite_not]

/-- Settles O21: the tables are those of the model, row by row. -/
theorem statusBytesOfTheErrorClasses : Obligations.StatusBytesOfTheErrorClasses := by
  refine ⟨fun u hd seekEnd => ?_, ?_, ?_, ?_⟩
  · exact ⟨rfl, rfl, rfl, rfl, rfl, rfl, rfl⟩
  · exact ⟨rfl, rfl, rfl, rfl, rfl, rfl, rfl, xtcCompletion_eq⟩
  · exact ⟨rfl, rfl, rfl, rfl, rfl, rfl, rfl⟩
  · exact ⟨rfl, rfl, rfl, rfl, rfl, rfl, rfl⟩

/-! ### The notification hook (R410 to R412) -/

/-- R411: a fixed-disk number whose unit is past the Drives. -/
theorem absentFixedDisk_iff (c : Cfg) (l : Byte) :
    (0x80 ≤ l.toNat ∧ c.hdcDrives ≤ l.toNat - 0x80) ↔ 0x80 + c.hdcDrives ≤ l.toNat := by
  omega

/-- R411: the hook only ever sets `allowInitFail`. -/
theorem State.hackInitFail_eq (s : State) (a l : Byte) : s.hackInitFail a l = { s with
    xtc := { s.xtc with allowInitFail := s.xtc.allowInitFail || (s.cfg.hackInitFail &&
      decide (s.cfg.hdcVariant = .xtc ∧ a = 0x00#8 ∧ 0x80 + s.cfg.hdcDrives ≤ l.toNat)) } } := by
  unfold State.hackInitFail
  simp only [absentFixedDisk_iff]
  split
  next harms =>
    obtain ⟨henabled, hcall⟩ := harms
    simp [henabled, hcall]
  next hidle =>
    have hfalse : (s.cfg.hackInitFail &&
        decide (s.cfg.hdcVariant = .xtc ∧ a = 0x00#8 ∧ 0x80 + s.cfg.hdcDrives ≤ l.toNat)) = false := by
      simpa using hidle
    rw [hfalse, Bool.or_false]

/-- R412, R390: when the chained INT 0x40 is skipped. -/
theorem State.hackSkipReset_iff (s : State) (a : Byte) : s.hackSkipReset a = true ↔
    s.cfg.hackSuppressResetIrq = true ∧ s.cfg.hdcVariant ≠ .none ∧ a = 0x00#8 ∧ s.cfg.fdcIrq ∈ s.masked := by
  simp [State.hackSkipReset, and_assoc]

theorem notify_int13 (a l : Byte) (s : State) :
    notify 0x13#8 a l s = .next ((s.hackInitFail a l).reply .go) :=
  if_pos rfl

theorem notify_int40 (a l : Byte) (s : State) :
    notify 0x40#8 a l s = .next (s.reply (if s.hackSkipReset a then .skip else .go)) :=
  (if_neg (by decide)).trans (if_pos rfl)

/-- R390: the chipset's mask with one more line. -/
theorem maskLine_spec (n : Nat) (s : State) :
    ∃ m, maskLine n s = .next { s with masked := m } ∧ ∀ k, k ∈ m ↔ k = n ∨ k ∈ s.masked := by
  unfold maskLine
  by_cases hn : n ∈ s.masked
  · rw [if_pos (List.contains_iff_mem.mpr hn)]
    exact ⟨s.masked, rfl, fun k => ⟨.inr, fun hk => hk.elim (fun hkn => hkn ▸ hn) id⟩⟩
  · rw [if_neg (mt List.contains_iff_mem.mp hn)]
    exact ⟨n :: s.masked, rfl, fun k => List.mem_cons⟩

/-- R390: the chipset's mask without a line. -/
theorem unmaskLine_spec (n : Nat) (s : State) :
    ∃ m, unmaskLine n s = .next { s with masked := m } ∧ ∀ k, k ∈ m ↔ k ≠ n ∧ k ∈ s.masked :=
  ⟨s.masked.filter (· != n), rfl, fun k => by rw [List.mem_filter, bne_iff_ne, and_comm]⟩

/-- Settles O51, by the agent's step. -/
theorem notificationHook : Obligations.NotificationHook := by
  refine fun s a l n => ⟨?_, ?_, maskLine_spec n s, unmaskLine_spec n s⟩
  · refine (notify_int13 a l s).trans ?_
    rw [State.hackInitFail_eq]
    rfl
  · refine (notify_int40 a l s).trans ?_
    simp only [State.hackSkipReset_iff]
    rfl

end Sys2Proof.Machine

/-! PROOFS of the statements of spec/70_reset_and_hazards.md: power-up, save and restore, media change, construction.

Power-up has one equation (`State.powerUp_eq`): it gives the values from any state and, with the geometries that
construction checks, that power-up leaves a constructed machine as it is. -/

namespace Sys2Proof.Machine

/-! ### Power-up (R430, R434) -/

theorem powerUp_floppy_eq_mapIdx (s : State) :
    s.powerUp.floppy = s.floppy.mapIdx fun u d => s.powerUpDrive (.floppy u) d :=
  (List.mapIdx_eq_iff.mpr (powerUp_floppy s)).symm

theorem powerUp_fixed_eq_mapIdx (s : State) :
    s.powerUp.fixed = s.fixed.mapIdx fun u d => s.powerUpDrive (.fixed u) d :=
  (List.mapIdx_eq_iff.mpr (powerUp_fixed s)).symm

/-- R430: power-up, every field of the state. -/
theorem State.powerUp_eq (s : State) : s.powerUp = { s with
    fdc := Fdc.initial s.cfg
    xtc := if s.cfg.hdcVariant = .xtc then Xtc.initial s.cfg else s.xtc
    atc := if s.cfg.hdcVariant = .atc then { Atc.initial s.cfg with fifo := s.atc.fifo } else s.atc
    dma := { s.dma with fdc := none, xtc := if s.cfg.hdcVariant = .xtc then none else s.dma.xtc }
    floppy := s.floppy.mapIdx fun u d => s.powerUpDrive (.floppy u) d
    fixed := s.fixed.mapIdx fun u d => s.powerUpDrive (.fixed u) d } := by
  rw [← powerUp_floppy_eq_mapIdx, ← powerUp_fixed_eq_mapIdx]
  unfold State.powerUp State.hdcPowerUp
  have hcfg : s.fdcControllerReset.cfg = s.cfg := rfl
  dsimp only
  rw [hcfg]
  cases s.cfg.hdcVariant <;> rfl

/-- R352: fixed drives count their sectors from 0 under the XTC only. -/
theorem fixedBias_eq (v : HdcVariant) : fixedBias v = if v = .xtc then 0 else 1 := by
  cases v <;> rfl

/-- Settles O48: both steps are `State.powerUp`, whose equation gives every field. -/
theorem powerUpValues : Obligations.PowerUpValues := by
  intro s a ha
  have hrun : runAgent a s = .next s.powerUp := by rcases ha with rfl | rfl <;> rfl
  refine ⟨s.powerUp, hrun, (powerUp_fdc s).1, (powerUp_hdc s).1, fun hv => ?_, fun hv => ?_, fun hv => ?_,
    (powerUp_fdc s).2, fun u => ?_, fun u => ?_, ?_⟩
  · rw [s.powerUp_eq]
    exact if_pos hv
  · rw [s.powerUp_eq]
    exact ⟨if_neg hv, if_neg hv⟩
  · rw [s.powerUp_eq]
    exact if_neg hv
  · rw [powerUp_floppy]
    refine congrArg (Option.map · _) (funext fun d => ?_)
    unfold State.powerUpDrive State.configuredGeometry floppyStartGeometry
    cases d.disk.bind (s.store.images[·]?) <;> rfl
  · rw [powerUp_fixed]
    refine congrArg (Option.map · _) (funext fun d => ?_)
    rw [State.powerUpDrive, State.bias, fixedBias_eq]
    rfl
  · rw [s.powerUp_eq]
    exact ⟨rfl, rfl, rfl, rfl, rfl, rfl, rfl, rfl, rfl⟩

/-! ### Save and restore (R445) -/

/-- R445: a Drive whose mounted image is the copy's becomes the copy's. -/
theorem State.restoreDrive_sameImage (s : State) (r : DriveRef) {d e : Drive} (h : d.disk = e.disk) :
    s.restoreDrive r d (some e) = e :=
  if_pos h.symm

/-- R445: a Drive with another image is left in its power-up state. -/
theorem State.restoreDrive_otherImage (s : State) (r : DriveRef) {d e : Drive} (h : d.disk ≠ e.disk) :
    s.restoreDrive r d (some e) = s.powerUpDrive r d :=
  if_neg (Ne.symm h)

/-- R445: a copy whose Drives name the images mounted now puts every Drive back. -/
theorem mapIdx_restoreDrive_sameMedia (s : State) (unit : Nat → DriveRef) {now copy : List Drive}
    (hmedia : now.map Drive.disk = copy.map Drive.disk) :
    now.mapIdx (fun u d => s.restoreDrive (unit u) d copy[u]?) = copy := by
  refine List.mapIdx_eq_iff.mpr fun u => ?_
  have hu : (now[u]?).map Drive.disk = (copy[u]?).map Drive.disk := by
    rw [← List.getElem?_map, ← List.getElem?_map, hmedia]
  cases hnow : now[u]? with
  | none => simpa [hnow] using hu
  | some d =>
    cases hcopy : copy[u]? with
    | none => simp [hnow, hcopy] at hu
    | some e =>
      have hdisk : d.disk = e.disk := by simpa [hnow, hcopy] using hu
      exact congrArg some (s.restoreDrive_sameImage (unit u) hdisk).symm

/-- R445: one Drive after a `RESTORE`, by its entry in the copy; `fresh` are the Drives after power-up. -/
theorem getElem?_mapIdx_restoreDrive (s : State) (unit : Nat → DriveRef) {now copy fresh : List Drive} {u : Nat}
    {d : Drive} (hd : now[u]? = some d) (hfresh : fresh[u]? = (now[u]?).map (s.powerUpDrive (unit u))) :
    (∀ e, copy[u]? = some e →
      (d.disk = e.disk → (now.mapIdx fun u d => s.restoreDrive (unit u) d copy[u]?)[u]? = some e) ∧
      (d.disk ≠ e.disk → (now.mapIdx fun u d => s.restoreDrive (unit u) d copy[u]?)[u]? = fresh[u]?)) ∧
    (copy[u]? = none → (now.mapIdx fun u d => s.restoreDrive (unit u) d copy[u]?)[u]? = fresh[u]?) := by
  rw [hfresh, List.getElem?_mapIdx, hd]
  refine ⟨fun e he => ?_, fun hmissing => ?_⟩
  · rw [he]
    exact ⟨fun hsame => congrArg some (s.restoreDrive_sameImage _ hsame),
      fun hother => congrArg some (s.restoreDrive_otherImage _ hother)⟩
  · rw [hmissing]
    rfl

/-- Settles O49, Drive by Drive. -/
theorem saveRestoreRoundTrip : Obligations.SaveRestoreRoundTrip := by
  refine fun s t => ⟨⟨s.toSaved, rfl, fun hfloppy hfixed => ?_⟩, fun v => ?_⟩
  · have hfloppies := mapIdx_restoreDrive_sameMedia t .floppy hfloppy
    have hfixeds := mapIdx_restoreDrive_sameMedia t .fixed hfixed
    refine congrArg Host.Outcome.next ?_
    unfold State.restoreFrom State.toSaved
    dsimp only
    rw [hfloppies, hfixeds]
  · exact ⟨_, _, t.powerUp, rfl, rfl, List.length_mapIdx, List.length_mapIdx,
      fun u d hd => getElem?_mapIdx_restoreDrive t .floppy hd (powerUp_floppy t u),
      fun u d hd => getElem?_mapIdx_restoreDrive t .fixed hd (powerUp_fixed t u)⟩

/-! ### Media change (R446) -/

/-- U9: a session of the FDC uses unit `u`. -/
theorem State.unitBusy_iff (s : State) (u : Nat) :
    s.unitBusy u = true ↔ ∃ ss, s.dma.fdc = some ss ∧ ss.drive = some u := by
  unfold State.unitBusy
  cases s.dma.fdc <;> simp

theorem State.unitBusy_eq_false (s : State) {u : Nat} (h : ∀ ss, s.dma.fdc = some ss → ss.drive ≠ some u) :
    s.unitBusy u = false := by
  rw [Bool.eq_false_iff, Ne, State.unitBusy_iff]
  rintro ⟨ss, hopen, huses⟩
  exact h ss hopen huses

theorem State.attached_eq_false (s : State) {img : Nat} (h : img ∉ s.attachedImages) : s.attached img = false :=
  Bool.eq_false_iff.mpr (mt (s.attached_iff img).mp h)

/-- R446: a mount in a unit that exists, of an image that is there. -/
theorem mount_floppy {s : State} {u img : Nat} {d : Drive} {g : Geometry} (hd : s.floppy[u]? = some d)
    (hg : s.store.imageGeometry img = some g) : mount (.floppy u) img s =
      if d.disk = none ∧ s.attached img = false ∧ s.unitBusy u = false then
        .next { s with floppy := s.floppy.set u { d with disk := some img, geo := g, diskChanged := true } }
      else .refused .stepNotEnabled := by
  simp only [mount, State.drive?_floppy, hd, hg, State.modifyDrive_floppy s u _ d hd]

/-- R446: a mount in a unit that does not exist, or of an image that is not there. -/
theorem mount_floppy_absent {s : State} {u img : Nat} (h : s.floppy[u]? = none ∨ s.store.imageGeometry img = none) :
    mount (.floppy u) img s = .refused .stepNotEnabled := by
  unfold mount
  rcases h with hunit | himage
  · simp only [State.drive?_floppy, hunit]
  · simp only [himage]
    cases s.drive? (.floppy u) <;> rfl

/-- R446: an unmount of a unit that exists. -/
theorem unmount_floppy {s : State} {u : Nat} {d : Drive} (hd : s.floppy[u]? = some d) : unmount (.floppy u) s =
      if d.disk ≠ none ∧ s.unitBusy u = false then
        .next { s with floppy := s.floppy.set u { d with disk := none, diskChanged := true } }
      else .refused .stepNotEnabled := by
  simp only [unmount, State.drive?_floppy, hd, State.modifyDrive_floppy s u _ d hd]

/-- R446: an unmount of a unit that does not exist. -/
theorem unmount_floppy_absent {s : State} {u : Nat} (h : s.floppy[u]? = none) :
    unmount (.floppy u) s = .refused .stepNotEnabled := by
  simp only [unmount, State.drive?_floppy, h]

/-- Settles O50, by the conditions under which the two steps are enabled. -/
theorem mountAndUnmount : Obligations.MountAndUnmount := by
  refine fun s u img => ⟨fun d g hd hg => ⟨fun hempty hfree hunused => ?_, fun hnot => ?_⟩, mount_floppy_absent,
    fun d hd => ⟨fun hmounted hunused => ?_, fun hnot => ?_⟩, unmount_floppy_absent, rfl, rfl⟩
  · exact (mount_floppy hd hg).trans (if_pos ⟨hempty, s.attached_eq_false hfree, s.unitBusy_eq_false hunused⟩)
  · refine (mount_floppy hd hg).trans (if_neg ?_)
    rintro ⟨hempty, hfree, hunused⟩
    rcases hnot with hmounted | hattached | hbusy
    · exact hmounted hempty
    · exact absurd ((s.attached_iff img).mpr hattached) (Bool.eq_false_iff.mp hfree)
    · exact absurd ((s.unitBusy_iff u).mpr hbusy) (Bool.eq_false_iff.mp hunused)
  · exact (unmount_floppy hd).trans (if_pos ⟨hmounted, s.unitBusy_eq_false hunused⟩)
  · refine (unmount_floppy hd).trans (if_neg ?_)
    rintro ⟨hmounted, hunused⟩
    rcases hnot with hempty | hbusy
    · exact hmounted hempty
    · exact absurd ((s.unitBusy_iff u).mpr hbusy) (Bool.eq_false_iff.mp hunused)

/-! ### Construction: which descriptors are well-formed (R440) -/

/-- R7, R351: a configuration in its ranges. -/
theorem Cfg.wf_iff (c : Cfg) : c.wf = true ↔
    c.fdcDrives ≤ 4 ∧ c.hdcDrives ≤ 2 ∧ 9 ≤ c.fifoCapFdc ∧ 14 ≤ c.fifoCapXtc ∧
      c.fdcDrives ≤ c.floppyGeometry.length ∧ (∀ g ∈ c.floppyGeometry, g.positive = true) ∧
      ∀ row ∈ c.driveTypeTable, row.2.positive = true := by
  simp only [Cfg.wf, Bool.and_eq_true, decide_eq_true_eq, List.all_eq_true, and_assoc]

/-- R440: a unit's geometry is `Cfg.floppyGeometry[u]`, and so is the one it starts with. -/
theorem unitGeometry_eq_some_iff {c : Cfg} {images : List Image} {u : Nat} {disk : Option Nat} {g : Geometry} :
    unitGeometry c images u disk = some g ↔
      c.floppyGeometry[u]? = some g ∧ floppyStartGeometry c images disk u = some g := by
  unfold unitGeometry
  split
  next hstart => rw [hstart, and_self]
  next hother =>
    refine ⟨nofun, ?_⟩
    rintro ⟨hunit, hstart⟩
    exact absurd (hstart.trans hunit.symm) hother

/-- R440: a unit with an image starts with that image's geometry. -/
theorem floppyStartGeometry_mounted {c : Cfg} {images : List Image} {u : Nat} {disk : Option Nat} {g : Image}
    (h : disk.bind (images[·]?) = some g) : floppyStartGeometry c images disk u = some g.geo := by
  unfold floppyStartGeometry
  rw [h]

/-- R440: a unit without one starts with `Cfg.floppyGeometry[u]`. -/
theorem floppyStartGeometry_unmounted {c : Cfg} {images : List Image} {u : Nat} {disk : Option Nat}
    (h : disk.bind (images[·]?) = none) : floppyStartGeometry c images disk u = c.floppyGeometry[u]? := by
  unfold floppyStartGeometry
  rw [h]

/-- R440: a unit in the range of `Cfg.floppyGeometry` has a geometry unless its image has another one. -/
theorem unitGeometry_ne_none_iff {c : Cfg} {images : List Image} {u : Nat} {disk : Option Nat}
    (hu : u < c.floppyGeometry.length) : unitGeometry c images u disk ≠ none ↔
      ∀ img g, disk = some img → images[img]? = some g → c.floppyGeometry[u]? = some g.geo := by
  simp only [Option.ne_none_iff_exists', unitGeometry_eq_some_iff]
  constructor
  · rintro ⟨geo, hunit, hstart⟩ img g rfl hg
    have hsame : some g.geo = some geo := (floppyStartGeometry_mounted (disk := some img) hg).symm.trans hstart
    exact hunit.trans hsame.symm
  · intro hgeometry
    cases himage : disk.bind (images[·]?) with
    | none =>
      have hunit := List.getElem?_eq_getElem hu
      exact ⟨_, hunit, (floppyStartGeometry_unmounted himage).trans hunit⟩
    | some g =>
      obtain ⟨img, hdisk, hg⟩ := Option.bind_eq_some_iff.mp himage
      exact ⟨g.geo, hgeometry img g hdisk hg, floppyStartGeometry_mounted himage⟩

/-- R440: the floppy Drives can be constructed when every configured image has its unit's geometry. -/
theorem exists_floppyDrives_iff {c : Cfg} {floppyImages : List (Option Nat)} (images : List Image)
    (hunits : floppyImages.length ≤ c.floppyGeometry.length) :
    (∃ fs, floppyDrives c images 0 floppyImages = some fs) ↔
      ∀ (u img : Nat) (g : Image), floppyImages[u]? = some (some img) → images[img]? = some g →
        c.floppyGeometry[u]? = some g.geo := by
  have hrange : ∀ {u disk}, floppyImages[u]? = some disk → u < c.floppyGeometry.length := fun hu =>
    (List.getElem?_eq_some_iff.mp hu).1.trans_le hunits
  rw [← Option.ne_none_iff_exists', Ne, floppyDrives_none]
  simp only [Nat.zero_add]
  constructor
  · intro hall u img g hu hg
    have hunit : unitGeometry c images u (some img) ≠ none := fun hnone => hall ⟨u, _, hu, hnone⟩
    exact (unitGeometry_ne_none_iff (hrange hu)).mp hunit img g rfl hg
  · rintro hgeometry ⟨u, disk, hu, hnone⟩
    refine (unitGeometry_ne_none_iff (hrange hu)).mpr ?_ hnone
    rintro img g rfl hg
    exact hgeometry u img g hu hg

/-- R440 (2): the fixed Drives can be constructed when every drive has a table row. -/
theorem exists_fixedDrives_iff (c : Cfg) (fixedImages : List Nat) :
    (∃ ds, fixedDrives c 0 fixedImages = some ds) ↔ ∀ u, u < fixedImages.length → c.tableGeometry u ≠ none := by
  rw [← Option.ne_none_iff_exists', Ne, fixedDrives_none]
  simp

/-- R440: when a construction gives a machine. -/
theorem exists_construct_iff (c : Cfg) (images : List Image) (floppyImages : List (Option Nat))
    (fixedImages : List Nat) (peer : Bool) :
    (∃ s, construct c images floppyImages fixedImages peer = some s) ↔
      peer = true ∧ descriptorsOk c images floppyImages fixedImages = true ∧
      (∃ fs, floppyDrives c images 0 floppyImages = some fs) ∧ ∃ ds, fixedDrives c 0 fixedImages = some ds := by
  simp only [construct_spec]
  constructor
  · rintro ⟨s, hpeer, hok, fs, ds, hfs, hds, -⟩
    exact ⟨hpeer, hok, ⟨fs, hfs⟩, ds, hds⟩
  · rintro ⟨hpeer, hok, ⟨fs, hfs⟩, ds, hds⟩
    exact ⟨_, hpeer, hok, fs, ds, hfs, hds, rfl⟩

/-! ### Construction: the machine it gives (R78, R440) -/

/-- A map by position that fixes every element changes nothing. -/
theorem mapIdx_eq_self {α : Type} {l : List α} {f : Nat → α → α} (h : ∀ u d, l[u]? = some d → f u d = d) :
    l.mapIdx f = l := by
  refine List.mapIdx_eq_iff.mpr fun u => ?_
  cases hd : l[u]? with
  | none => rfl
  | some d => exact congrArg some (h u d hd).symm

section Constructed

variable (c : Cfg) (images : List Image) (floppies : List (Geometry × Option Nat)) (disks : List (Geometry × Nat))

theorem initial_floppyImages :
    (State.initial c images floppies disks).floppy.map Drive.disk = floppies.map Prod.snd :=
  List.map_map

theorem initial_fixedImages :
    (State.initial c images floppies disks).fixed.map Drive.disk = (disks.map Prod.snd).map some :=
  List.map_map.trans (List.map_map (f := Prod.snd) (g := some)).symm

theorem initial_attachedImages : (State.initial c images floppies disks).attachedImages =
    configuredImages (floppies.map Prod.snd) (disks.map Prod.snd) := by
  simp [State.attachedImages, configuredImages, State.initial, List.filterMap_map, Drive.fresh]

variable {c images floppies disks}

theorem initial_floppyDrive {u : Nat} {d : Drive} (hd : (State.initial c images floppies disks).floppy[u]? = some d) :
    floppies[u]? = some (d.geo, d.disk) ∧ d = Drive.fresh 1 d.geo d.disk := by
  obtain ⟨f, hf, rfl⟩ := Option.map_eq_some_iff.mp (List.getElem?_map.symm.trans hd)
  exact ⟨hf, rfl⟩

theorem initial_fixedDrive {u : Nat} {d : Drive} (hd : (State.initial c images floppies disks).fixed[u]? = some d) :
    ∃ img, disks[u]? = some (d.geo, img) ∧ d = Drive.fresh (fixedBias c.hdcVariant) d.geo d.disk := by
  obtain ⟨f, hf, rfl⟩ := Option.map_eq_some_iff.mp (List.getElem?_map.symm.trans hd)
  exact ⟨_, hf, rfl⟩

/-- R430, R440: power-up leaves a constructed machine as it is when its Drives have the configured geometries. -/
theorem initial_powerUp
    (hfloppies : ∀ u g disk, floppies[u]? = some (g, disk) → floppyStartGeometry c images disk u = some g)
    (hdisks : ∀ u g img, disks[u]? = some (g, img) → c.tableGeometry u = some g) :
    (State.initial c images floppies disks).powerUp = State.initial c images floppies disks := by
  rw [State.powerUp_eq, mapIdx_eq_self, mapIdx_eq_self]
  · show ({ State.initial c images floppies disks with
      xtc := if c.hdcVariant = .xtc then Xtc.initial c else Xtc.initial c
      atc := if c.hdcVariant = .atc then Atc.initial c else Atc.initial c
      dma := ⟨none, if c.hdcVariant = .xtc then none else none, true, true⟩ } : State) = _
    simp only [ite_self]
    rfl
  · intro u d hd
    obtain ⟨img, hu, hfresh⟩ := initial_fixedDrive hd
    have hgeo : (State.initial c images floppies disks).configuredGeometry (.fixed u) d = d.geo := by
      show (c.tableGeometry u).getD d.geo = d.geo
      rw [hdisks u _ _ hu]
      rfl
    rw [State.powerUpDrive, hgeo]
    exact hfresh.symm
  · intro u d hd
    obtain ⟨hu, hfresh⟩ := initial_floppyDrive hd
    have hgeo : (State.initial c images floppies disks).configuredGeometry (.floppy u) d = d.geo := by
      show (floppyStartGeometry c images d.disk u).getD d.geo = d.geo
      rw [hfloppies u _ _ hu]
      rfl
    rw [State.powerUpDrive, hgeo]
    exact hfresh.symm

end Constructed

/-- R351: a drive-type row that is found is one of the table. -/
theorem Cfg.tableGeometry_mem {c : Cfg} {u : Nat} {g : Geometry} (h : c.tableGeometry u = some g) :
    ∃ row ∈ c.driveTypeTable, row.2 = g := by
  unfold Cfg.tableGeometry at h
  split at h
  next t _ =>
    obtain ⟨before, after, hsplit, -⟩ := List.lookup_eq_some_iff.mp h
    exact ⟨(t, g), by rw [hsplit]; simp, rfl⟩
  next => cases h

/-- Settles O60: a machine exactly when every check passes, and what the checks say of that machine. -/
theorem constructionChecksDescriptors : Obligations.ConstructionChecksDescriptors := by
  intro c images floppyImages fixedImages peer
  dsimp only
  simp only [← Geometry.positive_iff]
  refine ⟨?_, fun s hs => ?_⟩
  · rw [exists_construct_iff, exists_fixedDrives_iff, descriptorsOk_iff, Cfg.wf_iff]
    constructor
    · rintro ⟨hpeer, ⟨⟨hfdc, hhdc, hcapFdc, hcapXtc, hunits, hgeos, htable⟩, hfloppies, hfixeds, himages, hthere, honce⟩,
        hmade, hrows⟩
      exact ⟨hpeer, hfdc, hhdc, hcapFdc, hcapXtc, hunits, hfloppies, hfixeds, hgeos, htable, himages, hthere, honce,
        hfixeds ▸ hrows, (exists_floppyDrives_iff images (hfloppies.trans_le hunits)).mp hmade⟩
    · rintro ⟨hpeer, hfdc, hhdc, hcapFdc, hcapXtc, hunits, hfloppies, hfixeds, hgeos, htable, himages, hthere, honce,
        hrows, hgeometry⟩
      exact ⟨hpeer, ⟨⟨hfdc, hhdc, hcapFdc, hcapXtc, hunits, hgeos, htable⟩, hfloppies, hfixeds, himages, hthere, honce⟩,
        (exists_floppyDrives_iff images (hfloppies.trans_le hunits)).mpr hgeometry, hfixeds ▸ hrows⟩
  · obtain ⟨-, hok, fs, ds, hfs, hds, rfl⟩ := (construct_spec c images floppyImages fixedImages peer s).mp hs
    obtain ⟨hwf, hfloppies, hfixeds, -, -, honce⟩ := (descriptorsOk_iff c images floppyImages fixedImages).mp hok
    obtain ⟨-, -, -, -, -, hgeos, htable⟩ := (Cfg.wf_iff c).mp hwf
    obtain ⟨rfl, hunit⟩ := floppyDrives_some c images floppyImages 0 fs hfs
    obtain ⟨rfl, hrow⟩ := fixedDrives_some c fixedImages 0 ds hds
    simp only [Nat.zero_add, unitGeometry_eq_some_iff] at hunit hrow
    refine ⟨rfl, rfl, initial_floppyImages .., initial_fixedImages .., ?_, fun u d hd => ?_, fun u d hd => ?_, rfl,
      initial_sequenced c images fs ds hwf (by simpa using hfloppies) (by simpa using hfixeds), ?_⟩
    · rw [initial_attachedImages]
      exact honce
    · obtain ⟨hgeo, -⟩ := hunit u _ _ (initial_floppyDrive hd).1
      exact ⟨hgeo, hgeos _ (List.mem_of_getElem? hgeo)⟩
    · obtain ⟨img, hu, -⟩ := initial_fixedDrive hd
      obtain ⟨row, hmem, hgeo⟩ := Cfg.tableGeometry_mem (hrow u _ _ hu)
      exact ⟨hrow u _ _ hu, hgeo ▸ htable row hmem⟩
    · exact congrArg Host.Outcome.next (initial_powerUp (fun u g disk hu => (hunit u g disk hu).2) hrow)

end Sys2Proof.Machine
